-- ==== Sys2Proof/Word.lean ====
section
/-! DEFINITION. The two widths the spec works in: a byte (stream data, symbols, contexts) and a 32-bit word
(host registers, addresses, command words), 00_scope.md R8. -/

namespace Sys2Proof

/-- A byte: a symbol, a context, one cell of system memory (R8, R80). -/
abbrev Byte := BitVec 8

/-- A 32-bit word: a host register, an address, a command word (R8 `REG_W`, `ADDR_W`, `LEN_W`, `COUNT_W`). -/
abbrev Word := BitVec 32

end Sys2Proof
end

