-- ==== Sys2Proof/Syntax.lean ====
section
/-! DEFINITION. The 25 commands of the opcode table (30_encoding.md R114, spec/opcode_table.json), one constructor a row. -/

namespace Sys2Proof

/-- A command. Operand names are those of R114: `A` and `B` are bytes, `K` a 4-bit index (R112). -/
inductive Instr where
  /-- NOP (R382). -/
  | nop
  /-- SOFT_RESET (R383). -/
  | softReset
  /-- CLEAR_COUNTS (R213). -/
  | clearCounts
  /-- COUNT (R214). -/
  | count
  /-- BUILD.P (R215). -/
  | buildP
  /-- BUILD.M (R216). -/
  | buildM
  /-- CLEAR_TABLE (R263). -/
  | clearTable
  /-- SERIALIZE (R300). -/
  | serialize
  /-- DESERIALIZE (R304). -/
  | deserialize
  /-- COMPRESS (R331). -/
  | compress
  /-- DECOMPRESS (R341). -/
  | decompress
  /-- GET_ENCODING prev, sym (R260): `A` = prev, `B` = sym. -/
  | getEncoding (prev sym : Byte)
  /-- LOOKUP prev, byte (R262): `A` = prev, `B` = byte. -/
  | lookup (prev byte : Byte)
  /-- BB_OPEN_WRITE (R150). -/
  | bbOpenWrite
  /-- BB_OPEN_READ (R151). -/
  | bbOpenRead
  /-- BB_CLOSE (R152). -/
  | bbClose
  /-- BB_FLUSH (R155). -/
  | bbFlush
  /-- BB_PUSH_BIT b (R156): the bit is `A[0]`; `A[7:1]` must be 0. -/
  | bbPushBit (a : Byte)
  /-- BB_PUSH_BYTE v (R157): `A` = v. -/
  | bbPushByte (v : Byte)
  /-- BB_PUSH_DESC (R158). -/
  | bbPushDesc
  /-- BB_PEEK_BIT (R170). -/
  | bbPeekBit
  /-- BB_POP_BIT (R171). -/
  | bbPopBit
  /-- BB_TRY_POP_BIT (R172). -/
  | bbTryPopBit
  /-- BB_POP_BYTE (R173). -/
  | bbPopByte
  /-- BB_POP_REST partial, k (R175): `A` = partial, `K` = k; values 8 to 15 of k are legal words (R113). -/
  | bbPopRest (part : Byte) (k : BitVec 4)
deriving DecidableEq, Repr

/-- The mnemonic, as spec/opcode_table.json and R114 spell it. -/
def Instr.mnemonic : Instr → String
  | .nop => "NOP"
  | .softReset => "SOFT_RESET"
  | .clearCounts => "CLEAR_COUNTS"
  | .count => "COUNT"
  | .buildP => "BUILD.P"
  | .buildM => "BUILD.M"
  | .clearTable => "CLEAR_TABLE"
  | .serialize => "SERIALIZE"
  | .deserialize => "DESERIALIZE"
  | .compress => "COMPRESS"
  | .decompress => "DECOMPRESS"
  | .getEncoding _ _ => "GET_ENCODING"
  | .lookup _ _ => "LOOKUP"
  | .bbOpenWrite => "BB_OPEN_WRITE"
  | .bbOpenRead => "BB_OPEN_READ"
  | .bbClose => "BB_CLOSE"
  | .bbFlush => "BB_FLUSH"
  | .bbPushBit _ => "BB_PUSH_BIT"
  | .bbPushByte _ => "BB_PUSH_BYTE"
  | .bbPushDesc => "BB_PUSH_DESC"
  | .bbPeekBit => "BB_PEEK_BIT"
  | .bbPopBit => "BB_POP_BIT"
  | .bbTryPopBit => "BB_TRY_POP_BIT"
  | .bbPopByte => "BB_POP_BYTE"
  | .bbPopRest _ _ => "BB_POP_REST"

/-- The operands in the order of the assembler syntax (R119): `A`, then `B`; for BB_POP_REST partial, then k. -/
def Instr.operands : Instr → List Nat
  | .getEncoding prev sym => [prev.toNat, sym.toNat]
  | .lookup prev byte => [prev.toNat, byte.toNat]
  | .bbPushBit a => [a.toNat]
  | .bbPushByte v => [v.toNat]
  | .bbPopRest part k => [part.toNat, k.toNat]
  | _ => []

/-- The assembler text of a command (R119): the mnemonic, then its operands in decimal, separated by commas. -/
def Instr.assembly (i : Instr) : String :=
  match i.operands with
  | [] => i.mnemonic
  | ops => i.mnemonic ++ " " ++ ", ".intercalate (ops.map toString)

end Sys2Proof
end

