-- ==== Sys2Proof/WellFormed.lean ====
section
/-! DEFINITION. Which terms of `Instr` the command word can spell. The operands' types carry every bound of R111 but one:
the `A` field of BB_PUSH_BIT is a byte whose bits 7:1 must be 0 (30_encoding.md R114, R116). -/

namespace Sys2Proof

/-- The instruction is one the command word can spell: `A[7:1] = 0` for BB_PUSH_BIT (R114). -/
def Instr.wellFormed : Instr → Bool
  | .bbPushBit a => a.toNat < 2
  | _ => true

/-- `i` is well formed. -/
abbrev WellFormed (i : Instr) : Prop := i.wellFormed = true

end Sys2Proof
end

