-- ==== Sys2Proof/Decode.lean ====
section
/-! DEFINITION. The command word (30_encoding.md R110 to R117): the opcode rows with their mask and match, a decoder that is
total on any word and rejects by name, and the encoder, written from the fields of R111. -/

namespace Sys2Proof

/-! ## Fields (R111) -/

/-- `OPC`, bits 7:0. -/
def fieldOpc (w : Word) : Byte := w.extractLsb' 0 8

/-- `M`, bit 8. -/
def fieldM (w : Word) : BitVec 1 := w.extractLsb' 8 1

/-- `K`, bits 15:12. -/
def fieldK (w : Word) : BitVec 4 := w.extractLsb' 12 4

/-- `A`, bits 23:16. -/
def fieldA (w : Word) : Byte := w.extractLsb' 16 8

/-- `B`, bits 31:24. -/
def fieldB (w : Word) : Byte := w.extractLsb' 24 8

/-- `word = OPC | (M << 8) | (K << 12) | (A << 16) | (B << 24)` (R111). -/
def assemble (opc : Byte) (m : BitVec 1) (k : BitVec 4) (a b : Byte) : Word :=
  opc.setWidth 32 ||| (m.setWidth 32 <<< 8) ||| (k.setWidth 32 <<< 12) ||| (a.setWidth 32 <<< 16)
    ||| (b.setWidth 32 <<< 24)

/-! ## Rows -/

/-- One row of the opcode table (R116): the mask covers every bit that must hold a fixed value. -/
structure OpRow where
  mask : Word
  pattern : Word
  build : Word → Instr

/-- A row with no operand field. -/
def OpRow.plain (pattern : Word) (i : Instr) : OpRow := ⟨0xFFFFFFFF#32, pattern, fun _ => i⟩

/-- `w` selects the row: `(w & mask) == match` (R115). -/
def OpRow.selects (r : OpRow) (w : Word) : Bool := w &&& r.mask == r.pattern

/-- The opcode rows in the order of R116. -/
def opRows : List OpRow :=
  [ .plain 0x00000000#32 .nop,
    .plain 0x00000001#32 .softReset,
    .plain 0x00000002#32 .clearCounts,
    .plain 0x00000003#32 .count,
    .plain 0x00000004#32 .buildP,
    .plain 0x00000104#32 .buildM,
    .plain 0x00000005#32 .clearTable,
    .plain 0x00000006#32 .serialize,
    .plain 0x00000007#32 .deserialize,
    .plain 0x00000008#32 .compress,
    .plain 0x00000009#32 .decompress,
    ⟨0x0000FFFF#32, 0x00000010#32, fun w => .getEncoding (fieldA w) (fieldB w)⟩,
    ⟨0x0000FFFF#32, 0x00000011#32, fun w => .lookup (fieldA w) (fieldB w)⟩ ] ++
  [ .plain 0x00000020#32 .bbOpenWrite,
    .plain 0x00000021#32 .bbOpenRead,
    .plain 0x00000022#32 .bbClose,
    .plain 0x00000023#32 .bbFlush,
    ⟨0xFFFEFFFF#32, 0x00000024#32, fun w => .bbPushBit (fieldA w)⟩,
    ⟨0xFF00FFFF#32, 0x00000025#32, fun w => .bbPushByte (fieldA w)⟩,
    .plain 0x00000026#32 .bbPushDesc,
    .plain 0x00000028#32 .bbPeekBit,
    .plain 0x00000029#32 .bbPopBit,
    .plain 0x0000002A#32 .bbTryPopBit,
    .plain 0x0000002B#32 .bbPopByte,
    ⟨0xFF000FFF#32, 0x0000002C#32, fun w => .bbPopRest (fieldA w) (fieldK w)⟩ ]

/-- The defined opcodes; every other one is reserved (R114, R117). -/
def definedOpcodes : List Byte := opRows.map fun r => fieldOpc r.pattern

/-- Why a word is rejected (R117). -/
inductive Rejection where
  /-- A reserved opcode: 0x0A..0x0F, 0x12..0x1F, 0x27, 0x2D..0xFF. -/
  | reservedOpcode
  /-- A defined opcode with a nonzero bit in a field that it requires to be 0. -/
  | nonzeroField
deriving DecidableEq, Repr

/-- What the decoder answers. -/
inductive Decoded where
  | instr (i : Instr)
  | rejected (why : Rejection)
deriving DecidableEq, Repr

/-- Decode a command word: the row that `w` selects, or a rejection by name (R115, R117). -/
def decode (w : Word) : Decoded :=
  match opRows.find? (·.selects w) with
  | some r => .instr (r.build w)
  | none => .rejected (if fieldOpc w ∈ definedOpcodes then .nonzeroField else .reservedOpcode)

/-- The command word of an instruction, from the opcode map of R114 and the fields of R111. -/
def encode : Instr → Word
  | .nop => assemble 0x00#8 0#1 0#4 0#8 0#8
  | .softReset => assemble 0x01#8 0#1 0#4 0#8 0#8
  | .clearCounts => assemble 0x02#8 0#1 0#4 0#8 0#8
  | .count => assemble 0x03#8 0#1 0#4 0#8 0#8
  | .buildP => assemble 0x04#8 0#1 0#4 0#8 0#8
  | .buildM => assemble 0x04#8 1#1 0#4 0#8 0#8
  | .clearTable => assemble 0x05#8 0#1 0#4 0#8 0#8
  | .serialize => assemble 0x06#8 0#1 0#4 0#8 0#8
  | .deserialize => assemble 0x07#8 0#1 0#4 0#8 0#8
  | .compress => assemble 0x08#8 0#1 0#4 0#8 0#8
  | .decompress => assemble 0x09#8 0#1 0#4 0#8 0#8
  | .getEncoding prev sym => assemble 0x10#8 0#1 0#4 prev sym
  | .lookup prev byte => assemble 0x11#8 0#1 0#4 prev byte
  | .bbOpenWrite => assemble 0x20#8 0#1 0#4 0#8 0#8
  | .bbOpenRead => assemble 0x21#8 0#1 0#4 0#8 0#8
  | .bbClose => assemble 0x22#8 0#1 0#4 0#8 0#8
  | .bbFlush => assemble 0x23#8 0#1 0#4 0#8 0#8
  | .bbPushBit a => assemble 0x24#8 0#1 0#4 a 0#8
  | .bbPushByte v => assemble 0x25#8 0#1 0#4 v 0#8
  | .bbPushDesc => assemble 0x26#8 0#1 0#4 0#8 0#8
  | .bbPeekBit => assemble 0x28#8 0#1 0#4 0#8 0#8
  | .bbPopBit => assemble 0x29#8 0#1 0#4 0#8 0#8
  | .bbTryPopBit => assemble 0x2A#8 0#1 0#4 0#8 0#8
  | .bbPopByte => assemble 0x2B#8 0#1 0#4 0#8 0#8
  | .bbPopRest part k => assemble 0x2C#8 0#1 k part 0#8

/-- The instruction the decoder reads from a command word given by its bits, bit 0 the least significant; a command is
one 32-bit word (R110), so bits above `nbits` are 0. -/
def decodeTableWord (nbits w : Nat) : Option Instr :=
  match decode (BitVec.ofNat 32 (w % 2 ^ nbits)) with
  | .instr i => some i
  | .rejected _ => none

end Sys2Proof
end

