-- ==== Sys2Proof/Config.lean ====
section
/-! DEFINITION. What is fixed for the machine: the implementation parameters of 00_scope.md R8 that have a value, the
shape of the parameters the spec leaves OPEN, and the free values. -/

namespace Sys2Proof

namespace Config

/-! Parameters with a value (R8). -/

/-- `SPACE_SEED`, the initial `prev` of COUNT, COMPRESS and DECOMPRESS (R8). -/
def spaceSeed : Byte := 0x20#8

/-- `NODE_CAP`, the most nodes one tree may have (R8, R62). -/
def nodeCap : Nat := 511

/-- The compressed file's signature in the header's top nibble (R8 `HDR_SIG`). -/
def headerSignature : Byte := 0x3#8

/-- The constant value of the `ID` register (R36). -/
def idValue : Word := 0x48434531#32

/-! Free values: constants with no body, so that no proof can see a value. The first argument is the counter
`env.freeCtr`, which every command end and every free host read advances; the second tells apart the values
drawn under one count. Log 3. -/

/-- A free bit. -/
opaque freeBit : Nat → Nat → Bool

/-- A free byte. -/
opaque freeByte : Nat → Nat → Byte

/-- A free 32-bit word. -/
opaque freeWord : Nat → Nat → Word

/-- A free natural number, for a choice among alternatives. -/
opaque freeNat : Nat → Nat → Nat

end Config

/-- What the platform does with the engine's accesses to a window of system memory (R409, R93, R462). Addresses
in no window are ordinary memory. -/
inductive WindowKind where
  /-- Reads are refused. -/
  | noRead
  /-- Writes are refused. -/
  | noWrite
  /-- Reads and writes are refused. -/
  | noAccess
  /-- A region with read or write side effects, outside the spec (R91, R462, I-SIDEEFFECT). -/
  | device
deriving DecidableEq, Repr

/-- A window of system memory that is not ordinary memory: the bytes `base .. base + size - 1`. -/
structure Window where
  base : Nat
  size : Nat
  kind : WindowKind
deriving DecidableEq, Repr

/-- The parameters the spec leaves OPEN (R8): `HCE_BASE` (R92), `BB_CAP` (R9) and `BUS_FAULT` (R409). They are plain
data and constant: no step changes them. Log 5. -/
structure Params where
  /-- `HCE_BASE`: the register block's base address in the host's address space. -/
  hceBase : Word
  /-- `BB_CAP`: the staging capacity of the bit buffer in bytes. -/
  bbCap : Nat
  /-- `BUS_FAULT`: the windows of system memory the platform refuses, and those with side effects. -/
  windows : List Window
deriving DecidableEq, Repr

end Sys2Proof
end

