-- ==== Sys2Proof/Machine/State.lean ====
section
/-! DEFINITION. The state of the engine as 10_state.md gives it: the host registers (R34 to R57), the internal memories (R60 to
R66), the hidden sequencer state (R67), system memory (20_memory.md R80), and, in `env`, the fields that are the
model's own; the reasons a step can stop; and the state after reset (R69). -/

namespace Sys2Proof.Machine

/-- A sparse memory: key and value pairs with strictly rising keys and no value 0; an unlisted key reads as 0. -/
abbrev Sparse (w : Nat) := List (Nat × BitVec w)

/-- System memory (R80): the bytes that are not 0x00, by address. Log 4. -/
abbrev Memory := Sparse 8

/-- The count matrix (R60): the cells that are not 0, `C[ctx][sym]` under the key `256 * ctx + sym`. -/
abbrev CountMatrix := Sparse 32

/-- A code tree (R62). -/
inductive Tree where
  | leaf (sym : Byte)
  | node (left right : Tree)
deriving DecidableEq, Repr

/-- `TABLE_KIND` (R44, R61). -/
inductive TableKind where
  | none
  | plain
  | markov
deriving DecidableEq, Repr

/-- The bit buffer's mode (R43, R66). -/
inductive BbMode where
  | closed
  | write
  | read
deriving DecidableEq, Repr

/-- The error codes of 60_exceptions.md R400, by name. -/
inductive ErrCode where
  /-- 0x00, no error. -/
  | noError
  /-- 0x01: a word that matches no opcode row. -/
  | illegalCmd
  /-- 0x02: a bit-buffer command in the wrong mode, or a composite command with a session open. -/
  | bbMode
  /-- 0x03: a region that wraps past 2^32. -/
  | addrRange
  /-- 0x04: overlapping SRC and DST of COMPRESS or DECOMPRESS. -/
  | overlap
  /-- 0x05: a command that needs a table while there is none. -/
  | noTable
  /-- 0x06: an empty slot queried. -/
  | emptyTable
  /-- 0x07: a symbol with no leaf in a non-empty slot. -/
  | noCodeword
  /-- 0x08: BB_POP_REST with K >= 8. -/
  | badIndex
  /-- 0x09: reading past the end of stream. -/
  | bbEof
  /-- 0x10: DECOMPRESS of a 0-byte file. -/
  | hdrMissing
  /-- 0x11: the header's signature is not 0011. -/
  | hdrSignature
  /-- 0x12: the header's coder type is not the table store's. -/
  | hdrTypeMismatch
  /-- 0x13: a 1-byte file with R > 0. -/
  | hdrLength
  /-- 0x14: a codeword ends past the data length. -/
  | truncated
  /-- 0x15: defined and never raised (44_codec.md R348). -/
  | invalidCodeword
  /-- 0x20: the table file ends inside the structure. -/
  | tableEof
  /-- 0x21: a tree needs more than 511 nodes. -/
  | tableCapacity
  /-- 0x22: a tree whose root is a leaf. -/
  | tableLeafRoot
  /-- 0x30: a write past DST_CAP. -/
  | dstOverflow
  /-- 0x31: a system-memory access the platform refuses. -/
  | busError
deriving DecidableEq, Repr

/-- What the sequencer is doing (R39, R67 (c) and (d), 70_reset_and_hazards.md R450). -/
inductive Sequencer where
  /-- No command runs. -/
  | idle
  /-- The accepted command in `CMD` is to be run. -/
  | running
  /-- The reset initialisation runs. -/
  | initialising
  /-- The reset input is asserted. -/
  | inReset
deriving DecidableEq, Repr

/-- The sequencer's latched copies of the region registers (45_engine_control.md R380). -/
structure Latch where
  srcBase : Word
  srcLen : Word
  dstBase : Word
  dstCap : Word
deriving DecidableEq, Repr

/-- The bit buffer's state (R66; 40_bit_buffer.md R140 to R144). -/
structure BitBuffer where
  mode : BbMode
  /-- `BB_BYTEPOS`. -/
  bytePos : Word
  /-- `STATUS.BB_BITIDX`. -/
  bitIdx : BitVec 3
  /-- The partial byte `P`. -/
  part : Byte
  /-- The written bit stream `WS`, first bit first. -/
  ws : List Bool
  /-- The staging area: completed bytes not yet known to be written to DST, by address, oldest first. -/
  staged : List Host.Cell
  dstBase : Word
  dstCap : Word
  srcBase : Word
  srcLen : Word
  /-- The MODEL's own: how many DST bytes of the write session the last BB_FLUSH made final (R88 (c), R95, log 25). -/
  flushed : Word
deriving DecidableEq, Repr

/-- The width of a host access (R33, R89). -/
inductive AccessWidth where
  | byte
  | half
  | word
  | double
deriving DecidableEq, Repr

/-- What can happen next from outside the engine, and an engine turn. -/
inductive Event where
  /-- The engine moves. -/
  | engine
  /-- The host reads its own address space at `addr`. -/
  | read (addr : Word) (width : AccessWidth)
  /-- The host writes its own address space at `addr`. -/
  | write (addr : Word) (width : AccessWidth) (value : Word)
  /-- The host reads a byte of system memory. -/
  | memRead (addr : Word)
  /-- The host writes a byte of system memory. -/
  | memWrite (addr : Word) (value : Byte)
  /-- The platform asserts the reset input. -/
  | resetOn
  /-- The platform releases the reset input. -/
  | resetOff
deriving DecidableEq, Repr

/-- The fields that are the MODEL's own, none of them the spec's, and the platform's parameters. -/
structure Env where
  /-- The outside events still to come, the next one first (log 2). -/
  inputs : List Event
  /-- The value the host's last read returned (log 18). -/
  hostData : Word
  /-- The counter the free values are drawn with (log 3). -/
  freeCtr : Nat
  /-- Values a byte of the latched SRC region held before a host write that raced with the running command (R97, log 13). -/
  races : List Host.Cell
  /-- Values a byte of an open read session's SRC region held before a host write that raced with the session (R97, log
  13). -/
  sessionRaces : List Host.Cell
  /-- Addresses of a latched DST region that the host wrote while it was in use (R97, log 13). -/
  dstRaced : List Nat
  /-- The parameters the spec leaves OPEN (log 5). -/
  params : Params
deriving DecidableEq, Repr

/-- The machine's state. `STATUS.BUSY`, `BB_MODE`, `TABLE_KIND`, `COUNT_DATA`, `IRQ`, `enc` and `lut` are views of these fields. -/
structure State where
  /-- `CTRL.DONE_IE` (R37). -/
  doneIe : Bool
  /-- `CTRL.ERR_IE` (R37). -/
  errIe : Bool
  /-- `STATUS.DONE` (R40). -/
  done : Bool
  /-- `STATUS.ERR` (R41). -/
  err : Bool
  /-- `STATUS.WOVR` (R42). -/
  wovr : Bool
  /-- `STATUS.ERR_CODE` (R45). -/
  errCode : ErrCode
  /-- `CMD`'s read value: the last accepted command word (R47). -/
  cmd : Word
  /-- `SRC_ADDR` (R48). -/
  srcAddr : Word
  /-- `SRC_LEN` (R48). -/
  srcLen : Word
  /-- `DST_ADDR` (R49). -/
  dstAddr : Word
  /-- `DST_CAP` (R49). -/
  dstCap : Word
  /-- `OUT_LEN` (R50). -/
  outLen : Word
  /-- `RESULT` (R51). -/
  result : Word
  /-- `ERR_INFO` (R52). -/
  errInfo : Word
  /-- `COUNT_IDX.CTX` (R54). -/
  countCtx : Byte
  /-- `COUNT_IDX.SYM` (R54). -/
  countSym : Byte
  /-- `CW_LEN.LEN` (R56). -/
  cwLen : Byte
  /-- `CW_BITS0..7` (R57). -/
  cwBits : Vector Word 8
  /-- The count matrix (R60). -/
  counts : CountMatrix
  /-- `TABLE_KIND` (R61). -/
  kind : TableKind
  /-- The non-empty context slots, by number, rising (R61). -/
  slots : List (Nat × Tree)
  /-- The bit buffer (R66). -/
  bb : BitBuffer
  /-- What the sequencer is doing (R67). -/
  seq : Sequencer
  /-- The latched region registers (R67, R380). -/
  latch : Latch
  /-- System memory (R80). -/
  memory : Memory
  /-- The model's own fields and the platform's parameters. -/
  env : Env
deriving DecidableEq, Repr

/-- The engine never stops itself (60_exceptions.md, introduction): every failure is an error entry (R404), a next
state. So there is no fault. Log 23. -/
inductive Fault where
deriving DecidableEq, Repr

/-- Situations the spec puts outside itself, which a model refuses (93_implementation_defined.md). -/
inductive Refusal where
  /-- An instruction with no meaning yet, by its mnemonic; raised by `exec`'s arms only. Safe. -/
  | notModelled (mnemonic : String)
  /-- I-HOSTACC: a host register access that is not a 32-bit access at a multiple of 4 (R33, R89); raised by `step` on a
  host access. Safe. -/
  | hostAccess
  /-- I-SIDEEFFECT: a SRC or DST region of a command that touches a region with read or write side effects (R91,
  R462); raised by the commands that use memory. Safe. -/
  | sideEffectRegion
  /-- A host access to a byte of system memory that is not ordinary memory: the platform's affair, of which the spec
  says nothing; raised by `step` on a host memory access. Safe. Log 20. -/
  | hostMemoryWindow
deriving DecidableEq, Repr

/-- The outcome of a command or a step. -/
abbrev Out := Host.Outcome State Fault Refusal

/-- The parameters the model starts with: the spec leaves all three OPEN. Log 5. -/
def paramsAtReset : Params := ⟨0#32, 64, []⟩

/-- The bit buffer after reset: mode CLOSED, pos 0, P = 0, staging empty (R69). -/
def BitBuffer.reset : BitBuffer := ⟨.closed, 0#32, 0#3, 0#8, [], [], 0#32, 0#32, 0#32, 0#32, 0#32⟩

/-- The state after the reset input is released and the reset initialisation has finished (R69). -/
def State.reset : State where
  doneIe := false
  errIe := false
  done := false
  err := false
  wovr := false
  errCode := .noError
  cmd := 0#32
  srcAddr := 0#32
  srcLen := 0#32
  dstAddr := 0#32
  dstCap := 0#32
  outLen := 0#32
  result := 0#32
  errInfo := 0#32
  countCtx := 0#8
  countSym := 0#8
  cwLen := 0#8
  cwBits := #v[0#32, 0#32, 0#32, 0#32, 0#32, 0#32, 0#32, 0#32]
  counts := []
  kind := .none
  slots := []
  bb := .reset
  seq := .idle
  latch := ⟨0#32, 0#32, 0#32, 0#32⟩
  memory := []
  env := ⟨[], 0#32, 0, [], [], [], paramsAtReset⟩

end Sys2Proof.Machine
end

