-- ==== Sys2Proof/Machine/Ops.lean ====
section
/-! DEFINITION. The shared operations: sparse memories, bits and windows (00_scope.md R10 to R12), the platform's windows and
every access to system memory (20_memory.md), free values, command acceptance and completion
(45_engine_control.md R380, R381), the error entry (60_exceptions.md R404) and its exit (R406), reset. -/

namespace Sys2Proof.Machine

/-! ## Sparse memories -/

/-- What an unlisted key reads as: 0. It is every count cell's reset value (R69) and, for system memory, this model's
choice (log 4). -/
def unlisted (w : Nat) : BitVec w := 0#w

/-- The value at key `a`. -/
def Sparse.get {w : Nat} (a : Nat) : Sparse w → BitVec w
  | [] => unlisted w
  | (k, v) :: rest => if k = a then v else Sparse.get a rest

/-- Store `v` at key `a`, keeping the canonical form: storing what an unlisted key reads as removes the entry. -/
def Sparse.set {w : Nat} (a : Nat) (v : BitVec w) : Sparse w → Sparse w
  | [] => if v = unlisted w then [] else [(a, v)]
  | (k, x) :: rest =>
    if a < k then (if v = unlisted w then (k, x) :: rest else (a, v) :: (k, x) :: rest)
    else if a = k then (if v = unlisted w then rest else (a, v) :: rest)
    else (k, x) :: Sparse.set a v rest

/-- The canonical form: keys strictly rising, no entry equal to what an unlisted key reads as. -/
abbrev Sparse.wf {w : Nat} (m : Sparse w) : Prop :=
  m.Pairwise (fun x y => x.1 < y.1) ∧ ∀ c ∈ m, c.2 ≠ unlisted w

/-- System memory's canonical form; every address is one of 32 bits (R80). -/
abbrev Memory.wf (m : Memory) : Prop := Sparse.wf m ∧ ∀ c ∈ m, c.1 < 2 ^ 32

/-- The count matrix's canonical form; every key is `256 * ctx + sym` (R60). -/
abbrev CountMatrix.wf (m : CountMatrix) : Prop := Sparse.wf m ∧ ∀ c ∈ m, c.1 < 65536

/-! ## Bits (R10 to R12) -/

/-- Byte bit `7 - j`: stream bit `j` of a byte, most significant first (R11). -/
def streamBit (v : Byte) (j : Nat) : Bool := v.getLsbD (7 - j)

/-- The eight stream bits of a byte, in order (R11). -/
def byteBits (v : Byte) : List Bool := (List.range 8).map (streamBit v)

/-- The byte with stream bits `f 0, ..., f 7`: `sum over k of f k << (7 - k)` (R12). -/
def packByte (f : Nat → Bool) : Byte :=
  (List.range 8).foldl (fun acc k => acc ||| ((BitVec.ofBool (f k)).setWidth 8 <<< (7 - k))) 0#8

/-- The word with bits `f 0, ..., f 31`, bit 31 first (R57). -/
def packWord (f : Nat → Bool) : Word :=
  (List.range 32).foldl (fun acc k => acc ||| ((BitVec.ofBool (f k)).setWidth 32 <<< (31 - k))) 0#32

/-- `window(S, c)`: the byte made of stream bits `c .. c+7`, a bit at or beyond the end being 0 (R12). -/
def window (s : List Bool) (c : Nat) : Byte := packByte fun k => s.getD (c + k) false

/-- `topmask(k) = (0xFF << (8 - k)) & 0xFF` (R12). -/
def topmask (k : Nat) : Byte := 0xFF#8 <<< (8 - k)

/-! ## Regions and the platform (20_memory.md R80 to R85, R93; 60_exceptions.md R409) -/

/-- `base + len <= 2^32`, the sum without truncation (R84). -/
def regionFits (base len : Word) : Bool := base.toNat + len.toNat ≤ 2 ^ 32

/-- The address `a` lies in the region (R81, R82). -/
def inRegion (base len : Word) (a : Nat) : Bool := base.toNat ≤ a && a < base.toNat + len.toNat

/-- COMPRESS's and DECOMPRESS's regions overlap (R85). -/
def regionsOverlap (l : Latch) : Bool :=
  0 < l.srcLen.toNat && 0 < l.dstCap.toNat && l.srcBase.toNat < l.dstBase.toNat + l.dstCap.toNat
    && l.dstBase.toNat < l.srcBase.toNat + l.srcLen.toNat

/-- The address of offset `off` of a region that starts at `base` (R81, R82). A region never wraps (R84), so this
never does either where a rule uses it. -/
def regionAddr (base : Word) (off : Nat) : Word := base + BitVec.ofNat 32 off

/-- The window covers the address. -/
def windowCovers (w : Window) (a : Nat) : Bool := w.base ≤ a && a < w.base + w.size

/-- The platform refuses reads of `a` (R409). -/
def refusesRead (s : State) (a : Word) : Bool :=
  s.env.params.windows.any fun w => windowCovers w a.toNat && (w.kind = .noRead || w.kind = .noAccess)

/-- The platform refuses writes of `a` (R409). -/
def refusesWrite (s : State) (a : Word) : Bool :=
  s.env.params.windows.any fun w => windowCovers w a.toNat && (w.kind = .noWrite || w.kind = .noAccess)

/-- The region touches a window with read or write side effects (R91, R462, I-SIDEEFFECT). -/
def touchesDevice (s : State) (base len : Word) : Bool :=
  s.env.params.windows.any fun w =>
    w.kind = .device && 0 < w.size && 0 < len.toNat && base.toNat < w.base + w.size
      && w.base < base.toNat + len.toNat

/-! ## Reading SRC (R81, R90, R97) -/

/-- The byte at an address (R80). -/
def readByte (s : State) (a : Word) : Byte := Sparse.get a.toNat s.memory

/-- The values that the cells give the address `a`. -/
def valuesAt (cells : List Host.Cell) (a : Word) : List Byte := (cells.filter (·.1 = a.toNat)).map (·.2)

/-- The value the engine's read of `a` returns, `t` telling apart the reads of one command: the byte in memory, or, by a
free choice, one of the values that `others` gives the address. -/
def observedByte (s : State) (others : List Host.Cell) (t : Nat) (a : Word) : Byte :=
  match valuesAt others a with
  | [] => readByte s a
  | v :: vs =>
    (v :: vs).getD (Config.freeNat s.env.freeCtr (4 * (t * 2 ^ 32 + a.toNat) + 3) % (vs.length + 2)) (readByte s a)

/-- `MemRead(base + off, 1)`: `none` where the platform refuses it (R81, R409). -/
def regionByte (s : State) (others : List Host.Cell) (base : Word) (t off : Nat) : Option Byte :=
  let a := regionAddr base off
  if refusesRead s a then none else some (observedByte s others t a)

/-- The other values a read of the latched SRC region may return: a staged byte of an open write session not yet known to
be written (R88 (c)), and what a byte held before a host write that raced with this command (R97). A write before the
command's acceptance is no race (R94). -/
def commandOthers (s : State) : List Host.Cell := s.bb.staged ++ s.env.races

/-- A command's read of offset `off` of its latched SRC region. -/
def srcByte (s : State) (base : Word) (t off : Nat) : Option Byte := regionByte s (commandOthers s) base t off

/-- The addresses of a region whose reads the platform refuses. -/
def refusedReads (s : State) (base len : Word) : List Word :=
  ((List.range len.toNat).map (regionAddr base)).filter (refusesRead s)

/-- Of the first `n` addresses of a region, those whose writes the platform refuses. -/
def refusedWrites (s : State) (base : Word) (n : Nat) : List Word :=
  ((List.range n).map (regionAddr base)).filter (refusesWrite s)

/-- The refused address that BUS_ERROR reports: the order of a command's accesses is unspecified (R96), so any of them, by a
free choice; `none` where nothing is refused. Log 10. -/
def reportedRefusal (s : State) (refused : List Word) : Option Word :=
  match refused with
  | [] => none
  | a :: as => some ((a :: as).getD (Config.freeNat s.env.freeCtr 0 % (as.length + 1)) a)

/-- A refusal that may be reported and need not be: the engine may read any byte of its SRC region at any time (R90), so
before the byte is needed, and it may write a DST byte before or after the event that ends the command (R87, R409). A
free choice, `k` telling apart the choices of one command. Log 10. -/
def earlyRefusal (k : Nat) (s : State) (refused : List Word) : Option Word :=
  match refused with
  | [] => none
  | a :: as => if Config.freeBit s.env.freeCtr (4 * k) then reportedRefusal s (a :: as) else none

/-! ## Writing DST (R82, R88, R97) -/

/-- The cell at offset `off` of a region. -/
def cellAt (base : Word) (off : Nat) (v : Byte) : Host.Cell := ((regionAddr base off).toNat, v)

/-- `MemWrite` of one byte: an address the host raced on ends with an unspecified value (R97). -/
def writeCell (s : State) (m : Memory) (c : Host.Cell) : Memory :=
  Sparse.set c.1 (if c.1 ∈ s.env.dstRaced then Config.freeByte s.env.freeCtr c.1 else c.2) m

/-- The bytes written in order. -/
def writeCells (s : State) (cells : List Host.Cell) : Memory := cells.foldl (writeCell s) s.memory

/-- The cells of a list of bytes written from offset `off` of a region upwards. -/
def cellsFrom (base : Word) : Nat → List Byte → List Host.Cell
  | _, [] => []
  | off, v :: vs => cellAt base off v :: cellsFrom base (off + 1) vs

/-- Every byte of the region holds an unspecified value (R88 (d), R405 (d), R409). -/
def scrambleRegion (s : State) (base len : Word) : Memory :=
  (List.range len.toNat).foldl
    (fun m i => Sparse.set (regionAddr base i).toNat (Config.freeByte s.env.freeCtr (regionAddr base i).toNat) m) s.memory

/-- The addresses of the cells whose writes the platform refuses (R409). -/
def refusedCells (s : State) (cells : List Host.Cell) : List Word :=
  (cells.map fun c => BitVec.ofNat 32 c.1).filter (refusesWrite s)

/-! ## The error entry, completion and acceptance -/

/-- The session races that still matter once a command has ended: those on the source of an open read session (R97). -/
def liveSessionRaces (s : State) : List Host.Cell :=
  if s.bb.mode = .read then s.env.sessionRaces.filter (fun c => inRegion s.bb.srcBase s.bb.srcLen c.1) else []

/-- The raced DST addresses that still matter: those of an open write session (R97). -/
def liveDstRaced (s : State) : List Nat :=
  if s.bb.mode = .write then s.env.dstRaced.filter (inRegion s.bb.dstBase s.bb.dstCap) else []

/-- What ends every accepted command: `STATUS.BUSY <- 0` (R381, R404), and the model's own fields move on. -/
def endCommand (s : State) : State :=
  { s with
    seq := .idle
    env := { s.env with
      freeCtr := s.env.freeCtr + 1, races := [], sessionRaces := liveSessionRaces s, dstRaced := liveDstRaced s } }

/-- Command completion (R381): `STATUS.BUSY <- 0; STATUS.DONE <- 1`. -/
def complete (s : State) : State := { endCommand s with done := true }

/-- The error entry (R404): `ERR_CODE <- code; ERR_INFO <- info; BUSY <- 0; ERR <- 1`, and nothing else. -/
def raiseError (code : ErrCode) (info : Word) (s : State) : State :=
  { endCommand s with err := true, errCode := code, errInfo := info }

/-- The error exit (R406): `ERR`, `ERR_CODE` and `ERR_INFO` become 0 in one step (R41). -/
def clearError (s : State) : State := { s with err := false, errCode := .noError, errInfo := 0#32 }

/-- A command's rule has finished without an error. -/
def finish (s : State) : Out := .next (complete s)

/-- A command ends with `raise Error(code, info)`. -/
def fail (code : ErrCode) (info : Word) (s : State) : Out := .next (raiseError code info s)

/-- The first lines of command acceptance (R380): `CMD <- w`, `BUSY <- 1`, DONE, ERR, ERR_CODE and ERR_INFO cleared, the
region registers latched. Every host write before this is seen by the command's reads (R94): no race is left. -/
def latchCommand (w : Word) (s : State) : State :=
  { clearError s with
    cmd := w
    seq := .running
    done := false
    latch := ⟨s.srcAddr, s.srcLen, s.dstAddr, s.dstCap⟩
    env := { s.env with races := [] } }

/-- Acceptance of a command word (R380): an illegal word ends at once in ILLEGAL_CMD (R115); any other is left running. -/
def acceptCommand (w : Word) (s : State) : State :=
  match decode w with
  | .instr _ => latchCommand w s
  | .rejected _ => raiseError .illegalCmd 0#32 (latchCommand w s)

/-! ## Results and unspecified values -/

/-- A natural number as a 32-bit result. Where it does not fit, the spec states no value (R14): a free one. Log 14. -/
def resultWord (s : State) (n : Nat) : Word :=
  if n < 2 ^ 32 then BitVec.ofNat 32 n else Config.freeWord s.env.freeCtr 0

/-- `OUT_LEN` and `RESULT` hold unspecified values (R50, R51, R405 (d)). -/
def unspecifiedResults (s : State) : State :=
  { s with outLen := Config.freeWord s.env.freeCtr 1, result := Config.freeWord s.env.freeCtr 2 }

/-- What a streaming error, or a bus error, of SERIALIZE, COMPRESS or DECOMPRESS leaves: OUT_LEN, RESULT and every byte of
the DST region unspecified, everything else unchanged (R405 (d), R88 (d), R409). Log 7. -/
def unspecifiedOutput (s : State) : State :=
  { unspecifiedResults s with memory := scrambleRegion s s.latch.dstBase s.latch.dstCap }

/-- Every count cell holds an unspecified value (R409). -/
def unspecifiedCounts (s : State) : CountMatrix :=
  (List.range 65536).foldl (fun m k => Sparse.set k (Config.freeWord s.env.freeCtr (k + 3)) m) []

/-- What a streaming computation of a command ends in. Where it stops, `written` is how many bytes it has placed in DST, from
offset 0 on (R87: "as if each byte were written the moment its eighth bit is placed"). -/
inductive Stream (α : Type) where
  /-- It went through. -/
  | ok (a : α)
  /-- It raises `Error(code, info)`. -/
  | error (code : ErrCode) (info written : Nat)
  /-- The platform refused the read of the SRC offset `off` (R409). -/
  | bus (off written : Nat)
deriving DecidableEq, Repr

/-- Go on with the result of a streaming computation. -/
def Stream.bind {α β : Type} (x : Stream α) (f : α → Stream β) : Stream β :=
  match x with
  | .ok a => f a
  | .error c i n => .error c i n
  | .bus off n => .bus off n

/-- The bits `bit c, ..., bit (c + n - 1)`; `none` where the platform refuses a read. -/
def readBits (bit : Nat → Option Bool) : Nat → Nat → Option (List Bool)
  | _, 0 => some []
  | c, n + 1 =>
    match bit c, readBits bit (c + 1) n with
    | some b, some bs => some (b :: bs)
    | _, _ => none

/-! ## Reset (70_reset_and_hazards.md R450, R451) -/

/-- Every register and internal memory at its value of R69; system memory, the parameters and the model's own fields
stay. -/
def resetState (s : State) : State :=
  { State.reset with memory := s.memory, env := { s.env with races := [], sessionRaces := [], dstRaced := [] } }

end Sys2Proof.Machine
end

