-- ==== Sys2Proof/Machine/Operands.lean ====
section
/-! DEFINITION. The operands a command reaches (30_encoding.md R112): the count cells, the context slots and their dispatch
(42_lookup_tables.md R258, R259), the descriptor registers (10_state.md R57), the bit buffer's position (R66). -/

namespace Sys2Proof.Machine

/-! ## Count cells (R54, R55, R60) -/

/-- The key of `C[ctx][sym]`. -/
def countKey (ctx sym : Byte) : Nat := 256 * ctx.toNat + sym.toNat

/-- `C[ctx][sym]` (R60). -/
def countCell (c : CountMatrix) (ctx sym : Byte) : Word := Sparse.get (countKey ctx sym) c

/-- `C[ctx][sym] <- v`. -/
def setCountCell (ctx sym : Byte) (v : Word) (c : CountMatrix) : CountMatrix := Sparse.set (countKey ctx sym) v c

/-- `sat32(v + 1)` (R14). -/
def saturatingSucc (v : Word) : Word := if v = 0xFFFFFFFF#32 then v else v + 1#32

/-! ## Context slots (R61, R258, R259) -/

/-- `T[k]`: the tree in a context slot, `none` where the slot is empty. -/
def slotTree (slots : List (Nat × Tree)) (k : Nat) : Option Tree :=
  match slots with
  | [] => none
  | (j, t) :: rest => if j = k then some t else slotTree rest k

/-- `slot(prev)`: 0 for a plain table, `prev` for a Markov table (R258). -/
def slotOf (kind : TableKind) (prev : Byte) : Nat :=
  match kind with
  | .markov => prev.toNat
  | .plain => 0
  | .none => 0

/-- The tree the context `prev` selects. -/
def contextTree (s : State) (prev : Byte) : Option Tree := slotTree s.slots (slotOf s.kind prev)

/-- The coder type: 0 plain, 1 Markov (R3, R259); every command that asks has checked that there is a table. -/
def coderType (kind : TableKind) : BitVec 1 :=
  match kind with
  | .markov => 1#1
  | .plain => 0#1
  | .none => 0#1

/-! ## The descriptor registers (R56, R57) -/

/-- `CW_BITSj`. -/
def cwWord (s : State) (j : Nat) : Word := s.cwBits[j]?.getD 0#32

/-- Codeword bit `k`: `CW_BITS(k div 32)[31 - (k mod 32)]`. -/
def cwBit (s : State) (k : Nat) : Bool := (cwWord s (k / 32)).getLsbD (31 - k % 32)

/-- Descriptor byte `m`: `CW_BITS(m div 4)[31 - 8*(m mod 4) : 24 - 8*(m mod 4)]`. -/
def cwByte (s : State) (m : Nat) : Byte := (cwWord s (m / 4)).extractLsb' (24 - 8 * (m % 4)) 8

/-- The eight descriptor words of a codeword, zero after its last bit (R57, R261). -/
def cwWordsOf (code : List Bool) : Vector Word 8 :=
  let word (j : Nat) : Word := packWord fun k => code.getD (32 * j + k) false
  #v[word 0, word 1, word 2, word 3, word 4, word 5, word 6, word 7]

/-! ## The bit buffer's position (R66) -/

/-- `pos = 8 * BB_BYTEPOS + BB_BITIDX` (R53). -/
def bbPos (b : BitBuffer) : Nat := 8 * b.bytePos.toNat + b.bitIdx.toNat

/-- Move the position. -/
def setPos (n : Nat) (b : BitBuffer) : BitBuffer :=
  { b with bytePos := BitVec.ofNat 32 (n / 8), bitIdx := BitVec.ofNat 3 (n % 8) }

end Sys2Proof.Machine
end

