-- ==== Sys2Proof/Machine/LookupTables.lean ====
section
/-! DEFINITION. codeword_lookup_table (42_lookup_tables.md): the encoding table and the decoding lookup table as functions of a
slot's tree (10_state.md R65), computed by the walk of R256, and GET_ENCODING, LOOKUP and CLEAR_TABLE. -/

namespace Sys2Proof.Machine

/-! ## The encoding table (R250 to R254) -/

/-- The leaves in walk order, each with its codeword: 0 for a step to the left, 1 to the right (R250, R251). `code` is the
codeword of the node itself. -/
def walkLeaves : Tree → List Bool → List (Byte × List Bool)
  | .leaf s, code => [(s, code)]
  | .node l r, code => walkLeaves l (code ++ [false]) ++ walkLeaves r (code ++ [true])

/-- `enc[k][sym]` of a tree: the codeword of the symbol's leaf, the one reached last where there are several (R253). -/
def encTable (t : Tree) (sym : Byte) : Option (List Bool) :=
  (((walkLeaves t []).filter fun p => p.1 = sym).getLast?).map (·.2)

/-! ## The decoding lookup table (R255, R256) -/

/-- One assignment of the walk: the slots `lo .. lo + n - 1` get `tree`, a node at depth `depth`. -/
structure LutFill where
  lo : Nat
  n : Nat
  tree : Tree
  depth : Nat
deriving DecidableEq, Repr

/-- The assignments `Walk` makes to `lut` at a node and below it, in order (R256); `code` is the node's codeword as a
natural number of `d` bits. -/
def lutFills : Tree → Nat → Nat → List LutFill
  | .leaf s, d, code =>
    (if d = 8 then [⟨code, 1, .leaf s, d⟩] else [])
      ++ (if d ≤ 8 then [⟨code <<< (8 - d), 2 ^ (8 - d), .leaf s, d⟩] else [])
  | .node l r, d, code =>
    (if d = 8 then [⟨code, 1, .node l r, d⟩] else [])
      ++ lutFills l (d + 1) (2 * code) ++ lutFills r (d + 1) (2 * code + 1)

/-- The assignment reaches slot `b`. -/
def fillCovers (b : Nat) (f : LutFill) : Bool := f.lo ≤ b && b < f.lo + f.n

/-- `lut[k][b]` of a tree: the last assignment to slot `b`. Every slot is assigned (R257), so the root that stands for an
unassigned slot is never answered; log 21. -/
def lutEntry (t : Tree) (b : Byte) : LutFill :=
  (((lutFills t 0 0).filter (fillCovers b.toNat)).getLast?).getD ⟨0, 256, t, 0⟩

/-! ## Commands -/

/-- The slot a query reaches: NO_TABLE without a table, EMPTY_TABLE where the slot is empty (R260, R262). -/
def queriedTree (s : State) (prev : Byte) : Except ErrCode Tree :=
  if s.kind = .none then .error .noTable
  else
    match contextTree s prev with
    | none => .error .emptyTable
    | some t => .ok t

/-- GET_ENCODING prev, sym (R260): load the codeword of `sym` in context `prev` into the descriptor registers. -/
def execGetEncoding (prev sym : Byte) (s : State) : Out :=
  match queriedTree s prev with
  | .error e => fail e 0#32 s
  | .ok t =>
    match encTable t sym with
    | none => fail .noCodeword 0#32 s
    | some code => finish { s with cwLen := BitVec.ofNat 8 code.length, cwBits := cwWordsOf code }

/-- The `RESULT` word of LOOKUP: bit 0 LEAF, bits 15:8 SYM, bits 23:16 DEPTH (R262). -/
def lookupResult (f : LutFill) : Word :=
  match f.tree with
  | .leaf sym => 1#32 ||| (sym.setWidth 32 <<< 8) ||| (BitVec.ofNat 32 f.depth <<< 16)
  | .node _ _ => BitVec.ofNat 32 f.depth <<< 16

/-- LOOKUP prev, byte (R262). -/
def execLookup (prev byte : Byte) (s : State) : Out :=
  match queriedTree s prev with
  | .error e => fail e 0#32 s
  | .ok t => finish { s with result := lookupResult (lutEntry t byte) }

/-- CLEAR_TABLE (R263): discard the table store. -/
def execClearTable (s : State) : Out := finish { s with kind := .none, slots := [] }

end Sys2Proof.Machine
end

