-- ==== Sys2Proof/Machine/BitStream.lean ====
section
/-! DEFINITION. The write datapath of bit_buffer_fifo (40_bit_buffer.md R154), which the source requires reproduced precisely,
the capacity check (R144), and the two-byte composition of the read side (R173). The same unit serves the host's
session and the private streams of the composite commands (R149). -/

namespace Sys2Proof.Machine

/-- A write stream: the bytes it has completed, in order, the partial byte `P`, and the bit index `b`. -/
structure Writer where
  out : List Byte
  part : Byte
  idx : Nat
deriving DecidableEq, Repr

/-- A fresh stream at position 0. -/
def Writer.start : Writer := ⟨[], 0#8, 0⟩

/-- The stream position, in bits (R141). -/
def writerPos (w : Writer) : Nat := 8 * w.out.length + w.idx

/-- The bits written so far (R141): those of the completed bytes, then the top `b` bits of `P`. -/
def writerBits (w : Writer) : List Bool := w.out.flatMap byteBits ++ (byteBits w.part).take w.idx

/-- `push_bit(v)` (R154). -/
def pushBit (v : Bool) (w : Writer) : Writer :=
  let p := w.part ||| ((BitVec.ofBool v).setWidth 8 <<< (7 - w.idx))
  if w.idx + 1 = 8 then ⟨w.out ++ [p], 0#8, 0⟩ else ⟨w.out, p, w.idx + 1⟩

/-- `push_byte(v)` (R154): "no bit-by-bit loop", one shift-and-mask composition. -/
def pushByte (v : Byte) (w : Writer) : Writer :=
  if w.idx = 0 then ⟨w.out ++ [v], w.part, w.idx⟩
  else ⟨w.out ++ [w.part ||| (v >>> w.idx)], v <<< (8 - w.idx), w.idx⟩

/-- The last `rem` bits of a descriptor (R154), by its three cases: falls short of completing the byte, exactly completes
it, or spills into the next. `x` holds the bits at its top and zeros below. -/
def pushTail (x : Byte) (rem : Nat) (w : Writer) : Writer :=
  if w.idx + rem < 8 then ⟨w.out, w.part ||| (x >>> w.idx), w.idx + rem⟩
  else if w.idx + rem = 8 then ⟨w.out ++ [w.part ||| (x >>> w.idx)], 0#8, 0⟩
  else ⟨w.out ++ [w.part ||| (x >>> w.idx)], x <<< (8 - w.idx), w.idx + rem - 8⟩

/-- `push_desc(len, bytes)` (R154): full bytes first, then the partial one. -/
def pushDesc (len : Nat) (bytes : Nat → Byte) (w : Writer) : Writer :=
  let full := len / 8
  let rem := len % 8
  let w := (List.range full).foldl (fun w m => pushByte (bytes m) w) w
  if rem = 0 then w else pushTail (bytes full &&& topmask rem) rem w

/-- `flush()` (R154): at most 7 zero-padding bits. -/
def flush (w : Writer) : Writer := if w.idx = 0 then w else ⟨w.out ++ [w.part], 0#8, 0⟩

/-- A push of `n` bits at position `pos` stays below DST offset `cap` (R144); a push of no bits needs no offset. -/
def pushFits (cap pos n : Nat) : Bool := n = 0 || (pos + n - 1) / 8 < cap

/-- A push of `n` bits that takes the stream from `w` to `w'`, with the capacity check of R144, made before any bit is
placed; DST_OVERFLOW is the number of bytes placed before it. -/
def pushWithin (cap n : Nat) (w w' : Writer) : Except Nat Writer :=
  if pushFits cap (writerPos w) n then .ok w' else .error w.out.length

/-- `push_desc` of a codeword; descriptor byte `m` holds codeword bits `8m ..` (R254). -/
def pushCode (code : List Bool) (w : Writer) : Writer := pushDesc code.length (fun m => window code (8 * m)) w

/-- `((byte(i) << b) | (byte(i+1) >> (8 - b))) & 0xFF`, the composition of `pop_byte` at bit index `b > 0` (R173). -/
def composeByte (hi lo : Byte) (b : Nat) : Byte := (hi <<< b) ||| (lo >>> (8 - b))

end Sys2Proof.Machine
end

