-- ==== Sys2Proof/Machine/Serialization.lean ====
section
/-! DEFINITION. Tree and table serialization (43_serialization.md): the tree format (R301, R305), the table formats (R302, R303),
SERIALIZE (R300) and DESERIALIZE (R304). -/

namespace Sys2Proof.Machine

/-! ## Writing -/

/-- `SerTree(n)` (R301) on a stream of capacity `cap`; an error is DST_OVERFLOW, with the number of bytes placed. -/
def serTree (cap : Nat) : Tree → Writer → Except Nat Writer
  | .leaf s, w => (pushWithin cap 1 w (pushBit true w)).bind fun w => pushWithin cap 8 w (pushByte s w)
  | .node l r, w =>
    (pushWithin cap 1 w (pushBit false w)).bind fun w => (serTree cap l w).bind fun w => serTree cap r w

/-- The slots of a Markov table in order (R303): a presence bit, then the tree where the slot is not empty. -/
def serSlots (cap : Nat) (slots : List (Nat × Tree)) : List Nat → Writer → Except Nat Writer
  | [], w => .ok w
  | c :: cs, w =>
    match slotTree slots c with
    | some t =>
      (pushWithin cap 1 w (pushBit true w)).bind fun w => (serTree cap t w).bind fun w => serSlots cap slots cs w
    | none => (pushWithin cap 1 w (pushBit false w)).bind fun w => serSlots cap slots cs w

/-- The encoding-table file before its padding: the discriminant bit, then the tree of slot 0 (R302), or the 256 slots
(R303). -/
def serTable (cap : Nat) (kind : TableKind) (slots : List (Nat × Tree)) : Except Nat Writer :=
  match kind, slotTree slots 0 with
  | .plain, some t => (pushWithin cap 1 .start (pushBit false .start)).bind fun w => serTree cap t w
  | _, _ => (pushWithin cap 1 .start (pushBit true .start)).bind fun w => serSlots cap slots (List.range 256) w

/-- A command whose DST writes are `cells` ends well, unless the platform refuses one of them (R409): the bytes are
written, then `OUT_LEN` and `RESULT` (R88 (b)). -/
def finishOutput (cells : List Host.Cell) (outLen result : Word) (s : State) : Out :=
  match reportedRefusal s (refusedCells s cells) with
  | some a => fail .busError a (unspecifiedOutput s)
  | none => finish { s with memory := writeCells s cells, outLen := outLen, result := result }

/-- A command that has placed `written` bytes in DST meets a streaming error (R405 (d)). A refused write of one of those
bytes may be reported instead (R409): a free choice. -/
def failOutput (code : ErrCode) (info : Word) (written : Nat) (s : State) : Out :=
  match earlyRefusal 1 s (refusedWrites s s.latch.dstBase written) with
  | some a => fail .busError a (unspecifiedOutput s)
  | none => fail code info (unspecifiedOutput s)

/-- SERIALIZE (R300): write the table store's encoding-table file to DST. -/
def execSerialize (s : State) : Out :=
  let l := s.latch
  if s.bb.mode ≠ .closed then fail .bbMode 0#32 s
  else if !regionFits l.dstBase l.dstCap then fail .addrRange 0#32 s
  else if s.kind = .none then fail .noTable 0#32 s
  else if s.kind = .plain && (slotTree s.slots 0).isNone then fail .emptyTable 0#32 s
  else if touchesDevice s l.dstBase l.dstCap then .refused .sideEffectRegion
  else
    match serTable l.dstCap.toNat s.kind s.slots with
    | .error written => failOutput .dstOverflow l.dstCap written s
    | .ok w =>
      let f := flush w
      finishOutput (cellsFrom l.dstBase 0 f.out) (BitVec.ofNat 32 f.out.length) (resultWord s (writerPos w)) s

/-! ## Reading -/

/-- `ReadBit()` at position `pos` of a file of `len` bytes (R304): TABLE_EOF at end of stream. -/
def tableBit (rd : Nat → Nat → Option Byte) (len pos : Nat) : Stream Bool :=
  if pos < 8 * len then
    match rd pos (pos / 8) with
    | none => .bus (pos / 8) 0
    | some v => .ok (streamBit v (pos % 8))
  else .error .tableEof len 0

/-- Eight `ReadBit()`s, most significant first (R305): `s <- (s << 1) | ReadBit()`, `n` of them to go. -/
def tableSymbol (rd : Nat → Nat → Option Byte) (len : Nat) : Nat → Nat → Byte → Stream Byte
  | 0, _, acc => .ok acc
  | n + 1, pos, acc =>
    (tableBit rd len pos).bind fun b => tableSymbol rd len n (pos + 1) ((acc <<< 1) ||| (BitVec.ofBool b).setWidth 8)

/-- What `ReadNode` answers: the tree, the node count and the position after it. -/
structure ReadTree where
  tree : Tree
  count : Nat
  pos : Nat
deriving DecidableEq, Repr

/-- `ReadNode(is_root)` (R305). `fuel` bounds the recursion: each level counts a node, and the 512th is refused before it
is read, so 512 levels are never used up; log 21. -/
def readNode (rd : Nat → Nat → Option Byte) (len : Nat) : Nat → Bool → Nat → Nat → Stream ReadTree
  | 0, _, _, pos => .error .tableCapacity (pos / 8) 0
  | fuel + 1, isRoot, count, pos =>
    if count = Config.nodeCap then .error .tableCapacity (pos / 8) 0
    else
      (tableBit rd len pos).bind fun m =>
        if m then
          if isRoot then .error .tableLeafRoot (pos / 8) 0
          else (tableSymbol rd len 8 (pos + 1) 0#8).bind fun sym => .ok ⟨.leaf sym, count + 1, pos + 9⟩
        else
          (readNode rd len fuel false (count + 1) (pos + 1)).bind fun l =>
            (readNode rd len fuel false l.count l.pos).bind fun r => .ok ⟨.node l.tree r.tree, r.count, r.pos⟩

/-- `ReadTree()` at a position (R305). -/
def readTree (rd : Nat → Nat → Option Byte) (len pos : Nat) : Stream ReadTree := readNode rd len 512 true 0 pos

/-- What a table file holds: the kind, the slots, and the bits it took. -/
structure ReadTable where
  kind : TableKind
  slots : List (Nat × Tree)
  pos : Nat
deriving DecidableEq, Repr

/-- The 256 slots of a Markov file (R303, R304), the contexts `cs` to go, `acc` the slots read so far in reverse. -/
def readSlots (rd : Nat → Nat → Option Byte) (len : Nat) : List Nat → Nat → List (Nat × Tree) → Stream ReadTable
  | [], pos, acc => .ok ⟨.markov, acc.reverse, pos⟩
  | c :: cs, pos, acc =>
    (tableBit rd len pos).bind fun present =>
      if present then (readTree rd len (pos + 1)).bind fun t => readSlots rd len cs t.pos ((c, t.tree) :: acc)
      else readSlots rd len cs (pos + 1) acc

/-- The structure of an encoding-table file (R304). -/
def readTable (rd : Nat → Nat → Option Byte) (len : Nat) : Stream ReadTable :=
  (tableBit rd len 0).bind fun d =>
    if d then readSlots rd len (List.range 256) 1 []
    else (readTree rd len 1).bind fun t => .ok ⟨.plain, [(0, t.tree)], t.pos⟩

/-- What an error of DESERIALIZE after its region check leaves: no table (R304, R405 (c)), OUT_LEN and RESULT unspecified (R50,
R51). Log 8. -/
def withoutTable (s : State) : State := { unspecifiedResults s with kind := .none, slots := [] }

/-- DESERIALIZE (R304): load the table store from an encoding-table file in SRC. -/
def execDeserialize (s : State) : Out :=
  let l := s.latch
  if s.bb.mode ≠ .closed then fail .bbMode 0#32 s
  else if !regionFits l.srcBase l.srcLen then fail .addrRange 0#32 s
  else if touchesDevice s l.srcBase l.srcLen then .refused .sideEffectRegion
  else
    match earlyRefusal 0 s (refusedReads s l.srcBase l.srcLen) with
    | some a => fail .busError a (withoutTable s)
    | none =>
      match readTable (srcByte s l.srcBase) l.srcLen.toNat with
      | .bus off _ => fail .busError (regionAddr l.srcBase off) (withoutTable s)
      | .error code info _ => fail code (BitVec.ofNat 32 info) (withoutTable s)
      | .ok t => finish { s with kind := t.kind, slots := t.slots, result := resultWord s t.pos }

end Sys2Proof.Machine
end

