-- ==== Sys2Proof/Machine/Codec.lean ====
section
/-! DEFINITION. symbol_encoder_decoder (44_codec.md): the compressed file (R330, R339), COMPRESS (R331 to R337) and DECOMPRESS (R340
to R346). -/

namespace Sys2Proof.Machine

/-- `0x30 | ((1 - type) << 3) | R` (R330). -/
def headerByte (type : BitVec 1) (r : Nat) : Byte :=
  (Config.headerSignature <<< 4) ||| ((1#1 - type).setWidth 8 <<< 3) ||| BitVec.ofNat 8 r

/-- The placeholder header (R332): bit 7 set. -/
def placeholder : Byte := 0x80#8

/-! ## Compression -/

/-- COMPRESS's loop (R331) from SRC offset `i` on, `n` bytes to go, on the private stream of capacity `cap` (one less than the
DST region's, `whole`). Where it stops, the placeholder and the stream's bytes have been placed. -/
def compressLoop (rd : Nat → Nat → Option Byte) (s : State) (cap whole : Nat) :
    Nat → Nat → Byte → Writer → Stream Writer
  | 0, _, _, w => .ok w
  | n + 1, i, prev, w =>
    let written := 1 + w.out.length
    match rd i i with
    | none => .bus i written
    | some sym =>
      match contextTree s prev with
      | none => .error .emptyTable i written
      | some t =>
        match encTable t sym with
        | none => .error .noCodeword i written
        | some code =>
          if pushFits cap (writerPos w) code.length then compressLoop rd s cap whole n (i + 1) sym (pushCode code w)
          else .error .dstOverflow whole written

/-- `R = (8 - off) mod 8` (R331, R334). -/
def remainderBits (nbits : Nat) : Nat := (8 - nbits % 8) % 8

/-- The DST writes of a COMPRESS that succeeds, in order (R332, R331, R337): the placeholder, the flushed stream from offset 1, the
header. -/
def compressCells (s : State) (w : Writer) : List Host.Cell :=
  let header := headerByte (coderType s.kind) (remainderBits (writerPos w))
  cellAt s.latch.dstBase 0 placeholder :: cellsFrom s.latch.dstBase 1 (flush w).out ++ [cellAt s.latch.dstBase 0 header]

/-- The checks COMPRESS and DECOMPRESS share (R331, R341), in order. -/
def codecCheck (s : State) : Option ErrCode :=
  let l := s.latch
  if s.bb.mode ≠ .closed then some .bbMode
  else if !(regionFits l.srcBase l.srcLen && regionFits l.dstBase l.dstCap) then some .addrRange
  else if regionsOverlap l then some .overlap
  else if s.kind = .none then some .noTable
  else none

/-- A region of the command touches a device (R462). -/
def codecDevice (s : State) : Bool :=
  touchesDevice s s.latch.srcBase s.latch.srcLen || touchesDevice s s.latch.dstBase s.latch.dstCap

/-- COMPRESS (R331). -/
def execCompress (s : State) : Out :=
  let l := s.latch
  match codecCheck s with
  | some e => fail e 0#32 s
  | none =>
    if l.dstCap = 0#32 then fail .dstOverflow 0#32 s
    else if codecDevice s then .refused .sideEffectRegion
    else
      match earlyRefusal 0 s (refusedReads s l.srcBase l.srcLen) with
      | some a => fail .busError a (unspecifiedOutput s)
      | none =>
        match compressLoop (srcByte s l.srcBase) s (l.dstCap.toNat - 1) l.dstCap.toNat l.srcLen.toNat 0
            Config.spaceSeed .start with
        | .bus off written => failOutput .busError (regionAddr l.srcBase off) written s
        | .error code info written => failOutput code (BitVec.ofNat 32 info) written s
        | .ok w =>
          finishOutput (compressCells s w) (BitVec.ofNat 32 (1 + (flush w).out.length)) (resultWord s (writerPos w)) s

/-! ## Decompression -/

/-- `D(j)`: bit `j` of the bytes at SRC offsets `1 .. n-1`, 0 for larger `j` (R341); `t` is the read's time. -/
def dataBit (rd : Nat → Nat → Option Byte) (n t j : Nat) : Option Bool :=
  if j < 8 * (n - 1) then (rd t (1 + j / 8)).map fun v => streamBit v (j % 8) else some false

/-- `window(D, c)` (R341, R342): each bit is a read of its own, apart from those of every other window and of the descent. -/
def dataWindow (rd : Nat → Nat → Option Byte) (n c : Nat) : Option Byte :=
  (readBits (fun j => dataBit rd n (16 * c + (j - c)) j) c 8).map fun bits => window bits 0

/-- The SRC offset of the first byte at or after that of data bit `c` that the platform refuses. -/
def refusedDataByte (rd : Nat → Nat → Option Byte) (c : Nat) : Nat :=
  if (rd 0 (1 + c / 8)).isNone then 1 + c / 8 else 2 + c / 8

/-- The bit-by-bit descent of a long codeword (R345): bit 0 to the left, bit 1 to the right; TRUNCATED at the data's end, with
`info` the offset to report. Answers the symbol and the cursor after it. -/
def descend (rd : Nat → Nat → Option Byte) (n total info : Nat) : Tree → Nat → Stream (Byte × Nat)
  | .leaf sym, cur => .ok (sym, cur)
  | .node l r, cur =>
    if cur = total then .error .truncated info 0
    else
      match dataBit rd n (16 * cur + 8) cur with
      | none => .bus (1 + cur / 8) 0
      | some false => descend rd n total info l (cur + 1)
      | some true => descend rd n total info r (cur + 1)

/-- One codeword at the cursor (R343 to R346): the symbol and the cursor after it. -/
def decodeSymbol (rd : Nat → Nat → Option Byte) (n total : Nat) (tree : Option Tree) (cur : Nat) :
    Stream (Byte × Nat) :=
  let info := 1 + cur / 8
  match tree with
  | none => .error .emptyTable info 0
  | some t =>
    match dataWindow rd n cur with
    | none => .bus (refusedDataByte rd cur) 0
    | some win =>
      let f := lutEntry t win
      match f.tree with
      | .leaf sym => if total < cur + f.depth then .error .truncated info 0 else .ok (sym, cur + f.depth)
      | .node l r => if total < cur + 8 then .error .truncated info 0 else descend rd n total info (.node l r) (cur + 8)

/-- DECOMPRESS's loop (R341): `room` bytes of DST are left of `whole`; `out` is the output so far, in reverse. -/
def decompressLoop (rd : Nat → Nat → Option Byte) (s : State) (n total whole : Nat) :
    Nat → Nat → Byte → List Byte → Stream (List Byte)
  | room, cur, prev, out =>
    if total ≤ cur then .ok out.reverse
    else
      match decodeSymbol rd n total (contextTree s prev) cur with
      | .bus off _ => .bus off out.length
      | .error code info _ => .error code info out.length
      | .ok (sym, cur') =>
        match room with
        | 0 => .error .dstOverflow whole out.length
        | room + 1 => decompressLoop rd s n total whole room cur' sym (sym :: out)

/-- The header checks (R340, R341), in order: the error, or the data length in bits (R339). -/
def headerCheck (h : Byte) (n : Nat) (type : BitVec 1) : Except ErrCode Nat :=
  let r := (h &&& 7#8).toNat
  if h >>> 4 ≠ Config.headerSignature then .error .hdrSignature
  else if 1#1 - h.extractLsb' 3 1 ≠ type then .error .hdrTypeMismatch
  else if 8 * (n - 1) < r then .error .hdrLength
  else .ok (8 * (n - 1) - r)

/-- DECOMPRESS (R341). -/
def execDecompress (s : State) : Out :=
  let l := s.latch
  let n := l.srcLen.toNat
  let rd := srcByte s l.srcBase
  match codecCheck s with
  | some e => fail e 0#32 s
  | none =>
    if n = 0 then fail .hdrMissing 0#32 s
    else if codecDevice s then .refused .sideEffectRegion
    else
      match earlyRefusal 0 s (refusedReads s l.srcBase l.srcLen) with
      | some a => fail .busError a (unspecifiedOutput s)
      | none =>
        match rd 0 0 with
        | none => fail .busError (regionAddr l.srcBase 0) (unspecifiedOutput s)
        | some h =>
          match headerCheck h n (coderType s.kind) with
          | .error e => fail e 0#32 s
          | .ok total =>
            match decompressLoop rd s n total l.dstCap.toNat l.dstCap.toNat 0 Config.spaceSeed [] with
            | .bus off written => failOutput .busError (regionAddr l.srcBase off) written s
            | .error code info written => failOutput code (BitVec.ofNat 32 info) written s
            | .ok out => finishOutput (cellsFrom l.dstBase 0 out) (BitVec.ofNat 32 out.length) (resultWord s total) s

end Sys2Proof.Machine
end

