-- ==== Sys2Proof/Machine/BitBuffer.lean ====
section
/-! DEFINITION. The bit-buffer commands (40_bit_buffer.md R145 to R175): the host-visible session of bit_buffer_fifo. -/

namespace Sys2Proof.Machine

/-! ## The write session's staging (R143, R87, R88 (c); log 6) -/

/-- Stage completed bytes one by one; when the staging area holds `cap` bytes it is flushed (R143 "flush-if-full").
Answers the bytes written to DST by that, and the bytes still staged. -/
def stage (cap : Nat) : List Host.Cell → List Host.Cell → List Host.Cell × List Host.Cell
  | staged, [] => ([], staged)
  | staged, c :: cs =>
    let st := staged ++ [c]
    if cap ≤ st.length then
      let (written, left) := stage cap [] cs
      (st ++ written, left)
    else stage cap st cs

/-- The write stream of the session from here on: `P` and the bit index as they stand. -/
def sessionWriter (s : State) : Writer := ⟨[], s.bb.part, s.bb.bitIdx.toNat⟩

/-- The cells of bytes completed from the session's position on (R141, R143). -/
def emittedCells (s : State) (bytes : List Byte) : List Host.Cell := cellsFrom s.bb.dstBase s.bb.bytePos.toNat bytes

/-- The session after the write stream has moved to `w`, appending `bits` to `WS` (R159); the staging area and memory
are as given. -/
def sessionMoved (s : State) (w : Writer) (bits : List Bool) (staged : List Host.Cell) (m : Memory) : State :=
  { s with
    bb := { s.bb with
      bytePos := s.bb.bytePos + BitVec.ofNat 32 w.out.length
      bitIdx := BitVec.ofNat 3 w.idx
      part := w.part
      ws := s.bb.ws ++ bits
      staged := staged }
    memory := m }

/-! ## A bus error in a session (R409; log 11) -/

/-- A bit-buffer mode chosen by a number. -/
def modeOf (n : Nat) : BbMode :=
  match n % 3 with
  | 0 => .closed
  | 1 => .write
  | _ => .read

/-- The largest position the mode allows (R142, R144). -/
def posLimit (b : BitBuffer) : BbMode → Nat
  | .closed => 8 * 2 ^ 32 - 1
  | .write => 8 * b.dstCap.toNat
  | .read => 8 * b.srcLen.toNat

/-- A session with unspecified values (R409), within what R46, R66, R141 and R142 say of every session; there is a `WS` in
WRITE mode only (R66). Log 11. -/
def unspecifiedSession (s : State) : BitBuffer :=
  let c := s.env.freeCtr
  let mode := modeOf (Config.freeNat c 1)
  let pos := Config.freeNat c 2 % (posLimit s.bb mode + 1)
  let ws := (List.range (if mode = .write then pos else 0)).map fun i => Config.freeBit c (4 * i + 3)
  setPos pos { s.bb with mode := mode, ws := ws, part := window ws (8 * (pos / 8)), staged := [], flushed := 0#32 }

/-- A session command meets a refused access: BUS_ERROR, and the session, OUT_LEN and RESULT hold unspecified values (R409,
R50, R51). -/
def failSessionBus (a : Word) (s : State) : Out :=
  fail .busError a { unspecifiedResults s with bb := unspecifiedSession s }

/-- A write-session command meets a refused access: the session's DST region holds unspecified values too (R409). -/
def failWriteBus (a : Word) (s : State) : Out :=
  failSessionBus a { s with memory := scrambleRegion s s.bb.dstBase s.bb.dstCap }

/-! ## Shared steps of the write commands -/

/-- The refusal a push reports that writes the cells `written` and leaves the cells `left` staged: one of its refused cells
where it writes one; otherwise, as a staged byte may be written at any time (R87), perhaps one of the cells left. -/
def pushRefusal (s : State) (written left : List Host.Cell) : Option Word :=
  let refused := refusedCells s (written ++ left)
  if (refusedCells s written).isEmpty then earlyRefusal 0 s refused else reportedRefusal s refused

/-- The session takes a push: the new bytes are staged, the staging area flushed whenever it fills. A refused write
raises BUS_ERROR when the byte is written, and may do so earlier (R87, R409). -/
def takePush (w : Writer) (bits : List Bool) (s : State) : Out :=
  let (written, left) := stage s.env.params.bbCap s.bb.staged (emittedCells s w.out)
  match pushRefusal s written left with
  | some a => failWriteBus a s
  | none => finish (sessionMoved s w bits left (writeCells s written))

/-- A push command (R145, R144, R154): mode, then capacity, then the push of `n` bits. -/
def pushCommand (n : Nat) (w : Writer) (bits : List Bool) (s : State) : Out :=
  if s.bb.mode ≠ .write then fail .bbMode 0#32 s
  else if !pushFits s.bb.dstCap.toNat (bbPos s.bb) n then fail .dstOverflow s.bb.dstCap s
  else takePush w bits s

/-- The writes `flush()` makes. -/
def flushCells (s : State) : List Host.Cell := s.bb.staged ++ emittedCells s (flush (sessionWriter s)).out

/-- BB_FLUSH's effect (R154, R155): the padding goes to `WS`, every staged byte to DST, and `OUT_LEN <- BB_BYTEPOS`; every byte
below that position is final from here on (R88 (c), R95). -/
def flushedSession (s : State) : State :=
  let s := sessionMoved s (flush (sessionWriter s)) (List.replicate ((8 - s.bb.bitIdx.toNat) % 8) false) []
    (writeCells s (flushCells s))
  { s with bb := { s.bb with flushed := s.bb.bytePos }, outLen := s.bb.bytePos }

/-- The effect of a flush, the mode becoming `mode`, unless the platform refuses one of its writes (R409). -/
def takeFlush (mode : BbMode) (s : State) : Out :=
  match reportedRefusal s (refusedCells s (flushCells s)) with
  | some a => failWriteBus a s
  | none =>
    let s := flushedSession s
    finish { s with bb := { s.bb with mode := mode } }

/-! ## Session commands -/

/-- The first lines of BB_OPEN_WRITE's effect (R150). -/
def openWrite (s : State) : State :=
  { s with bb := { s.bb with
      mode := .write, bytePos := 0#32, bitIdx := 0#3, part := 0#8, ws := [], staged := [], flushed := 0#32
      dstBase := s.latch.dstBase, dstCap := s.latch.dstCap } }

/-- BB_OPEN_READ's effect (R151). Host writes that raced with this command race with the session (R94, R97). -/
def openRead (s : State) : State :=
  { s with
    bb := { s.bb with
      mode := .read, bytePos := 0#32, bitIdx := 0#3
      srcBase := s.latch.srcBase, srcLen := s.latch.srcLen }
    env := { s.env with sessionRaces := s.env.races } }

/-- BB_OPEN_WRITE (R150): open a write session on DST. No memory access. -/
def execBbOpenWrite (s : State) : Out :=
  if s.bb.mode ≠ .closed then fail .bbMode 0#32 s
  else if !regionFits s.latch.dstBase s.latch.dstCap then fail .addrRange 0#32 s
  else if touchesDevice s s.latch.dstBase s.latch.dstCap then .refused .sideEffectRegion
  else finish (openWrite s)

/-- BB_OPEN_READ (R151): open a read session on SRC. The engine may start reading SRC at once (R148). -/
def execBbOpenRead (s : State) : Out :=
  if s.bb.mode ≠ .closed then fail .bbMode 0#32 s
  else if !regionFits s.latch.srcBase s.latch.srcLen then fail .addrRange 0#32 s
  else if touchesDevice s s.latch.srcBase s.latch.srcLen then .refused .sideEffectRegion
  else
    match earlyRefusal 0 s (refusedReads s s.latch.srcBase s.latch.srcLen) with
    | some a => failSessionBus a (openRead s)
    | none => finish (openRead s)

/-- BB_CLOSE (R152): end the session; a write session is flushed first and sets OUT_LEN. Closing a read session makes no
access and reports no refusal of one made ahead of use: the model's choice, log 26. -/
def execBbClose (s : State) : Out :=
  match s.bb.mode with
  | .closed => fail .bbMode 0#32 s
  | .read => finish { s with bb := { s.bb with mode := .closed } }
  | .write => takeFlush .closed s

/-- BB_FLUSH (R155): pad and write out the partial byte; the session stays open. -/
def execBbFlush (s : State) : Out :=
  if s.bb.mode ≠ .write then fail .bbMode 0#32 s
  else takeFlush .write s

/-! ## Write commands -/

/-- BB_PUSH_BIT b (R156): the bit is `A[0]`. -/
def execBbPushBit (a : Byte) (s : State) : Out :=
  pushCommand 1 (pushBit (a.getLsbD 0) (sessionWriter s)) [a.getLsbD 0] s

/-- BB_PUSH_BYTE v (R157). -/
def execBbPushByte (v : Byte) (s : State) : Out :=
  pushCommand 8 (pushByte v (sessionWriter s)) (byteBits v) s

/-- BB_PUSH_DESC (R158): the descriptor in CW_LEN and CW_BITS; bits after bit `len - 1` are ignored. -/
def execBbPushDesc (s : State) : Out :=
  pushCommand s.cwLen.toNat (pushDesc s.cwLen.toNat (cwByte s) (sessionWriter s))
    ((List.range s.cwLen.toNat).map (cwBit s)) s

/-! ## Read commands -/

/-- The read session has no bit left (R142). -/
def atEnd (s : State) : Bool := 8 * s.bb.srcLen.toNat ≤ bbPos s.bb

/-- The session's SRC byte at an offset (R148); `none` where the platform refuses it. Of a byte that the host wrote while the
session was open, the old or the new value, by a free choice of each read `t` (R97). -/
def sessionByte (s : State) (t off : Nat) : Option Byte := regionByte s s.env.sessionRaces s.bb.srcBase t off

/-- `bit(i)` of the read session (R148): each bit is a read of its own. -/
def sessionBit (s : State) (i : Nat) : Option Bool := (sessionByte s i (i / 8)).map fun v => streamBit v (i % 8)

/-- What a read command of a READ session does once its checks have passed: with the value it reads, `RESULT <- value` and
the position moves by `n`; with a refused access, or a refusal met by reading ahead (R148, R90), BUS_ERROR. -/
def takeRead (value : Option Word) (n : Nat) (off : Nat) (s : State) : Out :=
  match earlyRefusal 0 s (refusedReads s s.bb.srcBase s.bb.srcLen) with
  | some a => failSessionBus a s
  | none =>
    match value with
    | none => failSessionBus (regionAddr s.bb.srcBase off) s
    | some v => finish { s with result := v, bb := setPos (bbPos s.bb + n) s.bb }

/-- A bit as a word. -/
def bitWord (b : Bool) : Word := (BitVec.ofBool b).setWidth 32

/-- BB_PEEK_BIT (R170): the bit at the cursor; the position does not change. -/
def execBbPeekBit (s : State) : Out :=
  if s.bb.mode ≠ .read then fail .bbMode 0#32 s
  else if atEnd s then fail .bbEof s.bb.bytePos s
  else takeRead ((sessionBit s (bbPos s.bb)).map bitWord) 0 (bbPos s.bb / 8) s

/-- BB_POP_BIT (R171): consume the bit at the cursor. -/
def execBbPopBit (s : State) : Out :=
  if s.bb.mode ≠ .read then fail .bbMode 0#32 s
  else if atEnd s then fail .bbEof s.bb.bytePos s
  else takeRead ((sessionBit s (bbPos s.bb)).map bitWord) 1 (bbPos s.bb / 8) s

/-- BB_TRY_POP_BIT (R172): as BB_POP_BIT, and 0 with the end-of-stream mark in bit 8 at the end. -/
def execBbTryPopBit (s : State) : Out :=
  if s.bb.mode ≠ .read then fail .bbMode 0#32 s
  else if atEnd s then takeRead (some 0x00000100#32) 0 0 s
  else takeRead ((sessionBit s (bbPos s.bb)).map bitWord) 1 (bbPos s.bb / 8) s

/-- The byte BB_POP_BYTE reads at byte `i`, bit index `b` (R173). -/
def poppedByte (s : State) (i b : Nat) : Option Byte :=
  if b = 0 then sessionByte s (8 * i) i
  else
    match sessionByte s (8 * i) i, sessionByte s (8 * i) (i + 1) with
    | some hi, some lo => some (composeByte hi lo b)
    | _, _ => none

/-- The first of the two bytes that the platform refuses. -/
def refusedOffset (s : State) (i : Nat) : Nat := if (sessionByte s 0 i).isNone then i else i + 1

/-- BB_POP_BYTE (R173): consume 8 bits across the bit offset. -/
def execBbPopByte (s : State) : Out :=
  if s.bb.mode ≠ .read then fail .bbMode 0#32 s
  else if 8 * s.bb.srcLen.toNat < bbPos s.bb + 8 then fail .bbEof s.bb.bytePos s
  else
    takeRead ((poppedByte s s.bb.bytePos.toNat s.bb.bitIdx.toNat).map (·.setWidth 32)) 8
      (refusedOffset s s.bb.bytePos.toNat) s

/-- How many bits BB_POP_REST takes from the stream: one for each `j` in `k .. 7` while bits remain (R175). -/
def restCount (s : State) (k : Nat) : Nat := min (8 - k) (8 * s.bb.srcLen.toNat - bbPos s.bb)

/-- BB_POP_REST's byte (R175): the top `k` bits of `partial`, then the stream bits taken, then zeros. -/
def restByte (part : Byte) (k : Nat) (bits : List Bool) : Byte :=
  (part &&& topmask k) ||| packByte fun j => k ≤ j && bits.getD (j - k) false

/-- BB_POP_REST partial, k (R175). -/
def execBbPopRest (part : Byte) (k : BitVec 4) (s : State) : Out :=
  if s.bb.mode ≠ .read then fail .bbMode 0#32 s
  else if 8 ≤ k.toNat then fail .badIndex (k.setWidth 32) s
  else
    let n := restCount s k.toNat
    takeRead
      ((readBits (sessionBit s) (bbPos s.bb) n).map fun bits =>
        (restByte part k.toNat bits).setWidth 32 ||| (BitVec.ofNat 32 n <<< 8))
      n (refusedOffset s (bbPos s.bb / 8)) s

end Sys2Proof.Machine
end

