-- ==== Sys2Proof/Machine/EngineControl.lean ====
section
/-! DEFINITION. The commands of no sub-block (45_engine_control.md): NOP (R382) and SOFT_RESET (R383), and what hardware reset
does to a session and to a running command (70_reset_and_hazards.md R450, R451). -/

namespace Sys2Proof.Machine

/-- The staged cells that a session abandoned by SOFT_RESET turns out to have written (R383, R88 (c)): each byte holds its
pushed value or the old one, a free choice. Log 6. -/
def abandonedCells (s : State) : List Host.Cell :=
  s.bb.staged.filter fun c => Config.freeBit s.env.freeCtr (4 * c.1 + 2)

/-- System memory after SOFT_RESET has abandoned the session without flushing it (R383). -/
def abandonSession (s : State) : Memory :=
  if s.bb.mode = .write then writeCells s (abandonedCells s) else s.memory

/-- NOP (R382): nothing beyond acceptance and completion. -/
def execNop (s : State) : Out := finish s

/-- SOFT_RESET (R383): the session is abandoned, every register and internal memory takes its value of R69, except that
CTRL, WOVR and CMD keep theirs. -/
def execSoftReset (s : State) : Out :=
  finish
    { resetState { s with memory := abandonSession s } with
      doneIe := s.doneIe, errIe := s.errIe, wovr := s.wovr, cmd := s.cmd }

/-- The command writes its DST region (R451). -/
def writesDst : Instr → Bool
  | .serialize => true
  | .compress => true
  | .decompress => true
  | _ => false

/-- The bytes of the DST region of an open write session (R451). -/
def abandonedSessionMemory (s : State) : Memory :=
  if s.bb.mode = .write then scrambleRegion s s.bb.dstBase s.bb.dstCap else s.memory

/-- System memory after a command that was running, and a session that was open, have been abandoned by reset: every byte of
the DST region of a running command that writes one, and of an open write session, is unspecified (R451, R88 (d),
I-RESETCMD). Log 15. -/
def abandonedMemory (s : State) : Memory :=
  let m := abandonedSessionMemory s
  match s.seq, decode s.cmd with
  | .running, .instr i =>
    if writesDst i && regionFits s.latch.dstBase s.latch.dstCap then
      scrambleRegion { s with memory := m } s.latch.dstBase s.latch.dstCap
    else m
  | _, _ => m

/-- One use of the free values has ended. -/
def nextFree (s : State) : State := { s with env := { s.env with freeCtr := s.env.freeCtr + 1 } }

/-- The reset input is asserted (R450, R451): everything under way is abandoned. -/
def assertReset (s : State) : State :=
  { resetState (nextFree { s with memory := abandonedMemory s }) with seq := .inReset }

/-- The reset input is released (R450): the initialisation begins; BUSY reads 1 and DONE 0. That everything else a host can
read meanwhile has its value of R69 already, which R69 fixes for the end of the initialisation only, is the model's
choice, log 28. -/
def releaseReset (s : State) : State :=
  if s.seq = .inReset then { resetState s with seq := .initialising } else s

/-- The reset initialisation ends (R450): every piece of state holds its value of R69, except that WOVR is 1 if a write was
discarded meanwhile. -/
def finishInitialisation (s : State) : State := { resetState s with wovr := s.wovr }

end Sys2Proof.Machine
end

