-- ==== Sys2Proof/Machine/TreeBuilder.lean ====
section
/-! DEFINITION. huffman_tree_builder (41_tree_builder.md): the priority queue and the builder (R200 to R208), the weights of
both coder types (R211, R212), and CLEAR_COUNTS, COUNT, BUILD.P and BUILD.M (R213 to R216). -/

namespace Sys2Proof.Machine

/-! ## The builder -/

/-- A queued node: its tree, its key `(weight, seq)` and its height (R201, R202). -/
structure QNode where
  weight : Nat
  seq : Nat
  height : Nat
  tree : Tree
deriving DecidableEq, Repr

/-- The key order: lexicographic in `(weight, seq)` (R201). -/
def keyBefore (x y : QNode) : Bool := x.weight < y.weight || (x.weight = y.weight && x.seq < y.seq)

/-- `pop_min`: the node with the smallest key, and the others (R201). -/
def popMin : QNode → List QNode → QNode × List QNode
  | m, [] => (m, [])
  | m, x :: xs =>
    if keyBefore x m then
      let (a, rest) := popMin x xs
      (a, m :: rest)
    else
      let (a, rest) := popMin m xs
      (a, x :: rest)

/-- The node is internal. -/
def isInternal : Tree → Bool
  | .leaf _ => false
  | .node _ _ => true

/-- The `k`-th merge of the nodes popped first and second (R202, R205): the taller of two internal nodes goes right,
otherwise the first popped goes left. -/
def mergeNodes (k : Nat) (x y : QNode) : QNode :=
  { weight := x.weight + y.weight
    seq := 256 + k
    height := 1 + max x.height y.height
    tree := if isInternal x.tree && isInternal y.tree && y.height < x.height then .node y.tree x.tree
            else .node x.tree y.tree }

/-- Step 2 (R205, R208): pop two, queue their merge, until one node remains. `fuel` is at least the number of nodes;
each merge leaves one fewer. -/
def mergeLoop : Nat → Nat → QNode → List QNode → QNode
  | 0, _, q, _ => q
  | fuel + 1, k, q, qs =>
    match popMin q qs with
    | (x, []) => x
    | (x, r :: rs) =>
      let (y, rest) := popMin r rs
      mergeLoop fuel (k + 1) (mergeNodes k x y) rest

/-- The leaf queued for a symbol of nonzero weight (R203). -/
def leafNode (sym : Byte) (weight : Nat) : QNode := ⟨weight, sym.toNat, 0, .leaf sym⟩

/-- Step 3 (R206): a single leaf becomes an internal root with that leaf twice. -/
def withInternalRoot : Tree → Tree
  | .leaf s => .node (.leaf s) (.leaf s)
  | .node l r => .node l r

/-- `BuildTree(w)` (R208), the weights given as symbol and weight pairs; `none` is EMPTY (R207). A symbol of weight 0 gets no
leaf (R203). -/
def buildTree (w : List (Byte × Nat)) : Option Tree :=
  match (w.filter fun p => 0 < p.2).map fun p => leafNode p.1 p.2 with
  | [] => none
  | q :: qs => some (withInternalRoot (mergeLoop (qs.length + 1) 0 q qs).tree)

/-! ## Weights -/

/-- The sum of the counts of one symbol over every context, `W[s] = sum over ctx of C[ctx][s]` (R211): cells not listed
are 0. -/
def columnSum (c : CountMatrix) (sym : Nat) : Nat := ((c.filter fun p => p.1 % 256 = sym).map fun p => p.2.toNat).sum

/-- The plain weights `W[0..255]` (R211). -/
def plainWeights (c : CountMatrix) : List (Byte × Nat) :=
  (List.range 256).map fun s => (BitVec.ofNat 8 s, columnSum c s)

/-- The Markov weights of context `ctx`, row `ctx` of the matrix (R212): cells not listed are 0 and get no leaf. -/
def rowWeights (c : CountMatrix) (ctx : Nat) : List (Byte × Nat) :=
  (c.filter fun p => p.1 / 256 = ctx).map fun p => (BitVec.ofNat 8 (p.1 % 256), p.2.toNat)

/-- The plain table store: `T[0] <- BuildTree(W); T[1..255] <- empty` (R215). -/
def plainSlots (c : CountMatrix) : List (Nat × Tree) :=
  match buildTree (plainWeights c) with
  | none => []
  | some t => [(0, t)]

/-- The Markov table store: `T[c] <- BuildTree(C[c][0..255])` for every context (R216). -/
def markovSlots (c : CountMatrix) : List (Nat × Tree) :=
  (List.range 256).filterMap fun ctx => (buildTree (rowWeights c ctx)).map fun t => (ctx, t)

/-! ## Counting -/

/-- COUNT's loop (R214) from SRC offset `i` on, `n` bytes to go; `Except.error off` is a read the platform refuses. -/
def countLoop (rd : Nat → Nat → Option Byte) : Nat → Nat → Byte → CountMatrix → Except Nat CountMatrix
  | 0, _, _, c => .ok c
  | n + 1, i, prev, c =>
    match rd i i with
    | none => .error i
    | some s => countLoop rd n (i + 1) s (setCountCell prev s (saturatingSucc (countCell c prev s)) c)

/-- COUNT meets a refused access: BUS_ERROR, and the count matrix, OUT_LEN and RESULT hold unspecified values (R409, R50,
R51). -/
def failCountBus (a : Word) (s : State) : Out :=
  fail .busError a { unspecifiedResults s with counts := unspecifiedCounts s }

/-! ## Commands -/

/-- CLEAR_COUNTS (R213): every count cell becomes 0. -/
def execClearCounts (s : State) : Out := finish { s with counts := [] }

/-- COUNT (R214): add the statistics of the SRC bytes, `prev` seeded to the space character. -/
def execCount (s : State) : Out :=
  let l := s.latch
  if !regionFits l.srcBase l.srcLen then fail .addrRange 0#32 s
  else if touchesDevice s l.srcBase l.srcLen then .refused .sideEffectRegion
  else
    match earlyRefusal 0 s (refusedReads s l.srcBase l.srcLen) with
    | some a => failCountBus a s
    | none =>
      match countLoop (srcByte s l.srcBase) l.srcLen.toNat 0 Config.spaceSeed s.counts with
      | .error off => failCountBus (regionAddr l.srcBase off) s
      | .ok c => finish { s with counts := c, result := l.srcLen }

/-- BUILD.P (R215): a plain table from the column sums. -/
def execBuildP (s : State) : Out := finish { s with kind := .plain, slots := plainSlots s.counts }

/-- BUILD.M (R216): a Markov table, one tree per row. -/
def execBuildM (s : State) : Out := finish { s with kind := .markov, slots := markovSlots s.counts }

end Sys2Proof.Machine
end

