-- ==== Sys2Proof/Machine/Dispatch.lean ====
section
/-! DEFINITION. What a command does to an engine that has accepted it: one arm per constructor, one direct call of its meaning. -/

namespace Sys2Proof.Machine

def exec (i : Instr) (s : State) : Host.Outcome State Fault Refusal :=
  match i with
  | .nop => Sys2Proof.Machine.execNop s
  | .softReset => Sys2Proof.Machine.execSoftReset s
  | .clearCounts => Sys2Proof.Machine.execClearCounts s
  | .count => Sys2Proof.Machine.execCount s
  | .buildP => Sys2Proof.Machine.execBuildP s
  | .buildM => Sys2Proof.Machine.execBuildM s
  | .clearTable => Sys2Proof.Machine.execClearTable s
  | .serialize => Sys2Proof.Machine.execSerialize s
  | .deserialize => Sys2Proof.Machine.execDeserialize s
  | .compress => Sys2Proof.Machine.execCompress s
  | .decompress => Sys2Proof.Machine.execDecompress s
  | .getEncoding prev sym => Sys2Proof.Machine.execGetEncoding prev sym s
  | .lookup prev byte => Sys2Proof.Machine.execLookup prev byte s
  | .bbOpenWrite => Sys2Proof.Machine.execBbOpenWrite s
  | .bbOpenRead => Sys2Proof.Machine.execBbOpenRead s
  | .bbClose => Sys2Proof.Machine.execBbClose s
  | .bbFlush => Sys2Proof.Machine.execBbFlush s
  | .bbPushBit a => Sys2Proof.Machine.execBbPushBit a s
  | .bbPushByte v => Sys2Proof.Machine.execBbPushByte v s
  | .bbPushDesc => Sys2Proof.Machine.execBbPushDesc s
  | .bbPeekBit => Sys2Proof.Machine.execBbPeekBit s
  | .bbPopBit => Sys2Proof.Machine.execBbPopBit s
  | .bbTryPopBit => Sys2Proof.Machine.execBbTryPopBit s
  | .bbPopByte => Sys2Proof.Machine.execBbPopByte s
  | .bbPopRest part k => Sys2Proof.Machine.execBbPopRest part k s

end Sys2Proof.Machine
end

