-- ==== Sys2Proof/Machine/Flags.lean ====
section
/-! DEFINITION. The engine's only flags, the `STATUS` word (10_state.md R38 to R46), its write-1-to-clear bits, the error codes
as numbers (60_exceptions.md R400), and the interrupt output (R68, R410). -/

namespace Sys2Proof.Machine

/-- `STATUS.ERR_CODE`'s value for an error (R400). -/
def ErrCode.code : ErrCode → Byte
  | .noError => 0x00#8
  | .illegalCmd => 0x01#8
  | .bbMode => 0x02#8
  | .addrRange => 0x03#8
  | .overlap => 0x04#8
  | .noTable => 0x05#8
  | .emptyTable => 0x06#8
  | .noCodeword => 0x07#8
  | .badIndex => 0x08#8
  | .bbEof => 0x09#8
  | .hdrMissing => 0x10#8
  | .hdrSignature => 0x11#8
  | .hdrTypeMismatch => 0x12#8
  | .hdrLength => 0x13#8
  | .truncated => 0x14#8
  | .invalidCodeword => 0x15#8
  | .tableEof => 0x20#8
  | .tableCapacity => 0x21#8
  | .tableLeafRoot => 0x22#8
  | .dstOverflow => 0x30#8
  | .busError => 0x31#8

/-- `STATUS.BB_MODE`'s value (R43). -/
def BbMode.code : BbMode → BitVec 2
  | .closed => 0#2
  | .write => 1#2
  | .read => 2#2

/-- `STATUS.TABLE_KIND`'s value (R44). -/
def TableKind.code : TableKind → BitVec 2
  | .none => 0#2
  | .plain => 1#2
  | .markov => 2#2

/-- `STATUS.BUSY` (R38, R39): a command or the reset initialisation runs. -/
def State.busy (s : State) : Bool := s.seq ≠ .idle

/-- A bit at position `k` of a word. -/
def bitAt (b : Bool) (k : Nat) : Word := (BitVec.ofBool b).setWidth 32 <<< k

/-- The `STATUS` word as a read returns it (R38). -/
def statusWord (s : State) : Word :=
  bitAt s.busy 0 ||| bitAt s.done 1 ||| bitAt s.err 2 ||| bitAt s.wovr 3
    ||| (s.bb.mode.code.setWidth 32 <<< 4) ||| (s.kind.code.setWidth 32 <<< 6)
    ||| (s.errCode.code.setWidth 32 <<< 8) ||| (s.bb.bitIdx.setWidth 32 <<< 16)

/-- A write to `STATUS` clears each of DONE, ERR and WOVR whose bit is 1 in `v`; with ERR go ERR_CODE and ERR_INFO, the
error exit (R38, R40, R41, R42, R406). -/
def writeStatus (v : Word) (s : State) : State :=
  { s with
    done := s.done && !v.getLsbD 1
    err := s.err && !v.getLsbD 2
    wovr := s.wovr && !v.getLsbD 3
    errCode := if v.getLsbD 2 then .noError else s.errCode
    errInfo := if v.getLsbD 2 then 0#32 else s.errInfo }

/-- The `CTRL` word as a read returns it (R37). -/
def ctrlWord (s : State) : Word := bitAt s.doneIe 0 ||| bitAt s.errIe 1

/-- A write to `CTRL` (R37). -/
def writeCtrl (v : Word) (s : State) : State := { s with doneIe := v.getLsbD 0, errIe := v.getLsbD 1 }

/-- A write discarded because BUSY is 1 (R58). -/
def discardWrite (s : State) : State := { s with wovr := true }

/-- The interrupt output (R68, R410); 0 while the reset input is asserted (R450). -/
def irq (s : State) : Bool :=
  s.seq ≠ .inReset && ((s.done && s.doneIe) || (s.err && s.errIe))

end Sys2Proof.Machine
end

