-- ==== Sys2Proof/Machine/HostPort.lean ====
section
/-! DEFINITION. The host's side (10_state.md section 2, 20_memory.md R89, R97): the register map, reads and writes of the
register block with their behaviour while BUSY is 1, and the host's accesses to system memory. -/

namespace Sys2Proof.Machine

/-! ## The register map (R34) -/

/-- A register of the block. -/
inductive HostReg where
  | id
  | ctrl
  | status
  | cmd
  | srcAddr
  | srcLen
  | dstAddr
  | dstCap
  | outLen
  | result
  | errInfo
  | bbBytePos
  | countIdx
  | countData
  | cwLen
  | cwBits (j : Fin 8)
  | reserved
deriving DecidableEq, Repr

/-- The register at an offset that is a multiple of 4 (R34); every other offset is reserved (R35). -/
def hostRegAt (off : Nat) : HostReg :=
  match off with
  | 0x00 => .id
  | 0x04 => .ctrl
  | 0x08 => .status
  | 0x0C => .cmd
  | 0x10 => .srcAddr
  | 0x14 => .srcLen
  | 0x18 => .dstAddr
  | 0x1C => .dstCap
  | 0x20 => .outLen
  | 0x24 => .result
  | 0x28 => .errInfo
  | 0x2C => .bbBytePos
  | 0x30 => .countIdx
  | 0x34 => .countData
  | 0x38 => .cwLen
  | 0x40 => .cwBits 0
  | 0x44 => .cwBits 1
  | 0x48 => .cwBits 2
  | 0x4C => .cwBits 3
  | 0x50 => .cwBits 4
  | 0x54 => .cwBits 5
  | 0x58 => .cwBits 6
  | 0x5C => .cwBits 7
  | _ => .reserved

/-- The register's offset in the block (R34); a reserved one is given by 0x3C. -/
def hostRegOffset : HostReg → Nat
  | .id => 0x00
  | .ctrl => 0x04
  | .status => 0x08
  | .cmd => 0x0C
  | .srcAddr => 0x10
  | .srcLen => 0x14
  | .dstAddr => 0x18
  | .dstCap => 0x1C
  | .outLen => 0x20
  | .result => 0x24
  | .errInfo => 0x28
  | .bbBytePos => 0x2C
  | .countIdx => 0x30
  | .countData => 0x34
  | .cwLen => 0x38
  | .reserved => 0x3C
  | .cwBits j => 0x40 + 4 * j.val

/-! ## Reads (R35 to R59) -/

/-- The value a register holds, as an idle engine returns it. -/
def regValue (s : State) : HostReg → Word
  | .id => Config.idValue
  | .ctrl => ctrlWord s
  | .status => statusWord s
  | .cmd => s.cmd
  | .srcAddr => s.srcAddr
  | .srcLen => s.srcLen
  | .dstAddr => s.dstAddr
  | .dstCap => s.dstCap
  | .outLen => s.outLen
  | .result => s.result
  | .errInfo => s.errInfo
  | .bbBytePos => s.bb.bytePos
  | .countIdx => (s.countCtx.setWidth 32 <<< 8) ||| s.countSym.setWidth 32
  | .countData => countCell s.counts s.countCtx s.countSym
  | .cwLen => s.cwLen.setWidth 32
  | .cwBits j => s.cwBits[j]
  | .reserved => 0#32

/-- A read of the register returns its value also while BUSY is 1 (R59). -/
def readableWhileBusy : HostReg → Bool
  | .id => true
  | .ctrl => true
  | .status => true
  | .cmd => true
  | .srcAddr => true
  | .srcLen => true
  | .dstAddr => true
  | .dstCap => true
  | .countIdx => true
  | .reserved => true
  | .outLen => false
  | .result => false
  | .errInfo => false
  | .bbBytePos => false
  | .countData => false
  | .cwLen => false
  | .cwBits _ => false

/-- The host's read returns `v`. -/
def deliver (v : Word) (s : State) : State := { s with env := { s.env with hostData := v } }

/-- The host's read returns an unspecified value (R59, R97, R450). -/
def deliverUnspecified (s : State) : State := nextFree (deliver (Config.freeWord s.env.freeCtr 0) s)

/-- A 32-bit read of a register (R34, R59): no side effect on the engine (R91). -/
def readReg (r : HostReg) (s : State) : State :=
  if s.seq = .inReset then deliverUnspecified s
  else if s.busy && !readableWhileBusy r then deliverUnspecified s
  else deliver (regValue s r) s

/-! ## Writes (R37, R38, R47 to R58) -/

/-- A write to the register is discarded while BUSY is 1, and sets WOVR (R58). -/
def discardedWhileBusy : HostReg → Bool
  | .cmd => true
  | .srcAddr => true
  | .srcLen => true
  | .dstAddr => true
  | .dstCap => true
  | .countIdx => true
  | .countData => true
  | .cwLen => true
  | .cwBits _ => true
  | .id => false
  | .ctrl => false
  | .status => false
  | .outLen => false
  | .result => false
  | .errInfo => false
  | .bbBytePos => false
  | .reserved => false

/-- What a write that is not discarded does. Writes to read-only and reserved registers are ignored (R34, R35, R58). -/
def regWrite (v : Word) (s : State) : HostReg → State
  | .ctrl => writeCtrl v s
  | .status => writeStatus v s
  | .cmd => acceptCommand v s
  | .srcAddr => { s with srcAddr := v }
  | .srcLen => { s with srcLen := v }
  | .dstAddr => { s with dstAddr := v }
  | .dstCap => { s with dstCap := v }
  | .countIdx => { s with countCtx := v.extractLsb' 8 8, countSym := v.extractLsb' 0 8 }
  | .countData => { s with counts := setCountCell s.countCtx s.countSym v s.counts }
  | .cwLen => { s with cwLen := v.extractLsb' 0 8 }
  | .cwBits j => { s with cwBits := s.cwBits.set j v }
  | .id => s
  | .outLen => s
  | .result => s
  | .errInfo => s
  | .bbBytePos => s
  | .reserved => s

/-- A 32-bit write of a register: ignored while the reset input is asserted (R450), discarded while BUSY is 1 where R58
says so. -/
def writeReg (r : HostReg) (v : Word) (s : State) : State :=
  if s.seq = .inReset then s
  else if s.busy && discardedWhileBusy r then discardWrite s
  else regWrite v s r

/-! ## Accesses by address (R33, R89, R92) -/

/-- The offset of a host address in the register block. Host addresses have 32 bits, and a block placed at the top of the
address space goes on at address 0: the model's choice, log 27. -/
def blockOffset (s : State) (addr : Word) : Nat := (addr - s.env.params.hceBase).toNat

/-- How many bytes of the host's address space an access covers. -/
def accessBytes : AccessWidth → Nat
  | .byte => 1
  | .half => 2
  | .word => 4
  | .double => 8

/-- Some byte of the access is in the register block (R33): it begins there, or it begins below the block and reaches
into it. Addresses go on at 0 past the top of the address space (log 27). -/
def touchesBlock (s : State) (addr : Word) (width : AccessWidth) : Bool :=
  blockOffset s addr < 256 || 2 ^ 32 < blockOffset s addr + accessBytes width

/-- A host access with a byte in the register block: `act` on the register, or a refusal where the access is not a 32-bit one
at a multiple of 4 (I-HOSTACC). An access with no byte there is not one to this engine and changes nothing (log 20). -/
def hostAccess (addr : Word) (width : AccessWidth) (act : HostReg → State → State) (s : State) : Out :=
  let off := blockOffset s addr
  if !touchesBlock s addr width then .next s
  else if width ≠ .word || off % 4 ≠ 0 then .refused .hostAccess
  else .next (act (hostRegAt off) s)

/-! ## Host accesses to system memory (R94 to R97) -/

/-- The address is in the latched SRC region of a running command (R97). -/
def commandSrcInUse (s : State) (a : Nat) : Bool := s.seq = .running && inRegion s.latch.srcBase s.latch.srcLen a

/-- The address is in the SRC region of an open read session (R97). -/
def sessionSrcInUse (s : State) (a : Nat) : Bool := s.bb.mode = .read && inRegion s.bb.srcBase s.bb.srcLen a

/-- The address is in a DST region the engine may be writing (R97). -/
def dstInUse (s : State) (a : Nat) : Bool :=
  (s.seq = .running && inRegion s.latch.dstBase s.latch.dstCap a)
    || (s.bb.mode = .write && inRegion s.bb.dstBase s.bb.dstCap a)

/-- The address is in no window: ordinary memory. -/
def ordinaryMemory (s : State) (a : Word) : Bool := !(s.env.params.windows.any fun w => windowCovers w a.toNat)

/-- A byte of the open write session's DST region that BB_FLUSH has made final and the host has not written since, while no
command runs: R95 gives its value to a host read, although R97 calls every host read of the region unspecified while
the session is open. Log 25. -/
def flushedByte (s : State) (a : Nat) : Bool :=
  s.seq = .idle && s.bb.mode = .write && inRegion s.bb.dstBase s.bb.flushed a && a ∉ s.env.dstRaced

/-- The host's read of a byte of system memory returns `v`. -/
def deliverByte (v : Byte) (s : State) : State := deliver (v.setWidth 32) s

/-- The host reads a byte of system memory; of a DST region in use, an unspecified byte (R97), unless a flush has made it
final (R95). -/
def hostMemRead (a : Word) (s : State) : Out :=
  if !ordinaryMemory s a then .refused .hostMemoryWindow
  else if dstInUse s a.toNat && !flushedByte s a.toNat then
    .next (nextFree (deliverByte (Config.freeByte s.env.freeCtr a.toNat) s))
  else .next (deliverByte (readByte s a) s)

/-- A record of what a byte held before a racing host write. -/
def raceRecord (inUse : Bool) (old : Host.Cell) (races : List Host.Cell) : List Host.Cell :=
  if inUse then old :: races else races

/-- The host writes a byte of system memory. In a SRC region in use the engine may still read the old value; in a DST region
in use the byte's final value is unspecified (R97). -/
def hostMemWrite (a : Word) (v : Byte) (s : State) : Out :=
  if !ordinaryMemory s a then .refused .hostMemoryWindow
  else
    let old : Host.Cell := (a.toNat, readByte s a)
    let raced := { s with
      env := { s.env with
        races := raceRecord (commandSrcInUse s a.toNat) old s.env.races
        sessionRaces := raceRecord (sessionSrcInUse s a.toNat) old s.env.sessionRaces } }
    if dstInUse s a.toNat then
      .next (nextFree { raced with
        memory := Sparse.set a.toNat (Config.freeByte s.env.freeCtr a.toNat) s.memory
        env := { raced.env with dstRaced := a.toNat :: s.env.dstRaced } })
    else .next { raced with memory := Sparse.set a.toNat v s.memory }

end Sys2Proof.Machine
end

