-- ==== Sys2Proof/Machine/Step.lean ====
section
/-! DEFINITION. One step of the machine: the next outside event, or an engine turn (10_state.md R31, R32; log 1, log 2). -/

namespace Sys2Proof.Machine

/-- The accepted command runs: the word in `CMD` is decoded and executed (R380); an illegal one ends in ILLEGAL_CMD (R115). -/
def runCommand (s : State) : Out :=
  match decode s.cmd with
  | .instr i => exec i s
  | .rejected _ => fail .illegalCmd 0#32 s

/-- The engine moves: it runs the accepted command or the reset initialisation (R450), or waits (R416, R452). -/
def engineTurn (s : State) : Out :=
  match s.seq with
  | .idle => .next s
  | .inReset => .next s
  | .initialising => .next (finishInitialisation s)
  | .running => runCommand s

/-- An event takes place. -/
def takeEvent (e : Event) (s : State) : Out :=
  match e with
  | .engine => engineTurn s
  | .read addr width => hostAccess addr width readReg s
  | .write addr width v => hostAccess addr width (fun r => writeReg r v) s
  | .memRead addr => hostMemRead addr s
  | .memWrite addr v => hostMemWrite addr v s
  | .resetOn => .next (assertReset s)
  | .resetOff => .next (releaseReset s)

/-- The events still to come. -/
def withInputs (es : List Event) (s : State) : State := { s with env := { s.env with inputs := es } }

/-- One step: the first event of `env.inputs` takes place; with none left the engine moves. -/
def step (s : State) : Host.Outcome State Fault Refusal :=
  match s.env.inputs with
  | [] => engineTurn s
  | e :: es => takeEvent e (withInputs es s)

/-- The state in which the command word `w` has been accepted and the engine's turn is next, so that the very next step
runs it: what the host's write of `w` to `CMD` does (R380), from outside the machine. Log 2. -/
def State.withFetchWord (s : State) (nbits w : Nat) : State :=
  withInputs (.engine :: s.env.inputs) (latchCommand (BitVec.ofNat 32 (w % 2 ^ nbits)) s)

end Sys2Proof.Machine
end

