-- ==== Sys2Proof/Machine/Script.lean ====
section
/-! DEFINITION. What program text means (30_encoding.md R119, R120): the host operations, a command mnemonic, and the
pseudo-instructions, as lists of events. -/

namespace Sys2Proof.Machine

/-- `WR <register>, <value>` on a block at `base` (R119). -/
def wrReg (base : Word) (r : HostReg) (v : Word) : Event := .write (regionAddr base (hostRegOffset r)) .word v

/-- `RD <register>` (R119). -/
def rdReg (base : Word) (r : HostReg) : Event := .read (regionAddr base (hostRegOffset r)) .word

/-- `WAIT` (R120): the engine moves until `BUSY` is 0, which in this model is one move, and the host reads `STATUS`. -/
def waitScript (base : Word) : List Event := [.engine, rdReg base .status]

/-- A command mnemonic in program text: `WR CMD, <word>` and `WAIT` (R120). -/
def issueScript (base : Word) (i : Instr) : List Event := wrReg base .cmd (encode i) :: waitScript base

/-- `SETSRC addr, len`. -/
def setSrcScript (base addr len : Word) : List Event := [wrReg base .srcAddr addr, wrReg base .srcLen len]

/-- `SETDST addr, cap`. -/
def setDstScript (base addr cap : Word) : List Event := [wrReg base .dstAddr addr, wrReg base .dstCap cap]

/-- `TRAIN.P`. -/
def trainPScript (base : Word) : List Event :=
  issueScript base .clearCounts ++ issueScript base .count ++ issueScript base .buildP

/-- `TRAIN.M`. -/
def trainMScript (base : Word) : List Event :=
  issueScript base .clearCounts ++ issueScript base .count ++ issueScript base .buildM

/-- `SETCOUNT ctx, sym, n`. -/
def setCountScript (base : Word) (ctx sym : Byte) (n : Word) : List Event :=
  [wrReg base .countIdx ((ctx.setWidth 32 <<< 8) ||| sym.setWidth 32), wrReg base .countData n]

/-- `PUSHCW len, w0`. -/
def pushCwScript (base : Word) (len : Byte) (w0 : Word) : List Event :=
  [wrReg base .cwLen (len.setWidth 32), wrReg base (.cwBits 0) w0] ++
    ([1, 2, 3, 4, 5, 6, 7] : List (Fin 8)).map (fun j => wrReg base (.cwBits j) 0#32) ++ issueScript base .bbPushDesc

/-- `ACKERR`: `WR STATUS, 0x4`. -/
def ackErrScript (base : Word) : List Event := [wrReg base .status 0x4#32]

/-- `ACKDONE`: `WR STATUS, 0x2`. -/
def ackDoneScript (base : Word) : List Event := [wrReg base .status 0x2#32]

end Sys2Proof.Machine
end

