-- ==== Sys2Proof/Safety.lean ====
section
/-! DEFINITION. The terms claims use: what holds of every state a run reaches (the invariant, part by part), which regions of
system memory are ordinary and undisturbed, and what a command leaves alone. Every predicate is decidable. -/

namespace Sys2Proof.Machine

/-! ## The invariant -/

/-- What the status bits keep (10_state.md R40, R41, R45; 44_codec.md R348): DONE and ERR are never both 1; ERR_CODE and
ERR_INFO are 0 while ERR is 0; no code is written that is not of the table, INVALID_CODEWORD among them; none of the two
bits is set while a command, the reset or its initialisation runs. -/
abbrev StatusOk (s : State) : Prop :=
  ¬ (s.done = true ∧ s.err = true) ∧ (s.err = false → s.errCode = .noError ∧ s.errInfo = 0#32)
    ∧ (s.err = true → s.errCode ≠ .noError) ∧ s.errCode ≠ .invalidCodeword
    ∧ (s.seq ≠ .idle → s.done = false ∧ s.err = false)

/-- While a command runs, the latched regions are the registers' (45_engine_control.md R380). -/
abbrev LatchOk (s : State) : Prop :=
  s.seq = .running → s.latch = ⟨s.srcAddr, s.srcLen, s.dstAddr, s.dstCap⟩

/-- The number of nodes of a tree. -/
def treeNodes : Tree → Nat
  | .leaf _ => 1
  | .node l r => treeNodes l + treeNodes r + 1

/-- A tree that a slot may hold: an internal root and at most 511 nodes (10_state.md R62, 43_serialization.md R306). -/
abbrev TreeOk (t : Tree) : Prop := isInternal t = true ∧ treeNodes t ≤ Config.nodeCap

/-- The table store (10_state.md R61): slots in order, each a tree within its bounds; none without a table, only slot 0 of a
plain one. -/
abbrev TablesOk (s : State) : Prop :=
  s.slots.Pairwise (fun x y => x.1 < y.1) ∧ (∀ p ∈ s.slots, p.1 < 256 ∧ TreeOk p.2)
    ∧ (s.kind = .none → s.slots = []) ∧ (s.kind = .plain → ∀ p ∈ s.slots, p.1 = 0)

/-- How many bytes of the session are known to be written to DST. -/
def drainedCount (b : BitBuffer) : Nat := b.bytePos.toNat - b.staged.length

/-- The session (40_bit_buffer.md R141, R142, R144): regions do not wrap; a position never passes the region's end; in WRITE
mode `WS` has `pos` bits, `P` is its last partial byte, and the staged bytes are the last completed ones, each
`window(WS, 8k)` at DST offset `k`, and what a flush has made final has left the staging area; otherwise nothing is
staged. -/
abbrev SessionOk (b : BitBuffer) : Prop :=
  regionFits b.srcBase b.srcLen = true ∧ regionFits b.dstBase b.dstCap = true
    ∧ (b.mode = .read → bbPos b ≤ 8 * b.srcLen.toNat)
    ∧ (b.mode ≠ .write → b.staged = [])
    ∧ (b.mode = .write →
        bbPos b ≤ 8 * b.dstCap.toNat ∧ b.ws.length = bbPos b ∧ b.part = window b.ws (8 * b.bytePos.toNat)
        ∧ b.staged.length ≤ b.bytePos.toNat ∧ b.flushed.toNat ≤ drainedCount b
        ∧ b.staged = (List.range' (drainedCount b) b.staged.length).map
            (fun k => cellAt b.dstBase k (window b.ws (8 * k))))

/-- The DST bytes of an open write session that have left the staging area hold their final values (20_memory.md R88 (c)), except
where the host wrote to them (R97). Said for a platform that refuses nothing: a BUS_ERROR leaves the session
unspecified (60_exceptions.md R409). -/
abbrev DrainedOk (s : State) : Prop :=
  s.env.params.windows = [] → s.bb.mode = .write →
    ∀ k < drainedCount s.bb, (regionAddr s.bb.dstBase k).toNat ∉ s.env.dstRaced →
      readByte s (regionAddr s.bb.dstBase k) = window s.bb.ws (8 * k)

/-- What holds of every reachable state. -/
abbrev Inv (s : State) : Prop :=
  StatusOk s ∧ LatchOk s ∧ TablesOk s ∧ SessionOk s.bb ∧ DrainedOk s ∧ Memory.wf s.memory ∧ CountMatrix.wf s.counts

/-! ## Runs -/

/-- A start of the machine: the state after reset, with any system memory in its form, any parameters, and any outside
events to come. -/
def startState (m : Memory) (p : Params) (es : List Event) : State :=
  { State.reset with memory := m, env := { State.reset.env with params := p, inputs := es } }

/-- The states that runs reach. -/
inductive Reachable : State → Prop where
  | start (m : Memory) (p : Params) (es : List Event) (h : Memory.wf m) : Reachable (startState m p es)
  | step (s t : State) (h : Reachable s) (hs : step s = .next t) : Reachable t

/-! ## Regions -/

/-- The region meets no window of the platform: every byte of it is ordinary memory. -/
abbrev PlainRegion (s : State) (base len : Word) : Prop :=
  len.toNat = 0 ∨ ∀ w ∈ s.env.params.windows,
    w.size = 0 ∨ w.base + w.size ≤ base.toNat ∨ base.toNat + len.toNat ≤ w.base

/-- A SRC region of ordinary memory that does not wrap, for none of whose bytes `others` holds another value. -/
abbrev QuietSrcOf (s : State) (others : List Host.Cell) (base len : Word) : Prop :=
  regionFits base len = true ∧ PlainRegion s base len ∧ ∀ c ∈ others, inRegion base len c.1 = false

/-- A SRC region for a command: with no staged byte in it and no host write racing with the command. -/
abbrev QuietSrc (s : State) (base len : Word) : Prop := QuietSrcOf s (commandOthers s) base len

/-- A DST region of ordinary memory that does not wrap, with no host access racing with the engine, in a memory of the
canonical form. -/
abbrev QuietDst (s : State) (base len : Word) : Prop :=
  regionFits base len = true ∧ PlainRegion s base len ∧ (∀ a ∈ s.env.dstRaced, inRegion base len a = false)
    ∧ Memory.wf s.memory

/-- The bytes of a region, in order. -/
def regionBytes (s : State) (base : Word) (len : Nat) : List Byte :=
  (List.range len).map fun i => readByte s (regionAddr base i)

/-- The stream bits of a region's bytes, in order (R11, R142). -/
def regionBits (s : State) (base : Word) (len : Nat) : List Bool := (regionBytes s base len).flatMap byteBits

/-! ## What the formats say, without a machine -/

/-- The node a codeword leads to: 0 to the left, 1 to the right (42_lookup_tables.md R251). -/
def treeAt : Tree → List Bool → Option Tree
  | t, [] => some t
  | .node l _, false :: bs => treeAt l bs
  | .node _ r, true :: bs => treeAt r bs
  | .leaf _, _ :: _ => none

/-- The node that following the bits from `t` meets first: a leaf, or the node where the bits end, with the number of bits
used (42_lookup_tables.md R257). -/
def followBits : Tree → List Bool → Tree × Nat
  | .node l r, b :: bs =>
    let (t, d) := followBits (if b then r else l) bs
    (t, d + 1)
  | t, _ => (t, 0)

/-- The tree that the table store holds for the context `prev` (42_lookup_tables.md R258): slot 0 of a plain table, slot `prev` of a
Markov table. -/
def treeFor (kind : TableKind) (slots : List (Nat × Tree)) (prev : Byte) : Option Tree :=
  slotTree slots (if kind = .markov then prev.toNat else 0)

/-- The serialized form of a tree (43_serialization.md R301). -/
def treeBits : Tree → List Bool
  | .leaf s => true :: byteBits s
  | .node l r => false :: (treeBits l ++ treeBits r)

/-- The serialized form of one slot of a Markov table: the presence bit, then the tree (R303). -/
def slotBits (slots : List (Nat × Tree)) (c : Nat) : List Bool :=
  match slotTree slots c with
  | some t => true :: treeBits t
  | none => [false]

/-- The encoding-table file before its padding (R302, R303); `none` for no table and for a plain table with no tree. -/
def tableBits (kind : TableKind) (slots : List (Nat × Tree)) : Option (List Bool) :=
  match kind, slotTree slots 0 with
  | .plain, some t => some (false :: treeBits t)
  | .plain, none => none
  | .markov, _ => some (true :: (List.range 256).flatMap (slotBits slots))
  | .none, _ => none

/-- The concatenated codewords of the bytes, each in the context of the one before it (44_codec.md R335); `none` where a byte
has no codeword. -/
def codeBits (kind : TableKind) (slots : List (Nat × Tree)) : Byte → List Byte → Option (List Bool)
  | _, [] => some []
  | prev, b :: bs =>
    match (treeFor kind slots prev).bind (encTable · b), codeBits kind slots b bs with
    | some code, some rest => some (code ++ rest)
    | _, _ => none

/-- The bits are codewords of the bytes, one after the other, each a path to a leaf of the tree that the byte before selects
(44_codec.md R341): what a decoder accepts. Where two leaves of a tree carry one symbol, either path spells it. -/
def Spells (kind : TableKind) (slots : List (Nat × Tree)) : Byte → List Byte → List Bool → Prop
  | _, [], bits => bits = []
  | prev, b :: bs, bits =>
    ∃ (t : Tree) (code rest : List Bool), treeFor kind slots prev = some t ∧ treeAt t code = some (.leaf b)
      ∧ bits = code ++ rest ∧ Spells kind slots b bs rest

/-- A node as `ReadNode` reads it (43_serialization.md R305): the marker 0 of an internal node, or the marker 1 and the symbol of a
leaf. -/
def nodeBits : Option Byte → List Bool
  | none => [false]
  | some s => true :: byteBits s

/-- How many subtrees are still to be read, of `k` to be read, after the nodes in the order `ReadNode` reads them: an internal
node is read and asks for two, a leaf is read and asks for none. `none` where nodes follow a finished structure. -/
def openSubtrees : Nat → List (Option Byte) → Option Nat
  | k, [] => some k
  | 0, _ :: _ => none
  | k + 1, none :: ns => openSubtrees (k + 2) ns
  | k + 1, some _ :: ns => openSubtrees k ns

/-- The nodes begin a tree and do not finish it. -/
def UnfinishedTree (ns : List (Option Byte)) : Prop := ∃ k, openSubtrees 1 ns = some (k + 1)

/-- The bits are those of a table file up to a place where `ReadTree` begins (43_serialization.md R304): the discriminant of a plain
table, or that of a Markov table, the slots before some slot, each empty or a tree within its bounds, and the presence
bit of that slot. -/
def BeforeTree (bits : List Bool) : Prop :=
  bits = [false] ∨
    ∃ before : List (Option Tree), before.length < 256 ∧ (∀ t, some t ∈ before → TreeOk t)
      ∧ bits = true :: before.flatMap (fun slot => match slot with | some t => true :: treeBits t | none => [false]) ++ [true]

/-- How many bytes hold `n` bits. -/
def bytesFor (n : Nat) : Nat := (n + 7) / 8

/-- Memory `m` holds the bytes of `bits`, zero padded, from offset `off` of the region on. -/
abbrev HoldsBits (m : Memory) (base : Word) (off : Nat) (bits : List Bool) : Prop :=
  ∀ k < bytesFor bits.length, Sparse.get (regionAddr base (off + k)).toNat m = window bits (8 * k)

/-- Memory `m` reads as the state's at every address outside the first `n` bytes of the region. -/
def SameOutside (s : State) (m : Memory) (base : Word) (n : Nat) : Prop :=
  ∀ a : Word, (∀ k < n, a ≠ regionAddr base k) → Sparse.get a.toNat m = readByte s a

/-! ## When a command can complete -/

/-- A write session whose DST region nothing disturbs. -/
abbrev Writing (s : State) : Prop :=
  s.bb.mode = .write ∧ SessionOk s.bb ∧ QuietDst s s.bb.dstBase s.bb.dstCap

/-- The bytes of the write session that have left the staging area are in DST (20_memory.md R88 (c)); `DrainedOk` gives
this of every reachable state where nothing disturbs the region. -/
abbrev DrainedBytes (s : State) : Prop :=
  ∀ k < drainedCount s.bb, readByte s (regionAddr s.bb.dstBase k) = window s.bb.ws (8 * k)

/-- A read session whose SRC region nothing disturbs. -/
abbrev Reading (s : State) : Prop :=
  s.bb.mode = .read ∧ SessionOk s.bb ∧ QuietSrcOf s s.env.sessionRaces s.bb.srcBase s.bb.srcLen

/-- The source stream `RS` of a read session (40_bit_buffer.md R142). -/
def sessionBits (s : State) : List Bool := regionBits s s.bb.srcBase s.bb.srcLen.toNat

/-- COMPRESS and DECOMPRESS pass their checks of regions, mode and table, and nothing disturbs the regions. -/
abbrev CodecReady (s : State) : Prop :=
  s.bb.mode = .closed ∧ s.kind ≠ .none ∧ QuietSrc s s.latch.srcBase s.latch.srcLen
    ∧ QuietDst s s.latch.dstBase s.latch.dstCap ∧ regionsOverlap s.latch = false

/-- The bytes of the latched SRC region. -/
def sourceBytes (s : State) : List Byte := regionBytes s s.latch.srcBase s.latch.srcLen.toNat

/-- The context after the bytes `bs`, from the seed on (44_codec.md R331, R341). -/
def contextAfter (bs : List Byte) : Byte := bs.getLast?.getD 0x20#8

/-- A write stream in its form (40_bit_buffer.md R141): fewer than 8 bits in `P`, and zeros below them. -/
abbrev WriterOk (w : Writer) : Prop := w.idx < 8 ∧ w.part = window ((byteBits w.part).take w.idx) 0

/-! ## The builder, as a relation (41_tree_builder.md R208) -/

/-- `Merges k qs t`: the queue `qs` with `k` merges done becomes the one tree `t` by popping two nodes, each of the smallest key
`(weight, seq)`, and queueing their merge, again and again; of two internal nodes popped the taller goes right, otherwise the
first popped goes left. -/
inductive Merges : Nat → List QNode → Tree → Prop where
  | done (k : Nat) (q : QNode) : Merges k [q] q.tree
  | merge (k : Nat) (qs rest : List QNode) (x y : QNode) (t : Tree) (hperm : qs.Perm (x :: y :: rest))
      (hx : ∀ z ∈ y :: rest, x.weight < z.weight ∨ (x.weight = z.weight ∧ x.seq < z.seq))
      (hy : ∀ z ∈ rest, y.weight < z.weight ∨ (y.weight = z.weight ∧ y.seq < z.seq))
      (hrest : Merges (k + 1)
        (⟨x.weight + y.weight, 256 + k, 1 + max x.height y.height,
          if isInternal x.tree = true ∧ isInternal y.tree = true ∧ y.height < x.height then .node y.tree x.tree
          else .node x.tree y.tree⟩ :: rest) t) :
      Merges k qs t

/-- The symbols of a tree's leaves, left to right. -/
def leafSyms : Tree → List Byte
  | .leaf s => [s]
  | .node l r => leafSyms l ++ leafSyms r

/-- The largest depth of a leaf. -/
def treeDepth : Tree → Nat
  | .leaf _ => 0
  | .node l r => 1 + max (treeDepth l) (treeDepth r)

/-! ## Host accesses to the register block -/

/-- The host writes `v` at an offset of the register block. -/
def hostWrite (off : Nat) (v : Word) (s : State) : Out :=
  takeEvent (.write (s.env.params.hceBase + BitVec.ofNat 32 off) .word v) s

/-- The host reads at an offset of the register block. -/
def hostRead (off : Nat) (s : State) : Out :=
  takeEvent (.read (s.env.params.hceBase + BitVec.ofNat 32 off) .word) s

/-- The state in which the host has read `v`, and nothing else has changed. -/
def withHostData (v : Word) (s : State) : State := { s with env := { s.env with hostData := v } }

/-- The offsets whose writes are discarded while BUSY is 1 (10_state.md R58). -/
def guardedOffsets : List Nat :=
  [0x0C, 0x10, 0x14, 0x18, 0x1C, 0x30, 0x34, 0x38, 0x40, 0x44, 0x48, 0x4C, 0x50, 0x54, 0x58, 0x5C]

/-- The reserved offsets (10_state.md R34). -/
def reservedOffsets : List Nat := 0x3C :: (List.range 40).map fun j => 0x60 + 4 * j

/-- The read-only registers' offsets (10_state.md R34). -/
def readOnlyOffsets : List Nat := [0x00, 0x20, 0x24, 0x28, 0x2C]

/-! ## Frames -/

/-- The model's own fields after a command: the events to come, the host's read data and the parameters are as before; the
counter of the free values and the records of raced bytes move on. -/
abbrev KeepsEnv (e e' : Env) : Prop :=
  e'.inputs = e.inputs ∧ e'.hostData = e.hostData ∧ e'.params = e.params

/-- The command completed (45_engine_control.md R381): the engine is idle and DONE is 1; every other field is that of `t`, the
state `s` with what the command's rule writes. -/
def CompletesTo (o : Out) (s t : State) : Prop :=
  ∃ e : Env, KeepsEnv s.env e ∧ o = .next { t with seq := .idle, done := true, env := e }

/-- The command ended in `Error(code, info)` (60_exceptions.md R404): the engine is idle, ERR is 1, ERR_CODE and ERR_INFO are set;
every other field is that of `t`. -/
def FailsTo (o : Out) (s : State) (code : ErrCode) (info : Word) (t : State) : Prop :=
  ∃ e : Env, KeepsEnv s.env e ∧
    o = .next { t with seq := .idle, err := true, errCode := code, errInfo := info, env := e }

/-- The command ended in BUS_ERROR with an address that the platform refuses (60_exceptions.md R409); every other field is that
of `t`. -/
def FailsBus (o : Out) (s t : State) : Prop :=
  ∃ a : Word, (refusesRead s a = true ∨ refusesWrite s a = true) ∧ FailsTo o s .busError a t

/-- What a streaming error leaves (60_exceptions.md R405 (d)): everything but OUT_LEN, RESULT and the bytes of the DST region. -/
def FailsStreaming (o : Out) (s : State) (code : ErrCode) (info : Word) : Prop :=
  ∃ (m : Memory) (outLen result : Word),
    FailsTo o s code info { s with memory := m, outLen := outLen, result := result }
      ∧ SameOutside s m s.latch.dstBase s.latch.dstCap.toNat

/-- What a push of `bits` does (40_bit_buffer.md R141, R159; 20_memory.md R88 (c)): the bits are appended to `WS`, the position moves by
their number, `P` is the last partial byte of `WS`; each byte completed and not yet known to be written holds its old or
its final value, and no other byte of memory changes. -/
def PushAppends (o : Out) (s : State) (bits : List Bool) : Prop :=
  let pos := bbPos s.bb + bits.length
  let ws := s.bb.ws ++ bits
  ∃ (staged : List Host.Cell) (m : Memory),
    CompletesTo o s
        { s with
          bb := { setPos pos s.bb with ws := ws, part := window ws (8 * (pos / 8)), staged := staged }
          memory := m }
      ∧ (∀ a : Word, (∀ k, drainedCount s.bb ≤ k → k < pos / 8 → a ≠ regionAddr s.bb.dstBase k) →
          Sparse.get a.toNat m = readByte s a)
      ∧ ∀ k, drainedCount s.bb ≤ k → k < pos / 8 →
          Sparse.get (regionAddr s.bb.dstBase k).toNat m = readByte s (regionAddr s.bb.dstBase k)
          ∨ Sparse.get (regionAddr s.bb.dstBase k).toNat m = window ws (8 * k)

/-- What `flush()` of the session leads to (40_bit_buffer.md R154, R155; 20_memory.md R88 (c)), the mode becoming `mode`: `WS` padded with zeros to
whole bytes, every byte below the new position in DST and final, OUT_LEN that position in bytes, and no other byte of memory
changed. -/
def FlushesTo (o : Out) (s : State) (mode : BbMode) : Prop :=
  let n := bytesFor (bbPos s.bb)
  let ws := s.bb.ws ++ List.replicate ((8 - s.bb.bitIdx.toNat) % 8) false
  ∃ m : Memory,
    CompletesTo o s
        { s with
          bb := { setPos (8 * n) s.bb with mode := mode, ws := ws, part := 0#8, staged := [], flushed := BitVec.ofNat 32 n }
          memory := m
          outLen := BitVec.ofNat 32 n }
      ∧ (∀ k < n, Sparse.get (regionAddr s.bb.dstBase k).toNat m = window ws (8 * k))
      ∧ ∀ a : Word, (∀ k, drainedCount s.bb ≤ k → k < n → a ≠ regionAddr s.bb.dstBase k) →
          Sparse.get a.toNat m = readByte s a

/-! ## Which commands may write what -/

/-- A command of the bit buffer (40_bit_buffer.md). -/
def usesSession : Instr → Bool
  | .bbOpenWrite => true
  | .bbOpenRead => true
  | .bbClose => true
  | .bbFlush => true
  | .bbPushBit _ => true
  | .bbPushByte _ => true
  | .bbPushDesc => true
  | .bbPeekBit => true
  | .bbPopBit => true
  | .bbTryPopBit => true
  | .bbPopByte => true
  | .bbPopRest _ _ => true
  | _ => false

/-- A command that writes RESULT on completion (10_state.md R51). -/
def writesResult : Instr → Bool
  | .count => true
  | .lookup _ _ => true
  | .serialize => true
  | .deserialize => true
  | .compress => true
  | .decompress => true
  | .bbPeekBit => true
  | .bbPopBit => true
  | .bbTryPopBit => true
  | .bbPopByte => true
  | .bbPopRest _ _ => true
  | _ => false

/-- A command that may write OUT_LEN on completion (10_state.md R50). -/
def writesOutLen : Instr → Bool
  | .serialize => true
  | .compress => true
  | .decompress => true
  | .bbFlush => true
  | .bbClose => true
  | _ => false

/-- GET_ENCODING, the one command that writes the descriptor registers (10_state.md R56). -/
def writesDescriptor : Instr → Bool
  | .getEncoding _ _ => true
  | _ => false

end Sys2Proof.Machine
end

