-- ==== Sys2Proof/Certificates/Slice0/Obligations.lean ====
section
/-! DEFINITION. The statements for the provers, from the numbered rules of spec/. A statement about a command is made of
`exec`, the meaning of an accepted command; `StepRunsTheDecodedCommand` ties it to a step. A completion statement gives the
whole next state (`CompletesTo`), so it is the command's frame as well. -/

open Sys2Proof Sys2Proof.Machine

/-! ## The command word (30_encoding.md) -/

/-- Decoding the encoding of a well-formed instruction gives it back (R111, R114, R116). -/
def Obligations.DecodeOfEncode : Prop := ∀ i : Instr, WellFormed i → decode (encode i) = .instr i

/-- A word that decodes is the encoding of what it decodes to, which is well formed: no bit of a word is dropped (R111, R116,
R117). -/
def Obligations.EncodeOfDecode : Prop :=
  ∀ (w : Word) (i : Instr), decode w = .instr i → WellFormed i ∧ encode i = w

/-- R115: the rows are pairwise disjoint; a selected row is the one decoded; the acceptance of a word that selects none ends at
once in ILLEGAL_CMD, and what it changes is the state of acceptance (R380) and of the error entry. -/
def Obligations.CommandWordSelectsOneRow : Prop :=
  (∀ (w : Word) (j k : Fin opRows.length), opRows[j].selects w = true → opRows[k].selects w = true → j = k)
  ∧ (∀ (w : Word), ∀ r ∈ opRows, r.selects w = true → decode w = .instr (r.build w))
  ∧ ∀ (s : State) (w : Word), s.seq = .idle → (∀ r ∈ opRows, r.selects w = false) →
      ∃ e : Env, KeepsEnv s.env e ∧
        hostWrite 0x0C w s = .next
          { s with
            cmd := w, latch := ⟨s.srcAddr, s.srcLen, s.dstAddr, s.dstCap⟩
            done := false, err := true, errCode := .illegalCmd, errInfo := 0#32, env := e }

/-- R117: a word is legal exactly when its opcode is not reserved and every field the opcode requires to be 0 is 0; no word but
0 decodes to NOP. -/
def Obligations.LegalWordFields : Prop :=
  ∀ w : Word,
    ((∃ i, decode w = .instr i) ↔
      (¬ (0x0A#8 ≤ fieldOpc w ∧ fieldOpc w ≤ 0x0F#8) ∧ ¬ (0x12#8 ≤ fieldOpc w ∧ fieldOpc w ≤ 0x1F#8)
        ∧ fieldOpc w ≠ 0x27#8 ∧ ¬ 0x2D#8 ≤ fieldOpc w)
      ∧ w.extractLsb' 9 3 = 0#3
      ∧ (fieldM w = 0#1 ∨ fieldOpc w = 0x04#8)
      ∧ (fieldK w = 0#4 ∨ fieldOpc w = 0x2C#8)
      ∧ (fieldA w = 0#8 ∨ fieldOpc w ∈ [0x10#8, 0x11#8, 0x25#8, 0x2C#8] ∨ (fieldOpc w = 0x24#8 ∧ fieldA w = 1#8))
      ∧ (fieldB w = 0#8 ∨ fieldOpc w ∈ [0x10#8, 0x11#8]))
    ∧ (decode w = .instr .nop ↔ w = 0#32)

/-- Words of every family decode to the commands they stand for (R111, R114; the words of 95_test_vectors.md). -/
def Obligations.SpecWordsDecode : Prop :=
  decode 0x00000001#32 = .instr .softReset ∧ decode 0x00000003#32 = .instr .count
  ∧ decode 0x00000004#32 = .instr .buildP ∧ decode 0x00000104#32 = .instr .buildM
  ∧ decode 0x00000007#32 = .instr .deserialize ∧ decode 0x00000008#32 = .instr .compress
  ∧ decode 0x61200010#32 = .instr (.getEncoding 0x20#8 0x61#8)
  ∧ decode 0x7F000011#32 = .instr (.lookup 0x00#8 0x7F#8)
  ∧ decode 0x00010024#32 = .instr (.bbPushBit 1#8) ∧ decode 0x00AB0025#32 = .instr (.bbPushByte 0xAB#8)
  ∧ decode 0x00A0302C#32 = .instr (.bbPopRest 0xA0#8 3#4)
  ∧ decode 0x00020024#32 = .rejected .nonzeroField ∧ decode 0x000000FF#32 = .rejected .reservedOpcode

/-- When an accepted command is to run and no outside event comes before the engine's turn, the step is `exec` of the decoded
command; and a command word that stands accepted (log 2) is what the very next step runs. -/
def Obligations.StepRunsTheDecodedCommand : Prop :=
  (∀ (s : State) (i : Instr), s.seq = .running → decode s.cmd = .instr i →
    (s.env.inputs = [] → step s = exec i s)
    ∧ ∀ es : List Event, s.env.inputs = .engine :: es → step s = exec i (withInputs es s))
  ∧ ∀ (s : State) (i : Instr), WellFormed i →
      step (s.withFetchWord 32 (encode i).toNat) = exec i (latchCommand (encode i) s)

/-! ## Acceptance, completion, and what ends a command (45_engine_control.md, 60_exceptions.md) -/

/-- R380: a CMD write while BUSY is 0 is accepted in one step; an illegal word ends in ILLEGAL_CMD; a legal one then runs; WOVR is not
changed; and the latched copies equal the registers for the whole command, whatever happens while it runs. What the host wrote
to memory before is what the command's reads see (R94, its part on commands), where no write session holds another byte
staged. -/
def Obligations.CommandAcceptance : Prop :=
  (∀ (s : State) (w : Word) (i : Instr), s.seq = .idle → decode w = .instr i →
    hostWrite 0x0C w s = .next
      { s with
        cmd := w, seq := .running, latch := ⟨s.srcAddr, s.srcLen, s.dstAddr, s.dstCap⟩
        done := false, err := false, errCode := .noError, errInfo := 0#32, env := { s.env with races := [] } })
  ∧ (∀ (s : State) (w : Word) (why : Rejection), s.seq = .idle → decode w = .rejected why →
    ∃ e : Env, KeepsEnv s.env e ∧
      hostWrite 0x0C w s = .next
        { s with
          cmd := w, latch := ⟨s.srcAddr, s.srcLen, s.dstAddr, s.dstCap⟩
          done := false, err := true, errCode := .illegalCmd, errInfo := 0#32, env := e })
  ∧ (∀ (s : State) (i : Instr), s.seq = .running → decode s.cmd = .instr i → takeEvent .engine s = exec i s)
  ∧ (∀ (s t : State) (e : Event), s.seq = .running → LatchOk s → takeEvent e s = .next t → t.seq = .running →
      LatchOk t ∧ t.latch = s.latch ∧ t.cmd = s.cmd)
  ∧ ∀ (s t : State) (w base : Word) (k off : Nat), s.seq = .idle → hostWrite 0x0C w s = .next t → t.seq = .running →
      (∀ c ∈ s.bb.staged, c.1 ≠ (regionAddr base off).toNat) → refusesRead s (regionAddr base off) = false →
      srcByte t base k off = some (readByte s (regionAddr base off))

/-- R384: a command that ends, ends in exactly one way, by completion (R381) or by the error entry (R404); and every command
ends, unless it is given a region with side effects, which a model refuses (93_implementation_defined.md I-SIDEEFFECT). -/
def Obligations.EveryCommandEndsOnce : Prop :=
  (∀ (i : Instr) (s t : State), s.done = false → s.err = false → s.errCode = .noError → s.errInfo = 0#32 →
    exec i s = .next t →
      t.seq = .idle
      ∧ ((t.done = true ∧ t.err = false ∧ t.errCode = .noError ∧ t.errInfo = 0#32)
        ∨ (t.done = false ∧ t.err = true ∧ t.errCode ≠ .noError ∧ t.errCode ≠ .invalidCodeword)))
  ∧ ∀ (i : Instr) (s : State), (∀ w ∈ s.env.params.windows, w.kind ≠ .device) → ∃ t, exec i s = .next t

/-- R382, R213, R263: NOP changes nothing beyond acceptance and completion; CLEAR_COUNTS makes every count 0; CLEAR_TABLE makes the
table kind NONE and every slot empty. Nothing else changes. -/
def Obligations.NopAndClearsComplete : Prop :=
  ∀ s : State,
    CompletesTo (exec .nop s) s s
    ∧ (∃ c, CompletesTo (exec .clearCounts s) s { s with counts := c } ∧ ∀ ctx sym, countCell c ctx sym = 0#32)
    ∧ ∃ sl, CompletesTo (exec .clearTable s) s { s with kind := .none, slots := sl } ∧ ∀ k, slotTree sl k = none

/-- R383: SOFT_RESET, in any state, completes and gives every register and internal memory its value of R69, keeping CTRL, WOVR and
CMD. No byte of memory changes without a write session; of an abandoned one, each byte below `BB_BYTEPOS` holds its old
or its pushed value, where the host has not raced on the region, and no other byte changes. The fields that R69 does not
name take the model's reset values (log 19). -/
def Obligations.SoftResetCompletes : Prop :=
  ∀ s : State,
    ∃ m : Memory,
      CompletesTo (exec .softReset s) s
          { State.reset with doneIe := s.doneIe, errIe := s.errIe, wovr := s.wovr, cmd := s.cmd, memory := m }
      ∧ (s.bb.mode ≠ .write → m = s.memory)
      ∧ (SessionOk s.bb → ∀ a : Word, (∀ k < s.bb.bytePos.toNat, a ≠ regionAddr s.bb.dstBase k) →
          Sparse.get a.toNat m = readByte s a)
      ∧ (SessionOk s.bb → QuietDst s s.bb.dstBase s.bb.dstCap → ∀ k < s.bb.bytePos.toNat,
          Sparse.get (regionAddr s.bb.dstBase k).toNat m = readByte s (regionAddr s.bb.dstBase k)
          ∨ Sparse.get (regionAddr s.bb.dstBase k).toNat m = window s.bb.ws (8 * k))

/-! ## Host registers (10_state.md) -/

/-- R58: while BUSY is 1 a write to a guarded register is discarded and sets WOVR, and writes to CTRL and STATUS take effect; writes to
read-only and reserved offsets are ignored at all times. -/
def Obligations.BusyWritesAreDiscarded : Prop :=
  ∀ (s : State) (v : Word),
    ((s.seq = .running ∨ s.seq = .initialising) →
      (∀ off ∈ guardedOffsets, hostWrite off v s = .next { s with wovr := true })
      ∧ hostWrite 0x04 v s = .next { s with doneIe := v.getLsbD 0, errIe := v.getLsbD 1 }
      ∧ hostWrite 0x08 v s = .next
          { s with
            done := s.done && !v.getLsbD 1, err := s.err && !v.getLsbD 2, wovr := s.wovr && !v.getLsbD 3
            errCode := if v.getLsbD 2 then .noError else s.errCode
            errInfo := if v.getLsbD 2 then 0#32 else s.errInfo })
    ∧ ∀ off ∈ readOnlyOffsets ++ reservedOffsets, hostWrite off v s = .next s

/-- R59: while BUSY is 1, these reads return the registers' values, and the others an unspecified value with no effect on the
engine. -/
def Obligations.BusyReadsReturn : Prop :=
  ∀ s : State, (s.seq = .running ∨ s.seq = .initialising) →
    (∀ p ∈ [(0x00, 0x48434531#32), (0x04, ctrlWord s), (0x08, statusWord s), (0x0C, s.cmd), (0x10, s.srcAddr),
        (0x14, s.srcLen), (0x18, s.dstAddr), (0x1C, s.dstCap),
        (0x30, s.countCtx.setWidth 32 * 256#32 + s.countSym.setWidth 32)],
      hostRead p.1 s = .next (withHostData p.2 s))
    ∧ ∀ off ∈ [0x20, 0x24, 0x28, 0x2C, 0x34, 0x38, 0x40, 0x44, 0x48, 0x4C, 0x50, 0x54, 0x58, 0x5C],
      ∃ (v : Word) (c : Nat), hostRead off s = .next { s with env := { s.env with hostData := v, freeCtr := c } }

/-- R38, R400: the fields of STATUS as a read returns them, each error code with its number, and the effect of a write: it clears each of DONE, ERR and WOVR whose bit is 1
in the value written (with ERR go ERR_CODE and ERR_INFO, R41), and changes nothing else. -/
def Obligations.StatusRegister : Prop :=
  ∀ s : State, s.seq ≠ .inReset →
    (∃ w : Word, hostRead 0x08 s = .next (withHostData w s)
      ∧ (w.getLsbD 0 = true ↔ s.seq ≠ .idle) ∧ w.getLsbD 1 = s.done ∧ w.getLsbD 2 = s.err ∧ w.getLsbD 3 = s.wovr
      ∧ w.extractLsb' 4 2 = (match s.bb.mode with | .closed => 0#2 | .write => 1#2 | .read => 2#2)
      ∧ w.extractLsb' 6 2 = (match s.kind with | .none => 0#2 | .plain => 1#2 | .markov => 2#2)
      ∧ (∀ p ∈ [(ErrCode.noError, 0x00#8), (.illegalCmd, 0x01#8), (.bbMode, 0x02#8), (.addrRange, 0x03#8), (.overlap, 0x04#8),
          (.noTable, 0x05#8), (.emptyTable, 0x06#8), (.noCodeword, 0x07#8), (.badIndex, 0x08#8), (.bbEof, 0x09#8),
          (.hdrMissing, 0x10#8), (.hdrSignature, 0x11#8), (.hdrTypeMismatch, 0x12#8), (.hdrLength, 0x13#8),
          (.truncated, 0x14#8), (.invalidCodeword, 0x15#8), (.tableEof, 0x20#8), (.tableCapacity, 0x21#8),
          (.tableLeafRoot, 0x22#8), (.dstOverflow, 0x30#8), (.busError, 0x31#8)],
        s.errCode = p.1 → w.extractLsb' 8 8 = p.2)
      ∧ w.extractLsb' 16 3 = s.bb.bitIdx ∧ w.extractLsb' 19 13 = 0#13)
    ∧ ∀ v : Word, hostWrite 0x08 v s = .next
        { s with
          done := s.done && !v.getLsbD 1, err := s.err && !v.getLsbD 2, wovr := s.wovr && !v.getLsbD 3
          errCode := if v.getLsbD 2 then .noError else s.errCode
          errInfo := if v.getLsbD 2 then 0#32 else s.errInfo }

/-- Idle reads and writes of the registers reach the field each register is (R37, R47 to R57); a write changes that field alone. -/
def Obligations.IdleRegisterAccess : Prop :=
  ∀ (s : State) (v : Word), s.seq = .idle →
    hostRead 0x04 s = .next (withHostData ((BitVec.ofBool s.errIe ++ BitVec.ofBool s.doneIe).setWidth 32) s)
    ∧ hostWrite 0x04 v s = .next { s with doneIe := v.getLsbD 0, errIe := v.getLsbD 1 }
    ∧ hostRead 0x0C s = .next (withHostData s.cmd s)
    ∧ hostRead 0x10 s = .next (withHostData s.srcAddr s) ∧ hostWrite 0x10 v s = .next { s with srcAddr := v }
    ∧ hostRead 0x14 s = .next (withHostData s.srcLen s) ∧ hostWrite 0x14 v s = .next { s with srcLen := v }
    ∧ hostRead 0x18 s = .next (withHostData s.dstAddr s) ∧ hostWrite 0x18 v s = .next { s with dstAddr := v }
    ∧ hostRead 0x1C s = .next (withHostData s.dstCap s) ∧ hostWrite 0x1C v s = .next { s with dstCap := v }
    ∧ hostRead 0x20 s = .next (withHostData s.outLen s) ∧ hostRead 0x24 s = .next (withHostData s.result s)
    ∧ hostRead 0x28 s = .next (withHostData s.errInfo s) ∧ hostRead 0x2C s = .next (withHostData s.bb.bytePos s)
    ∧ hostRead 0x30 s = .next (withHostData ((s.countCtx ++ s.countSym).setWidth 32) s)
    ∧ hostWrite 0x30 v s = .next { s with countCtx := v.extractLsb' 8 8, countSym := v.extractLsb' 0 8 }
    ∧ hostRead 0x34 s = .next (withHostData (countCell s.counts s.countCtx s.countSym) s)
    ∧ (∃ c, hostWrite 0x34 v s = .next { s with counts := c } ∧ (CountMatrix.wf s.counts → ∀ ctx sym, countCell c ctx sym =
        if ctx = s.countCtx ∧ sym = s.countSym then v else countCell s.counts ctx sym))
    ∧ hostRead 0x38 s = .next (withHostData (s.cwLen.setWidth 32) s)
    ∧ hostWrite 0x38 v s = .next { s with cwLen := v.extractLsb' 0 8 }
    ∧ ∀ j : Fin 8, hostRead (0x40 + 4 * j.val) s = .next (withHostData s.cwBits[j] s)
      ∧ hostWrite (0x40 + 4 * j.val) v s = .next { s with cwBits := s.cwBits.set j v }

/-- R35: a reserved offset reads 0 and ignores a write, setting no flag; a reserved field of a register reads 0 and ignores what is
written to it. And ID reads its constant (R36). -/
def Obligations.ReservedFieldsAndId : Prop :=
  ∀ s : State, s.seq ≠ .inReset →
    hostRead 0x00 s = .next (withHostData 0x48434531#32 s)
    ∧ (∀ off ∈ reservedOffsets, hostRead off s = .next (withHostData 0#32 s) ∧ ∀ v, hostWrite off v s = .next s)
    ∧ (∀ p ∈ [(0x04, 0x00000003#32), (0x08, 0x0007FFFF#32), (0x30, 0x0000FFFF#32), (0x38, 0x000000FF#32)],
        (∀ v, hostWrite p.1 v s = hostWrite p.1 (v &&& p.2) s)
        ∧ (s.seq = .idle → ∃ w : Word, hostRead p.1 s = .next (withHostData w s) ∧ w &&& p.2 = w))

/-- A host access with a byte in the block that is not a 32-bit access at a multiple of 4 is refused, one that begins below the block and
reaches into it among them (20_memory.md R89, I-HOSTACC). Two points are the model's choice, not the spec's: an access with no byte in
the block changes nothing (log 20, DESIGN CHOICE), and host addresses have 32 bits, so that a block or an access that passes the top of
the address space goes on at address 0 (log 27, DESIGN CHOICE). -/
def Obligations.HostAccessForms : Prop :=
  ∀ (s : State) (addr : Word) (width : AccessWidth) (v : Word),
    let off : Nat → Nat := fun k => (addr + BitVec.ofNat 32 k - s.env.params.hceBase).toNat
    ((∃ k < accessBytes width, off k < 256) → (width ≠ .word ∨ off 0 % 4 ≠ 0) →
      takeEvent (.read addr width) s = .refused .hostAccess ∧ takeEvent (.write addr width v) s = .refused .hostAccess)
    ∧ ((∀ k < accessBytes width, 256 ≤ off k) →
      takeEvent (.read addr width) s = .next s ∧ takeEvent (.write addr width v) s = .next s)

/-- R68: IRQ is the level `(DONE and DONE_IE) or (ERR and ERR_IE)`; 0 while the reset input is asserted (R450). -/
def Obligations.InterruptLevel : Prop :=
  ∀ s : State, irq s = if s.seq = .inReset then false else (s.done && s.doneIe) || (s.err && s.errIe)

/-- R69: the value of every piece of state after reset, as the host's registers and as the memories hold it. -/
def Obligations.ResetRegisterValues : Prop :=
  (∀ off ∈ [0x04, 0x08, 0x0C, 0x10, 0x14, 0x18, 0x1C, 0x20, 0x24, 0x28, 0x2C, 0x30, 0x34, 0x38, 0x40, 0x44, 0x48,
      0x4C, 0x50, 0x54, 0x58, 0x5C],
    hostRead off State.reset = .next (withHostData 0x00000000#32 State.reset))
  ∧ hostRead 0x00 State.reset = .next (withHostData 0x48434531#32 State.reset)
  ∧ (∀ ctx sym, countCell State.reset.counts ctx sym = 0#32)
  ∧ State.reset.kind = .none ∧ (∀ k, slotTree State.reset.slots k = none)
  ∧ State.reset.bb.mode = .closed ∧ bbPos State.reset.bb = 0 ∧ State.reset.bb.part = 0#8 ∧ State.reset.bb.staged = []
  ∧ irq State.reset = false
  ∧ ∀ s : State, (resetState s).memory = s.memory

/-! ## Reset (70_reset_and_hazards.md) -/

/-- R450: while the reset input is asserted, host writes are ignored, host reads return unspecified values, IRQ is 0 and the engine does
nothing; once released, BUSY reads 1, the counts are cleared and the tables emptied, DONE is 0; and when the
initialisation ends every piece of state holds its value of R69, except that WOVR is 1 if a write was discarded meanwhile.
That the counts, the tables and WOVR have these values from the release on, and not at the end of the initialisation only, is the
model's choice (log 28, DESIGN CHOICE). The whole state is given: the fields that R69 does not name take the model's reset values (log 19, DESIGN CHOICE), and a
CTRL write made during the initialisation is lost at its end (log 16, DEDUCED). -/
def Obligations.ResetSequence : Prop :=
  (∀ s : State, ∃ t, takeEvent .resetOn s = .next t ∧ t.seq = .inReset)
  ∧ (∀ t : State, t.seq = .inReset →
      irq t = false ∧ takeEvent .engine t = .next t
      ∧ (∀ j : Fin 64, ∀ v : Word, hostWrite (4 * j.val) v t = .next t
          ∧ ∃ (x : Word) (c : Nat), hostRead (4 * j.val) t = .next { t with env := { t.env with hostData := x, freeCtr := c } })
      ∧ ∃ u, takeEvent .resetOff t = .next u ∧ u.seq = .initialising ∧ (statusWord u).getLsbD 0 = true
          ∧ (∀ ctx sym, countCell u.counts ctx sym = 0#32) ∧ u.kind = .none ∧ (∀ k, slotTree u.slots k = none)
          ∧ u.done = false ∧ u.wovr = false ∧ u.memory = t.memory)
  ∧ ∀ u : State, u.seq = .initialising →
      ∃ e : Env, KeepsEnv u.env e ∧
        takeEvent .engine u = .next { State.reset with wovr := u.wovr, memory := u.memory, env := e }

/-- R451, its last sentence: reset changes no byte of system memory outside the DST region of a running command that writes one
(SERIALIZE, COMPRESS, DECOMPRESS) and that of an open write session. -/
def Obligations.ResetKeepsOtherMemory : Prop :=
  ∀ (s t : State) (a : Word), SessionOk s.bb → takeEvent .resetOn s = .next t →
    (∀ i, s.seq = .running → decode s.cmd = .instr i → i ∈ [.serialize, .compress, .decompress] →
      inRegion s.latch.dstBase s.latch.dstCap a.toNat = false) →
    (s.bb.mode = .write → inRegion s.bb.dstBase s.bb.dstCap a.toNat = false) →
    readByte t a = readByte s a

/-! ## Counting and building (41_tree_builder.md) -/

/-- R214: COUNT adds to each cell `C[prev][s]` the number of times the pair occurs in the space character followed by the SRC bytes,
saturating at 0xFFFFFFFF, and RESULT is SRC_LEN. -/
def Obligations.CountAddsPairs : Prop :=
  ∀ s : State, CountMatrix.wf s.counts → QuietSrc s s.latch.srcBase s.latch.srcLen →
    ∃ c, CompletesTo (exec .count s) s { s with counts := c, result := s.latch.srcLen }
      ∧ ∀ ctx sym, (countCell c ctx sym).toNat =
          min 0xFFFFFFFF ((countCell s.counts ctx sym).toNat
            + ((0x20#8 :: sourceBytes s).zip (sourceBytes s)).count (ctx, sym))

/-- R215, R211: BUILD.P makes the table plain, slot 0 the tree built from the column sums, every other slot empty. -/
def Obligations.BuildPlainCompletes : Prop :=
  ∀ s : State, CountMatrix.wf s.counts →
    ∃ sl, CompletesTo (exec .buildP s) s { s with kind := .plain, slots := sl }
      ∧ slotTree sl 0 = buildTree ((List.range 256).map fun x => (BitVec.ofNat 8 x,
          ((List.range 256).map fun ctx => (countCell s.counts (BitVec.ofNat 8 ctx) (BitVec.ofNat 8 x)).toNat).sum))
      ∧ ∀ k, k ≠ 0 → slotTree sl k = none

/-- R216, R212: BUILD.M makes the table Markov, slot `c` the tree built from row `c` of the count matrix. -/
def Obligations.BuildMarkovCompletes : Prop :=
  ∀ s : State, CountMatrix.wf s.counts →
    ∃ sl, CompletesTo (exec .buildM s) s { s with kind := .markov, slots := sl }
      ∧ ∀ ctx : Byte, slotTree sl ctx.toNat = buildTree ((List.range 256).map fun x => (BitVec.ofNat 8 x,
          (countCell s.counts ctx (BitVec.ofNat 8 x)).toNat))

/-- R208 (with R201, R205, R206, R207): `BuildTree` is empty without a symbol of nonzero weight; otherwise its tree is what popping two
nodes of smallest key and queueing their merge leads to, a single leaf being made an internal root. -/
def Obligations.BuilderMergesLeastNodes : Prop :=
  ∀ w : List (Byte × Nat), (w.map (·.1)).Nodup →
    let leaves := (w.filter fun p => 0 < p.2).map fun p => (⟨p.2, p.1.toNat, 0, .leaf p.1⟩ : QNode)
    (buildTree w = none ↔ leaves = [])
    ∧ ∀ t, buildTree w = some t ↔ leaves ≠ [] ∧ ∃ root, Merges 0 leaves root
        ∧ t = (match root with | .leaf s => .node (.leaf s) (.leaf s) | .node l r => .node l r)

/-- R209: the shape of a built tree: an internal root; one leaf for each symbol of nonzero weight and `2n - 1` nodes where there
are two or more, two leaves and three nodes where there is one; every codeword of 1 to 255 bits. -/
def Obligations.BuiltTreeShape : Prop :=
  ∀ (w : List (Byte × Nat)) (t : Tree), (w.map (·.1)).Nodup → buildTree w = some t →
    let syms := (w.filter fun p => 0 < p.2).map (·.1)
    isInternal t = true ∧ treeNodes t ≤ 511 ∧ treeDepth t ≤ 255
    ∧ (2 ≤ syms.length → (leafSyms t).Perm syms ∧ treeNodes t = 2 * syms.length - 1)
    ∧ (syms.length = 1 → leafSyms t = syms ++ syms ∧ treeNodes t = 3)
    ∧ ∀ (sym : Byte) (code : List Bool), encTable t sym = some code → 1 ≤ code.length ∧ code.length ≤ 255

/-- R210: codewords of distinct symbols under one tree: neither is a prefix of the other. -/
def Obligations.CodewordsArePrefixFree : Prop :=
  ∀ (t : Tree) (x y : Byte) (cx cy : List Bool), x ≠ y → encTable t x = some cx → encTable t y = some cy →
    ¬ cx <+: cy ∧ ¬ cy <+: cx

/-! ## Codeword and lookup tables (42_lookup_tables.md) -/

/-- R251, R253: the encoding table gives a symbol the path to its leaf, 0 to the left and 1 to the right, and of several leaves the one
reached last in the walk (the lexicographically greatest path); a symbol with no leaf has no codeword. -/
def Obligations.EncodingTableIsLastLeaf : Prop :=
  ∀ (t : Tree) (sym : Byte),
    (∀ code, encTable t sym = some code →
      treeAt t code = some (.leaf sym)
      ∧ ∀ other, treeAt t other = some (.leaf sym) → other = code ∨ List.Lex (fun a b => a = false ∧ b = true) other code)
    ∧ (encTable t sym = none ↔ ∀ code, treeAt t code ≠ some (.leaf sym))

/-- R257: a lookup slot holds what walking its index's bits from the root meets first, a leaf at depth at most 8 or the node at depth 8,
with its depth. -/
def Obligations.LookupTableFollowsBits : Prop :=
  ∀ (t : Tree) (b : Byte), ((lutEntry t b).tree, (lutEntry t b).depth) = followBits t (byteBits b)

/-- R260, R261: GET_ENCODING loads the codeword's length (1 to 255) and its bits into the descriptor registers, zeros after the last
bit; nothing else changes. -/
def Obligations.GetEncodingCompletes : Prop :=
  ∀ (s : State) (prev sym : Byte) (t : Tree) (code : List Bool), TablesOk s → s.kind ≠ .none →
    treeFor s.kind s.slots prev = some t → encTable t sym = some code →
    1 ≤ code.length ∧ code.length ≤ 255
    ∧ ∃ cw : Vector Word 8,
      CompletesTo (exec (.getEncoding prev sym) s) s { s with cwLen := BitVec.ofNat 8 code.length, cwBits := cw }
      ∧ ∀ k : Fin 256, cw[k.val / 32].getLsbD (31 - k.val % 32) = code.getD k.val false

/-- R262: LOOKUP sets RESULT to the leaf mark, symbol and depth of what the byte's bits lead to; nothing else changes. -/
def Obligations.LookupCompletes : Prop :=
  ∀ (s : State) (prev byte : Byte) (t : Tree), s.kind ≠ .none → treeFor s.kind s.slots prev = some t →
    let found := followBits t (byteBits byte)
    CompletesTo (exec (.lookup prev byte) s) s
      { s with result :=
          match found.1 with
          | .leaf sym => BitVec.ofNat 32 (1 + 256 * sym.toNat + 65536 * found.2)
          | .node _ _ => BitVec.ofNat 32 (65536 * 8) }

/-- R260, R262: GET_ENCODING and LOOKUP raise NO_TABLE without a table, EMPTY_TABLE for an empty slot, and GET_ENCODING NO_CODEWORD for a
symbol with no leaf; nothing else changes, OUT_LEN and RESULT included, as R405 (a) says against R50 and R51 (log 7,
DEDUCED). -/
def Obligations.TableQueryErrors : Prop :=
  ∀ (s : State) (prev x : Byte),
    (s.kind = .none → FailsTo (exec (.getEncoding prev x) s) s .noTable 0#32 s
      ∧ FailsTo (exec (.lookup prev x) s) s .noTable 0#32 s)
    ∧ (s.kind ≠ .none → treeFor s.kind s.slots prev = none →
        FailsTo (exec (.getEncoding prev x) s) s .emptyTable 0#32 s
        ∧ FailsTo (exec (.lookup prev x) s) s .emptyTable 0#32 s)
    ∧ ∀ t, s.kind ≠ .none → treeFor s.kind s.slots prev = some t → encTable t x = none →
        FailsTo (exec (.getEncoding prev x) s) s .noCodeword 0#32 s

/-! ## Serialization (43_serialization.md) -/

/-- R301, R302, R303: SERIALIZE writes the table's bits, padded with zeros to whole bytes, to DST; RESULT is their number and OUT_LEN the
number of bytes; no other byte of memory and no other register changes. -/
def Obligations.SerializeCompletes : Prop :=
  ∀ (s : State) (bits : List Bool), s.bb.mode = .closed → TablesOk s →
    QuietDst s s.latch.dstBase s.latch.dstCap → tableBits s.kind s.slots = some bits →
    bytesFor bits.length ≤ s.latch.dstCap.toNat →
    bits.length < 2 ^ 32 ∧ ∃ m : Memory,
      CompletesTo (exec .serialize s) s
          { s with memory := m, outLen := BitVec.ofNat 32 (bytesFor bits.length), result := BitVec.ofNat 32 bits.length }
      ∧ HoldsBits m s.latch.dstBase 0 bits ∧ SameOutside s m s.latch.dstBase (bytesFor bits.length)

/-- R300: the errors of SERIALIZE, each after those before it: BB_MODE, ADDR_RANGE, NO_TABLE, EMPTY_TABLE, which leave everything; and
DST_OVERFLOW where the file does not fit, with ERR_INFO = DST_CAP. That the first four leave OUT_LEN, RESULT and DST rests
on R405 (a) against R50, R51 and R88 (d) (log 7, DEDUCED). -/
def Obligations.SerializeErrors : Prop :=
  ∀ s : State,
    (s.bb.mode ≠ .closed → FailsTo (exec .serialize s) s .bbMode 0#32 s)
    ∧ (s.bb.mode = .closed → 2 ^ 32 < s.latch.dstBase.toNat + s.latch.dstCap.toNat →
        FailsTo (exec .serialize s) s .addrRange 0#32 s)
    ∧ (s.bb.mode = .closed → s.latch.dstBase.toNat + s.latch.dstCap.toNat ≤ 2 ^ 32 → s.kind = .none →
        FailsTo (exec .serialize s) s .noTable 0#32 s)
    ∧ (s.bb.mode = .closed → s.latch.dstBase.toNat + s.latch.dstCap.toNat ≤ 2 ^ 32 → s.kind = .plain →
        slotTree s.slots 0 = none → FailsTo (exec .serialize s) s .emptyTable 0#32 s)
    ∧ ∀ bits, s.bb.mode = .closed → QuietDst s s.latch.dstBase s.latch.dstCap → tableBits s.kind s.slots = some bits →
        s.latch.dstCap.toNat < bytesFor bits.length →
        FailsStreaming (exec .serialize s) s .dstOverflow s.latch.dstCap

/-- R307: a file that begins with the serialized form of a table loads that very table, whatever follows it (R304); RESULT is the number of
bits of the form. -/
def Obligations.DeserializeReadsTableFile : Prop :=
  ∀ (s : State) (kind : TableKind) (slots : List (Nat × Tree)) (bits : List Bool),
    s.bb.mode = .closed → QuietSrc s s.latch.srcBase s.latch.srcLen →
    TablesOk { s with kind := kind, slots := slots } → tableBits kind slots = some bits →
    bits <+: regionBits s s.latch.srcBase s.latch.srcLen.toNat →
    CompletesTo (exec .deserialize s) s
      { s with kind := kind, slots := slots, result := BitVec.ofNat 32 bits.length }

/-- R304, R305, R405 (c): the errors of DESERIALIZE. BB_MODE and ADDR_RANGE leave everything; an error after them leaves no table.
Where `ReadTree` begins at bit `pre` and the nodes `ns` begin a tree and do not finish it: TABLE_CAPACITY after 511 nodes,
with the offset of the next node's marker bit; TABLE_EOF, with SRC_LEN, where the file ends before the next node does;
TABLE_LEAF_ROOT, with the offset of the marker bit, for a root marked as a leaf. OUT_LEN and RESULT are unspecified after
these (log 8), and kept by BB_MODE and ADDR_RANGE (log 7, DEDUCED). -/
def Obligations.DeserializeErrors : Prop :=
  ∀ s : State,
    (s.bb.mode ≠ .closed → FailsTo (exec .deserialize s) s .bbMode 0#32 s)
    ∧ (s.bb.mode = .closed → 2 ^ 32 < s.latch.srcBase.toNat + s.latch.srcLen.toNat →
        FailsTo (exec .deserialize s) s .addrRange 0#32 s)
    ∧ (s.bb.mode = .closed → QuietSrc s s.latch.srcBase s.latch.srcLen →
        let file := regionBits s s.latch.srcBase s.latch.srcLen.toNat
        let LosesTable (code : ErrCode) (info : Word) : Prop :=
          ∃ outLen result, FailsTo (exec .deserialize s) s code info
            { s with kind := .none, slots := [], outLen := outLen, result := result }
        (∀ pre ns, BeforeTree pre → UnfinishedTree ns → ns.length = 511 → (pre ++ ns.flatMap nodeBits) <+: file →
          LosesTable .tableCapacity (BitVec.ofNat 32 ((pre ++ ns.flatMap nodeBits).length / 8)))
        ∧ (∀ pre ns n, BeforeTree pre → UnfinishedTree ns → ns.length < 511 → (ns = [] → n = none) →
            file <+: pre ++ (ns ++ [n]).flatMap nodeBits → file.length < (pre ++ (ns ++ [n]).flatMap nodeBits).length →
            LosesTable .tableEof s.latch.srcLen)
        ∧ (∀ pre, BeforeTree pre → (pre ++ [true]) <+: file →
            LosesTable .tableLeafRoot (BitVec.ofNat 32 (pre.length / 8))))
    ∧ ∀ t, s.err = false → s.bb.mode = .closed → QuietSrc s s.latch.srcBase s.latch.srcLen →
        exec .deserialize s = .next t → t.err = true →
        t.kind = .none ∧ t.slots = [] ∧ t.errCode ∈ [.tableEof, .tableCapacity, .tableLeafRoot]

/-- R306: every tree DESERIALIZE loads has an internal root, at most 511 nodes, at most 256 leaves, and leaves at depths 1 to
255. -/
def Obligations.LoadedTreesAreBounded : Prop :=
  ∀ (s t : State) (k : Nat) (tree : Tree), s.err = false → exec .deserialize s = .next t → t.err = false →
    slotTree t.slots k = some tree →
    isInternal tree = true ∧ treeNodes tree ≤ 511 ∧ (leafSyms tree).length ≤ 256 ∧ treeDepth tree ≤ 255
    ∧ ∀ (code : List Bool) (sym : Byte), treeAt tree code = some (.leaf sym) → 1 ≤ code.length

/-! ## Compression and decompression (44_codec.md) -/

/-- R335 (with R330, R334, R336, R337): COMPRESS writes the header byte and, from offset 1, the concatenated codewords of the SRC bytes,
zero padded; OUT_LEN counts both, RESULT the codeword bits (where they fit 32 bits); nothing else changes. -/
def Obligations.CompressCompletes : Prop :=
  ∀ (s : State) (bits : List Bool), CodecReady s →
    codeBits s.kind s.slots 0x20#8 (sourceBytes s) = some bits →
    1 + bytesFor bits.length ≤ s.latch.dstCap.toNat →
    ∃ (m : Memory) (result : Word),
      CompletesTo (exec .compress s) s
          { s with memory := m, outLen := BitVec.ofNat 32 (1 + bytesFor bits.length), result := result }
      ∧ (bits.length < 2 ^ 32 → result = BitVec.ofNat 32 bits.length)
      ∧ Sparse.get s.latch.dstBase.toNat m =
          BitVec.ofNat 8 ((if s.kind = .plain then 0x38 else 0x30) + (8 - bits.length % 8) % 8)
      ∧ HoldsBits m s.latch.dstBase 1 bits
      ∧ SameOutside s m s.latch.dstBase (1 + bytesFor bits.length)

/-- R333, R331: the streaming errors of COMPRESS at the first SRC byte that fails, `pre` being the bits of the bytes before it:
EMPTY_TABLE, then NO_CODEWORD, with its offset; DST_OVERFLOW where its codeword does not fit, with DST_CAP. -/
def Obligations.CompressStreamingErrors : Prop :=
  ∀ (s : State) (i : Nat) (b : Byte) (pre : List Bool), CodecReady s → (sourceBytes s)[i]? = some b →
    codeBits s.kind s.slots 0x20#8 ((sourceBytes s).take i) = some pre →
    1 + bytesFor pre.length ≤ s.latch.dstCap.toNat →
    (treeFor s.kind s.slots (contextAfter ((sourceBytes s).take i)) = none →
      FailsStreaming (exec .compress s) s .emptyTable (BitVec.ofNat 32 i))
    ∧ ∀ t, treeFor s.kind s.slots (contextAfter ((sourceBytes s).take i)) = some t →
      (encTable t b = none → FailsStreaming (exec .compress s) s .noCodeword (BitVec.ofNat 32 i))
      ∧ ∀ code, encTable t b = some code → s.latch.dstCap.toNat < 1 + bytesFor (pre.length + code.length) →
          FailsStreaming (exec .compress s) s .dstOverflow s.latch.dstCap

/-- R341 (with R339, R344, R345, R347): a file of the right header, length and data bits, whatever its padding, decodes to the bytes
that its data bits spell in codewords of the table, short or long; OUT_LEN is their number, RESULT the number of data bits (where it fits 32 bits); nothing else
changes. -/
def Obligations.DecompressDecodesItsFile : Prop :=
  ∀ (s : State) (out : List Byte) (bits : List Bool), CodecReady s → TablesOk s →
    Spells s.kind s.slots 0x20#8 out bits → out.length ≤ s.latch.dstCap.toNat →
    s.latch.srcLen.toNat = 1 + bytesFor bits.length →
    readByte s s.latch.srcBase = BitVec.ofNat 8 ((if s.kind = .plain then 0x38 else 0x30) + (8 - bits.length % 8) % 8) →
    bits <+: (regionBits s s.latch.srcBase s.latch.srcLen.toNat).drop 8 →
    ∃ (m : Memory) (result : Word),
      CompletesTo (exec .decompress s) s
          { s with memory := m, outLen := BitVec.ofNat 32 out.length, result := result }
      ∧ (bits.length < 2 ^ 32 → result = BitVec.ofNat 32 bits.length)
      ∧ (∀ k < out.length, Sparse.get (regionAddr s.latch.dstBase k).toNat m = out.getD k 0#8)
      ∧ SameOutside s m s.latch.dstBase out.length

/-- R340, R341: the header checks of DECOMPRESS in order, HDR_MISSING, HDR_SIGNATURE, HDR_TYPE_MISMATCH, HDR_LENGTH; each leaves
everything, OUT_LEN, RESULT and DST included, as R405 (a) says against R50, R51 and R88 (d) (log 7, DEDUCED). -/
def Obligations.DecompressHeaderErrors : Prop :=
  ∀ s : State, CodecReady s →
    let h := readByte s s.latch.srcBase
    (s.latch.srcLen = 0#32 → FailsTo (exec .decompress s) s .hdrMissing 0#32 s)
    ∧ (s.latch.srcLen ≠ 0#32 → h.extractLsb' 4 4 ≠ 0x3#4 → FailsTo (exec .decompress s) s .hdrSignature 0#32 s)
    ∧ (s.latch.srcLen ≠ 0#32 → h.extractLsb' 4 4 = 0x3#4 → (h.getLsbD 3 = true ↔ s.kind = .markov) →
        FailsTo (exec .decompress s) s .hdrTypeMismatch 0#32 s)
    ∧ (s.latch.srcLen = 1#32 → h.extractLsb' 4 4 = 0x3#4 → (h.getLsbD 3 = true ↔ s.kind = .plain) →
        h.extractLsb' 0 3 ≠ 0#3 → FailsTo (exec .decompress s) s .hdrLength 0#32 s)

/-- R343, R346, R341: the streaming errors of DECOMPRESS at the first codeword that fails, `pre` being the bits of the codewords before
it and `rest` the data bits left: EMPTY_TABLE for an empty context, TRUNCATED where no codeword of the tree begins the
rest, DST_OVERFLOW where one does and DST is full. ERR_INFO is the offset of the byte with the codeword's first bit, for
the overflow DST_CAP. -/
def Obligations.DecompressStreamingErrors : Prop :=
  ∀ (s : State) (out : List Byte) (pre rest : List Bool), CodecReady s → TablesOk s →
    Spells s.kind s.slots 0x20#8 out pre → out.length ≤ s.latch.dstCap.toNat → rest ≠ [] →
    s.latch.srcLen.toNat = 1 + bytesFor (pre ++ rest).length →
    readByte s s.latch.srcBase =
      BitVec.ofNat 8 ((if s.kind = .plain then 0x38 else 0x30) + (8 - (pre ++ rest).length % 8) % 8) →
    (pre ++ rest) <+: (regionBits s s.latch.srcBase s.latch.srcLen.toNat).drop 8 →
    let info := BitVec.ofNat 32 (1 + pre.length / 8)
    (treeFor s.kind s.slots (contextAfter out) = none → FailsStreaming (exec .decompress s) s .emptyTable info)
    ∧ ∀ t, treeFor s.kind s.slots (contextAfter out) = some t →
      ((∀ code sym, treeAt t code = some (.leaf sym) → ¬ code <+: rest) →
        FailsStreaming (exec .decompress s) s .truncated info)
      ∧ ∀ code sym, treeAt t code = some (.leaf sym) → code <+: rest → out.length = s.latch.dstCap.toNat →
          FailsStreaming (exec .decompress s) s .dstOverflow s.latch.dstCap

/-- R85, R403 items 2 and 4 to 7: the checks of COMPRESS and DECOMPRESS in order, BB_MODE, ADDR_RANGE, OVERLAP, NO_TABLE, and for COMPRESS
a DST region of no byte; each leaves everything, OUT_LEN, RESULT and DST included, as R405 (a) says against R50, R51 and
R88 (d) (log 7, DEDUCED). -/
def Obligations.CodecPreconditions : Prop :=
  ∀ (s : State), ∀ i ∈ [Instr.compress, Instr.decompress],
    let l := s.latch
    let fits := l.srcBase.toNat + l.srcLen.toNat ≤ 2 ^ 32 ∧ l.dstBase.toNat + l.dstCap.toNat ≤ 2 ^ 32
    let overlap := 0 < l.srcLen.toNat ∧ 0 < l.dstCap.toNat ∧ l.srcBase.toNat < l.dstBase.toNat + l.dstCap.toNat
      ∧ l.dstBase.toNat < l.srcBase.toNat + l.srcLen.toNat
    (s.bb.mode ≠ .closed → FailsTo (exec i s) s .bbMode 0#32 s)
    ∧ (s.bb.mode = .closed → ¬ fits → FailsTo (exec i s) s .addrRange 0#32 s)
    ∧ (s.bb.mode = .closed → fits → overlap → FailsTo (exec i s) s .overlap 0#32 s)
    ∧ (s.bb.mode = .closed → fits → ¬ overlap → s.kind = .none → FailsTo (exec i s) s .noTable 0#32 s)
    ∧ (s.bb.mode = .closed → fits → ¬ overlap → s.kind ≠ .none → i = .compress → l.dstCap = 0#32 →
        FailsTo (exec i s) s .dstOverflow 0#32 s)

/-- R349: with a table trained on the SRC bytes, COMPRESS fails only for want of room, and DECOMPRESS of its file, in a state with that
table and that file and room enough, completes with the bytes that were compressed. -/
def Obligations.CodecRoundTrip : Prop :=
  ∀ (s c b z : State) (build : Instr), build = .buildP ∨ build = .buildM →
    s.counts = [] → s.err = false → s.bb.mode = .closed → QuietSrc s s.latch.srcBase s.latch.srcLen →
    QuietDst s s.latch.dstBase s.latch.dstCap → regionsOverlap s.latch = false →
    exec .count s = .next c → exec build c = .next b → exec .compress b = .next z →
    (z.err = true → z.errCode = .dstOverflow)
    ∧ (z.err = false → ∀ y : State, CodecReady y → y.kind = z.kind → y.slots = z.slots →
        y.latch.srcBase = s.latch.dstBase → y.latch.srcLen = z.outLen →
        sourceBytes y = regionBytes z s.latch.dstBase z.outLen.toNat → s.latch.srcLen.toNat ≤ y.latch.dstCap.toNat →
        ∃ t, CompletesTo (exec .decompress y) y t ∧ t.outLen = s.latch.srcLen
          ∧ regionBytes t y.latch.dstBase s.latch.srcLen.toNat = sourceBytes s)

/-! ## The bit buffer (40_bit_buffer.md) -/

/-- R150, R151: where no session is open and the region does not wrap and is ordinary memory, BB_OPEN_WRITE and BB_OPEN_READ complete,
with a session open at position 0 on the latched DST or SRC region; nothing else changes. No byte of a new write session
has been made final: the model's own field `flushed` is 0 (log 25). -/
def Obligations.SessionsOpen : Prop :=
  ∀ s : State, s.bb.mode = .closed →
    (s.latch.dstBase.toNat + s.latch.dstCap.toNat ≤ 2 ^ 32 → touchesDevice s s.latch.dstBase s.latch.dstCap = false →
      CompletesTo (exec .bbOpenWrite s) s
        { s with bb := { s.bb with
            mode := .write, bytePos := 0#32, bitIdx := 0#3, part := 0#8, ws := [], staged := [], flushed := 0#32
            dstBase := s.latch.dstBase, dstCap := s.latch.dstCap } })
    ∧ (s.latch.srcBase.toNat + s.latch.srcLen.toNat ≤ 2 ^ 32 → PlainRegion s s.latch.srcBase s.latch.srcLen →
      CompletesTo (exec .bbOpenRead s) s
        { s with bb := { s.bb with
            mode := .read, bytePos := 0#32, bitIdx := 0#3, srcBase := s.latch.srcBase, srcLen := s.latch.srcLen } })

/-- R154, R159: each push of the write datapath appends its bits to the stream and nothing else, and the flush `(8 - b) mod 8` zeros; the
bytes emitted are the windows of the stream at their places, and `P` the window at the last partial byte. -/
def Obligations.DatapathMatchesStream : Prop :=
  ∀ w : Writer, WriterOk w →
    (∀ v, WriterOk (pushBit v w) ∧ writerBits (pushBit v w) = writerBits w ++ [v])
    ∧ (∀ v, WriterOk (pushByte v w) ∧ writerBits (pushByte v w) = writerBits w ++ byteBits v)
    ∧ (∀ (len : Nat) (bytes : Nat → Byte), WriterOk (pushDesc len bytes w) ∧ writerBits (pushDesc len bytes w) =
        writerBits w ++ (List.range len).map fun k => (bytes (k / 8)).getLsbD (7 - k % 8))
    ∧ WriterOk (flush w) ∧ writerBits (flush w) = writerBits w ++ List.replicate ((8 - w.idx) % 8) false
    ∧ (∀ k (h : k < w.out.length), w.out[k] = window (writerBits w) (8 * k))
    ∧ w.part = window (writerBits w) (8 * w.out.length)

/-- R156, R157, R158 (with R141, R159): the push commands append one bit, eight bits, and the `CW_LEN` descriptor bits; a push of no bits
always succeeds. -/
def Obligations.PushCommandsAppendBits : Prop :=
  ∀ s : State, Writing s →
    (∀ a : Byte, bbPos s.bb / 8 < s.bb.dstCap.toNat → PushAppends (exec (.bbPushBit a) s) s [a.getLsbD 0])
    ∧ (∀ v : Byte, (bbPos s.bb + 7) / 8 < s.bb.dstCap.toNat → PushAppends (exec (.bbPushByte v) s) s (byteBits v))
    ∧ (s.cwLen = 0#8 ∨ (bbPos s.bb + s.cwLen.toNat - 1) / 8 < s.bb.dstCap.toNat →
        PushAppends (exec .bbPushDesc s) s ((List.range s.cwLen.toNat).map (cwBit s)))

/-- R144: a push whose last bit needs a DST offset outside the region raises DST_OVERFLOW with the capacity, and changes nothing
else; a push of no bits never overflows. That OUT_LEN and RESULT are kept is R147 and R405 (a), (b) read against R50 and R51
(log 9, DEDUCED). -/
def Obligations.PushOverflow : Prop :=
  ∀ s : State, s.bb.mode = .write →
    (∀ a : Byte, s.bb.dstCap.toNat ≤ bbPos s.bb / 8 → FailsTo (exec (.bbPushBit a) s) s .dstOverflow s.bb.dstCap s)
    ∧ (∀ v : Byte, s.bb.dstCap.toNat ≤ (bbPos s.bb + 7) / 8 →
        FailsTo (exec (.bbPushByte v) s) s .dstOverflow s.bb.dstCap s)
    ∧ (s.cwLen ≠ 0#8 → s.bb.dstCap.toNat ≤ (bbPos s.bb + s.cwLen.toNat - 1) / 8 →
        FailsTo (exec .bbPushDesc s) s .dstOverflow s.bb.dstCap s)
    ∧ (s.cwLen = 0#8 → s.errCode ≠ .dstOverflow → ∀ t, exec .bbPushDesc s = .next t → t.errCode ≠ .dstOverflow)

/-- R155, R152: BB_FLUSH pads `WS` and writes out every byte, the session staying open; BB_CLOSE does the same for a write session and ends
it, and ends a read session with its position kept. Three points are the model's choice, not the spec's: BB_CLOSE of a read
session completes on every platform, one that refuses a byte of the session's region among them (log 26, DESIGN CHOICE); the
model's own field `flushed` holds how many bytes are now final (log 25, DEDUCED); and its own field `staged`, the bytes not yet
written, is left empty (log 6, DESIGN CHOICE). -/
def Obligations.FlushAndClose : Prop :=
  ∀ s : State,
    (Writing s → DrainedBytes s → FlushesTo (exec .bbFlush s) s .write ∧ FlushesTo (exec .bbClose s) s .closed)
    ∧ (s.bb.mode = .read → CompletesTo (exec .bbClose s) s { s with bb := { s.bb with mode := .closed } })

/-- R170, R171, R172: BB_PEEK_BIT gives the bit at the cursor, BB_POP_BIT and BB_TRY_POP_BIT consume it; at the end of the stream
BB_TRY_POP_BIT gives 0x100 and consumes nothing. -/
def Obligations.BitReadsComplete : Prop :=
  ∀ s : State, Reading s →
    (bbPos s.bb < 8 * s.bb.srcLen.toNat →
      let bit : Word := if (sessionBits s).getD (bbPos s.bb) false then 1#32 else 0#32
      CompletesTo (exec .bbPeekBit s) s { s with result := bit }
      ∧ CompletesTo (exec .bbPopBit s) s { s with result := bit, bb := setPos (bbPos s.bb + 1) s.bb }
      ∧ CompletesTo (exec .bbTryPopBit s) s { s with result := bit, bb := setPos (bbPos s.bb + 1) s.bb })
    ∧ (bbPos s.bb = 8 * s.bb.srcLen.toNat → CompletesTo (exec .bbTryPopBit s) s { s with result := 0x00000100#32 })

/-- R173: BB_POP_BYTE gives the window of the stream at the cursor, whatever the bit index, and consumes 8 bits. -/
def Obligations.PopByteCompletes : Prop :=
  ∀ s : State, Reading s → bbPos s.bb + 8 ≤ 8 * s.bb.srcLen.toNat →
    CompletesTo (exec .bbPopByte s) s
      { s with result := (window (sessionBits s) (bbPos s.bb)).setWidth 32, bb := setPos (bbPos s.bb + 8) s.bb }

/-- R175: BB_POP_REST gives the top `k` bits of `partial`, then the stream's bits, then zeros; it consumes and counts, in bits 11:8,
the bits it took from the stream. -/
def Obligations.PopRestCompletes : Prop :=
  ∀ (s : State) (part : Byte) (k : BitVec 4), Reading s → k.toNat < 8 →
    let n := min (8 - k.toNat) (8 * s.bb.srcLen.toNat - bbPos s.bb)
    let r := (part &&& topmask k.toNat) ||| (window (sessionBits s) (bbPos s.bb) >>> k.toNat)
    CompletesTo (exec (.bbPopRest part k) s) s
      { s with result := BitVec.ofNat 32 (r.toNat + 256 * n), bb := setPos (bbPos s.bb + n) s.bb }

/-- R145: a bit-buffer command whose mode precondition fails raises BB_MODE and changes nothing else. -/
def Obligations.ModePreconditions : Prop :=
  ∀ s : State,
    (∀ i ∈ [Instr.bbOpenWrite, Instr.bbOpenRead], s.bb.mode ≠ .closed → FailsTo (exec i s) s .bbMode 0#32 s)
    ∧ (s.bb.mode ≠ .write →
        (∀ a, FailsTo (exec (.bbPushBit a) s) s .bbMode 0#32 s) ∧ (∀ v, FailsTo (exec (.bbPushByte v) s) s .bbMode 0#32 s)
        ∧ FailsTo (exec .bbPushDesc s) s .bbMode 0#32 s ∧ FailsTo (exec .bbFlush s) s .bbMode 0#32 s)
    ∧ (s.bb.mode ≠ .read →
        (∀ i ∈ [Instr.bbPeekBit, Instr.bbPopBit, Instr.bbTryPopBit, Instr.bbPopByte], FailsTo (exec i s) s .bbMode 0#32 s)
        ∧ ∀ part k, FailsTo (exec (.bbPopRest part k) s) s .bbMode 0#32 s)
    ∧ (s.bb.mode = .closed → FailsTo (exec .bbClose s) s .bbMode 0#32 s)

/-- The other errors of the bit-buffer commands and of COUNT (R150, R151, R170, R171, R173, R175, R214): ADDR_RANGE, BB_EOF with
`BB_BYTEPOS`, BAD_INDEX with `k`; each changes nothing else. That BB_EOF keeps RESULT and OUT_LEN is R147 read against R50 and
R51 (log 9, DEDUCED), and so it is for the others by R405 (a) (log 7, DEDUCED). -/
def Obligations.SessionAndRegionErrors : Prop :=
  ∀ s : State,
    (2 ^ 32 < s.latch.srcBase.toNat + s.latch.srcLen.toNat → FailsTo (exec .count s) s .addrRange 0#32 s)
    ∧ (s.bb.mode = .closed → 2 ^ 32 < s.latch.dstBase.toNat + s.latch.dstCap.toNat →
        FailsTo (exec .bbOpenWrite s) s .addrRange 0#32 s)
    ∧ (s.bb.mode = .closed → 2 ^ 32 < s.latch.srcBase.toNat + s.latch.srcLen.toNat →
        FailsTo (exec .bbOpenRead s) s .addrRange 0#32 s)
    ∧ (s.bb.mode = .read → 8 * s.bb.srcLen.toNat ≤ bbPos s.bb →
        FailsTo (exec .bbPeekBit s) s .bbEof s.bb.bytePos s ∧ FailsTo (exec .bbPopBit s) s .bbEof s.bb.bytePos s)
    ∧ (s.bb.mode = .read → 8 * s.bb.srcLen.toNat < bbPos s.bb + 8 → FailsTo (exec .bbPopByte s) s .bbEof s.bb.bytePos s)
    ∧ ∀ (part : Byte) (k : BitVec 4), s.bb.mode = .read → 8 ≤ k.toNat →
        FailsTo (exec (.bbPopRest part k) s) s .badIndex (BitVec.ofNat 32 k.toNat) s

/-! ## What no command does -/

/-- The frame of every command, completed or failed (R37, R42, R43, R44, R48 to R51, R56, R60, R149, R405): no command writes CTRL,
WOVR or CMD; only SOFT_RESET writes the region registers and COUNT_IDX; the counts, the table store, the descriptor
registers and the session change only by the commands the rules name; RESULT and OUT_LEN too, unless an error ends the
command. -/
def Obligations.CommandFrames : Prop :=
  ∀ (i : Instr) (s t : State), exec i s = .next t →
    t.doneIe = s.doneIe ∧ t.errIe = s.errIe ∧ t.wovr = s.wovr ∧ t.cmd = s.cmd ∧ KeepsEnv s.env t.env
    ∧ (i ≠ .softReset → t.srcAddr = s.srcAddr ∧ t.srcLen = s.srcLen ∧ t.dstAddr = s.dstAddr ∧ t.dstCap = s.dstCap
        ∧ t.latch = s.latch ∧ t.countCtx = s.countCtx ∧ t.countSym = s.countSym)
    ∧ (i ∉ [.softReset, .clearCounts, .count] → t.counts = s.counts)
    ∧ (i ∉ [.softReset, .buildP, .buildM, .clearTable, .deserialize] → t.kind = s.kind ∧ t.slots = s.slots)
    ∧ (i ≠ .softReset → writesDescriptor i = false → t.cwLen = s.cwLen ∧ t.cwBits = s.cwBits)
    ∧ (i ≠ .softReset → usesSession i = false → t.bb = s.bb)
    ∧ (i ≠ .softReset → s.err = false → t.err = false →
        (writesResult i = false → t.result = s.result) ∧ (writesOutLen i = false → t.outLen = s.outLen))

/-- R82: the engine writes only the DST region of the command, or of the session, that runs; every other byte of system memory is as
before. -/
def Obligations.EngineWritesOnlyDst : Prop :=
  ∀ (i : Instr) (s t : State) (a : Word), SessionOk s.bb → exec i s = .next t → readByte t a ≠ readByte s a →
    (i ∈ [.serialize, .compress, .decompress] ∧ inRegion s.latch.dstBase s.latch.dstCap a.toNat = true)
    ∨ ((usesSession i = true ∨ i = .softReset) ∧ s.bb.mode = .write ∧ inRegion s.bb.dstBase s.bb.dstCap a.toNat = true)

/-- R409: BUS_ERROR carries an address the platform refuses, one of the latched regions of the command or its session, so that a
platform that refuses nothing never sees it; and in these cases a refused access ends the command in it: any SRC byte of
COUNT, a byte BB_FLUSH or BB_CLOSE writes, the byte a session read needs, the first SRC byte of DESERIALIZE, COMPRESS and
DECOMPRESS, a byte of the output of SERIALIZE and COMPRESS. Not stated here: a refused byte that a push writes, a byte of
the output of DECOMPRESS, and a later SRC byte of the last three. OUT_LEN, RESULT and what else the command could write are
then unspecified, except that DESERIALIZE leaves no table, as R304 and R405 (c) say of its errors, read before R409 (log 8,
DEDUCED); the rest is kept. -/
def Obligations.RefusedAccessRaisesBusError : Prop :=
  (∀ (i : Instr) (s t : State), SessionOk s.bb → s.errCode ≠ .busError → exec i s = .next t → t.errCode = .busError →
    (refusesRead s t.errInfo = true
      ∧ (inRegion s.latch.srcBase s.latch.srcLen t.errInfo.toNat = true
        ∨ (s.bb.mode = .read ∧ inRegion s.bb.srcBase s.bb.srcLen t.errInfo.toNat = true)))
    ∨ (refusesWrite s t.errInfo = true
      ∧ (inRegion s.latch.dstBase s.latch.dstCap t.errInfo.toNat = true
        ∨ (s.bb.mode = .write ∧ inRegion s.bb.dstBase s.bb.dstCap t.errInfo.toNat = true))))
  ∧ ∀ s : State,
    let l := s.latch
    let src := regionFits l.srcBase l.srcLen = true ∧ touchesDevice s l.srcBase l.srcLen = false
    let dst := regionFits l.dstBase l.dstCap = true ∧ touchesDevice s l.dstBase l.dstCap = false
    let refusedFirst := l.srcLen ≠ 0#32 ∧ refusesRead s l.srcBase = true
    let LosesOutput (i : Instr) : Prop := ∃ (m : Memory) (outLen result : Word),
      FailsBus (exec i s) s { s with memory := m, outLen := outLen, result := result } ∧ SameOutside s m l.dstBase l.dstCap.toNat
    let LosesRead (i : Instr) : Prop := ∃ (b : BitBuffer) (outLen result : Word),
      FailsBus (exec i s) s { s with bb := b, outLen := outLen, result := result }
    (src → (∃ off < l.srcLen.toNat, refusesRead s (regionAddr l.srcBase off) = true) →
      ∃ (c : CountMatrix) (outLen result : Word),
        FailsBus (exec .count s) s { s with counts := c, outLen := outLen, result := result })
    ∧ (s.bb.mode = .write → SessionOk s.bb →
        (∃ k, drainedCount s.bb ≤ k ∧ k < bytesFor (bbPos s.bb) ∧ refusesWrite s (regionAddr s.bb.dstBase k) = true) →
        ∀ i ∈ [Instr.bbFlush, .bbClose], ∃ (b : BitBuffer) (m : Memory) (outLen result : Word),
          FailsBus (exec i s) s { s with bb := b, memory := m, outLen := outLen, result := result }
            ∧ SameOutside s m s.bb.dstBase s.bb.dstCap.toNat)
    ∧ (s.bb.mode = .read → bbPos s.bb < 8 * s.bb.srcLen.toNat →
        refusesRead s (regionAddr s.bb.srcBase s.bb.bytePos.toNat) = true →
        LosesRead .bbPeekBit ∧ LosesRead .bbPopBit ∧ LosesRead .bbTryPopBit
        ∧ (bbPos s.bb + 8 ≤ 8 * s.bb.srcLen.toNat → LosesRead .bbPopByte)
        ∧ ∀ (part : Byte) (k : BitVec 4), k.toNat < 8 → LosesRead (.bbPopRest part k))
    ∧ (s.bb.mode = .closed → src → refusedFirst → ∃ outLen result,
        FailsBus (exec .deserialize s) s { s with kind := .none, slots := [], outLen := outLen, result := result })
    ∧ (s.bb.mode = .closed → src → dst → regionsOverlap l = false → s.kind ≠ .none → refusedFirst →
        LosesOutput .decompress ∧ (l.dstCap ≠ 0#32 → LosesOutput .compress))
    ∧ (∀ bits, s.bb.mode = .closed → dst → tableBits s.kind s.slots = some bits → bytesFor bits.length ≤ l.dstCap.toNat →
        (∃ k < bytesFor bits.length, refusesWrite s (regionAddr l.dstBase k) = true) → LosesOutput .serialize)
    ∧ ∀ bits, s.bb.mode = .closed → QuietSrc s l.srcBase l.srcLen → dst → regionsOverlap l = false → s.kind ≠ .none →
        codeBits s.kind s.slots 0x20#8 (sourceBytes s) = some bits → 1 + bytesFor bits.length ≤ l.dstCap.toNat →
        (∃ k < 1 + bytesFor bits.length, refusesWrite s (regionAddr l.dstBase k) = true) → LosesOutput .compress

/-- R95, R97: the host's accesses to a byte of system memory. A byte in a window of the platform is refused (log 20). A read returns
the byte, or, of a DST region in use, an unspecified byte, unless BB_FLUSH has made it final, the host has not written it
since and no command runs (R95 read before R97: log 25, DEDUCED); nothing else changes. A write to a byte of a SRC region in
use leaves the engine reading the old or the new value there; a write to a byte of a DST region in use leaves that byte
alone unspecified; every other byte of memory, and every register of the engine, is as before. -/
def Obligations.HostMemoryAccesses : Prop :=
  ∀ (s : State) (a : Word) (v : Byte),
    let running (base len : Word) : Prop := s.seq = .running ∧ inRegion base len a.toNat = true
    let session (mode : BbMode) (base len : Word) : Prop := s.bb.mode = mode ∧ inRegion base len a.toNat = true
    let dstUsed := running s.latch.dstBase s.latch.dstCap ∨ session .write s.bb.dstBase s.bb.dstCap
    let ordinary := ∀ w ∈ s.env.params.windows, windowCovers w a.toNat = false
    let returned := Host.Outcome.next (withHostData ((readByte s a).setWidth 32) s)
    (¬ ordinary → takeEvent (.memRead a) s = .refused .hostMemoryWindow
      ∧ takeEvent (.memWrite a v) s = .refused .hostMemoryWindow)
    ∧ (ordinary →
      (¬ dstUsed → takeEvent (.memRead a) s = returned)
      ∧ (s.seq = .idle → session .write s.bb.dstBase s.bb.flushed → a.toNat ∉ s.env.dstRaced →
          takeEvent (.memRead a) s = returned)
      ∧ (∃ (x : Byte) (c : Nat), takeEvent (.memRead a) s = .next
          { s with env := { s.env with hostData := x.setWidth 32, freeCtr := c } })
      ∧ ∃ (m : Memory) (e : Env), KeepsEnv s.env e ∧ takeEvent (.memWrite a v) s = .next { s with memory := m, env := e }
        ∧ (∀ x : Word, x ≠ a → Sparse.get x.toNat m = readByte s x)
        ∧ (¬ dstUsed → Memory.wf s.memory → Sparse.get a.toNat m = v)
        ∧ ∀ (k off : Nat) (base : Word) (x : Byte), ¬ dstUsed → Memory.wf s.memory → regionAddr base off = a →
            ((∀ c ∈ s.bb.staged ++ s.env.races, c.1 ≠ a.toNat) →
              srcByte { s with memory := m, env := e } base k off = some x →
              x = v ∨ (running s.latch.srcBase s.latch.srcLen ∧ x = readByte s a))
            ∧ ((∀ c ∈ s.env.sessionRaces, c.1 ≠ a.toNat) → base = s.bb.srcBase →
              sessionByte { s with memory := m, env := e } k off = some x →
              x = v ∨ (session .read s.bb.srcBase s.bb.srcLen ∧ x = readByte s a)))

/-! ## Invariants -/

/-- The invariant holds after reset. -/
def Obligations.ResetMeetsInvariant : Prop := Inv State.reset

/-- Every step keeps the invariant: the status bits are consistent (R40, R41, R45), the latched copies equal the registers (R380), the
table store holds full trees within their bounds (R61, R62), the session's position, stream, partial byte and staging
agree (R141, R142, R144), the bytes it has written are final (R88 (c)), and both memories are canonical. That the session
agrees with itself after a BUS_ERROR, where R409 leaves it unspecified, is the model's choice (log 11, DESIGN CHOICE). -/
def Obligations.StepKeepsInvariant : Prop := ∀ s t : State, Inv s → step s = .next t → Inv t

/-- DONE and ERR are never both 1, and ERR_CODE and ERR_INFO are 0 while ERR is 0 (R40, R41, R45): kept by every step. -/
def Obligations.StepKeepsStatus : Prop := ∀ s t : State, StatusOk s → step s = .next t → StatusOk t
end

