-- ==== Sys2Proof/Laws/Encoding.lean ====
section
/-! SUPPORT. The fields of an assembled command word (30_encoding.md R111), bit by bit: what the encoding statements are built
from. -/

namespace Sys2Proof

/-- Bit `i` of an assembled word: the fields side by side, the reserved bits 0. -/
theorem getLsbD_assemble (opc : Byte) (m : BitVec 1) (k : BitVec 4) (a b : Byte) (i : Nat) :
    (assemble opc m k a b).getLsbD i =
      (if i < 8 then opc.getLsbD i else if i < 9 then m.getLsbD (i - 8) else if i < 12 then false
        else if i < 16 then k.getLsbD (i - 12) else if i < 24 then a.getLsbD (i - 16)
        else if i < 32 then b.getLsbD (i - 24) else false) := by
  by_cases hi : i < 32
  · simp only [assemble, BitVec.getLsbD_or, BitVec.getLsbD_shiftLeft, BitVec.getLsbD_setWidth]
    have hopc : 8 ≤ i → opc.getLsbD i = false := fun h => BitVec.getLsbD_of_ge _ _ h
    have hm : 1 ≤ i - 8 → m.getLsbD (i - 8) = false := fun h => BitVec.getLsbD_of_ge _ _ h
    have hk : 4 ≤ i - 12 → k.getLsbD (i - 12) = false := fun h => BitVec.getLsbD_of_ge _ _ h
    have ha : 8 ≤ i - 16 → a.getLsbD (i - 16) = false := fun h => BitVec.getLsbD_of_ge _ _ h
    split_ifs with h1 h2 h3 h4 h5
    · simp [h1, hi, show i < 12 by omega, show i < 16 by omega, show i < 24 by omega]
    · simp [h1, hi, hopc (by omega), show i < 12 by omega, show i < 16 by omega, show i < 24 by omega,
        show i - 8 < 32 by omega]
    · simp [h1, h3, hi, hopc (by omega), hm (by omega), show i < 16 by omega, show i < 24 by omega]
    · simp [h1, h3, h4, hi, hopc (by omega), hm (by omega), show i < 24 by omega, show i - 12 < 32 by omega]
    · simp [h3, h4, h5, hi, hopc (by omega), hm (by omega), hk (by omega), show i - 16 < 32 by omega]
    · simp [h3, h4, h5, hi, hopc (by omega), hm (by omega), hk (by omega), ha (by omega),
        show i - 24 < 32 by omega]
  · rw [BitVec.getLsbD_of_ge _ _ (by omega)]
    split_ifs <;> first | rfl | omega

/-- `OPC` of an assembled word. -/
@[simp] theorem fieldOpc_assemble (opc : Byte) (m : BitVec 1) (k : BitVec 4) (a b : Byte) :
    fieldOpc (assemble opc m k a b) = opc := by
  refine BitVec.eq_of_getLsbD_eq fun i hi => ?_
  rw [fieldOpc, BitVec.getLsbD_extractLsb', getLsbD_assemble]
  simp [hi]

/-- `M` of an assembled word. -/
@[simp] theorem fieldM_assemble (opc : Byte) (m : BitVec 1) (k : BitVec 4) (a b : Byte) :
    fieldM (assemble opc m k a b) = m := by
  refine BitVec.eq_of_getLsbD_eq fun i hi => ?_
  rw [fieldM, BitVec.getLsbD_extractLsb', getLsbD_assemble, if_neg (show ¬ 8 + i < 8 by omega),
    if_pos (show 8 + i < 9 by omega), Nat.add_sub_cancel_left]
  simp [hi]

/-- `K` of an assembled word. -/
@[simp] theorem fieldK_assemble (opc : Byte) (m : BitVec 1) (k : BitVec 4) (a b : Byte) :
    fieldK (assemble opc m k a b) = k := by
  refine BitVec.eq_of_getLsbD_eq fun i hi => ?_
  rw [fieldK, BitVec.getLsbD_extractLsb', getLsbD_assemble, if_neg (show ¬ 12 + i < 8 by omega), if_neg (show ¬ 12 + i < 9 by omega), if_neg (show ¬ 12 + i < 12 by omega),
    if_pos (show 12 + i < 16 by omega), Nat.add_sub_cancel_left]
  simp [hi]

/-- `A` of an assembled word. -/
@[simp] theorem fieldA_assemble (opc : Byte) (m : BitVec 1) (k : BitVec 4) (a b : Byte) :
    fieldA (assemble opc m k a b) = a := by
  refine BitVec.eq_of_getLsbD_eq fun i hi => ?_
  rw [fieldA, BitVec.getLsbD_extractLsb', getLsbD_assemble, if_neg (show ¬ 16 + i < 8 by omega), if_neg (show ¬ 16 + i < 9 by omega), if_neg (show ¬ 16 + i < 12 by omega), if_neg (show ¬ 16 + i < 16 by omega),
    if_pos (show 16 + i < 24 by omega), Nat.add_sub_cancel_left]
  simp [hi]

/-- `B` of an assembled word. -/
@[simp] theorem fieldB_assemble (opc : Byte) (m : BitVec 1) (k : BitVec 4) (a b : Byte) :
    fieldB (assemble opc m k a b) = b := by
  refine BitVec.eq_of_getLsbD_eq fun i hi => ?_
  rw [fieldB, BitVec.getLsbD_extractLsb', getLsbD_assemble, if_neg (show ¬ 24 + i < 8 by omega), if_neg (show ¬ 24 + i < 9 by omega), if_neg (show ¬ 24 + i < 12 by omega), if_neg (show ¬ 24 + i < 16 by omega), if_neg (show ¬ 24 + i < 24 by omega),
    if_pos (show 24 + i < 32 by omega), Nat.add_sub_cancel_left]
  simp [hi]

end Sys2Proof
end

