-- ==== Sys2Proof/Laws/State.lean ====
section
/-! SUPPORT. The state's fields after each named update: one lemma per field per update, true by `rfl`, so that no later proof
unfolds a record update. -/

namespace Sys2Proof.Machine

/-! `endCommand` -/

@[simp] theorem endCommand_doneIe (s : State) : (endCommand s).doneIe = s.doneIe := rfl
@[simp] theorem endCommand_errIe (s : State) : (endCommand s).errIe = s.errIe := rfl
@[simp] theorem endCommand_done (s : State) : (endCommand s).done = s.done := rfl
@[simp] theorem endCommand_err (s : State) : (endCommand s).err = s.err := rfl
@[simp] theorem endCommand_wovr (s : State) : (endCommand s).wovr = s.wovr := rfl
@[simp] theorem endCommand_errCode (s : State) : (endCommand s).errCode = s.errCode := rfl
@[simp] theorem endCommand_cmd (s : State) : (endCommand s).cmd = s.cmd := rfl
@[simp] theorem endCommand_srcAddr (s : State) : (endCommand s).srcAddr = s.srcAddr := rfl
@[simp] theorem endCommand_srcLen (s : State) : (endCommand s).srcLen = s.srcLen := rfl
@[simp] theorem endCommand_dstAddr (s : State) : (endCommand s).dstAddr = s.dstAddr := rfl
@[simp] theorem endCommand_dstCap (s : State) : (endCommand s).dstCap = s.dstCap := rfl
@[simp] theorem endCommand_outLen (s : State) : (endCommand s).outLen = s.outLen := rfl
@[simp] theorem endCommand_result (s : State) : (endCommand s).result = s.result := rfl
@[simp] theorem endCommand_errInfo (s : State) : (endCommand s).errInfo = s.errInfo := rfl
@[simp] theorem endCommand_countCtx (s : State) : (endCommand s).countCtx = s.countCtx := rfl
@[simp] theorem endCommand_countSym (s : State) : (endCommand s).countSym = s.countSym := rfl
@[simp] theorem endCommand_cwLen (s : State) : (endCommand s).cwLen = s.cwLen := rfl
@[simp] theorem endCommand_cwBits (s : State) : (endCommand s).cwBits = s.cwBits := rfl
@[simp] theorem endCommand_counts (s : State) : (endCommand s).counts = s.counts := rfl
@[simp] theorem endCommand_kind (s : State) : (endCommand s).kind = s.kind := rfl
@[simp] theorem endCommand_slots (s : State) : (endCommand s).slots = s.slots := rfl
@[simp] theorem endCommand_bb (s : State) : (endCommand s).bb = s.bb := rfl
@[simp] theorem endCommand_seq (s : State) : (endCommand s).seq = .idle := rfl
@[simp] theorem endCommand_latch (s : State) : (endCommand s).latch = s.latch := rfl
@[simp] theorem endCommand_memory (s : State) : (endCommand s).memory = s.memory := rfl
@[simp] theorem endCommand_env (s : State) : (endCommand s).env = { s.env with freeCtr := s.env.freeCtr + 1, races := [], sessionRaces := liveSessionRaces s, dstRaced := liveDstRaced s } := rfl

/-! `complete` -/

@[simp] theorem complete_doneIe (s : State) : (complete s).doneIe = s.doneIe := rfl
@[simp] theorem complete_errIe (s : State) : (complete s).errIe = s.errIe := rfl
@[simp] theorem complete_done (s : State) : (complete s).done = true := rfl
@[simp] theorem complete_err (s : State) : (complete s).err = s.err := rfl
@[simp] theorem complete_wovr (s : State) : (complete s).wovr = s.wovr := rfl
@[simp] theorem complete_errCode (s : State) : (complete s).errCode = s.errCode := rfl
@[simp] theorem complete_cmd (s : State) : (complete s).cmd = s.cmd := rfl
@[simp] theorem complete_srcAddr (s : State) : (complete s).srcAddr = s.srcAddr := rfl
@[simp] theorem complete_srcLen (s : State) : (complete s).srcLen = s.srcLen := rfl
@[simp] theorem complete_dstAddr (s : State) : (complete s).dstAddr = s.dstAddr := rfl
@[simp] theorem complete_dstCap (s : State) : (complete s).dstCap = s.dstCap := rfl
@[simp] theorem complete_outLen (s : State) : (complete s).outLen = s.outLen := rfl
@[simp] theorem complete_result (s : State) : (complete s).result = s.result := rfl
@[simp] theorem complete_errInfo (s : State) : (complete s).errInfo = s.errInfo := rfl
@[simp] theorem complete_countCtx (s : State) : (complete s).countCtx = s.countCtx := rfl
@[simp] theorem complete_countSym (s : State) : (complete s).countSym = s.countSym := rfl
@[simp] theorem complete_cwLen (s : State) : (complete s).cwLen = s.cwLen := rfl
@[simp] theorem complete_cwBits (s : State) : (complete s).cwBits = s.cwBits := rfl
@[simp] theorem complete_counts (s : State) : (complete s).counts = s.counts := rfl
@[simp] theorem complete_kind (s : State) : (complete s).kind = s.kind := rfl
@[simp] theorem complete_slots (s : State) : (complete s).slots = s.slots := rfl
@[simp] theorem complete_bb (s : State) : (complete s).bb = s.bb := rfl
@[simp] theorem complete_seq (s : State) : (complete s).seq = .idle := rfl
@[simp] theorem complete_latch (s : State) : (complete s).latch = s.latch := rfl
@[simp] theorem complete_memory (s : State) : (complete s).memory = s.memory := rfl
@[simp] theorem complete_env (s : State) : (complete s).env = (endCommand s).env := rfl

/-! `raiseError` -/

@[simp] theorem raiseError_doneIe (c : ErrCode) (i : Word) (s : State) : (raiseError c i s).doneIe = s.doneIe := rfl
@[simp] theorem raiseError_errIe (c : ErrCode) (i : Word) (s : State) : (raiseError c i s).errIe = s.errIe := rfl
@[simp] theorem raiseError_done (c : ErrCode) (i : Word) (s : State) : (raiseError c i s).done = s.done := rfl
@[simp] theorem raiseError_err (c : ErrCode) (i : Word) (s : State) : (raiseError c i s).err = true := rfl
@[simp] theorem raiseError_wovr (c : ErrCode) (i : Word) (s : State) : (raiseError c i s).wovr = s.wovr := rfl
@[simp] theorem raiseError_errCode (c : ErrCode) (i : Word) (s : State) : (raiseError c i s).errCode = c := rfl
@[simp] theorem raiseError_cmd (c : ErrCode) (i : Word) (s : State) : (raiseError c i s).cmd = s.cmd := rfl
@[simp] theorem raiseError_srcAddr (c : ErrCode) (i : Word) (s : State) : (raiseError c i s).srcAddr = s.srcAddr := rfl
@[simp] theorem raiseError_srcLen (c : ErrCode) (i : Word) (s : State) : (raiseError c i s).srcLen = s.srcLen := rfl
@[simp] theorem raiseError_dstAddr (c : ErrCode) (i : Word) (s : State) : (raiseError c i s).dstAddr = s.dstAddr := rfl
@[simp] theorem raiseError_dstCap (c : ErrCode) (i : Word) (s : State) : (raiseError c i s).dstCap = s.dstCap := rfl
@[simp] theorem raiseError_outLen (c : ErrCode) (i : Word) (s : State) : (raiseError c i s).outLen = s.outLen := rfl
@[simp] theorem raiseError_result (c : ErrCode) (i : Word) (s : State) : (raiseError c i s).result = s.result := rfl
@[simp] theorem raiseError_errInfo (c : ErrCode) (i : Word) (s : State) : (raiseError c i s).errInfo = i := rfl
@[simp] theorem raiseError_countCtx (c : ErrCode) (i : Word) (s : State) : (raiseError c i s).countCtx = s.countCtx := rfl
@[simp] theorem raiseError_countSym (c : ErrCode) (i : Word) (s : State) : (raiseError c i s).countSym = s.countSym := rfl
@[simp] theorem raiseError_cwLen (c : ErrCode) (i : Word) (s : State) : (raiseError c i s).cwLen = s.cwLen := rfl
@[simp] theorem raiseError_cwBits (c : ErrCode) (i : Word) (s : State) : (raiseError c i s).cwBits = s.cwBits := rfl
@[simp] theorem raiseError_counts (c : ErrCode) (i : Word) (s : State) : (raiseError c i s).counts = s.counts := rfl
@[simp] theorem raiseError_kind (c : ErrCode) (i : Word) (s : State) : (raiseError c i s).kind = s.kind := rfl
@[simp] theorem raiseError_slots (c : ErrCode) (i : Word) (s : State) : (raiseError c i s).slots = s.slots := rfl
@[simp] theorem raiseError_bb (c : ErrCode) (i : Word) (s : State) : (raiseError c i s).bb = s.bb := rfl
@[simp] theorem raiseError_seq (c : ErrCode) (i : Word) (s : State) : (raiseError c i s).seq = .idle := rfl
@[simp] theorem raiseError_latch (c : ErrCode) (i : Word) (s : State) : (raiseError c i s).latch = s.latch := rfl
@[simp] theorem raiseError_memory (c : ErrCode) (i : Word) (s : State) : (raiseError c i s).memory = s.memory := rfl
@[simp] theorem raiseError_env (c : ErrCode) (i : Word) (s : State) : (raiseError c i s).env = (endCommand s).env := rfl

/-! `clearError` -/

@[simp] theorem clearError_doneIe (s : State) : (clearError s).doneIe = s.doneIe := rfl
@[simp] theorem clearError_errIe (s : State) : (clearError s).errIe = s.errIe := rfl
@[simp] theorem clearError_done (s : State) : (clearError s).done = s.done := rfl
@[simp] theorem clearError_err (s : State) : (clearError s).err = false := rfl
@[simp] theorem clearError_wovr (s : State) : (clearError s).wovr = s.wovr := rfl
@[simp] theorem clearError_errCode (s : State) : (clearError s).errCode = .noError := rfl
@[simp] theorem clearError_cmd (s : State) : (clearError s).cmd = s.cmd := rfl
@[simp] theorem clearError_srcAddr (s : State) : (clearError s).srcAddr = s.srcAddr := rfl
@[simp] theorem clearError_srcLen (s : State) : (clearError s).srcLen = s.srcLen := rfl
@[simp] theorem clearError_dstAddr (s : State) : (clearError s).dstAddr = s.dstAddr := rfl
@[simp] theorem clearError_dstCap (s : State) : (clearError s).dstCap = s.dstCap := rfl
@[simp] theorem clearError_outLen (s : State) : (clearError s).outLen = s.outLen := rfl
@[simp] theorem clearError_result (s : State) : (clearError s).result = s.result := rfl
@[simp] theorem clearError_errInfo (s : State) : (clearError s).errInfo = 0#32 := rfl
@[simp] theorem clearError_countCtx (s : State) : (clearError s).countCtx = s.countCtx := rfl
@[simp] theorem clearError_countSym (s : State) : (clearError s).countSym = s.countSym := rfl
@[simp] theorem clearError_cwLen (s : State) : (clearError s).cwLen = s.cwLen := rfl
@[simp] theorem clearError_cwBits (s : State) : (clearError s).cwBits = s.cwBits := rfl
@[simp] theorem clearError_counts (s : State) : (clearError s).counts = s.counts := rfl
@[simp] theorem clearError_kind (s : State) : (clearError s).kind = s.kind := rfl
@[simp] theorem clearError_slots (s : State) : (clearError s).slots = s.slots := rfl
@[simp] theorem clearError_bb (s : State) : (clearError s).bb = s.bb := rfl
@[simp] theorem clearError_seq (s : State) : (clearError s).seq = s.seq := rfl
@[simp] theorem clearError_latch (s : State) : (clearError s).latch = s.latch := rfl
@[simp] theorem clearError_memory (s : State) : (clearError s).memory = s.memory := rfl
@[simp] theorem clearError_env (s : State) : (clearError s).env = s.env := rfl

/-! `latchCommand` -/

@[simp] theorem latchCommand_doneIe (w : Word) (s : State) : (latchCommand w s).doneIe = s.doneIe := rfl
@[simp] theorem latchCommand_errIe (w : Word) (s : State) : (latchCommand w s).errIe = s.errIe := rfl
@[simp] theorem latchCommand_done (w : Word) (s : State) : (latchCommand w s).done = false := rfl
@[simp] theorem latchCommand_err (w : Word) (s : State) : (latchCommand w s).err = false := rfl
@[simp] theorem latchCommand_wovr (w : Word) (s : State) : (latchCommand w s).wovr = s.wovr := rfl
@[simp] theorem latchCommand_errCode (w : Word) (s : State) : (latchCommand w s).errCode = .noError := rfl
@[simp] theorem latchCommand_cmd (w : Word) (s : State) : (latchCommand w s).cmd = w := rfl
@[simp] theorem latchCommand_srcAddr (w : Word) (s : State) : (latchCommand w s).srcAddr = s.srcAddr := rfl
@[simp] theorem latchCommand_srcLen (w : Word) (s : State) : (latchCommand w s).srcLen = s.srcLen := rfl
@[simp] theorem latchCommand_dstAddr (w : Word) (s : State) : (latchCommand w s).dstAddr = s.dstAddr := rfl
@[simp] theorem latchCommand_dstCap (w : Word) (s : State) : (latchCommand w s).dstCap = s.dstCap := rfl
@[simp] theorem latchCommand_outLen (w : Word) (s : State) : (latchCommand w s).outLen = s.outLen := rfl
@[simp] theorem latchCommand_result (w : Word) (s : State) : (latchCommand w s).result = s.result := rfl
@[simp] theorem latchCommand_errInfo (w : Word) (s : State) : (latchCommand w s).errInfo = 0#32 := rfl
@[simp] theorem latchCommand_countCtx (w : Word) (s : State) : (latchCommand w s).countCtx = s.countCtx := rfl
@[simp] theorem latchCommand_countSym (w : Word) (s : State) : (latchCommand w s).countSym = s.countSym := rfl
@[simp] theorem latchCommand_cwLen (w : Word) (s : State) : (latchCommand w s).cwLen = s.cwLen := rfl
@[simp] theorem latchCommand_cwBits (w : Word) (s : State) : (latchCommand w s).cwBits = s.cwBits := rfl
@[simp] theorem latchCommand_counts (w : Word) (s : State) : (latchCommand w s).counts = s.counts := rfl
@[simp] theorem latchCommand_kind (w : Word) (s : State) : (latchCommand w s).kind = s.kind := rfl
@[simp] theorem latchCommand_slots (w : Word) (s : State) : (latchCommand w s).slots = s.slots := rfl
@[simp] theorem latchCommand_bb (w : Word) (s : State) : (latchCommand w s).bb = s.bb := rfl
@[simp] theorem latchCommand_seq (w : Word) (s : State) : (latchCommand w s).seq = .running := rfl
@[simp] theorem latchCommand_latch (w : Word) (s : State) : (latchCommand w s).latch = ⟨s.srcAddr, s.srcLen, s.dstAddr, s.dstCap⟩ := rfl
@[simp] theorem latchCommand_memory (w : Word) (s : State) : (latchCommand w s).memory = s.memory := rfl
@[simp] theorem latchCommand_env (w : Word) (s : State) : (latchCommand w s).env = { s.env with races := [] } := rfl

/-! `unspecifiedResults` -/

@[simp] theorem unspecifiedResults_doneIe (s : State) : (unspecifiedResults s).doneIe = s.doneIe := rfl
@[simp] theorem unspecifiedResults_errIe (s : State) : (unspecifiedResults s).errIe = s.errIe := rfl
@[simp] theorem unspecifiedResults_done (s : State) : (unspecifiedResults s).done = s.done := rfl
@[simp] theorem unspecifiedResults_err (s : State) : (unspecifiedResults s).err = s.err := rfl
@[simp] theorem unspecifiedResults_wovr (s : State) : (unspecifiedResults s).wovr = s.wovr := rfl
@[simp] theorem unspecifiedResults_errCode (s : State) : (unspecifiedResults s).errCode = s.errCode := rfl
@[simp] theorem unspecifiedResults_cmd (s : State) : (unspecifiedResults s).cmd = s.cmd := rfl
@[simp] theorem unspecifiedResults_srcAddr (s : State) : (unspecifiedResults s).srcAddr = s.srcAddr := rfl
@[simp] theorem unspecifiedResults_srcLen (s : State) : (unspecifiedResults s).srcLen = s.srcLen := rfl
@[simp] theorem unspecifiedResults_dstAddr (s : State) : (unspecifiedResults s).dstAddr = s.dstAddr := rfl
@[simp] theorem unspecifiedResults_dstCap (s : State) : (unspecifiedResults s).dstCap = s.dstCap := rfl
@[simp] theorem unspecifiedResults_outLen (s : State) : (unspecifiedResults s).outLen = Config.freeWord s.env.freeCtr 1 := rfl
@[simp] theorem unspecifiedResults_result (s : State) : (unspecifiedResults s).result = Config.freeWord s.env.freeCtr 2 := rfl
@[simp] theorem unspecifiedResults_errInfo (s : State) : (unspecifiedResults s).errInfo = s.errInfo := rfl
@[simp] theorem unspecifiedResults_countCtx (s : State) : (unspecifiedResults s).countCtx = s.countCtx := rfl
@[simp] theorem unspecifiedResults_countSym (s : State) : (unspecifiedResults s).countSym = s.countSym := rfl
@[simp] theorem unspecifiedResults_cwLen (s : State) : (unspecifiedResults s).cwLen = s.cwLen := rfl
@[simp] theorem unspecifiedResults_cwBits (s : State) : (unspecifiedResults s).cwBits = s.cwBits := rfl
@[simp] theorem unspecifiedResults_counts (s : State) : (unspecifiedResults s).counts = s.counts := rfl
@[simp] theorem unspecifiedResults_kind (s : State) : (unspecifiedResults s).kind = s.kind := rfl
@[simp] theorem unspecifiedResults_slots (s : State) : (unspecifiedResults s).slots = s.slots := rfl
@[simp] theorem unspecifiedResults_bb (s : State) : (unspecifiedResults s).bb = s.bb := rfl
@[simp] theorem unspecifiedResults_seq (s : State) : (unspecifiedResults s).seq = s.seq := rfl
@[simp] theorem unspecifiedResults_latch (s : State) : (unspecifiedResults s).latch = s.latch := rfl
@[simp] theorem unspecifiedResults_memory (s : State) : (unspecifiedResults s).memory = s.memory := rfl
@[simp] theorem unspecifiedResults_env (s : State) : (unspecifiedResults s).env = s.env := rfl

/-! `unspecifiedOutput` -/

@[simp] theorem unspecifiedOutput_doneIe (s : State) : (unspecifiedOutput s).doneIe = s.doneIe := rfl
@[simp] theorem unspecifiedOutput_errIe (s : State) : (unspecifiedOutput s).errIe = s.errIe := rfl
@[simp] theorem unspecifiedOutput_done (s : State) : (unspecifiedOutput s).done = s.done := rfl
@[simp] theorem unspecifiedOutput_err (s : State) : (unspecifiedOutput s).err = s.err := rfl
@[simp] theorem unspecifiedOutput_wovr (s : State) : (unspecifiedOutput s).wovr = s.wovr := rfl
@[simp] theorem unspecifiedOutput_errCode (s : State) : (unspecifiedOutput s).errCode = s.errCode := rfl
@[simp] theorem unspecifiedOutput_cmd (s : State) : (unspecifiedOutput s).cmd = s.cmd := rfl
@[simp] theorem unspecifiedOutput_srcAddr (s : State) : (unspecifiedOutput s).srcAddr = s.srcAddr := rfl
@[simp] theorem unspecifiedOutput_srcLen (s : State) : (unspecifiedOutput s).srcLen = s.srcLen := rfl
@[simp] theorem unspecifiedOutput_dstAddr (s : State) : (unspecifiedOutput s).dstAddr = s.dstAddr := rfl
@[simp] theorem unspecifiedOutput_dstCap (s : State) : (unspecifiedOutput s).dstCap = s.dstCap := rfl
@[simp] theorem unspecifiedOutput_outLen (s : State) : (unspecifiedOutput s).outLen = Config.freeWord s.env.freeCtr 1 := rfl
@[simp] theorem unspecifiedOutput_result (s : State) : (unspecifiedOutput s).result = Config.freeWord s.env.freeCtr 2 := rfl
@[simp] theorem unspecifiedOutput_errInfo (s : State) : (unspecifiedOutput s).errInfo = s.errInfo := rfl
@[simp] theorem unspecifiedOutput_countCtx (s : State) : (unspecifiedOutput s).countCtx = s.countCtx := rfl
@[simp] theorem unspecifiedOutput_countSym (s : State) : (unspecifiedOutput s).countSym = s.countSym := rfl
@[simp] theorem unspecifiedOutput_cwLen (s : State) : (unspecifiedOutput s).cwLen = s.cwLen := rfl
@[simp] theorem unspecifiedOutput_cwBits (s : State) : (unspecifiedOutput s).cwBits = s.cwBits := rfl
@[simp] theorem unspecifiedOutput_counts (s : State) : (unspecifiedOutput s).counts = s.counts := rfl
@[simp] theorem unspecifiedOutput_kind (s : State) : (unspecifiedOutput s).kind = s.kind := rfl
@[simp] theorem unspecifiedOutput_slots (s : State) : (unspecifiedOutput s).slots = s.slots := rfl
@[simp] theorem unspecifiedOutput_bb (s : State) : (unspecifiedOutput s).bb = s.bb := rfl
@[simp] theorem unspecifiedOutput_seq (s : State) : (unspecifiedOutput s).seq = s.seq := rfl
@[simp] theorem unspecifiedOutput_latch (s : State) : (unspecifiedOutput s).latch = s.latch := rfl
@[simp] theorem unspecifiedOutput_memory (s : State) : (unspecifiedOutput s).memory = scrambleRegion s s.latch.dstBase s.latch.dstCap := rfl
@[simp] theorem unspecifiedOutput_env (s : State) : (unspecifiedOutput s).env = s.env := rfl

/-! `withoutTable` -/

@[simp] theorem withoutTable_doneIe (s : State) : (withoutTable s).doneIe = s.doneIe := rfl
@[simp] theorem withoutTable_errIe (s : State) : (withoutTable s).errIe = s.errIe := rfl
@[simp] theorem withoutTable_done (s : State) : (withoutTable s).done = s.done := rfl
@[simp] theorem withoutTable_err (s : State) : (withoutTable s).err = s.err := rfl
@[simp] theorem withoutTable_wovr (s : State) : (withoutTable s).wovr = s.wovr := rfl
@[simp] theorem withoutTable_errCode (s : State) : (withoutTable s).errCode = s.errCode := rfl
@[simp] theorem withoutTable_cmd (s : State) : (withoutTable s).cmd = s.cmd := rfl
@[simp] theorem withoutTable_srcAddr (s : State) : (withoutTable s).srcAddr = s.srcAddr := rfl
@[simp] theorem withoutTable_srcLen (s : State) : (withoutTable s).srcLen = s.srcLen := rfl
@[simp] theorem withoutTable_dstAddr (s : State) : (withoutTable s).dstAddr = s.dstAddr := rfl
@[simp] theorem withoutTable_dstCap (s : State) : (withoutTable s).dstCap = s.dstCap := rfl
@[simp] theorem withoutTable_outLen (s : State) : (withoutTable s).outLen = Config.freeWord s.env.freeCtr 1 := rfl
@[simp] theorem withoutTable_result (s : State) : (withoutTable s).result = Config.freeWord s.env.freeCtr 2 := rfl
@[simp] theorem withoutTable_errInfo (s : State) : (withoutTable s).errInfo = s.errInfo := rfl
@[simp] theorem withoutTable_countCtx (s : State) : (withoutTable s).countCtx = s.countCtx := rfl
@[simp] theorem withoutTable_countSym (s : State) : (withoutTable s).countSym = s.countSym := rfl
@[simp] theorem withoutTable_cwLen (s : State) : (withoutTable s).cwLen = s.cwLen := rfl
@[simp] theorem withoutTable_cwBits (s : State) : (withoutTable s).cwBits = s.cwBits := rfl
@[simp] theorem withoutTable_counts (s : State) : (withoutTable s).counts = s.counts := rfl
@[simp] theorem withoutTable_kind (s : State) : (withoutTable s).kind = .none := rfl
@[simp] theorem withoutTable_slots (s : State) : (withoutTable s).slots = [] := rfl
@[simp] theorem withoutTable_bb (s : State) : (withoutTable s).bb = s.bb := rfl
@[simp] theorem withoutTable_seq (s : State) : (withoutTable s).seq = s.seq := rfl
@[simp] theorem withoutTable_latch (s : State) : (withoutTable s).latch = s.latch := rfl
@[simp] theorem withoutTable_memory (s : State) : (withoutTable s).memory = s.memory := rfl
@[simp] theorem withoutTable_env (s : State) : (withoutTable s).env = s.env := rfl

/-! `discardWrite` -/

@[simp] theorem discardWrite_doneIe (s : State) : (discardWrite s).doneIe = s.doneIe := rfl
@[simp] theorem discardWrite_errIe (s : State) : (discardWrite s).errIe = s.errIe := rfl
@[simp] theorem discardWrite_done (s : State) : (discardWrite s).done = s.done := rfl
@[simp] theorem discardWrite_err (s : State) : (discardWrite s).err = s.err := rfl
@[simp] theorem discardWrite_wovr (s : State) : (discardWrite s).wovr = true := rfl
@[simp] theorem discardWrite_errCode (s : State) : (discardWrite s).errCode = s.errCode := rfl
@[simp] theorem discardWrite_cmd (s : State) : (discardWrite s).cmd = s.cmd := rfl
@[simp] theorem discardWrite_srcAddr (s : State) : (discardWrite s).srcAddr = s.srcAddr := rfl
@[simp] theorem discardWrite_srcLen (s : State) : (discardWrite s).srcLen = s.srcLen := rfl
@[simp] theorem discardWrite_dstAddr (s : State) : (discardWrite s).dstAddr = s.dstAddr := rfl
@[simp] theorem discardWrite_dstCap (s : State) : (discardWrite s).dstCap = s.dstCap := rfl
@[simp] theorem discardWrite_outLen (s : State) : (discardWrite s).outLen = s.outLen := rfl
@[simp] theorem discardWrite_result (s : State) : (discardWrite s).result = s.result := rfl
@[simp] theorem discardWrite_errInfo (s : State) : (discardWrite s).errInfo = s.errInfo := rfl
@[simp] theorem discardWrite_countCtx (s : State) : (discardWrite s).countCtx = s.countCtx := rfl
@[simp] theorem discardWrite_countSym (s : State) : (discardWrite s).countSym = s.countSym := rfl
@[simp] theorem discardWrite_cwLen (s : State) : (discardWrite s).cwLen = s.cwLen := rfl
@[simp] theorem discardWrite_cwBits (s : State) : (discardWrite s).cwBits = s.cwBits := rfl
@[simp] theorem discardWrite_counts (s : State) : (discardWrite s).counts = s.counts := rfl
@[simp] theorem discardWrite_kind (s : State) : (discardWrite s).kind = s.kind := rfl
@[simp] theorem discardWrite_slots (s : State) : (discardWrite s).slots = s.slots := rfl
@[simp] theorem discardWrite_bb (s : State) : (discardWrite s).bb = s.bb := rfl
@[simp] theorem discardWrite_seq (s : State) : (discardWrite s).seq = s.seq := rfl
@[simp] theorem discardWrite_latch (s : State) : (discardWrite s).latch = s.latch := rfl
@[simp] theorem discardWrite_memory (s : State) : (discardWrite s).memory = s.memory := rfl
@[simp] theorem discardWrite_env (s : State) : (discardWrite s).env = s.env := rfl

/-! `deliver` -/

@[simp] theorem deliver_doneIe (v : Word) (s : State) : (deliver v s).doneIe = s.doneIe := rfl
@[simp] theorem deliver_errIe (v : Word) (s : State) : (deliver v s).errIe = s.errIe := rfl
@[simp] theorem deliver_done (v : Word) (s : State) : (deliver v s).done = s.done := rfl
@[simp] theorem deliver_err (v : Word) (s : State) : (deliver v s).err = s.err := rfl
@[simp] theorem deliver_wovr (v : Word) (s : State) : (deliver v s).wovr = s.wovr := rfl
@[simp] theorem deliver_errCode (v : Word) (s : State) : (deliver v s).errCode = s.errCode := rfl
@[simp] theorem deliver_cmd (v : Word) (s : State) : (deliver v s).cmd = s.cmd := rfl
@[simp] theorem deliver_srcAddr (v : Word) (s : State) : (deliver v s).srcAddr = s.srcAddr := rfl
@[simp] theorem deliver_srcLen (v : Word) (s : State) : (deliver v s).srcLen = s.srcLen := rfl
@[simp] theorem deliver_dstAddr (v : Word) (s : State) : (deliver v s).dstAddr = s.dstAddr := rfl
@[simp] theorem deliver_dstCap (v : Word) (s : State) : (deliver v s).dstCap = s.dstCap := rfl
@[simp] theorem deliver_outLen (v : Word) (s : State) : (deliver v s).outLen = s.outLen := rfl
@[simp] theorem deliver_result (v : Word) (s : State) : (deliver v s).result = s.result := rfl
@[simp] theorem deliver_errInfo (v : Word) (s : State) : (deliver v s).errInfo = s.errInfo := rfl
@[simp] theorem deliver_countCtx (v : Word) (s : State) : (deliver v s).countCtx = s.countCtx := rfl
@[simp] theorem deliver_countSym (v : Word) (s : State) : (deliver v s).countSym = s.countSym := rfl
@[simp] theorem deliver_cwLen (v : Word) (s : State) : (deliver v s).cwLen = s.cwLen := rfl
@[simp] theorem deliver_cwBits (v : Word) (s : State) : (deliver v s).cwBits = s.cwBits := rfl
@[simp] theorem deliver_counts (v : Word) (s : State) : (deliver v s).counts = s.counts := rfl
@[simp] theorem deliver_kind (v : Word) (s : State) : (deliver v s).kind = s.kind := rfl
@[simp] theorem deliver_slots (v : Word) (s : State) : (deliver v s).slots = s.slots := rfl
@[simp] theorem deliver_bb (v : Word) (s : State) : (deliver v s).bb = s.bb := rfl
@[simp] theorem deliver_seq (v : Word) (s : State) : (deliver v s).seq = s.seq := rfl
@[simp] theorem deliver_latch (v : Word) (s : State) : (deliver v s).latch = s.latch := rfl
@[simp] theorem deliver_memory (v : Word) (s : State) : (deliver v s).memory = s.memory := rfl
@[simp] theorem deliver_env (v : Word) (s : State) : (deliver v s).env = { s.env with hostData := v } := rfl

/-! `nextFree` -/

@[simp] theorem nextFree_doneIe (s : State) : (nextFree s).doneIe = s.doneIe := rfl
@[simp] theorem nextFree_errIe (s : State) : (nextFree s).errIe = s.errIe := rfl
@[simp] theorem nextFree_done (s : State) : (nextFree s).done = s.done := rfl
@[simp] theorem nextFree_err (s : State) : (nextFree s).err = s.err := rfl
@[simp] theorem nextFree_wovr (s : State) : (nextFree s).wovr = s.wovr := rfl
@[simp] theorem nextFree_errCode (s : State) : (nextFree s).errCode = s.errCode := rfl
@[simp] theorem nextFree_cmd (s : State) : (nextFree s).cmd = s.cmd := rfl
@[simp] theorem nextFree_srcAddr (s : State) : (nextFree s).srcAddr = s.srcAddr := rfl
@[simp] theorem nextFree_srcLen (s : State) : (nextFree s).srcLen = s.srcLen := rfl
@[simp] theorem nextFree_dstAddr (s : State) : (nextFree s).dstAddr = s.dstAddr := rfl
@[simp] theorem nextFree_dstCap (s : State) : (nextFree s).dstCap = s.dstCap := rfl
@[simp] theorem nextFree_outLen (s : State) : (nextFree s).outLen = s.outLen := rfl
@[simp] theorem nextFree_result (s : State) : (nextFree s).result = s.result := rfl
@[simp] theorem nextFree_errInfo (s : State) : (nextFree s).errInfo = s.errInfo := rfl
@[simp] theorem nextFree_countCtx (s : State) : (nextFree s).countCtx = s.countCtx := rfl
@[simp] theorem nextFree_countSym (s : State) : (nextFree s).countSym = s.countSym := rfl
@[simp] theorem nextFree_cwLen (s : State) : (nextFree s).cwLen = s.cwLen := rfl
@[simp] theorem nextFree_cwBits (s : State) : (nextFree s).cwBits = s.cwBits := rfl
@[simp] theorem nextFree_counts (s : State) : (nextFree s).counts = s.counts := rfl
@[simp] theorem nextFree_kind (s : State) : (nextFree s).kind = s.kind := rfl
@[simp] theorem nextFree_slots (s : State) : (nextFree s).slots = s.slots := rfl
@[simp] theorem nextFree_bb (s : State) : (nextFree s).bb = s.bb := rfl
@[simp] theorem nextFree_seq (s : State) : (nextFree s).seq = s.seq := rfl
@[simp] theorem nextFree_latch (s : State) : (nextFree s).latch = s.latch := rfl
@[simp] theorem nextFree_memory (s : State) : (nextFree s).memory = s.memory := rfl
@[simp] theorem nextFree_env (s : State) : (nextFree s).env = { s.env with freeCtr := s.env.freeCtr + 1 } := rfl

/-! `withInputs` -/

@[simp] theorem withInputs_doneIe (es : List Event) (s : State) : (withInputs es s).doneIe = s.doneIe := rfl
@[simp] theorem withInputs_errIe (es : List Event) (s : State) : (withInputs es s).errIe = s.errIe := rfl
@[simp] theorem withInputs_done (es : List Event) (s : State) : (withInputs es s).done = s.done := rfl
@[simp] theorem withInputs_err (es : List Event) (s : State) : (withInputs es s).err = s.err := rfl
@[simp] theorem withInputs_wovr (es : List Event) (s : State) : (withInputs es s).wovr = s.wovr := rfl
@[simp] theorem withInputs_errCode (es : List Event) (s : State) : (withInputs es s).errCode = s.errCode := rfl
@[simp] theorem withInputs_cmd (es : List Event) (s : State) : (withInputs es s).cmd = s.cmd := rfl
@[simp] theorem withInputs_srcAddr (es : List Event) (s : State) : (withInputs es s).srcAddr = s.srcAddr := rfl
@[simp] theorem withInputs_srcLen (es : List Event) (s : State) : (withInputs es s).srcLen = s.srcLen := rfl
@[simp] theorem withInputs_dstAddr (es : List Event) (s : State) : (withInputs es s).dstAddr = s.dstAddr := rfl
@[simp] theorem withInputs_dstCap (es : List Event) (s : State) : (withInputs es s).dstCap = s.dstCap := rfl
@[simp] theorem withInputs_outLen (es : List Event) (s : State) : (withInputs es s).outLen = s.outLen := rfl
@[simp] theorem withInputs_result (es : List Event) (s : State) : (withInputs es s).result = s.result := rfl
@[simp] theorem withInputs_errInfo (es : List Event) (s : State) : (withInputs es s).errInfo = s.errInfo := rfl
@[simp] theorem withInputs_countCtx (es : List Event) (s : State) : (withInputs es s).countCtx = s.countCtx := rfl
@[simp] theorem withInputs_countSym (es : List Event) (s : State) : (withInputs es s).countSym = s.countSym := rfl
@[simp] theorem withInputs_cwLen (es : List Event) (s : State) : (withInputs es s).cwLen = s.cwLen := rfl
@[simp] theorem withInputs_cwBits (es : List Event) (s : State) : (withInputs es s).cwBits = s.cwBits := rfl
@[simp] theorem withInputs_counts (es : List Event) (s : State) : (withInputs es s).counts = s.counts := rfl
@[simp] theorem withInputs_kind (es : List Event) (s : State) : (withInputs es s).kind = s.kind := rfl
@[simp] theorem withInputs_slots (es : List Event) (s : State) : (withInputs es s).slots = s.slots := rfl
@[simp] theorem withInputs_bb (es : List Event) (s : State) : (withInputs es s).bb = s.bb := rfl
@[simp] theorem withInputs_seq (es : List Event) (s : State) : (withInputs es s).seq = s.seq := rfl
@[simp] theorem withInputs_latch (es : List Event) (s : State) : (withInputs es s).latch = s.latch := rfl
@[simp] theorem withInputs_memory (es : List Event) (s : State) : (withInputs es s).memory = s.memory := rfl
@[simp] theorem withInputs_env (es : List Event) (s : State) : (withInputs es s).env = { s.env with inputs := es } := rfl

/-! `deliverByte` -/

@[simp] theorem deliverByte_doneIe (v : Byte) (s : State) : (deliverByte v s).doneIe = s.doneIe := rfl
@[simp] theorem deliverByte_errIe (v : Byte) (s : State) : (deliverByte v s).errIe = s.errIe := rfl
@[simp] theorem deliverByte_done (v : Byte) (s : State) : (deliverByte v s).done = s.done := rfl
@[simp] theorem deliverByte_err (v : Byte) (s : State) : (deliverByte v s).err = s.err := rfl
@[simp] theorem deliverByte_wovr (v : Byte) (s : State) : (deliverByte v s).wovr = s.wovr := rfl
@[simp] theorem deliverByte_errCode (v : Byte) (s : State) : (deliverByte v s).errCode = s.errCode := rfl
@[simp] theorem deliverByte_cmd (v : Byte) (s : State) : (deliverByte v s).cmd = s.cmd := rfl
@[simp] theorem deliverByte_srcAddr (v : Byte) (s : State) : (deliverByte v s).srcAddr = s.srcAddr := rfl
@[simp] theorem deliverByte_srcLen (v : Byte) (s : State) : (deliverByte v s).srcLen = s.srcLen := rfl
@[simp] theorem deliverByte_dstAddr (v : Byte) (s : State) : (deliverByte v s).dstAddr = s.dstAddr := rfl
@[simp] theorem deliverByte_dstCap (v : Byte) (s : State) : (deliverByte v s).dstCap = s.dstCap := rfl
@[simp] theorem deliverByte_outLen (v : Byte) (s : State) : (deliverByte v s).outLen = s.outLen := rfl
@[simp] theorem deliverByte_result (v : Byte) (s : State) : (deliverByte v s).result = s.result := rfl
@[simp] theorem deliverByte_errInfo (v : Byte) (s : State) : (deliverByte v s).errInfo = s.errInfo := rfl
@[simp] theorem deliverByte_countCtx (v : Byte) (s : State) : (deliverByte v s).countCtx = s.countCtx := rfl
@[simp] theorem deliverByte_countSym (v : Byte) (s : State) : (deliverByte v s).countSym = s.countSym := rfl
@[simp] theorem deliverByte_cwLen (v : Byte) (s : State) : (deliverByte v s).cwLen = s.cwLen := rfl
@[simp] theorem deliverByte_cwBits (v : Byte) (s : State) : (deliverByte v s).cwBits = s.cwBits := rfl
@[simp] theorem deliverByte_counts (v : Byte) (s : State) : (deliverByte v s).counts = s.counts := rfl
@[simp] theorem deliverByte_kind (v : Byte) (s : State) : (deliverByte v s).kind = s.kind := rfl
@[simp] theorem deliverByte_slots (v : Byte) (s : State) : (deliverByte v s).slots = s.slots := rfl
@[simp] theorem deliverByte_bb (v : Byte) (s : State) : (deliverByte v s).bb = s.bb := rfl
@[simp] theorem deliverByte_seq (v : Byte) (s : State) : (deliverByte v s).seq = s.seq := rfl
@[simp] theorem deliverByte_latch (v : Byte) (s : State) : (deliverByte v s).latch = s.latch := rfl
@[simp] theorem deliverByte_memory (v : Byte) (s : State) : (deliverByte v s).memory = s.memory := rfl
@[simp] theorem deliverByte_env (v : Byte) (s : State) : (deliverByte v s).env = { s.env with hostData := v.setWidth 32 } := rfl

/-! `openRead` -/

@[simp] theorem openRead_doneIe (s : State) : (openRead s).doneIe = s.doneIe := rfl
@[simp] theorem openRead_errIe (s : State) : (openRead s).errIe = s.errIe := rfl
@[simp] theorem openRead_done (s : State) : (openRead s).done = s.done := rfl
@[simp] theorem openRead_err (s : State) : (openRead s).err = s.err := rfl
@[simp] theorem openRead_wovr (s : State) : (openRead s).wovr = s.wovr := rfl
@[simp] theorem openRead_errCode (s : State) : (openRead s).errCode = s.errCode := rfl
@[simp] theorem openRead_cmd (s : State) : (openRead s).cmd = s.cmd := rfl
@[simp] theorem openRead_srcAddr (s : State) : (openRead s).srcAddr = s.srcAddr := rfl
@[simp] theorem openRead_srcLen (s : State) : (openRead s).srcLen = s.srcLen := rfl
@[simp] theorem openRead_dstAddr (s : State) : (openRead s).dstAddr = s.dstAddr := rfl
@[simp] theorem openRead_dstCap (s : State) : (openRead s).dstCap = s.dstCap := rfl
@[simp] theorem openRead_outLen (s : State) : (openRead s).outLen = s.outLen := rfl
@[simp] theorem openRead_result (s : State) : (openRead s).result = s.result := rfl
@[simp] theorem openRead_errInfo (s : State) : (openRead s).errInfo = s.errInfo := rfl
@[simp] theorem openRead_countCtx (s : State) : (openRead s).countCtx = s.countCtx := rfl
@[simp] theorem openRead_countSym (s : State) : (openRead s).countSym = s.countSym := rfl
@[simp] theorem openRead_cwLen (s : State) : (openRead s).cwLen = s.cwLen := rfl
@[simp] theorem openRead_cwBits (s : State) : (openRead s).cwBits = s.cwBits := rfl
@[simp] theorem openRead_counts (s : State) : (openRead s).counts = s.counts := rfl
@[simp] theorem openRead_kind (s : State) : (openRead s).kind = s.kind := rfl
@[simp] theorem openRead_slots (s : State) : (openRead s).slots = s.slots := rfl
@[simp] theorem openRead_bb (s : State) : (openRead s).bb = { s.bb with mode := .read, bytePos := 0#32, bitIdx := 0#3, srcBase := s.latch.srcBase, srcLen := s.latch.srcLen } := rfl
@[simp] theorem openRead_seq (s : State) : (openRead s).seq = s.seq := rfl
@[simp] theorem openRead_latch (s : State) : (openRead s).latch = s.latch := rfl
@[simp] theorem openRead_memory (s : State) : (openRead s).memory = s.memory := rfl
@[simp] theorem openRead_env (s : State) : (openRead s).env = { s.env with sessionRaces := s.env.races } := rfl

/-! `sessionMoved` -/

@[simp] theorem sessionMoved_doneIe (w : Writer) (bits : List Bool) (staged : List Host.Cell) (m : Memory) (s : State) : (sessionMoved s w bits staged m).doneIe = s.doneIe := rfl
@[simp] theorem sessionMoved_errIe (w : Writer) (bits : List Bool) (staged : List Host.Cell) (m : Memory) (s : State) : (sessionMoved s w bits staged m).errIe = s.errIe := rfl
@[simp] theorem sessionMoved_done (w : Writer) (bits : List Bool) (staged : List Host.Cell) (m : Memory) (s : State) : (sessionMoved s w bits staged m).done = s.done := rfl
@[simp] theorem sessionMoved_err (w : Writer) (bits : List Bool) (staged : List Host.Cell) (m : Memory) (s : State) : (sessionMoved s w bits staged m).err = s.err := rfl
@[simp] theorem sessionMoved_wovr (w : Writer) (bits : List Bool) (staged : List Host.Cell) (m : Memory) (s : State) : (sessionMoved s w bits staged m).wovr = s.wovr := rfl
@[simp] theorem sessionMoved_errCode (w : Writer) (bits : List Bool) (staged : List Host.Cell) (m : Memory) (s : State) : (sessionMoved s w bits staged m).errCode = s.errCode := rfl
@[simp] theorem sessionMoved_cmd (w : Writer) (bits : List Bool) (staged : List Host.Cell) (m : Memory) (s : State) : (sessionMoved s w bits staged m).cmd = s.cmd := rfl
@[simp] theorem sessionMoved_srcAddr (w : Writer) (bits : List Bool) (staged : List Host.Cell) (m : Memory) (s : State) : (sessionMoved s w bits staged m).srcAddr = s.srcAddr := rfl
@[simp] theorem sessionMoved_srcLen (w : Writer) (bits : List Bool) (staged : List Host.Cell) (m : Memory) (s : State) : (sessionMoved s w bits staged m).srcLen = s.srcLen := rfl
@[simp] theorem sessionMoved_dstAddr (w : Writer) (bits : List Bool) (staged : List Host.Cell) (m : Memory) (s : State) : (sessionMoved s w bits staged m).dstAddr = s.dstAddr := rfl
@[simp] theorem sessionMoved_dstCap (w : Writer) (bits : List Bool) (staged : List Host.Cell) (m : Memory) (s : State) : (sessionMoved s w bits staged m).dstCap = s.dstCap := rfl
@[simp] theorem sessionMoved_outLen (w : Writer) (bits : List Bool) (staged : List Host.Cell) (m : Memory) (s : State) : (sessionMoved s w bits staged m).outLen = s.outLen := rfl
@[simp] theorem sessionMoved_result (w : Writer) (bits : List Bool) (staged : List Host.Cell) (m : Memory) (s : State) : (sessionMoved s w bits staged m).result = s.result := rfl
@[simp] theorem sessionMoved_errInfo (w : Writer) (bits : List Bool) (staged : List Host.Cell) (m : Memory) (s : State) : (sessionMoved s w bits staged m).errInfo = s.errInfo := rfl
@[simp] theorem sessionMoved_countCtx (w : Writer) (bits : List Bool) (staged : List Host.Cell) (m : Memory) (s : State) : (sessionMoved s w bits staged m).countCtx = s.countCtx := rfl
@[simp] theorem sessionMoved_countSym (w : Writer) (bits : List Bool) (staged : List Host.Cell) (m : Memory) (s : State) : (sessionMoved s w bits staged m).countSym = s.countSym := rfl
@[simp] theorem sessionMoved_cwLen (w : Writer) (bits : List Bool) (staged : List Host.Cell) (m : Memory) (s : State) : (sessionMoved s w bits staged m).cwLen = s.cwLen := rfl
@[simp] theorem sessionMoved_cwBits (w : Writer) (bits : List Bool) (staged : List Host.Cell) (m : Memory) (s : State) : (sessionMoved s w bits staged m).cwBits = s.cwBits := rfl
@[simp] theorem sessionMoved_counts (w : Writer) (bits : List Bool) (staged : List Host.Cell) (m : Memory) (s : State) : (sessionMoved s w bits staged m).counts = s.counts := rfl
@[simp] theorem sessionMoved_kind (w : Writer) (bits : List Bool) (staged : List Host.Cell) (m : Memory) (s : State) : (sessionMoved s w bits staged m).kind = s.kind := rfl
@[simp] theorem sessionMoved_slots (w : Writer) (bits : List Bool) (staged : List Host.Cell) (m : Memory) (s : State) : (sessionMoved s w bits staged m).slots = s.slots := rfl
@[simp] theorem sessionMoved_bb (w : Writer) (bits : List Bool) (staged : List Host.Cell) (m : Memory) (s : State) : (sessionMoved s w bits staged m).bb = { s.bb with bytePos := s.bb.bytePos + BitVec.ofNat 32 w.out.length, bitIdx := BitVec.ofNat 3 w.idx, part := w.part, ws := s.bb.ws ++ bits, staged := staged } := rfl
@[simp] theorem sessionMoved_seq (w : Writer) (bits : List Bool) (staged : List Host.Cell) (m : Memory) (s : State) : (sessionMoved s w bits staged m).seq = s.seq := rfl
@[simp] theorem sessionMoved_latch (w : Writer) (bits : List Bool) (staged : List Host.Cell) (m : Memory) (s : State) : (sessionMoved s w bits staged m).latch = s.latch := rfl
@[simp] theorem sessionMoved_memory (w : Writer) (bits : List Bool) (staged : List Host.Cell) (m : Memory) (s : State) : (sessionMoved s w bits staged m).memory = m := rfl
@[simp] theorem sessionMoved_env (w : Writer) (bits : List Bool) (staged : List Host.Cell) (m : Memory) (s : State) : (sessionMoved s w bits staged m).env = s.env := rfl

/-! `writeCtrl` -/

@[simp] theorem writeCtrl_doneIe (v : Word) (s : State) : (writeCtrl v s).doneIe = v.getLsbD 0 := rfl
@[simp] theorem writeCtrl_errIe (v : Word) (s : State) : (writeCtrl v s).errIe = v.getLsbD 1 := rfl
@[simp] theorem writeCtrl_done (v : Word) (s : State) : (writeCtrl v s).done = s.done := rfl
@[simp] theorem writeCtrl_err (v : Word) (s : State) : (writeCtrl v s).err = s.err := rfl
@[simp] theorem writeCtrl_wovr (v : Word) (s : State) : (writeCtrl v s).wovr = s.wovr := rfl
@[simp] theorem writeCtrl_errCode (v : Word) (s : State) : (writeCtrl v s).errCode = s.errCode := rfl
@[simp] theorem writeCtrl_cmd (v : Word) (s : State) : (writeCtrl v s).cmd = s.cmd := rfl
@[simp] theorem writeCtrl_srcAddr (v : Word) (s : State) : (writeCtrl v s).srcAddr = s.srcAddr := rfl
@[simp] theorem writeCtrl_srcLen (v : Word) (s : State) : (writeCtrl v s).srcLen = s.srcLen := rfl
@[simp] theorem writeCtrl_dstAddr (v : Word) (s : State) : (writeCtrl v s).dstAddr = s.dstAddr := rfl
@[simp] theorem writeCtrl_dstCap (v : Word) (s : State) : (writeCtrl v s).dstCap = s.dstCap := rfl
@[simp] theorem writeCtrl_outLen (v : Word) (s : State) : (writeCtrl v s).outLen = s.outLen := rfl
@[simp] theorem writeCtrl_result (v : Word) (s : State) : (writeCtrl v s).result = s.result := rfl
@[simp] theorem writeCtrl_errInfo (v : Word) (s : State) : (writeCtrl v s).errInfo = s.errInfo := rfl
@[simp] theorem writeCtrl_countCtx (v : Word) (s : State) : (writeCtrl v s).countCtx = s.countCtx := rfl
@[simp] theorem writeCtrl_countSym (v : Word) (s : State) : (writeCtrl v s).countSym = s.countSym := rfl
@[simp] theorem writeCtrl_cwLen (v : Word) (s : State) : (writeCtrl v s).cwLen = s.cwLen := rfl
@[simp] theorem writeCtrl_cwBits (v : Word) (s : State) : (writeCtrl v s).cwBits = s.cwBits := rfl
@[simp] theorem writeCtrl_counts (v : Word) (s : State) : (writeCtrl v s).counts = s.counts := rfl
@[simp] theorem writeCtrl_kind (v : Word) (s : State) : (writeCtrl v s).kind = s.kind := rfl
@[simp] theorem writeCtrl_slots (v : Word) (s : State) : (writeCtrl v s).slots = s.slots := rfl
@[simp] theorem writeCtrl_bb (v : Word) (s : State) : (writeCtrl v s).bb = s.bb := rfl
@[simp] theorem writeCtrl_seq (v : Word) (s : State) : (writeCtrl v s).seq = s.seq := rfl
@[simp] theorem writeCtrl_latch (v : Word) (s : State) : (writeCtrl v s).latch = s.latch := rfl
@[simp] theorem writeCtrl_memory (v : Word) (s : State) : (writeCtrl v s).memory = s.memory := rfl
@[simp] theorem writeCtrl_env (v : Word) (s : State) : (writeCtrl v s).env = s.env := rfl

end Sys2Proof.Machine
end

