-- ==== Sys2Proof/Laws/Memory.lean ====
section
/-! SUPPORT. Sparse memories: a read after a write, the canonical form, and that every operation that writes system memory or the
count matrix keeps it. -/

namespace Sys2Proof.Machine

variable {w : Nat}

/-- The canonical form of a list with a first entry. -/
theorem wf_cons {k : Nat} {x : BitVec w} {m : Sparse w} :
    Sparse.wf ((k, x) :: m) ↔ (∀ c ∈ m, k < c.1) ∧ x ≠ unlisted w ∧ Sparse.wf m := by
  simp only [Sparse.wf, List.pairwise_cons, List.mem_cons, forall_eq_or_imp]
  tauto

/-- A key below every listed one is unlisted. -/
theorem get_of_lt {a : Nat} {m : Sparse w} (h : ∀ c ∈ m, a < c.1) : Sparse.get a m = unlisted w := by
  induction m with
  | nil => rfl
  | cons p m ih =>
    have hp := h p (by simp)
    simp only [Sparse.get, if_neg (Nat.ne_of_gt hp)]
    exact ih fun c hc => h c (by simp [hc])

/-- A write leaves every other key alone. -/
theorem get_set_of_ne {a b : Nat} (v : BitVec w) (m : Sparse w) (h : b ≠ a) :
    Sparse.get b (Sparse.set a v m) = Sparse.get b m := by
  induction m with
  | nil => simp only [Sparse.set]; split <;> simp [Sparse.get, Ne.symm h]
  | cons p m ih =>
    obtain ⟨k, x⟩ := p
    simp only [Sparse.set]
    split
    · split <;> simp [Sparse.get, Ne.symm h]
    · split
      · rename_i _ hk
        subst hk
        split <;> simp [Sparse.get, Ne.symm h]
      · simp [Sparse.get, ih]

/-- A read after a write to the same key gives the value written. -/
theorem get_set_same (a : Nat) (v : BitVec w) {m : Sparse w} (hm : Sparse.wf m) :
    Sparse.get a (Sparse.set a v m) = v := by
  induction m with
  | nil => simp only [Sparse.set]; split <;> simp_all [Sparse.get]
  | cons p m ih =>
    obtain ⟨k, x⟩ := p
    obtain ⟨hlt, -, hm⟩ := wf_cons.1 hm
    simp only [Sparse.set]
    split
    · rename_i hak
      split
      · rename_i hv
        rw [hv]
        exact get_of_lt (m := (k, x) :: m) fun c hc => by
          rcases List.mem_cons.1 hc with rfl | hc
          · exact hak
          · exact Nat.lt_trans hak (hlt c hc)
      · simp [Sparse.get]
    · split
      · rename_i _ hk
        subst hk
        split
        · rename_i hv; rw [hv]; exact get_of_lt hlt
        · simp [Sparse.get]
      · rename_i _ hk
        simp [Sparse.get, Ne.symm hk, ih hm]

/-- A key listed after a write was listed before, or is the one written. -/
theorem mem_set {a : Nat} {v : BitVec w} {m : Sparse w} {c : Nat × BitVec w} (h : c ∈ Sparse.set a v m) :
    c ∈ m ∨ (c = (a, v) ∧ v ≠ unlisted w) := by
  induction m with
  | nil => simp only [Sparse.set] at h; split at h <;> simp_all
  | cons p m ih =>
    obtain ⟨k, x⟩ := p
    simp only [Sparse.set] at h
    split at h
    · split at h <;> simp_all; tauto
    · split at h
      · split at h <;> simp_all; tauto
      · rcases List.mem_cons.1 h with rfl | h
        · simp
        · rcases ih h with h | h
          · exact .inl (List.mem_cons_of_mem _ h)
          · exact .inr h

/-- A write keeps the canonical form. -/
theorem set_wf (a : Nat) (v : BitVec w) {m : Sparse w} (hm : Sparse.wf m) : Sparse.wf (Sparse.set a v m) := by
  induction m with
  | nil => simp only [Sparse.set]; split <;> simp_all [Sparse.wf]
  | cons p m ih =>
    obtain ⟨k, x⟩ := p
    obtain ⟨hlt, hx, hm'⟩ := wf_cons.1 hm
    simp only [Sparse.set]
    split
    · rename_i hak
      split
      · exact hm
      · rename_i hv
        refine wf_cons.2 ⟨fun c hc => ?_, hv, hm⟩
        rcases List.mem_cons.1 hc with rfl | hc
        · exact hak
        · exact Nat.lt_trans hak (hlt c hc)
    · split
      · rename_i _ hk
        subst hk
        split
        · exact hm'
        · rename_i hv; exact wf_cons.2 ⟨hlt, hv, hm'⟩
      · rename_i hk hk'
        refine wf_cons.2 ⟨fun c hc => ?_, hx, ih hm'⟩
        rcases mem_set hc with hc | ⟨rfl, -⟩
        · exact hlt c hc
        · simp only; omega

/-- Canonical lists that read the same everywhere are the same list. -/
theorem sparse_ext {m m' : Sparse w} (hm : Sparse.wf m) (hm' : Sparse.wf m')
    (h : ∀ a, Sparse.get a m = Sparse.get a m') : m = m' := by
  induction m generalizing m' with
  | nil =>
    cases m' with
    | nil => rfl
    | cons p m' =>
      obtain ⟨k, x⟩ := p
      have := h k
      simp only [Sparse.get, if_true] at this
      exact absurd this.symm (wf_cons.1 hm').2.1
  | cons p m ih =>
    obtain ⟨k, x⟩ := p
    obtain ⟨hlt, hx, hmt⟩ := wf_cons.1 hm
    cases m' with
    | nil =>
      have := h k
      simp only [Sparse.get, if_true] at this
      exact absurd this hx
    | cons q m' =>
      obtain ⟨k', x'⟩ := q
      obtain ⟨hlt', hx', hmt'⟩ := wf_cons.1 hm'
      have hk : k = k' := by
        rcases Nat.lt_trichotomy k k' with hk | hk | hk
        · have := h k
          rw [get_of_lt (m := (k', x') :: m') fun c hc => by
            rcases List.mem_cons.1 hc with rfl | hc
            · exact hk
            · exact Nat.lt_trans hk (hlt' c hc)] at this
          simp only [Sparse.get, if_true] at this
          exact absurd this hx
        · exact hk
        · have := h k'
          rw [get_of_lt (m := (k, x) :: m) fun c hc => by
            rcases List.mem_cons.1 hc with rfl | hc
            · exact hk
            · exact Nat.lt_trans hk (hlt c hc)] at this
          simp only [Sparse.get, if_true] at this
          exact absurd this.symm hx'
      subst hk
      have hxx : x = x' := by simpa [Sparse.get] using h k
      subst hxx
      congr 1
      refine ih hmt hmt' fun a => ?_
      by_cases ha : k = a
      · subst ha; rw [get_of_lt hlt, get_of_lt hlt']
      · simpa [Sparse.get, ha] using h a

/-! ## System memory -/

/-- A one-byte write at a 32-bit address keeps system memory's form. -/
theorem memory_set_wf (a : Word) (v : Byte) {m : Memory} (hm : Memory.wf m) : Memory.wf (Sparse.set a.toNat v m) := by
  refine ⟨set_wf _ _ hm.1, fun c hc => ?_⟩
  rcases mem_set hc with hc | ⟨rfl, -⟩
  · exact hm.2 c hc
  · exact a.isLt

/-- The same for a cell whose address is one of 32 bits. -/
theorem writeCell_wf (s : State) {m : Memory} (hm : Memory.wf m) {c : Host.Cell} (hc : c.1 < 2 ^ 32) :
    Memory.wf (writeCell s m c) := by
  have := memory_set_wf (BitVec.ofNat 32 c.1)
    (if c.1 ∈ s.env.dstRaced then Config.freeByte s.env.freeCtr c.1 else c.2) hm
  rw [BitVec.toNat_ofNat, Nat.mod_eq_of_lt hc] at this
  exact this

/-- Writing cells in order keeps the form. -/
theorem writeCells_wf (s : State) {cells : List Host.Cell} (hm : Memory.wf s.memory) (hc : ∀ c ∈ cells, c.1 < 2 ^ 32) :
    Memory.wf (writeCells s cells) := by
  unfold writeCells
  generalize s.memory = m at hm
  induction cells generalizing m with
  | nil => exact hm
  | cons c cs ih =>
    exact ih (fun d hd => hc d (List.mem_cons_of_mem _ hd)) _ (writeCell_wf s hm (hc c (by simp)))

/-- Making a region unspecified keeps the form. -/
theorem scrambleRegion_wf (s : State) (base len : Word) (hm : Memory.wf s.memory) :
    Memory.wf (scrambleRegion s base len) := by
  unfold scrambleRegion
  generalize s.memory = m at hm
  induction List.range len.toNat generalizing m with
  | nil => exact hm
  | cons i is ih => exact ih _ (memory_set_wf _ _ hm)

/-- The addresses of a region's cells are 32-bit addresses. -/
theorem cellsFrom_lt {base : Word} {off : Nat} {vs : List Byte} : ∀ c ∈ cellsFrom base off vs, c.1 < 2 ^ 32 := by
  induction vs generalizing off with
  | nil => simp [cellsFrom]
  | cons v vs ih =>
    intro c hc
    rcases List.mem_cons.1 hc with rfl | hc
    · exact (regionAddr base off).isLt
    · exact ih c hc

/-- Reset's system memory and count matrix are in their forms. -/
theorem reset_memory_wf : Memory.wf State.reset.memory ∧ CountMatrix.wf State.reset.counts := by decide

/-! ## The count matrix -/

/-- Cells have keys below 65536. -/
theorem countKey_lt (ctx sym : Byte) : countKey ctx sym < 65536 := by
  have := ctx.isLt
  have := sym.isLt
  unfold countKey
  omega

/-- Different cells have different keys. -/
theorem countKey_inj {c c' s s' : Byte} : countKey c s = countKey c' s' ↔ c = c' ∧ s = s' := by
  have := s.isLt
  have := s'.isLt
  constructor
  · intro h
    unfold countKey at h
    exact ⟨BitVec.eq_of_toNat_eq (by omega), BitVec.eq_of_toNat_eq (by omega)⟩
  · rintro ⟨rfl, rfl⟩; rfl

/-- Setting a cell keeps the count matrix's form. -/
theorem setCountCell_wf (ctx sym : Byte) (v : Word) {c : CountMatrix} (hc : CountMatrix.wf c) :
    CountMatrix.wf (setCountCell ctx sym v c) := by
  refine ⟨set_wf _ _ hc.1, fun d hd => ?_⟩
  rcases mem_set hd with hd | ⟨rfl, -⟩
  · exact hc.2 d hd
  · exact countKey_lt ctx sym

/-- The cell that was set reads back; every other cell is unchanged. -/
theorem countCell_setCountCell (ctx sym ctx' sym' : Byte) (v : Word) {c : CountMatrix} (hc : CountMatrix.wf c) :
    countCell (setCountCell ctx sym v c) ctx' sym' = if ctx' = ctx ∧ sym' = sym then v else countCell c ctx' sym' := by
  unfold countCell setCountCell
  by_cases h : ctx' = ctx ∧ sym' = sym
  · obtain ⟨rfl, rfl⟩ := h
    simp [get_set_same _ _ hc.1]
  · rw [if_neg h, get_set_of_ne]
    exact fun e => h (countKey_inj.1 e)

/-- COUNT's loop keeps the count matrix's form. -/
theorem countLoop_wf {rd : Nat → Nat → Option Byte} {n i : Nat} {prev : Byte} {c c' : CountMatrix}
    (hc : CountMatrix.wf c) (h : countLoop rd n i prev c = .ok c') : CountMatrix.wf c' := by
  induction n generalizing i prev c with
  | zero => simp only [countLoop, Except.ok.injEq] at h; exact h ▸ hc
  | succ n ih =>
    simp only [countLoop] at h
    split at h
    · cases h
    · exact ih (setCountCell_wf _ _ _ hc) h

/-- Unspecified counts are in the form. -/
theorem unspecifiedCounts_wf (s : State) : CountMatrix.wf (unspecifiedCounts s) := by
  unfold unspecifiedCounts
  have key : ∀ (l : List Nat) (m : CountMatrix), CountMatrix.wf m → (∀ k ∈ l, k < 65536) →
      CountMatrix.wf (l.foldl (fun m k => Sparse.set k (Config.freeWord s.env.freeCtr (k + 3)) m) m) := by
    intro l
    induction l with
    | nil => exact fun m hm _ => hm
    | cons k l ih =>
      intro m hm hl
      refine ih _ ⟨set_wf _ _ hm.1, fun d hd => ?_⟩ fun j hj => hl j (List.mem_cons_of_mem _ hj)
      rcases mem_set hd with hd | ⟨rfl, -⟩
      · exact hm.2 d hd
      · exact hl k (by simp)
  exact key _ _ (by decide) fun k hk => List.mem_range.1 hk

end Sys2Proof.Machine
end

