-- ==== Sys2Proof/Laws/Ops.lean ====
section
/-! SUPPORT. One lemma per shared operation that says everything it can do, and what undisturbed regions give: no lemma about a
command unfolds the operations again. -/

namespace Sys2Proof.Machine

/-! ## Ends of a command -/

theorem completesTo_finish {s t : State} (h : KeepsEnv s.env t.env) : CompletesTo (finish t) s t :=
  ⟨(endCommand t).env, ⟨h.1, h.2.1, h.2.2⟩, rfl⟩

theorem failsTo_fail {s t : State} (code : ErrCode) (info : Word) (h : KeepsEnv s.env t.env) :
    FailsTo (fail code info t) s code info t :=
  ⟨(endCommand t).env, ⟨h.1, h.2.1, h.2.2⟩, rfl⟩

theorem keepsEnv_refl (e : Env) : KeepsEnv e e := ⟨rfl, rfl, rfl⟩

theorem finish_next {s t : State} : finish s = .next t ↔ complete s = t := by
  simp [finish]

theorem fail_next {code : ErrCode} {info : Word} {s t : State} : fail code info s = .next t ↔ raiseError code info s = t := by
  simp [fail]

/-- Acceptance either latches the command and leaves it running, or ends it at once in ILLEGAL_CMD. -/
theorem acceptCommand_cases (w : Word) (s : State) :
    (∃ i, decode w = .instr i ∧ acceptCommand w s = latchCommand w s)
      ∨ (∃ why, decode w = .rejected why ∧ acceptCommand w s = raiseError .illegalCmd 0#32 (latchCommand w s)) := by
  unfold acceptCommand
  cases h : decode w with
  | instr i => exact .inl ⟨i, rfl, rfl⟩
  | rejected why => exact .inr ⟨why, rfl, rfl⟩

/-! ## Host accesses -/

/-- `touchesBlock` byte by byte. -/
theorem touchesBlock_iff (s : State) (addr : Word) (width : AccessWidth) :
    touchesBlock s addr width = true ↔ ∃ k < accessBytes width, blockOffset s (addr + BitVec.ofNat 32 k) < 256 := by
  have hb : blockOffset s addr < 2 ^ 32 := BitVec.isLt _
  have hk (k : Nat) : blockOffset s (addr + BitVec.ofNat 32 k) = (blockOffset s addr + k) % 2 ^ 32 := by
    simp only [blockOffset, BitVec.toNat_sub, BitVec.toNat_add, BitVec.toNat_ofNat]
    omega
  have hw : 0 < accessBytes width ∧ accessBytes width ≤ 8 := by cases width <;> decide
  simp only [touchesBlock, Bool.or_eq_true, decide_eq_true_eq, hk]
  constructor
  · rintro (h | h)
    · exact ⟨0, hw.1, by omega⟩
    · exact ⟨2 ^ 32 - blockOffset s addr, by omega, by omega⟩
  · rintro ⟨k, h1, h2⟩
    omega

/-- An aligned 32-bit access lies in the block or outside it as its first byte does. -/
theorem touchesBlock_word {s : State} {addr : Word} (h4 : blockOffset s addr % 4 = 0) :
    touchesBlock s addr .word = decide (blockOffset s addr < 256) := by
  have hb : blockOffset s addr < 2 ^ 32 := BitVec.isLt _
  simp only [touchesBlock, accessBytes, show ¬ 2 ^ 32 < blockOffset s addr + 4 by omega, decide_false, Bool.or_false]

/-- An access to the block is refused, reaches a register, or is not one to this engine. -/
theorem hostAccess_cases (addr : Word) (width : AccessWidth) (act : HostReg → State → State) (s : State) :
    (touchesBlock s addr width = false ∧ hostAccess addr width act s = .next s)
      ∨ (touchesBlock s addr width = true ∧ (width ≠ .word ∨ blockOffset s addr % 4 ≠ 0)
          ∧ hostAccess addr width act s = .refused .hostAccess)
      ∨ (blockOffset s addr < 256 ∧ width = .word ∧ blockOffset s addr % 4 = 0
          ∧ hostAccess addr width act s = .next (act (hostRegAt (blockOffset s addr)) s)) := by
  unfold hostAccess
  cases h : touchesBlock s addr width
  · exact .inl ⟨rfl, rfl⟩
  · by_cases hm : width = .word ∧ blockOffset s addr % 4 = 0
    · obtain ⟨rfl, h4⟩ := hm
      exact .inr (.inr ⟨by simpa [touchesBlock_word h4] using h, rfl, h4, by simp [h4]⟩)
    · have hm' : width ≠ .word ∨ blockOffset s addr % 4 ≠ 0 := by tauto
      exact .inr (.inl ⟨rfl, hm', by simpa using fun hw => hm'.resolve_left (not_not.mpr hw)⟩)

/-- A host access at offset `off` of the block reaches the register there. -/
theorem blockOffset_add (s : State) {off : Nat} (h : off < 256) :
    blockOffset s (s.env.params.hceBase + BitVec.ofNat 32 off) = off := by
  simp only [blockOffset, BitVec.toNat_sub, BitVec.toNat_add, BitVec.toNat_ofNat]
  omega

theorem hostWrite_eq {off : Nat} (h : off < 256) (h4 : off % 4 = 0) (v : Word) (s : State) :
    hostWrite off v s = .next (writeReg (hostRegAt off) v s) := by
  have h4' : blockOffset s (s.env.params.hceBase + BitVec.ofNat 32 off) % 4 = 0 := by rwa [blockOffset_add s h]
  simp [hostWrite, takeEvent, hostAccess, touchesBlock_word h4', blockOffset_add s h, h, h4]

theorem hostRead_eq {off : Nat} (h : off < 256) (h4 : off % 4 = 0) (s : State) :
    hostRead off s = .next (readReg (hostRegAt off) s) := by
  have h4' : blockOffset s (s.env.params.hceBase + BitVec.ofNat 32 off) % 4 = 0 := by rwa [blockOffset_add s h]
  simp [hostRead, takeEvent, hostAccess, touchesBlock_word h4', blockOffset_add s h, h, h4]

/-! ## Regions -/

theorem regionAddr_toNat {base len : Word} {off : Nat} (hf : regionFits base len = true) (h : off < len.toNat) :
    (regionAddr base off).toNat = base.toNat + off := by
  simp only [regionFits, decide_eq_true_eq] at hf
  simp only [regionAddr, BitVec.toNat_add, BitVec.toNat_ofNat]
  omega

theorem inRegion_regionAddr {base len : Word} {off : Nat} (hf : regionFits base len = true) (h : off < len.toNat) :
    inRegion base len (regionAddr base off).toNat = true := by
  simp only [inRegion, regionAddr_toNat hf h, Bool.and_eq_true, decide_eq_true_eq]
  omega

theorem regionAddr_inj {base len : Word} {j k : Nat} (hf : regionFits base len = true) (hj : j < len.toNat)
    (hk : k < len.toNat) : regionAddr base j = regionAddr base k ↔ j = k := by
  constructor
  · intro h
    have := congrArg BitVec.toNat h
    rw [regionAddr_toNat hf hj, regionAddr_toNat hf hk] at this
    omega
  · exact fun h => h ▸ rfl

theorem toNat_inj_regionAddr {base len : Word} {j k : Nat} (hf : regionFits base len = true) (hj : j < len.toNat)
    (hk : k < len.toNat) : (regionAddr base j).toNat = (regionAddr base k).toNat ↔ j = k := by
  rw [regionAddr_toNat hf hj, regionAddr_toNat hf hk]
  omega

/-- In a region that meets no window, the platform refuses nothing. -/
theorem plainRegion_covers {s : State} {base len : Word} (hp : PlainRegion s base len) {a : Nat}
    (ha : inRegion base len a = true) {w : Window} (hw : w ∈ s.env.params.windows) : windowCovers w a = false := by
  simp only [inRegion, Bool.and_eq_true, decide_eq_true_eq] at ha
  rcases hp with h | h
  · omega
  · have := h w hw
    simp only [windowCovers, Bool.and_eq_false_iff, decide_eq_false_iff_not]
    omega

theorem plainRegion_refusesRead {s : State} {base len : Word} (hp : PlainRegion s base len) {a : Word}
    (ha : inRegion base len a.toNat = true) : refusesRead s a = false := by
  simp only [refusesRead, List.any_eq_false]
  intro w hw
  simp [plainRegion_covers hp ha hw]

theorem plainRegion_refusesWrite {s : State} {base len : Word} (hp : PlainRegion s base len) {a : Word}
    (ha : inRegion base len a.toNat = true) : refusesWrite s a = false := by
  simp only [refusesWrite, List.any_eq_false]
  intro w hw
  simp [plainRegion_covers hp ha hw]

theorem plainRegion_touchesDevice {s : State} {base len : Word} (hp : PlainRegion s base len) :
    touchesDevice s base len = false := by
  simp only [touchesDevice, List.any_eq_false]
  intro w hw
  rcases hp with h | h
  · simp [h]
  · have := h w hw
    simp only [Bool.and_eq_true, decide_eq_true_eq, not_and]
    omega

theorem refusedReads_nil {s : State} {base len : Word} (hf : regionFits base len = true) (hp : PlainRegion s base len) :
    refusedReads s base len = [] := by
  simp only [refusedReads, List.filter_eq_nil_iff, List.mem_map, List.mem_range]
  rintro _ ⟨k, hk, rfl⟩
  simp [plainRegion_refusesRead hp (inRegion_regionAddr hf hk)]

theorem refusedWrites_nil {s : State} {base len : Word} {n : Nat} (hf : regionFits base len = true)
    (hp : PlainRegion s base len) (hn : n ≤ len.toNat) : refusedWrites s base n = [] := by
  simp only [refusedWrites, List.filter_eq_nil_iff, List.mem_map, List.mem_range]
  rintro _ ⟨k, hk, rfl⟩
  simp [plainRegion_refusesWrite hp (inRegion_regionAddr hf (Nat.lt_of_lt_of_le hk hn))]

/-- An element of a list, or its head, is in the list. -/
theorem getD_mem_self {α : Type} (x : α) (xs : List α) (i : Nat) : (x :: xs).getD i x ∈ x :: xs := by
  by_cases h : i < (x :: xs).length
  · rw [List.getD_eq_getElem _ _ h]; exact List.getElem_mem h
  · rw [List.getD_eq_default _ _ (by omega)]; exact List.mem_cons_self ..

/-- A refused address is reported exactly where there is one. -/
theorem reportedRefusal_eq_none {s : State} {l : List Word} : reportedRefusal s l = none ↔ l = [] := by
  cases l <;> simp [reportedRefusal]

/-- A reported refusal is one of the refused addresses. -/
theorem reportedRefusal_mem {s : State} {l : List Word} {a : Word} (h : reportedRefusal s l = some a) : a ∈ l := by
  cases l with
  | nil => cases h
  | cons x xs =>
    simp only [reportedRefusal, Option.some.injEq] at h
    exact h ▸ getD_mem_self _ _ _

@[simp] theorem earlyRefusal_nil (k : Nat) (s : State) : earlyRefusal k s [] = none := rfl

/-- An early refusal is one of the refused addresses. -/
theorem earlyRefusal_mem {k : Nat} {s : State} {l : List Word} {a : Word} (h : earlyRefusal k s l = some a) : a ∈ l := by
  unfold earlyRefusal at h
  split at h
  · cases h
  · split at h
    · exact reportedRefusal_mem h
    · cases h

/-- What the engine reads of an undisturbed region is what memory holds. -/
theorem regionByte_quiet {s : State} {others : List Host.Cell} {base len : Word} {off : Nat}
    (h : QuietSrcOf s others base len) (ho : off < len.toNat) (t : Nat) :
    regionByte s others base t off = some (readByte s (regionAddr base off)) := by
  obtain ⟨hf, hp, hc⟩ := h
  have hin := inRegion_regionAddr hf ho
  have ho' : valuesAt others (regionAddr base off) = [] := by
    simp only [valuesAt, List.map_eq_nil_iff, List.filter_eq_nil_iff, decide_eq_true_eq]
    intro c hcm heq
    have := hc c hcm
    rw [heq, hin] at this
    cases this
  simp [regionByte, plainRegion_refusesRead hp hin, observedByte, ho']

/-- A command's read of an undisturbed SRC region. -/
theorem srcByte_quiet {s : State} {base len : Word} {off : Nat} (h : QuietSrc s base len) (ho : off < len.toNat) (t : Nat) :
    srcByte s base t off = some (readByte s (regionAddr base off)) := regionByte_quiet h ho t

/-- A session's read of its undisturbed SRC region. -/
theorem sessionByte_quiet {s : State} (h : QuietSrcOf s s.env.sessionRaces s.bb.srcBase s.bb.srcLen) {off : Nat}
    (ho : off < s.bb.srcLen.toNat) (t : Nat) :
    sessionByte s t off = some (readByte s (regionAddr s.bb.srcBase off)) := regionByte_quiet h ho t

/-! ## Writes -/

theorem cellsFrom_append (base : Word) (off : Nat) (u v : List Byte) :
    cellsFrom base off (u ++ v) = cellsFrom base off u ++ cellsFrom base (off + u.length) v := by
  induction u generalizing off with
  | nil => simp [cellsFrom]
  | cons b u ih =>
    simp only [List.cons_append, cellsFrom, ih, List.length_cons]
    rw [Nat.add_right_comm, Nat.add_assoc]

theorem cellsFrom_eq_map (base : Word) (off : Nat) (vs : List Byte) :
    cellsFrom base off vs = (List.range vs.length).map fun k => cellAt base (off + k) (vs.getD k 0#8) := by
  induction vs generalizing off with
  | nil => rfl
  | cons v vs ih =>
    simp only [cellsFrom, ih, List.length_cons, List.range_succ_eq_map, List.map_cons, List.map_map, Nat.add_zero,
      List.getD_cons_zero]
    congr 1
    refine List.map_congr_left fun k _ => ?_
    simp only [Function.comp, List.getD_cons_succ]
    congr 1
    omega

/-- Writing cells leaves every address that no cell names. -/
theorem get_foldl_writeCell_of_notMem (s : State) (cells : List Host.Cell) (m : Memory) {a : Nat}
    (h : ∀ c ∈ cells, c.1 ≠ a) : Sparse.get a (cells.foldl (writeCell s) m) = Sparse.get a m := by
  induction cells generalizing m with
  | nil => rfl
  | cons c cells ih =>
    rw [List.foldl_cons, ih _ fun c' hc' => h c' (List.mem_cons_of_mem _ hc')]
    exact get_set_of_ne _ _ fun he => h c (List.mem_cons_self ..) he.symm

/-- Of cells with distinct addresses none of which the host raced on, each is what memory then holds. -/
theorem get_foldl_writeCell_of_mem (s : State) (cells : List Host.Cell) {m : Memory} (hm : Sparse.wf m)
    (hd : cells.Pairwise fun c d => c.1 ≠ d.1) (hr : ∀ c ∈ cells, c.1 ∉ s.env.dstRaced) {c : Host.Cell} (hc : c ∈ cells) :
    Sparse.get c.1 (cells.foldl (writeCell s) m) = c.2 := by
  induction cells generalizing m with
  | nil => cases hc
  | cons d cells ih =>
    rw [List.foldl_cons]
    rcases List.mem_cons.1 hc with rfl | hc
    · rw [get_foldl_writeCell_of_notMem s cells _ fun e he => fun h => (List.pairwise_cons.1 hd).1 e he h.symm]
      simp only [writeCell, hr c (List.mem_cons_self ..), if_false]
      exact get_set_same _ _ hm
    · exact ih (set_wf _ _ hm) (List.pairwise_cons.1 hd).2 (fun e he => hr e (List.mem_cons_of_mem _ he)) hc

/-- No cell of an ordinary region is refused. -/
theorem refusedCells_nil {s : State} {base len : Word} (hp : PlainRegion s base len) {cells : List Host.Cell}
    (hc : ∀ c ∈ cells, inRegion base len c.1 = true ∧ c.1 < 2 ^ 32) : refusedCells s cells = [] := by
  simp only [refusedCells, List.filter_eq_nil_iff, List.mem_map]
  rintro _ ⟨c, hcm, rfl⟩
  obtain ⟨hi, hl⟩ := hc c hcm
  have : (BitVec.ofNat 32 c.1).toNat = c.1 := by simpa using Nat.mod_eq_of_lt hl
  simp [plainRegion_refusesWrite hp (by rw [this]; exact hi)]

/-- A refused write is that of a cell. -/
theorem mem_refusedCells {s : State} {cells : List Host.Cell} {a : Word} :
    a ∈ refusedCells s cells ↔ refusesWrite s a = true ∧ ∃ c ∈ cells, BitVec.ofNat 32 c.1 = a := by
  simp only [refusedCells, List.mem_filter, List.mem_map]
  exact And.comm

/-- A command that writes `cells` completes with them written where none is refused, and reports a refused one otherwise. -/
theorem finishOutput_cases (cells : List Host.Cell) (outLen result : Word) (s : State) :
    (refusedCells s cells = []
        ∧ finishOutput cells outLen result s
          = finish { s with memory := writeCells s cells, outLen := outLen, result := result })
      ∨ ∃ a ∈ refusedCells s cells, finishOutput cells outLen result s = fail .busError a (unspecifiedOutput s) := by
  unfold finishOutput
  cases h : reportedRefusal s (refusedCells s cells) with
  | none => exact .inl ⟨reportedRefusal_eq_none.1 h, rfl⟩
  | some a => exact .inr ⟨a, reportedRefusal_mem h, rfl⟩

/-- A streaming error is reported, or a refused write of a byte placed before it instead. -/
theorem failOutput_cases (code : ErrCode) (info : Word) (written : Nat) (s : State) :
    failOutput code info written s = fail code info (unspecifiedOutput s)
      ∨ ∃ a ∈ refusedWrites s s.latch.dstBase written,
          failOutput code info written s = fail .busError a (unspecifiedOutput s) := by
  unfold failOutput
  cases h : earlyRefusal 1 s (refusedWrites s s.latch.dstBase written) with
  | none => exact .inl rfl
  | some a => exact .inr ⟨a, earlyRefusal_mem h, rfl⟩

/-! ## The session -/

@[simp] theorem setPos_mode (n : Nat) (b : BitBuffer) : (setPos n b).mode = b.mode := rfl
@[simp] theorem setPos_part (n : Nat) (b : BitBuffer) : (setPos n b).part = b.part := rfl
@[simp] theorem setPos_ws (n : Nat) (b : BitBuffer) : (setPos n b).ws = b.ws := rfl
@[simp] theorem setPos_staged (n : Nat) (b : BitBuffer) : (setPos n b).staged = b.staged := rfl
@[simp] theorem setPos_dstBase (n : Nat) (b : BitBuffer) : (setPos n b).dstBase = b.dstBase := rfl
@[simp] theorem setPos_dstCap (n : Nat) (b : BitBuffer) : (setPos n b).dstCap = b.dstCap := rfl
@[simp] theorem setPos_flushed (n : Nat) (b : BitBuffer) : (setPos n b).flushed = b.flushed := rfl
@[simp] theorem setPos_srcBase (n : Nat) (b : BitBuffer) : (setPos n b).srcBase = b.srcBase := rfl
@[simp] theorem setPos_srcLen (n : Nat) (b : BitBuffer) : (setPos n b).srcLen = b.srcLen := rfl

/-- The position after it has been set, for any position a session can have. -/
theorem bbPos_setPos {n : Nat} (b : BitBuffer) (h : n < 8 * 2 ^ 32) : bbPos (setPos n b) = n := by
  simp only [bbPos, setPos, BitVec.toNat_ofNat]
  omega

theorem setPos_bbPos (b : BitBuffer) : setPos (bbPos b) b = b := by
  have h1 : (8 * b.bytePos.toNat + b.bitIdx.toNat) / 8 = b.bytePos.toNat := by have := b.bitIdx.isLt; omega
  have h2 : (8 * b.bytePos.toNat + b.bitIdx.toNat) % 8 = b.bitIdx.toNat := by have := b.bitIdx.isLt; omega
  simp [setPos, bbPos, h1, h2]

/-- The staging area passes every byte on, in order. -/
theorem stage_append (cap : Nat) (staged cells : List Host.Cell) :
    (stage cap staged cells).1 ++ (stage cap staged cells).2 = staged ++ cells := by
  induction cells generalizing staged with
  | nil => simp [stage]
  | cons c cells ih =>
    simp only [stage]
    split
    · simp [ih]
    · rw [ih]; simp

/-- A push that passes its checks: a refused write is reported, or the bytes it completes go through the staging area. -/
theorem takePush_cases (w : Writer) (bits : List Bool) (s : State) :
    let st := stage s.env.params.bbCap s.bb.staged (emittedCells s w.out)
    (∃ a ∈ refusedCells s (s.bb.staged ++ emittedCells s w.out), takePush w bits s = failWriteBus a s)
      ∨ (refusedCells s st.1 = []
        ∧ takePush w bits s = finish (sessionMoved s w bits st.2 (writeCells s st.1))) := by
  intro st
  have happ := stage_append s.env.params.bbCap s.bb.staged (emittedCells s w.out)
  unfold takePush
  cases h : pushRefusal s st.1 st.2 with
  | some a =>
    refine .inl ⟨a, ?_, by simp only [st] at h ⊢; simp [h]⟩
    rw [← happ]
    unfold pushRefusal at h
    split at h
    · exact earlyRefusal_mem h
    · exact reportedRefusal_mem h
  | none =>
    refine .inr ⟨?_, by simp only [st] at h ⊢; simp [h]⟩
    by_contra hne
    simp only [pushRefusal, List.isEmpty_iff, hne, if_false] at h
    have := reportedRefusal_eq_none.1 h
    simp only [refusedCells, List.map_append, List.filter_append, List.append_eq_nil_iff] at this hne
    exact hne this.1

/-- The flush of a session reports a refused write, or writes every byte out. -/
theorem takeFlush_cases (mode : BbMode) (s : State) :
    (∃ a ∈ refusedCells s (flushCells s), takeFlush mode s = failWriteBus a s)
      ∨ (refusedCells s (flushCells s) = []
        ∧ takeFlush mode s
          = finish { flushedSession s with bb := { (flushedSession s).bb with mode := mode } }) := by
  unfold takeFlush
  cases h : reportedRefusal s (refusedCells s (flushCells s)) with
  | some a => exact .inl ⟨a, reportedRefusal_mem h, rfl⟩
  | none => exact .inr ⟨reportedRefusal_eq_none.1 h, rfl⟩

/-- A push command raises BB_MODE, raises DST_OVERFLOW, or pushes. -/
theorem pushCommand_cases (n : Nat) (w : Writer) (bits : List Bool) (s : State) :
    (s.bb.mode ≠ .write ∧ pushCommand n w bits s = fail .bbMode 0#32 s)
      ∨ (s.bb.mode = .write ∧ pushFits s.bb.dstCap.toNat (bbPos s.bb) n = false
          ∧ pushCommand n w bits s = fail .dstOverflow s.bb.dstCap s)
      ∨ (s.bb.mode = .write ∧ pushFits s.bb.dstCap.toNat (bbPos s.bb) n = true
          ∧ pushCommand n w bits s = takePush w bits s) := by
  unfold pushCommand
  by_cases hm : s.bb.mode = .write <;> by_cases hp : pushFits s.bb.dstCap.toNat (bbPos s.bb) n = true <;> simp_all

/-- A read command that passes its checks reports a refused read, or delivers its value and moves the position. -/
theorem takeRead_cases (value : Option Word) (n off : Nat) (s : State) :
    (∃ a ∈ refusedReads s s.bb.srcBase s.bb.srcLen, takeRead value n off s = failSessionBus a s)
      ∨ (value = none ∧ takeRead value n off s = failSessionBus (regionAddr s.bb.srcBase off) s)
      ∨ ∃ v, value = some v ∧ takeRead value n off s
          = finish { s with result := v, bb := setPos (bbPos s.bb + n) s.bb } := by
  unfold takeRead
  cases h : earlyRefusal 0 s (refusedReads s s.bb.srcBase s.bb.srcLen) with
  | some a => exact .inl ⟨a, earlyRefusal_mem h, rfl⟩
  | none =>
    cases value with
    | none => exact .inr (.inl ⟨rfl, rfl⟩)
    | some v => exact .inr (.inr ⟨v, rfl, rfl⟩)

/-- In an undisturbed session the value is delivered. -/
theorem takeRead_quiet {s : State} (hf : regionFits s.bb.srcBase s.bb.srcLen = true)
    (hp : PlainRegion s s.bb.srcBase s.bb.srcLen) (v : Word) (n off : Nat) :
    takeRead (some v) n off s = finish { s with result := v, bb := setPos (bbPos s.bb + n) s.bb } := by
  simp [takeRead, refusedReads_nil hf hp]

/-! ## Table queries -/

/-- A query meets no table, an empty slot, or a tree. -/
theorem queriedTree_cases (s : State) (prev : Byte) :
    (s.kind = .none ∧ queriedTree s prev = .error .noTable)
      ∨ (s.kind ≠ .none ∧ contextTree s prev = none ∧ queriedTree s prev = .error .emptyTable)
      ∨ ∃ t, s.kind ≠ .none ∧ contextTree s prev = some t ∧ queriedTree s prev = .ok t := by
  unfold queriedTree
  by_cases h : s.kind = .none
  · exact .inl ⟨h, by simp [h]⟩
  · cases hc : contextTree s prev with
    | none => exact .inr (.inl ⟨h, rfl, by simp [h]⟩)
    | some t => exact .inr (.inr ⟨t, h, rfl, by simp [h]⟩)

/-- The tree the model's dispatch reaches is the one the rule names. -/
theorem contextTree_eq_treeFor (s : State) (prev : Byte) : contextTree s prev = treeFor s.kind s.slots prev := by
  unfold contextTree treeFor slotOf
  cases s.kind <;> rfl

end Sys2Proof.Machine
end

