-- ==== Sys2Proof/Laws/PerInstr.lean ====
section
/-! SUPPORT. Statements made for every instruction as syntax, one lemma per constructor. -/

namespace Sys2Proof.Laws.OpcodeField

/-- The encoding of the instruction carries, in `OPC`, one of the defined opcodes of 30_encoding.md R114. -/
abbrev Statement (i : Instr) : Prop := fieldOpc (encode i) ∈ definedOpcodes

theorem nop : Statement .nop := by decide
theorem softReset : Statement .softReset := by decide
theorem clearCounts : Statement .clearCounts := by decide
theorem count : Statement .count := by decide
theorem buildP : Statement .buildP := by decide
theorem buildM : Statement .buildM := by decide
theorem clearTable : Statement .clearTable := by decide
theorem serialize : Statement .serialize := by decide
theorem deserialize : Statement .deserialize := by decide
theorem compress : Statement .compress := by decide
theorem decompress : Statement .decompress := by decide
theorem getEncoding (prev sym : Byte) : Statement (.getEncoding prev sym) := by
  simp only [Statement, encode, fieldOpc_assemble]; decide
theorem lookup (prev byte : Byte) : Statement (.lookup prev byte) := by
  simp only [Statement, encode, fieldOpc_assemble]; decide
theorem bbOpenWrite : Statement .bbOpenWrite := by decide
theorem bbOpenRead : Statement .bbOpenRead := by decide
theorem bbClose : Statement .bbClose := by decide
theorem bbFlush : Statement .bbFlush := by decide
theorem bbPushBit (a : Byte) : Statement (.bbPushBit a) := by
  simp only [Statement, encode, fieldOpc_assemble]; decide
theorem bbPushByte (v : Byte) : Statement (.bbPushByte v) := by
  simp only [Statement, encode, fieldOpc_assemble]; decide
theorem bbPushDesc : Statement .bbPushDesc := by decide
theorem bbPeekBit : Statement .bbPeekBit := by decide
theorem bbPopBit : Statement .bbPopBit := by decide
theorem bbTryPopBit : Statement .bbTryPopBit := by decide
theorem bbPopByte : Statement .bbPopByte := by decide
theorem bbPopRest (part : Byte) (k : BitVec 4) : Statement (.bbPopRest part k) := by
  simp only [Statement, encode, fieldOpc_assemble]; decide

end Sys2Proof.Laws.OpcodeField
end

