-- ==== Sys2Proof/Tests/Slice0.lean ====
section
/-! SUPPORT. The model's own tests: what `WellFormed` refuses, every command's word written out from 30_encoding.md R111 and R114, one
step of each command against the vectors of 95_test_vectors.md, and, for every statement with hypotheses, a state and
operands that meet them. -/

namespace Sys2Proof.Tests

open Machine

/-! ## Small states -/

/-- Memory with the bytes placed from address `a` on. -/
def place (a : Nat) (bytes : List Byte) : Memory := bytes.zipIdx.foldl (fun m p => Sparse.set (a + p.2) p.1 m) []

/-- An engine that has accepted a command, SRC being `bytes` at 0x100, DST `cap` bytes at 0x200. -/
def ready (bytes : List Byte) (cap : Nat) : State :=
  { State.reset with
    seq := .running
    srcAddr := 0x100#32, srcLen := BitVec.ofNat 32 bytes.length, dstAddr := 0x200#32, dstCap := BitVec.ofNat 32 cap
    latch := ⟨0x100#32, BitVec.ofNat 32 bytes.length, 0x200#32, BitVec.ofNat 32 cap⟩
    memory := place 0x100 bytes }

/-- The tree of "aaab": `Internal(Leaf('b'), Leaf('a'))`. -/
def treeAB : Tree := .node (.leaf 0x62#8) (.leaf 0x61#8)

/-- A plain table of "aaab". -/
def plainAB (s : State) : State := { s with kind := .plain, slots := [(0, treeAB)] }

/-- The Markov table of "aaab" (95_test_vectors.md L1.3). -/
def markovAB (s : State) : State :=
  { s with kind := .markov, slots := [(0x20, .node (.leaf 0x61#8) (.leaf 0x61#8)), (0x61, treeAB)] }

/-- A write session of capacity `cap` with the bits written so far, nothing staged. -/
def writing (cap : Nat) (bits : List Bool) : State :=
  let s := ready [] cap
  { s with
    bb := { s.bb with
      mode := .write
      bytePos := BitVec.ofNat 32 (bits.length / 8), bitIdx := BitVec.ofNat 3 (bits.length % 8)
      part := window bits (8 * (bits.length / 8)), ws := bits
      dstBase := 0x200#32, dstCap := BitVec.ofNat 32 cap }
    memory := place 0x200 ((List.range (bits.length / 8)).map fun k => window bits (8 * k)) }

/-- A read session on the bytes, `pos` bits consumed. -/
def reading (bytes : List Byte) (pos : Nat) : State :=
  let s := ready bytes 0
  { s with bb := setPos pos { s.bb with mode := .read, srcBase := 0x100#32, srcLen := BitVec.ofNat 32 bytes.length } }

/-- The state a command leaves, or the state after reset. -/
def got (o : Out) : State :=
  match o with
  | .next t => t
  | .fault _ => State.reset
  | .refused _ => State.reset

/-- The outcome is a next state. -/
def isNext (o : Out) : Bool :=
  match o with
  | .next _ => true
  | .fault _ => false
  | .refused _ => false

theorem next_got {o : Out} (h : isNext o = true) : o = .next (got o) := by
  cases o with
  | next t => rfl
  | fault f => cases h
  | refused r => cases h

/-- ERR_CODE and ERR_INFO after a command that ended in an error. -/
def errorOf (o : Out) : Option (ErrCode × Nat) :=
  match o with
  | .next t => if t.err then some (t.errCode, t.errInfo.toNat) else none
  | .fault _ => none
  | .refused _ => none

/-- The bytes of memory from `a` on. -/
def bytesAt (s : State) (a : Nat) (n : Nat) : List Byte := (List.range n).map fun k => Sparse.get (a + k) s.memory

/-- Bits from 0s and 1s. -/
def bits (l : List Nat) : List Bool := l.map (· = 1)

/-! ## WellFormed refuses the ill-formed (R114, R117) -/

theorem test_wellFormed_refuses_pushBit_2 : ¬ WellFormed (.bbPushBit 2#8) := by decide
theorem test_wellFormed_refuses_pushBit_0x80 : ¬ WellFormed (.bbPushBit 0x80#8) := by decide
theorem test_wellFormed_accepts_pushBit_1 : WellFormed (.bbPushBit 1#8) := by decide

/-! ## Decoding: the words of 95_test_vectors.md, or written out from the fields of R111 -/

/-- Engine control and counting: OPC only; BUILD.M with M, bit 8, set. -/
theorem test_decode_engine_and_builder :
    decode 0x00000000#32 = .instr .nop ∧ decode 0x00000001#32 = .instr .softReset
    ∧ decode 0x00000002#32 = .instr .clearCounts ∧ decode 0x00000003#32 = .instr .count
    ∧ decode 0x00000004#32 = .instr .buildP ∧ decode 0x00000104#32 = .instr .buildM := by decide

/-- Tables and codec; GET_ENCODING 0x20, 'a' = B:0x61 A:0x20 K:0 RSV:0 M:0 OPC:0x10. -/
theorem test_decode_tables_and_codec :
    decode 0x00000005#32 = .instr .clearTable ∧ decode 0x00000006#32 = .instr .serialize
    ∧ decode 0x00000007#32 = .instr .deserialize ∧ decode 0x00000008#32 = .instr .compress
    ∧ decode 0x00000009#32 = .instr .decompress
    ∧ decode 0b01100001_00100000_0000_000_0_00010000#32 = .instr (.getEncoding 0x20#8 0x61#8)
    ∧ decode 0b01111111_00000000_0000_000_0_00010001#32 = .instr (.lookup 0x00#8 0x7F#8) := by decide

/-- The write side of the bit buffer; BB_PUSH_BIT 1 = A:0x01 OPC:0x24. -/
theorem test_decode_bit_buffer_writes :
    decode 0x00000020#32 = .instr .bbOpenWrite ∧ decode 0x00000021#32 = .instr .bbOpenRead
    ∧ decode 0x00000022#32 = .instr .bbClose ∧ decode 0x00000023#32 = .instr .bbFlush
    ∧ decode 0b00000000_00000001_0000_000_0_00100100#32 = .instr (.bbPushBit 0x01#8)
    ∧ decode 0b00000000_10101011_0000_000_0_00100101#32 = .instr (.bbPushByte 0xAB#8)
    ∧ decode 0x00000026#32 = .instr .bbPushDesc := by decide

/-- The read side; BB_POP_REST 0xA0, 3 = A:0xA0 K:3 OPC:0x2C. -/
theorem test_decode_bit_buffer_reads :
    decode 0x00000028#32 = .instr .bbPeekBit ∧ decode 0x00000029#32 = .instr .bbPopBit
    ∧ decode 0x0000002A#32 = .instr .bbTryPopBit ∧ decode 0x0000002B#32 = .instr .bbPopByte
    ∧ decode 0b00000000_10100000_0011_000_0_00101100#32 = .instr (.bbPopRest 0xA0#8 3#4)
    ∧ decode 0x0000902C#32 = .instr (.bbPopRest 0x00#8 9#4) := by decide

/-- Illegal words of the vectors V40.30, V42.14, V45.4, V45.5, V60.8. -/
theorem test_decode_rejects :
    decode 0x00020024#32 = .rejected .nonzeroField ∧ decode 0x61200210#32 = .rejected .nonzeroField
    ∧ decode 0x000000FF#32 = .rejected .reservedOpcode ∧ decode 0x00000204#32 = .rejected .nonzeroField
    ∧ decode 0x00010029#32 = .rejected .nonzeroField ∧ decode 0x00000027#32 = .rejected .reservedOpcode := by decide

/-- A table word reaches the decoder, and the next step runs it. -/
theorem test_withFetchWord_runs_it :
    decodeTableWord 32 0x00010024 = some (.bbPushBit 1#8) ∧ decodeTableWord 32 0x00020024 = none
    ∧ errorOf (step (State.reset.withFetchWord 32 0x00010024)) = some (.bbMode, 0) := by decide

/-! ## The bit buffer (V40) -/

theorem test_openWrite_V40_1 :
    statusWord (got (exec .bbOpenWrite (ready [] 4))) = 0x12#32 := by decide
theorem test_openWrite_wraps_V40_31 :
    errorOf (exec .bbOpenWrite { ready [] 2 with latch := ⟨0#32, 0#32, 0xFFFFFFFF#32, 2#32⟩ }) = some (.addrRange, 0) := by
  decide
theorem test_openWrite_after_close_R150 :
    let s := { got (exec .bbClose (writing 1 (bits [1]))) with latch := ⟨0#32, 0#32, 0x200#32, 4#32⟩ }
    let t := got (exec .bbOpenWrite s)
    (t.bb.mode, t.bb.bytePos, t.bb.flushed, t.bb.dstCap) = (.write, 0#32, 0#32, 4#32) := by decide
theorem test_openRead_R151 :
    statusWord (got (exec .bbOpenRead (ready [0xD5#8, 0x80#8] 0))) = 0x22#32 := by decide
theorem test_pushBit_V40_2 :
    let t := got (exec (.bbPushBit 1#8) (writing 4 []))
    (t.bb.part, t.bb.bitIdx, t.bb.bytePos) = (0x80#8, 1#3, 0#32) := by decide
theorem test_pushBit_overflow_V40_14 :
    errorOf (exec (.bbPushBit 1#8) (writing 1 (bits [0, 0, 0, 0, 0, 0, 0, 0]))) = some (.dstOverflow, 1) := by decide
theorem test_pushByte_V40_3 :
    let t := got (exec (.bbPushByte 0xAB#8) (writing 4 (bits [1])))
    (t.bb.staged, t.bb.part, t.bb.bytePos, t.bb.bitIdx) = ([(0x200, 0xD5#8)], 0x80#8, 1#32, 1#3) := by decide
theorem test_pushByte_overflow_V40_15 :
    errorOf (exec (.bbPushByte 0xFF#8) (writing 1 (bits [1]))) = some (.dstOverflow, 1) := by decide
theorem test_pushDesc_spills_V40_5 :
    let s := { writing 4 (bits [0, 0, 0, 0, 0, 0]) with cwLen := 3#8, cwBits := #v[0xA0000000#32, 0#32, 0#32, 0#32, 0#32, 0#32, 0#32, 0#32] }
    let t := got (exec .bbPushDesc s)
    (t.bb.staged, t.bb.part, t.bb.bitIdx) = ([(0x200, 0x02#8)], 0x80#8, 1#3) := by decide
theorem test_pushDesc_full_byte_first_V40_10 :
    let s := { writing 4 [] with cwLen := 12#8, cwBits := #v[0xABC00000#32, 0#32, 0#32, 0#32, 0#32, 0#32, 0#32, 0#32] }
    let t := got (exec .bbPushDesc s)
    (t.bb.staged, t.bb.part, t.bb.bitIdx) = ([(0x200, 0xAB#8)], 0xC0#8, 4#3) := by decide
theorem test_close_V40_11 :
    let t := got (exec .bbClose (writing 4 (bits [1, 0, 1])))
    (bytesAt t 0x200 1, t.outLen, t.bb.mode, t.bb.bytePos, t.bb.bitIdx) = ([0xA0#8], 1#32, .closed, 1#32, 0#3) := by decide
theorem test_close_writes_no_byte_V40_13 :
    let t := got (exec .bbClose (writing 4 []))
    (t.memory, t.outLen, t.bb.mode) = ([], 0#32, .closed) := by decide
theorem test_flush_V40_12 :
    let t := got (exec .bbFlush (writing 4 (bits [1])))
    (bytesAt t 0x200 1, t.outLen, bbPos t.bb, t.bb.mode) = ([0x80#8], 1#32, 8, .write) := by decide
theorem test_peekBit_V40_17 :
    let t := got (exec .bbPeekBit (reading [0x80#8] 0))
    (t.result, bbPos t.bb) = (1#32, 0) := by decide
theorem test_popBit_V40_18 :
    let t := got (exec .bbPopBit (reading [0x80#8] 1))
    (t.result, bbPos t.bb) = (0#32, 2) := by decide
theorem test_popBit_wrong_mode_V40_27 : errorOf (exec .bbPopBit (writing 4 [])) = some (.bbMode, 0) := by decide
theorem test_tryPopBit_at_end_V40_21 :
    let t := got (exec .bbTryPopBit (reading [] 0))
    (t.result, bbPos t.bb, t.done) = (0x100#32, 0, true) := by decide
theorem test_popByte_V40_19 :
    let t := got (exec .bbPopByte (reading [0xD5#8, 0x80#8] 1))
    (t.result, bbPos t.bb) = (0xAB#32, 9) := by decide
theorem test_popByte_eof_V40_20 : errorOf (exec .bbPopByte (reading [0xD5#8] 1)) = some (.bbEof, 0) := by decide
theorem test_popRest_V40_22 :
    let t := got (exec (.bbPopRest 0xA0#8 3#4) (reading [0xF0#8] 6))
    (t.result, bbPos t.bb) = (0x2A0#32, 8) := by decide
theorem test_popRest_bad_index_V60_2 :
    errorOf (exec (.bbPopRest 0#8 9#4) (reading [0xF0#8] 0)) = some (.badIndex, 9) := by decide

/-- A host read of a flushed byte of an open session (R95), and of SRC after a write that raced with the session only (R94). -/
theorem test_memRead_after_flush_R95 :
    (got (takeEvent (.memRead 0x200#32) (got (exec .bbFlush (writing 1 (bits [1])))))).env.hostData = 0x80#32 := by decide
theorem test_count_sees_earlier_write_R94 :
    let s := { reading [0x61#8] 0 with seq := .idle, srcAddr := 0x100#32, srcLen := 1#32 }
    let t := got (hostWrite 0x0C 3#32 (got (takeEvent (.memWrite 0x100#32 0x62#8) s)))
    (got (exec .count t)).counts = [(0x2062, 1#32)] := by decide

/-! ## Counting and building (V41) -/

theorem test_clearCounts_V41_14 :
    (got (exec .clearCounts (plainAB { ready [] 0 with counts := [(0x6161, 2#32)] }))).counts = [] := by decide
theorem test_count_R214_example :
    let t := got (exec .count (ready [0x61#8, 0x61#8, 0x61#8, 0x62#8] 0))
    (t.counts, t.result) = ([(0x2061, 1#32), (0x6161, 2#32), (0x6162, 1#32)], 4#32) := by decide
theorem test_count_saturates_V41_11 :
    (got (exec .count { ready [0x61#8] 0 with counts := [(0x2061, 0xFFFFFFFF#32)] })).counts = [(0x2061, 0xFFFFFFFF#32)] := by
  decide
theorem test_buildP_V41_1 :
    let t := got (exec .buildP { ready [] 0 with counts := [(0x2061, 1#32), (0x6161, 2#32), (0x6162, 1#32)] })
    (t.kind, t.slots) = (.plain, [(0, treeAB)]) := by decide +kernel
theorem test_buildP_ties_V41_6 :
    let t := got (exec .buildP { ready [] 0 with
      counts := [(0x2041, 1#32), (0x2042, 1#32), (0x2043, 2#32), (0x2044, 2#32)] })
    t.slots = [(0, .node (.node (.leaf 0x41#8) (.leaf 0x42#8)) (.node (.leaf 0x43#8) (.leaf 0x44#8)))] := by decide +kernel
theorem test_buildM_V41_10 :
    let t := got (exec .buildM { ready [] 0 with counts := [(0x2061, 1#32), (0x6161, 2#32), (0x6162, 1#32)] })
    (t.kind, t.slots) = (.markov, (markovAB t).slots) := by decide +kernel
theorem test_buildM_empty_V41_9 :
    let t := got (exec .buildM (ready [] 0))
    (t.kind, t.slots) = (.markov, []) := by decide +kernel

/-! ## Tables (V42) -/

theorem test_getEncoding_V42_1 :
    let t := got (exec (.getEncoding 0x20#8 0x61#8) (plainAB (ready [] 0)))
    (t.cwLen, t.cwBits) = (1#8, #v[0x80000000#32, 0#32, 0#32, 0#32, 0#32, 0#32, 0#32, 0#32]) := by decide
theorem test_getEncoding_empty_slot_V42_10 :
    errorOf (exec (.getEncoding 0x62#8 0x61#8) (markovAB (ready [] 0))) = some (.emptyTable, 0) := by decide
theorem test_lookup_V42_2 :
    (got (exec (.lookup 0#8 0x7F#8) (plainAB (ready [] 0)))).result = 0x00016201#32 := by decide
theorem test_lookup_internal_R262 :
    let deep : Tree := (List.range 9).foldl (fun t k => .node (.leaf (BitVec.ofNat 8 k)) t) (.leaf 0x7A#8)
    (got (exec (.lookup 0#8 0xFF#8) { ready [] 0 with kind := .plain, slots := [(0, deep)] })).result = 0x00080000#32 := by
  decide +kernel
theorem test_clearTable_V42_13 :
    let t := got (exec .clearTable (plainAB (ready [] 0)))
    (t.kind, t.slots, t.done) = (.none, [], true) := by decide

/-! ## Serialization (V43, and the bounds of R305) -/

theorem test_serialize_V43_1 :
    let t := got (exec .serialize (plainAB (ready [] 16)))
    (bytesAt t 0x200 3, t.result, t.outLen) = ([0x2C#8, 0x56#8, 0x10#8], 20#32, 3#32) := by decide +kernel
theorem test_serialize_overflow_V43_10 :
    errorOf (exec .serialize (markovAB (ready [] 36))) = some (.dstOverflow, 36) := by decide +kernel
theorem test_deserialize_V43_11 :
    let t := got (exec .deserialize (markovAB (ready [0x2C#8, 0x56#8, 0x10#8] 0)))
    (t.kind, t.slots, t.result) = (.plain, [(0, treeAB)], 20#32) := by decide +kernel
theorem test_deserialize_eof_V60_10 :
    let t := got (exec .deserialize (plainAB (ready [0x00#8] 0)))
    (t.kind, t.slots, t.errCode, t.errInfo) = (.none, [], .tableEof, 1#32) := by decide +kernel

theorem test_deserialize_512th_node_R305 :
    errorOf (exec .deserialize (ready (List.replicate 64 0#8) 0)) = some (.tableCapacity, 64) := by decide +kernel
theorem test_deserialize_leaf_root_in_slot_1 : errorOf (exec .deserialize (ready [0xB0#8] 0)) = some (.tableLeafRoot, 0) := by
  decide +kernel

/-! ## Compression and decompression (V44) -/

theorem test_compress_V44_1 :
    let t := got (exec .compress (plainAB (ready [0x61#8, 0x61#8, 0x61#8, 0x62#8] 16)))
    (bytesAt t 0x200 2, t.outLen, t.result) = ([0x3C#8, 0xE0#8], 2#32, 4#32) := by decide +kernel
theorem test_compress_empty_context_V44_9 :
    errorOf (exec .compress (markovAB (ready [0x61#8, 0x61#8, 0x62#8, 0x61#8] 16))) = some (.emptyTable, 3) := by
  decide +kernel
theorem test_decompress_V44_14 :
    let t := got (exec .decompress (plainAB (ready [0x3C#8, 0xE0#8] 16)))
    (bytesAt t 0x200 4, t.outLen, t.result) = ([0x61#8, 0x61#8, 0x61#8, 0x62#8], 4#32, 4#32) := by decide +kernel
theorem test_decompress_empty_context_V44_19 :
    errorOf (exec .decompress (markovAB (ready [0x34#8, 0xD0#8] 16))) = some (.emptyTable, 1) := by decide +kernel

/-! ## Engine control (V45, V70) -/

theorem test_nop_V45_2 :
    let s := { State.reset with err := true, errCode := .tableCapacity, result := 7#32 }
    let t := got (step { got (hostWrite 0x0C 0#32 s) with env := s.env })
    (t.err, t.errCode, t.done, t.result) = (false, .noError, true, 7#32) := by decide
theorem test_softReset_V45_3 :
    let t := got (exec .softReset (plainAB { ready [] 4 with cmd := 1#32, doneIe := true, errIe := true, counts := [(5, 1#32)] }))
    (statusWord t, ctrlWord t, irq t) = (2#32, 3#32, true) ∧ (t.cmd, t.counts, t.dstCap) = (1#32, [], 0#32) := by
  exact ⟨by decide, by decide⟩
theorem test_illegal_word_V45_4 : statusWord (got (hostWrite 0x0C 0xFF#32 State.reset)) = 0x104#32 := by decide
theorem test_busy_write_V45_6 :
    let t := got (hostWrite 0x14 5#32 (ready [] 0))
    (t.wovr, t.srcLen) = (true, 0#32) := by decide
theorem test_count_window_V45_9 :
    let t := got (hostWrite 0x34 7#32 (got (hostWrite 0x30 0x2061#32 State.reset)))
    (got (hostRead 0x34 t)).env.hostData = 7#32 := by decide
theorem test_write_during_initialisation_V70_4 :
    let s := { State.reset with seq := .initialising }
    statusWord (got (takeEvent .engine (got (hostWrite 0x0C 0#32 s)))) = 8#32 := by decide

/-! ## Witnesses: states and operands that meet the statements' hypotheses -/

theorem witness_DecodeOfEncode : WellFormed (.bbPushBit 1#8) ∧ WellFormed (.bbPopRest 0xFF#8 15#4) := by decide
theorem witness_EncodeOfDecode : decode 0xFFFF0010#32 = .instr (.getEncoding 0xFF#8 0xFF#8) := by decide
theorem witness_CommandWordSelectsOneRow :
    (opRows[11]'(by decide)).selects 0xFFFF0010#32 = true ∧ opRows[11]'(by decide) ∈ opRows
    ∧ State.reset.seq = .idle ∧ ∀ r ∈ opRows, r.selects 0x0000000A#32 = false := by
  refine ⟨by decide, List.getElem_mem _, by decide, by decide⟩
theorem witness_StepRunsTheDecodedCommand :
    let s := { ready [] 0 with cmd := 0x2D#32 - 1#32 }
    s.seq = .running ∧ decode s.cmd = .instr (.bbPopRest 0#8 0#4) ∧ s.env.inputs = []
    ∧ (withInputs [.engine] s).env.inputs = [.engine] ∧ WellFormed (.bbPushBit 1#8) := by decide
theorem witness_CommandAcceptance :
    (State.reset.seq = .idle ∧ decode 0#32 = .instr .nop ∧ decode 0xFF#32 = .rejected .reservedOpcode)
    ∧ ((ready [] 0).seq = .running ∧ LatchOk (ready [1#8] 1) ∧ decode (ready [] 0).cmd = .instr .nop)
    ∧ isNext (takeEvent .resetOff (ready [1#8] 1)) = true ∧ (got (takeEvent .resetOff (ready [1#8] 1))).seq = .running
    ∧ (let s := { writing 1 (bits [1]) with seq := .idle };
      s.seq = .idle ∧ (got (hostWrite 0x0C 3#32 s)).seq = .running ∧ (∀ c ∈ s.bb.staged, c.1 ≠ (regionAddr 0x200#32 0).toNat)
      ∧ refusesRead s (regionAddr 0x200#32 0) = false) := by
  exact ⟨by decide, by decide, by decide, by decide, by decide⟩
theorem witness_EveryCommandEndsOnce :
    let s := ready [] 0
    s.done = false ∧ s.err = false ∧ s.errCode = .noError ∧ s.errInfo = 0#32 ∧ isNext (exec .nop s) = true
    ∧ isNext (exec .bbClose s) = true ∧ ∀ w ∈ s.env.params.windows, w.kind ≠ .device := by decide
theorem witness_SoftResetCompletes :
    let s := writing 4 (bits [1, 0, 1, 1, 1, 1, 1, 1, 1])
    SessionOk s.bb ∧ QuietDst s s.bb.dstBase s.bb.dstCap ∧ SessionOk State.reset.bb
    ∧ QuietDst State.reset State.reset.bb.dstBase State.reset.bb.dstCap ∧ State.reset.bb.mode ≠ .write
    ∧ 0 < s.bb.bytePos.toNat := by
  exact ⟨by decide, by decide, by decide, by decide, by decide, by decide⟩
theorem witness_BusyWritesAndReads :
    (ready [] 0).seq = .running ∧ ({ State.reset with seq := .initialising } : State).seq = .initialising := by decide
theorem witness_registers :
    State.reset.seq ≠ .inReset ∧ State.reset.seq = .idle ∧ CountMatrix.wf State.reset.counts := by decide
/-- HCE_BASE = 0x1000: a misaligned word in the block, a double that begins 4 bytes below it and reaches it, and accesses that
end just below it and begin just past it. -/
def withBase : State :=
  { State.reset with env := { State.reset.env with params := { State.reset.env.params with hceBase := 0x1000#32 } } }
theorem witness_HostAccessForms :
    let off (addr : Word) (k : Nat) := (addr + BitVec.ofNat 32 k - withBase.env.params.hceBase).toNat
    (off 0x1002#32 0 < 256 ∧ off 0x1002#32 0 % 4 ≠ 0)
    ∧ (256 ≤ off 0xFFC#32 0 ∧ off 0xFFC#32 4 < 256 ∧ 4 < accessBytes .double ∧ AccessWidth.double ≠ .word)
    ∧ (∀ k < accessBytes .word, 256 ≤ off 0xFFC#32 k) ∧ ∀ k < accessBytes .double, 256 ≤ off 0x1100#32 k := by decide
/-- R89: a double at HCE_BASE - 4 and a word at HCE_BASE - 2 reach into the block and are refused; a word at HCE_BASE - 4 does not. -/
theorem test_access_from_below_R89 :
    takeEvent (.read 0xFFC#32 .double) withBase = .refused .hostAccess
    ∧ takeEvent (.write 0xFFE#32 .word 1#32) withBase = .refused .hostAccess
    ∧ takeEvent (.read 0xFFC#32 .word) withBase = .next withBase := ⟨rfl, rfl, rfl⟩
theorem witness_ResetSequence :
    (got (takeEvent .resetOn State.reset)).seq = .inReset
    ∧ (got (takeEvent .resetOff (got (takeEvent .resetOn State.reset)))).seq = .initialising := by decide
/-- The byte past the DST region of a running COMPRESS, and the byte past that of an open write session. -/
theorem witness_ResetKeepsOtherMemory :
    (let s := { ready [0x61#8] 1 with cmd := 0x8#32 };
      SessionOk s.bb ∧ isNext (takeEvent .resetOn s) = true ∧ s.seq = .running ∧ decode s.cmd = .instr .compress
      ∧ inRegion s.latch.dstBase s.latch.dstCap 0x201 = false ∧ s.bb.mode ≠ .write)
    ∧ (let s := { writing 1 (bits [1]) with seq := .idle };
      SessionOk s.bb ∧ isNext (takeEvent .resetOn s) = true ∧ s.seq ≠ .running
      ∧ inRegion s.bb.dstBase s.bb.dstCap 0x201 = false) := by
  exact ⟨by decide, by decide⟩
theorem witness_CountAddsPairs :
    let s := { ready [0x61#8, 0x61#8] 0 with counts := [(0x2061, 0xFFFFFFFF#32)] }
    CountMatrix.wf s.counts ∧ QuietSrc s s.latch.srcBase s.latch.srcLen := by decide
theorem witness_Builds : CountMatrix.wf ([(0, 1#32), (65535, 1#32)] : CountMatrix) := by decide
theorem witness_BuiltTrees :
    let w : List (Byte × Nat) := [(0x61#8, 3), (0x62#8, 1), (0x63#8, 0)]
    (w.map (·.1)).Nodup ∧ buildTree w = some treeAB
    ∧ buildTree ([(0x78#8, 5)] : List (Byte × Nat)) = some (.node (.leaf 0x78#8) (.leaf 0x78#8))
    ∧ buildTree ([(0x78#8, 0)] : List (Byte × Nat)) = none ∧ encTable treeAB 0x61#8 = some [true] := by decide
theorem witness_CodewordsArePrefixFree :
    0x61#8 ≠ 0x62#8 ∧ encTable treeAB 0x61#8 = some [true] ∧ encTable treeAB 0x62#8 = some [false] := by decide
theorem witness_EncodingTableIsLastLeaf :
    encTable (.node (.leaf 0x78#8) (.leaf 0x78#8)) 0x78#8 = some [true]
    ∧ treeAt (.node (.leaf 0x78#8) (.leaf 0x78#8)) [false] = some (.leaf 0x78#8) ∧ encTable treeAB 0x63#8 = none := by decide
theorem witness_TableQueries :
    let s := markovAB (ready [] 0)
    TablesOk s ∧ s.kind ≠ .none ∧ treeFor s.kind s.slots 0x61#8 = some treeAB ∧ encTable treeAB 0x61#8 = some [true]
    ∧ treeFor s.kind s.slots 0x62#8 = none ∧ encTable treeAB 0x63#8 = none ∧ (ready [] 0).kind = .none := by decide
theorem witness_SerializeCompletes :
    let s := plainAB (ready [] 3)
    s.bb.mode = .closed ∧ TablesOk s ∧ QuietDst s s.latch.dstBase s.latch.dstCap
    ∧ ((tableBits s.kind s.slots).map fun b => bytesFor b.length) = some s.latch.dstCap.toNat := by decide
theorem witness_SerializeErrors :
    (writing 1 []).bb.mode ≠ .closed
    ∧ (let s := plainAB (ready [] 2);
      s.bb.mode = .closed ∧ QuietDst s s.latch.dstBase s.latch.dstCap
      ∧ ((tableBits s.kind s.slots).map fun b => bytesFor b.length) = some (s.latch.dstCap.toNat + 1))
    ∧ (let s := { ready [] 0 with latch := ⟨0#32, 0#32, 0xFFFFFFFF#32, 2#32⟩ };
      s.bb.mode = .closed ∧ 2 ^ 32 < s.latch.dstBase.toNat + s.latch.dstCap.toNat)
    ∧ (let s := { ready [] 0 with latch := ⟨0#32, 0#32, 0xFFFFFFFF#32, 1#32⟩ };
      s.bb.mode = .closed ∧ s.latch.dstBase.toNat + s.latch.dstCap.toNat ≤ 2 ^ 32 ∧ s.kind = .none
      ∧ slotTree s.slots 0 = none) := by decide
theorem witness_DeserializeReadsTableFile :
    let s := ready [0x2C#8, 0x56#8, 0x1F#8] 0
    s.bb.mode = .closed ∧ QuietSrc s s.latch.srcBase s.latch.srcLen ∧ TablesOk (plainAB s)
    ∧ (tableBits .plain [(0, treeAB)]).any (fun b => b.isPrefixOf (regionBits s s.latch.srcBase s.latch.srcLen.toNat)) = true := by
  decide
/-- A plain file and a Markov file, each of its three errors at the first place it can be met: 511 internal nodes; a file that
ends before the symbol of a leaf; a root marked as a leaf, in slot 1 after an empty slot 0. -/
theorem witness_DeserializeErrors :
    (writing 1 []).bb.mode ≠ .closed
    ∧ (let s := { ready [] 0 with latch := ⟨0xFFFFFFFF#32, 2#32, 0#32, 0#32⟩ };
      s.bb.mode = .closed ∧ 2 ^ 32 < s.latch.srcBase.toNat + s.latch.srcLen.toNat)
    ∧ (let s := ready (List.replicate 64 0#8) 0;
      s.bb.mode = .closed ∧ QuietSrc s s.latch.srcBase s.latch.srcLen ∧ (List.replicate 511 (none : Option Byte)).length = 511
      ∧ openSubtrees 1 (List.replicate 511 none) = some 512
      ∧ ([false] ++ (List.replicate 511 none).flatMap nodeBits) <+: regionBits s s.latch.srcBase s.latch.srcLen.toNat)
    ∧ (let s := ready [0x2C#8] 0;
      QuietSrc s s.latch.srcBase s.latch.srcLen ∧ openSubtrees 1 [none] = some 2
      ∧ regionBits s s.latch.srcBase s.latch.srcLen.toNat <+: [false] ++ ([none] ++ [some 0x62#8]).flatMap nodeBits
      ∧ 8 < ([false] ++ ([none] ++ [some 0x62#8]).flatMap nodeBits).length)
    ∧ (let s := ready [0xB0#8] 0;
      QuietSrc s s.latch.srcBase s.latch.srcLen
      ∧ (true :: [none].flatMap (fun slot : Option Tree => match slot with | some t => true :: treeBits t | none => [false])
          ++ [true] ++ [true]) <+: regionBits s s.latch.srcBase s.latch.srcLen.toNat
      ∧ s.err = false ∧ isNext (exec .deserialize s) = true ∧ (got (exec .deserialize s)).err = true) := by
  exact ⟨by decide, by decide, by decide +kernel, by decide, by decide⟩
theorem witness_LoadedTreesAreBounded :
    let s := ready [0x2C#8, 0x56#8, 0x10#8] 0
    s.err = false ∧ isNext (exec .deserialize s) = true ∧ (got (exec .deserialize s)).err = false
    ∧ slotTree (got (exec .deserialize s)).slots 0 = some treeAB := by decide +kernel
theorem witness_CompressCompletes :
    let s := markovAB (ready [0x61#8, 0x61#8, 0x61#8, 0x62#8] 2)
    CodecReady s ∧ codeBits s.kind s.slots 0x20#8 (sourceBytes s) = some (bits [1, 1, 1, 0])
    ∧ 1 + bytesFor 4 = s.latch.dstCap.toNat := by decide
theorem witness_CompressStreamingErrors :
    (let s := markovAB (ready [0x61#8, 0x62#8, 0x61#8] 2);
      CodecReady s ∧ (sourceBytes s)[2]? = some 0x61#8
      ∧ codeBits s.kind s.slots 0x20#8 ((sourceBytes s).take 2) = some (bits [1, 0])
      ∧ treeFor s.kind s.slots (contextAfter ((sourceBytes s).take 2)) = none)
    ∧ (let s := plainAB (ready [0x63#8] 1);
      CodecReady s ∧ (sourceBytes s)[0]? = some 0x63#8 ∧ codeBits s.kind s.slots 0x20#8 ((sourceBytes s).take 0) = some []
      ∧ 1 + bytesFor 0 ≤ s.latch.dstCap.toNat ∧ treeFor s.kind s.slots (contextAfter []) = some treeAB
      ∧ encTable treeAB 0x63#8 = none)
    ∧ (let s := plainAB (ready [0x61#8] 1);
      CodecReady s ∧ (sourceBytes s)[0]? = some 0x61#8 ∧ encTable treeAB 0x61#8 = some [true]
      ∧ s.latch.dstCap.toNat < 1 + bytesFor (0 + 1)) := by
  exact ⟨by decide, by decide, by decide⟩
theorem witness_DecompressDecodesItsFile :
    let s := plainAB (ready [0x3C#8, 0xEF#8] 4)
    CodecReady s ∧ TablesOk s ∧ Spells s.kind s.slots 0x20#8 [0x61#8, 0x61#8, 0x61#8, 0x62#8] (bits [1, 1, 1, 0])
    ∧ 4 = s.latch.dstCap.toNat ∧ s.latch.srcLen.toNat = 1 + bytesFor 4
    ∧ readByte s s.latch.srcBase = BitVec.ofNat 8 (0x38 + (8 - 4 % 8) % 8)
    ∧ bits [1, 1, 1, 0] <+: (regionBits s s.latch.srcBase s.latch.srcLen.toNat).drop 8 := by
  refine ⟨by decide, by decide, ?_, by decide, by decide, by decide, by decide⟩
  exact ⟨treeAB, [true], bits [1, 1, 0], by decide, by decide, by decide, treeAB, [true], bits [1, 0], by decide, by decide,
    by decide, treeAB, [true], bits [0], by decide, by decide, by decide, treeAB, [false], [], by decide, by decide, by decide, rfl⟩
theorem witness_DecompressHeaderErrors :
    (CodecReady (plainAB (ready [] 4)) ∧ (plainAB (ready [] 4)).latch.srcLen = 0#32)
    ∧ (let s := plainAB (ready [0x40#8] 4);
      CodecReady s ∧ s.latch.srcLen ≠ 0#32 ∧ (readByte s s.latch.srcBase).extractLsb' 4 4 ≠ 0x3#4)
    ∧ (let s := plainAB (ready [0x30#8] 4);
      CodecReady s ∧ (readByte s s.latch.srcBase).extractLsb' 4 4 = 0x3#4
      ∧ ((readByte s s.latch.srcBase).getLsbD 3 = true ↔ s.kind = .markov))
    ∧ (let s := plainAB (ready [0x39#8] 4);
      CodecReady s ∧ s.latch.srcLen = 1#32 ∧ (readByte s s.latch.srcBase).extractLsb' 4 4 = 0x3#4
      ∧ ((readByte s s.latch.srcBase).getLsbD 3 = true ↔ s.kind = .plain)
      ∧ (readByte s s.latch.srcBase).extractLsb' 0 3 ≠ 0#3) := by
  exact ⟨by decide, by decide, by decide, by decide⟩
/-- The three clauses, each at the first codeword: an empty context, a codeword cut short, a full DST region. -/
theorem witness_DecompressStreamingErrors :
    (let s := { ready [0x37#8, 0x80#8] 4 with kind := .markov };
      CodecReady s ∧ TablesOk s ∧ Spells s.kind s.slots 0x20#8 [] [] ∧ treeFor s.kind s.slots (contextAfter []) = none
      ∧ s.latch.srcLen.toNat = 1 + bytesFor ([] ++ [true]).length
      ∧ readByte s s.latch.srcBase = BitVec.ofNat 8 (0x30 + (8 - 1 % 8) % 8)
      ∧ [true] <+: (regionBits s s.latch.srcBase s.latch.srcLen.toNat).drop 8)
    ∧ (let t : Tree := .node (.leaf 0x61#8) (.node (.leaf 0x62#8) (.leaf 0x63#8));
      let s := { ready [0x3F#8, 0x80#8] 4 with kind := .plain, slots := [(0, t)] };
      CodecReady s ∧ TablesOk s ∧ treeFor s.kind s.slots (contextAfter []) = some t
      ∧ readByte s s.latch.srcBase = BitVec.ofNat 8 (0x38 + (8 - 1 % 8) % 8)
      ∧ [true] <+: (regionBits s s.latch.srcBase s.latch.srcLen.toNat).drop 8
      ∧ treeAt t [] ≠ some (.leaf 0x61#8) ∧ treeAt t [true] = some (.node (.leaf 0x62#8) (.leaf 0x63#8)))
    ∧ (let s := plainAB (ready [0x3F#8, 0x80#8] 0);
      CodecReady s ∧ TablesOk s ∧ treeFor s.kind s.slots (contextAfter []) = some treeAB
      ∧ treeAt treeAB [true] = some (.leaf 0x61#8) ∧ [true] <+: [true] ∧ 0 = s.latch.dstCap.toNat) := by
  refine ⟨⟨by decide, by decide, rfl, by decide, by decide, by decide, by decide⟩, by decide, by decide⟩
theorem witness_CodecPreconditions :
    (writing 1 []).bb.mode ≠ .closed
    ∧ (let l : Latch := ⟨0xFFFFFFFF#32, 2#32, 0#32, 0#32⟩;
      ¬ (l.srcBase.toNat + l.srcLen.toNat ≤ 2 ^ 32 ∧ l.dstBase.toNat + l.dstCap.toNat ≤ 2 ^ 32))
    ∧ (let l : Latch := ⟨0x1000#32, 4#32, 0x1003#32, 8#32⟩;
      l.srcBase.toNat + l.srcLen.toNat ≤ 2 ^ 32 ∧ l.srcBase.toNat < l.dstBase.toNat + l.dstCap.toNat
      ∧ l.dstBase.toNat < l.srcBase.toNat + l.srcLen.toNat)
    ∧ (let s := ready [0x61#8] 0;
      s.bb.mode = .closed ∧ regionsOverlap s.latch = false ∧ s.kind = .none ∧ s.latch.dstCap = 0#32)
    ∧ (plainAB (ready [0x61#8] 0)).kind ≠ .none := by decide

/-- "ab" before it is counted; the states after COUNT, BUILD.M and COMPRESS; the state before DECOMPRESS. -/
def trip : State := ready [0x61#8, 0x62#8] 2
def tripCounted : State := got (exec .count trip)
def tripBuilt : State := got (exec .buildM tripCounted)
def tripFile : State := got (exec .compress tripBuilt)
def tripBack : State := { tripFile with latch := ⟨0x200#32, tripFile.outLen, 0x300#32, 2#32⟩ }

theorem witness_CodecRoundTrip :
    (trip.counts = [] ∧ trip.err = false ∧ trip.bb.mode = .closed ∧ QuietSrc trip trip.latch.srcBase trip.latch.srcLen
      ∧ QuietDst trip trip.latch.dstBase trip.latch.dstCap ∧ regionsOverlap trip.latch = false)
    ∧ exec .count trip = .next tripCounted ∧ exec .buildM tripCounted = .next tripBuilt
    ∧ exec .compress tripBuilt = .next tripFile ∧ tripFile.err = false
    ∧ (CodecReady tripBack ∧ tripBack.latch.srcLen = tripFile.outLen
      ∧ sourceBytes tripBack = regionBytes tripFile trip.latch.dstBase tripFile.outLen.toNat
      ∧ trip.latch.srcLen.toNat ≤ tripBack.latch.dstCap.toNat) :=
  ⟨by decide, next_got (by decide +kernel), next_got (by decide +kernel), next_got (by decide +kernel), by decide +kernel,
    by decide +kernel⟩

/-- Regions that end at the top of memory, or start below it, after a session whose bytes were made final. -/
theorem witness_SessionsOpen :
    let s := { got (exec .bbClose (writing 1 (bits [1]))) with latch := ⟨0x100#32, 1#32, 0xFFFFFFFF#32, 1#32⟩ }
    s.bb.mode = .closed ∧ s.bb.flushed = 1#32 ∧ s.latch.dstBase.toNat + s.latch.dstCap.toNat = 2 ^ 32
    ∧ touchesDevice s s.latch.dstBase s.latch.dstCap = false ∧ s.latch.srcBase.toNat + s.latch.srcLen.toNat ≤ 2 ^ 32
    ∧ PlainRegion s s.latch.srcBase s.latch.srcLen := by decide
theorem witness_DatapathMatchesStream : WriterOk ⟨[0xFF#8], 0xFE#8, 7⟩ ∧ WriterOk .start := by decide
/-- The last bit that fits, the last byte that fits across a boundary, a descriptor of no bits in a full region. -/
theorem witness_PushCommandsAppendBits :
    (let s := writing 1 (bits [1, 1, 1, 1, 1, 1, 1]);
      Writing s ∧ bbPos s.bb / 8 < s.bb.dstCap.toNat)
    ∧ (let s := writing 2 (bits [1]);
      Writing s ∧ (bbPos s.bb + 7) / 8 < s.bb.dstCap.toNat)
    ∧ (let s := { writing 1 (bits [1]) with cwLen := 7#8 };
      Writing s ∧ (bbPos s.bb + s.cwLen.toNat - 1) / 8 < s.bb.dstCap.toNat)
    ∧ Writing (writing 0 []) ∧ (writing 0 []).cwLen = 0#8 := by
  exact ⟨by decide, by decide, by decide, by decide, by decide⟩
theorem witness_PushOverflow :
    (let s := writing 1 (bits [1, 1, 1, 1, 1, 1, 1, 1]);
      s.bb.mode = .write ∧ s.bb.dstCap.toNat ≤ bbPos s.bb / 8)
    ∧ (let s := writing 1 (bits [1]);
      s.bb.mode = .write ∧ s.bb.dstCap.toNat ≤ (bbPos s.bb + 7) / 8)
    ∧ (let s := { writing 1 (bits [1]) with cwLen := 8#8 };
      s.cwLen ≠ 0#8 ∧ s.bb.dstCap.toNat ≤ (bbPos s.bb + s.cwLen.toNat - 1) / 8)
    ∧ (let s := writing 0 [];
      s.cwLen = 0#8 ∧ s.errCode ≠ .dstOverflow ∧ isNext (exec .bbPushDesc s) = true) := by decide
theorem witness_FlushAndClose :
    (let s := writing 2 (bits [1, 0, 1, 1, 1, 1, 1, 1, 1]);
      Writing s ∧ DrainedBytes s ∧ 0 < drainedCount s.bb)
    ∧ (reading [0x80#8] 8).bb.mode = .read := by decide
theorem witness_BitReads :
    (let s := reading [0x80#8] 7;
      Reading s ∧ bbPos s.bb < 8 * s.bb.srcLen.toNat)
    ∧ (let s := reading [0x80#8] 8;
      Reading s ∧ bbPos s.bb = 8 * s.bb.srcLen.toNat) := by exact ⟨by decide, by decide⟩
theorem witness_PopByteAndRest :
    (let s := reading [0xD5#8, 0x80#8] 8;
      Reading s ∧ bbPos s.bb + 8 ≤ 8 * s.bb.srcLen.toNat)
    ∧ Reading (reading [0xD5#8] 8) ∧ (7#4).toNat < 8 := by exact ⟨by decide, by decide, by decide⟩
theorem witness_ModePreconditions :
    (writing 1 []).bb.mode ≠ .closed ∧ (reading [] 0).bb.mode ≠ .write ∧ (writing 1 []).bb.mode ≠ .read
    ∧ State.reset.bb.mode = .closed := by decide
theorem witness_SessionAndRegionErrors :
    (let l : Latch := ⟨0xFFFFFFFF#32, 2#32, 0xFFFFFFFF#32, 2#32⟩;
      2 ^ 32 < l.srcBase.toNat + l.srcLen.toNat ∧ 2 ^ 32 < l.dstBase.toNat + l.dstCap.toNat)
    ∧ (let s := reading [0x80#8] 8;
      s.bb.mode = .read ∧ 8 * s.bb.srcLen.toNat ≤ bbPos s.bb)
    ∧ (let s := reading [0x80#8] 1;
      s.bb.mode = .read ∧ 8 * s.bb.srcLen.toNat < bbPos s.bb + 8)
    ∧ 8 ≤ (8#4).toNat := by decide
theorem witness_CommandFrames :
    isNext (exec .count (ready [0x61#8] 0)) = true ∧ isNext (exec .softReset (ready [] 0)) = true
    ∧ (ready [] 0).err = false ∧ (got (exec .buildM (ready [] 0))).err = false := by decide +kernel
theorem witness_EngineWritesOnlyDst :
    let s := plainAB (ready [0x61#8] 2)
    SessionOk s.bb ∧ isNext (exec .compress s) = true
    ∧ readByte (got (exec .compress s)) 0x200#32 ≠ readByte s 0x200#32 := by decide +kernel
/-- A platform that refuses the bytes of a window. -/
def refusing (a : Nat) (kind : WindowKind) (s : State) : State :=
  { s with env := { s.env with params := { s.env.params with windows := [⟨a, 1, kind⟩] } } }

/-- The last byte of the region refused: for COUNT, for the flush that needs it, for a read of it, for a decoder's and a
loader's first byte, and for the last byte of an output. -/
theorem witness_RefusedAccessRaisesBusError :
    (let s := refusing 0x200 .noWrite (writing 1 (bits [1]));
      SessionOk s.bb ∧ s.errCode ≠ .busError ∧ isNext (exec .bbFlush s) = true ∧ (got (exec .bbFlush s)).errCode = .busError
      ∧ s.bb.mode = .write ∧ drainedCount s.bb ≤ 0 ∧ 0 < bytesFor (bbPos s.bb)
      ∧ refusesWrite s (regionAddr s.bb.dstBase 0) = true)
    ∧ (let s := refusing 0x101 .noRead (ready [0x61#8, 0x62#8] 0);
      regionFits s.latch.srcBase s.latch.srcLen = true ∧ touchesDevice s s.latch.srcBase s.latch.srcLen = false
      ∧ 1 < s.latch.srcLen.toNat ∧ refusesRead s (regionAddr s.latch.srcBase 1) = true)
    ∧ (let s := refusing 0x100 .noRead (reading [0x80#8] 0);
      s.bb.mode = .read ∧ bbPos s.bb + 8 = 8 * s.bb.srcLen.toNat
      ∧ refusesRead s (regionAddr s.bb.srcBase s.bb.bytePos.toNat) = true ∧ (7#4).toNat < 8)
    ∧ (let s := refusing 0x100 .noAccess (plainAB (ready [0x61#8] 1));
      s.bb.mode = .closed ∧ regionFits s.latch.srcBase s.latch.srcLen = true ∧ touchesDevice s s.latch.srcBase s.latch.srcLen = false
      ∧ regionFits s.latch.dstBase s.latch.dstCap = true ∧ touchesDevice s s.latch.dstBase s.latch.dstCap = false
      ∧ regionsOverlap s.latch = false ∧ s.kind ≠ .none ∧ s.latch.srcLen ≠ 0#32 ∧ refusesRead s s.latch.srcBase = true
      ∧ s.latch.dstCap ≠ 0#32)
    ∧ (let s := refusing 0x202 .noWrite (plainAB (ready [] 3));
      s.bb.mode = .closed ∧ ((tableBits s.kind s.slots).map fun b => bytesFor b.length) = some 3 ∧ 3 ≤ s.latch.dstCap.toNat
      ∧ refusesWrite s (regionAddr s.latch.dstBase 2) = true)
    ∧ (let s := refusing 0x201 .noWrite (plainAB (ready [0x61#8] 2));
      QuietSrc s s.latch.srcBase s.latch.srcLen ∧ codeBits s.kind s.slots 0x20#8 (sourceBytes s) = some [true]
      ∧ 1 + bytesFor 1 = s.latch.dstCap.toNat ∧ refusesWrite s (regionAddr s.latch.dstBase 1) = true) := by
  exact ⟨by decide, by decide, by decide, by decide, by decide, by decide⟩

/-- A session's flushed byte at idle, the same byte before the flush, a raced SRC byte of a command and of a session, and a
byte in a window. -/
theorem witness_HostMemoryAccesses :
    (let s := { got (exec .bbFlush (writing 1 (bits [1]))) with seq := .idle };
      s.seq = .idle ∧ s.bb.mode = .write ∧ inRegion s.bb.dstBase s.bb.flushed 0x200 = true ∧ 0x200 ∉ s.env.dstRaced
      ∧ s.env.params.windows = [])
    ∧ inRegion (writing 1 (bits [1])).bb.dstBase (writing 1 (bits [1])).bb.dstCap 0x200 = true
    ∧ (let s := reading [0x80#8] 0;
      s.seq = .running ∧ inRegion s.latch.srcBase s.latch.srcLen 0x100 = true ∧ s.bb.mode = .read
      ∧ inRegion s.bb.srcBase s.bb.srcLen 0x100 = true ∧ inRegion s.latch.dstBase s.latch.dstCap 0x100 = false
      ∧ Memory.wf s.memory ∧ regionAddr 0x100#32 0 = 0x100#32 ∧ s.bb.staged ++ s.env.races = [] ∧ s.env.sessionRaces = [])
    ∧ (refusing 0x100 .device (ready [] 0)).env.params.windows.all (fun w => windowCovers w 0x100) = true := by
  exact ⟨by decide, by decide, by decide, by decide⟩
/-- A session with bytes in DST and a partial byte meets the invariant, and a step of it answers a next state. -/
theorem witness_StepKeepsInvariant :
    let s := { plainAB (writing 2 (bits [1, 0, 1, 1, 1, 1, 1, 1, 1])) with cmd := 0x23#32, srcAddr := 0x100#32 }
    (StatusOk s ∧ LatchOk s ∧ TablesOk s ∧ SessionOk s.bb) ∧ (DrainedOk s ∧ Memory.wf s.memory ∧ CountMatrix.wf s.counts)
    ∧ isNext (step s) = true := by
  exact ⟨by decide, by decide, by decide⟩

end Sys2Proof.Tests
end

section
/-! SUPPORT. The host registers (10_state.md): which register an offset reaches, what a read and a write of it do, and the
statements about them. -/

namespace Sys2Proof.Machine

/-! ## Reads and writes of one register -/

/-- BUSY is 1 and the reset input is not asserted. -/
theorem busy_of_running_or_initialising {s : State} (h : s.seq = .running ∨ s.seq = .initialising) :
    s.seq ≠ .inReset ∧ s.busy = true := by
  rcases h with h | h <;> simp [State.busy, h]

/-- A read that R59 lets through returns the register's value. -/
theorem readReg_value {s : State} {r : HostReg} (hs : s.seq ≠ .inReset)
    (hr : s.seq = .idle ∨ readableWhileBusy r = true) : readReg r s = withHostData (regValue s r) s := by
  rcases hr with hr | hr <;> simp [readReg, hs, hr, State.busy, deliver, withHostData]

/-- While BUSY is 1 a read that R59 does not let through returns an unspecified value, and the engine is unchanged. -/
theorem readReg_unspecified {s : State} {r : HostReg} (hs : s.seq = .running ∨ s.seq = .initialising)
    (hr : readableWhileBusy r = false) :
    ∃ (v : Word) (c : Nat), readReg r s = { s with env := { s.env with hostData := v, freeCtr := c } } := by
  obtain ⟨hs, hb⟩ := busy_of_running_or_initialising hs
  exact ⟨_, _, by simp [readReg, hs, hb, hr]; rfl⟩

/-- While BUSY is 1 a write to a guarded register only sets WOVR (R58). -/
theorem writeReg_discarded {s : State} {r : HostReg} (hs : s.seq = .running ∨ s.seq = .initialising)
    (hr : discardedWhileBusy r = true) (v : Word) : writeReg r v s = { s with wovr := true } := by
  obtain ⟨hs, hb⟩ := busy_of_running_or_initialising hs
  simp [writeReg, hs, hb, hr, discardWrite]

/-- A write that R58 does not discard has the register's effect. -/
theorem writeReg_effect {s : State} {r : HostReg} (hs : s.seq ≠ .inReset)
    (hr : s.seq = .idle ∨ discardedWhileBusy r = false) (v : Word) : writeReg r v s = regWrite v s r := by
  rcases hr with hr | hr <;> simp [writeReg, hs, hr, State.busy]

/-- The registers that no write changes: the read-only and the reserved ones (R34). -/
def ignoresWrites : HostReg → Bool
  | .id | .outLen | .result | .errInfo | .bbBytePos | .reserved => true
  | _ => false

/-- A write to a read-only or reserved register is ignored in every state (R58). -/
theorem writeReg_ignored {r : HostReg} (hr : ignoresWrites r = true) (v : Word) (s : State) : writeReg r v s = s := by
  have hd : discardedWhileBusy r = false := by cases r <;> cases hr <;> rfl
  have hw : regWrite v s r = s := by cases r <;> cases hr <;> rfl
  simp [writeReg, hd, hw]

/-! ## Which register an offset reaches (R34) -/

theorem guardedOffsets_spec :
    ∀ off ∈ guardedOffsets, off < 256 ∧ off % 4 = 0 ∧ discardedWhileBusy (hostRegAt off) = true := by decide

theorem readOnlyOffsets_spec :
    ∀ off ∈ readOnlyOffsets, off < 256 ∧ off % 4 = 0 ∧ ignoresWrites (hostRegAt off) = true := by decide

theorem reservedOffsets_spec :
    ∀ off ∈ reservedOffsets, off < 256 ∧ off % 4 = 0 ∧ hostRegAt off = .reserved := by decide

theorem hostRegAt_cwBits (j : Fin 8) : hostRegAt (0x40 + 4 * j.val) = .cwBits j := by
  revert j; decide

/-- A host read of a register that R59 lets through. -/
theorem hostRead_value {s : State} {off : Nat} {r : HostReg} (h : off < 256 ∧ off % 4 = 0 ∧ hostRegAt off = r)
    (hs : s.seq ≠ .inReset) (hr : s.seq = .idle ∨ readableWhileBusy r = true) :
    hostRead off s = .next (withHostData (regValue s r) s) := by
  obtain ⟨hlt, h4, rfl⟩ := h
  rw [hostRead_eq hlt h4, readReg_value hs hr]

/-- A host write of a register that R58 does not discard. -/
theorem hostWrite_effect {s : State} {off : Nat} {r : HostReg} (h : off < 256 ∧ off % 4 = 0 ∧ hostRegAt off = r)
    (hs : s.seq ≠ .inReset) (hr : s.seq = .idle ∨ discardedWhileBusy r = false) (v : Word) :
    hostWrite off v s = .next (regWrite v s r) := by
  obtain ⟨hlt, h4, rfl⟩ := h
  rw [hostWrite_eq hlt h4, writeReg_effect hs hr]

/-! ## The fields of STATUS, CTRL and COUNT_IDX -/

/-- Bit `i` of STATUS: the fields of R38 side by side, the reserved bits 0. -/
theorem getLsbD_statusWord (s : State) (i : Nat) :
    (statusWord s).getLsbD i =
      (if i < 1 then s.busy else if i < 2 then s.done else if i < 3 then s.err else if i < 4 then s.wovr
        else if i < 6 then s.bb.mode.code.getLsbD (i - 4) else if i < 8 then s.kind.code.getLsbD (i - 6)
        else if i < 16 then s.errCode.code.getLsbD (i - 8) else if i < 19 then s.bb.bitIdx.getLsbD (i - 16)
        else false) := by
  have hmode : 2 ≤ i - 4 → s.bb.mode.code.getLsbD (i - 4) = false := fun h => BitVec.getLsbD_of_ge _ _ h
  have hkind : 2 ≤ i - 6 → s.kind.code.getLsbD (i - 6) = false := fun h => BitVec.getLsbD_of_ge _ _ h
  have hcode : 8 ≤ i - 8 → s.errCode.code.getLsbD (i - 8) = false := fun h => BitVec.getLsbD_of_ge _ _ h
  have hidx : 3 ≤ i - 16 → s.bb.bitIdx.getLsbD (i - 16) = false := fun h => BitVec.getLsbD_of_ge _ _ h
  by_cases hi : i < 19
  · interval_cases i <;> simp [statusWord, bitAt]
  · simp only [statusWord, bitAt, BitVec.getLsbD_or, BitVec.getLsbD_shiftLeft, BitVec.getLsbD_setWidth,
      BitVec.getLsbD_ofBool, hmode (by omega), hkind (by omega), hcode (by omega), hidx (by omega)]
    split_ifs <;> simp <;> omega

/-- A field of a word is known by its bits. -/
theorem extractLsb'_eq_of_getLsbD {w n k : Nat} {x : BitVec w} {y : BitVec n}
    (h : ∀ i < n, x.getLsbD (k + i) = y.getLsbD i) : x.extractLsb' k n = y :=
  BitVec.eq_of_getLsbD_eq fun i hi => by simp [hi, h i hi]

theorem statusWord_mode (s : State) : (statusWord s).extractLsb' 4 2 = s.bb.mode.code :=
  extractLsb'_eq_of_getLsbD fun i hi => by rw [getLsbD_statusWord]; interval_cases i <;> simp

theorem statusWord_kind (s : State) : (statusWord s).extractLsb' 6 2 = s.kind.code :=
  extractLsb'_eq_of_getLsbD fun i hi => by rw [getLsbD_statusWord]; interval_cases i <;> simp

theorem statusWord_errCode (s : State) : (statusWord s).extractLsb' 8 8 = s.errCode.code :=
  extractLsb'_eq_of_getLsbD fun i hi => by rw [getLsbD_statusWord]; interval_cases i <;> simp

theorem statusWord_bitIdx (s : State) : (statusWord s).extractLsb' 16 3 = s.bb.bitIdx :=
  extractLsb'_eq_of_getLsbD fun i hi => by rw [getLsbD_statusWord]; interval_cases i <;> simp

theorem statusWord_reserved (s : State) : (statusWord s).extractLsb' 19 13 = 0#13 :=
  extractLsb'_eq_of_getLsbD fun i hi => by rw [getLsbD_statusWord]; interval_cases i <;> simp

/-- COUNT_IDX holds CTX in bits 15:8 and SYM in bits 7:0 (R54). -/
theorem countIdx_append (ctx sym : Byte) :
    (ctx.setWidth 32 <<< 8 ||| sym.setWidth 32 : Word) = (ctx ++ sym).setWidth 32 := by
  refine BitVec.eq_of_getLsbD_eq fun i hi => ?_
  rw [BitVec.getLsbD_setWidth _ (ctx ++ sym), BitVec.getLsbD_append]
  by_cases h : i < 8
  · simp [h, hi]
  · simp [h, hi, BitVec.getLsbD_of_ge sym i (by omega)]

/-- The same word as a sum. -/
theorem countIdx_add (ctx sym : Byte) :
    (ctx.setWidth 32 <<< 8 ||| sym.setWidth 32 : Word) = ctx.setWidth 32 * 256#32 + sym.setWidth 32 := by
  have hc := ctx.isLt
  have hs := sym.isLt
  rw [countIdx_append]
  refine BitVec.eq_of_toNat_eq ?_
  simp only [BitVec.toNat_setWidth, BitVec.toNat_append, BitVec.toNat_add, BitVec.toNat_mul, BitVec.toNat_ofNat]
  rw [← Nat.shiftLeft_add_eq_or_of_lt hs, Nat.shiftLeft_eq]
  omega

/-! ## The statements -/

/-- Settles O11: the guarded offsets are discarded, CTRL and STATUS take effect, the others are ignored. -/
theorem busyWritesAreDiscarded : Obligations.BusyWritesAreDiscarded := by
  refine fun s v => ⟨fun hs => ⟨fun off ho => ?_, ?_, ?_⟩, fun off ho => ?_⟩
  · obtain ⟨hlt, h4, hd⟩ := guardedOffsets_spec off ho
    rw [hostWrite_eq hlt h4, writeReg_discarded hs hd]
  · exact hostWrite_effect (r := .ctrl) (by decide) (busy_of_running_or_initialising hs).1 (.inr rfl) v
  · exact hostWrite_effect (r := .status) (by decide) (busy_of_running_or_initialising hs).1 (.inr rfl) v
  · have ⟨hlt, h4, hr⟩ : off < 256 ∧ off % 4 = 0 ∧ ignoresWrites (hostRegAt off) = true := by
      rcases List.mem_append.1 ho with ho | ho
      · exact readOnlyOffsets_spec off ho
      · obtain ⟨hlt, h4, hr⟩ := reservedOffsets_spec off ho
        exact ⟨hlt, h4, by rw [hr]; rfl⟩
    rw [hostWrite_eq hlt h4, writeReg_ignored hr]

/-- Settles O12: nine offsets reach registers that R59 names, the others reach the rest. -/
theorem busyReadsReturn : Obligations.BusyReadsReturn := by
  intro s hs
  have hr := (busy_of_running_or_initialising hs).1
  constructor
  · simp only [List.forall_mem_cons, ← countIdx_add]
    exact ⟨hostRead_value (r := .id) (by decide) hr (.inr rfl), hostRead_value (r := .ctrl) (by decide) hr (.inr rfl),
      hostRead_value (r := .status) (by decide) hr (.inr rfl), hostRead_value (r := .cmd) (by decide) hr (.inr rfl),
      hostRead_value (r := .srcAddr) (by decide) hr (.inr rfl), hostRead_value (r := .srcLen) (by decide) hr (.inr rfl),
      hostRead_value (r := .dstAddr) (by decide) hr (.inr rfl), hostRead_value (r := .dstCap) (by decide) hr (.inr rfl),
      hostRead_value (r := .countIdx) (by decide) hr (.inr rfl), by simp⟩
  · intro off ho
    have ⟨hlt, h4, hb⟩ : off < 256 ∧ off % 4 = 0 ∧ readableWhileBusy (hostRegAt off) = false := by
      revert off; decide
    obtain ⟨v, c, he⟩ := readReg_unspecified hs hb
    exact ⟨v, c, by rw [hostRead_eq hlt h4, he]⟩

/-- Settles O13: the fields are the bits of `statusWord`, and a write is `writeStatus`. -/
theorem statusRegister : Obligations.StatusRegister := by
  refine fun s hs => ⟨⟨statusWord s, hostRead_value (r := .status) (by decide) hs (.inr rfl), ?_⟩, fun v =>
    hostWrite_effect (r := .status) (by decide) hs (.inr rfl) v⟩
  refine ⟨?_, ?_, ?_, ?_, ?_, ?_, ?_, statusWord_bitIdx s, statusWord_reserved s⟩
  · rw [getLsbD_statusWord]; simp [State.busy]
  · rw [getLsbD_statusWord]; simp
  · rw [getLsbD_statusWord]; simp
  · rw [getLsbD_statusWord]; simp
  · rw [statusWord_mode]; cases s.bb.mode <;> rfl
  · rw [statusWord_kind]; cases s.kind <;> rfl
  · rw [statusWord_errCode]
    cases s.errCode <;> decide

/-- CTRL holds ERR_IE in bit 1 and DONE_IE in bit 0 (R37). -/
theorem ctrlWord_append (s : State) :
    ctrlWord s = (BitVec.ofBool s.errIe ++ BitVec.ofBool s.doneIe).setWidth 32 := by
  unfold ctrlWord
  cases s.doneIe <;> cases s.errIe <;> rfl

/-- Settles O14: idle, each offset reaches the field of its register. -/
theorem idleRegisterAccess : Obligations.IdleRegisterAccess := by
  intro s v hs
  have hr : s.seq ≠ .inReset := by simp [hs]
  have read (r : HostReg) (off : Nat) (h : off < 256 ∧ off % 4 = 0 ∧ hostRegAt off = r) :=
    hostRead_value h hr (.inl hs)
  have write (r : HostReg) (off : Nat) (h : off < 256 ∧ off % 4 = 0 ∧ hostRegAt off = r) :=
    hostWrite_effect h hr (.inl hs) v
  rw [← ctrlWord_append, ← countIdx_append]
  refine ⟨read .ctrl _ (by decide), write .ctrl _ (by decide), read .cmd _ (by decide),
    read .srcAddr _ (by decide), write .srcAddr _ (by decide), read .srcLen _ (by decide), write .srcLen _ (by decide),
    read .dstAddr _ (by decide), write .dstAddr _ (by decide), read .dstCap _ (by decide), write .dstCap _ (by decide),
    read .outLen _ (by decide), read .result _ (by decide), read .errInfo _ (by decide), read .bbBytePos _ (by decide),
    read .countIdx _ (by decide), write .countIdx _ (by decide), read .countData _ (by decide), ?_,
    read .cwLen _ (by decide), write .cwLen _ (by decide), fun j => ?_⟩
  · exact ⟨_, write .countData _ (by decide), fun hw ctx sym => countCell_setCountCell _ _ _ _ _ hw⟩
  · have hj : 0x40 + 4 * j.val < 256 ∧ (0x40 + 4 * j.val) % 4 = 0 ∧ hostRegAt (0x40 + 4 * j.val) = .cwBits j :=
      ⟨by omega, by omega, hostRegAt_cwBits j⟩
    exact ⟨read _ _ hj, write _ _ hj⟩

/-! ## Reserved fields (R35) -/

/-- How many bits of the register, from bit 0 on, are fields; those above are reserved (R37, R38, R54, R56). -/
def fieldWidth : HostReg → Nat
  | .ctrl => 2
  | .status => 19
  | .countIdx => 16
  | .cwLen => 8
  | _ => 32

/-- The bits of the register that are fields. -/
def fieldMask (r : HostReg) : Word := BitVec.ofNat 32 (2 ^ fieldWidth r - 1)

theorem getLsbD_fieldMask (r : HostReg) {i : Nat} (hi : i < 32) :
    (fieldMask r).getLsbD i = decide (i < fieldWidth r) := by
  rw [fieldMask, BitVec.getLsbD_ofNat, Nat.testBit_two_pow_sub_one]
  simp [hi]

/-- Masking a value with the fields keeps each bit of a field. -/
theorem getLsbD_and_fieldMask (r : HostReg) (v : Word) {i : Nat} (hi : i < 32) (hr : i < fieldWidth r) :
    (v &&& fieldMask r).getLsbD i = v.getLsbD i := by
  simp only [BitVec.getLsbD_and, getLsbD_fieldMask r hi, hr, decide_true, Bool.and_true]

/-- Masking a value with the fields keeps each part of a field. -/
theorem extractLsb'_and_fieldMask (v : Word) {r : HostReg} {k n : Nat} (h : k + n ≤ min 32 (fieldWidth r)) :
    (v &&& fieldMask r).extractLsb' k n = v.extractLsb' k n :=
  extractLsb'_eq_of_getLsbD fun i hi => by
    rw [getLsbD_and_fieldMask r v (by omega) (by omega), BitVec.getLsbD_extractLsb']
    simp [hi]

/-- A register all of whose bits are fields masks nothing. -/
theorem and_fieldMask_of_full {r : HostReg} (h : fieldWidth r = 32) (v : Word) : v &&& fieldMask r = v :=
  BitVec.eq_of_getLsbD_eq fun _ hi => getLsbD_and_fieldMask r v hi (h ▸ hi)

/-- A write ignores the reserved bits of the value written. -/
theorem regWrite_and_fieldMask (v : Word) (s : State) (r : HostReg) :
    regWrite (v &&& fieldMask r) s r = regWrite v s r := by
  by_cases h : fieldWidth r = 32
  · rw [and_fieldMask_of_full h]
  have hbit (i : Nat) (hi : i < 32) (hw : i < fieldWidth r) := getLsbD_and_fieldMask r v hi hw
  cases r with
  | ctrl =>
    simp only [regWrite, writeCtrl, hbit 0 (by decide) (by decide), hbit 1 (by decide) (by decide)]
  | status =>
    simp only [regWrite, writeStatus, hbit 1 (by decide) (by decide), hbit 2 (by decide) (by decide),
      hbit 3 (by decide) (by decide)]
  | countIdx =>
    simp only [regWrite, extractLsb'_and_fieldMask v (r := .countIdx) (k := 8) (n := 8) (by decide),
      extractLsb'_and_fieldMask v (r := .countIdx) (k := 0) (n := 8) (by decide)]
  | cwLen => simp only [regWrite, extractLsb'_and_fieldMask v (r := .cwLen) (k := 0) (n := 8) (by decide)]
  | _ => exact absurd rfl h

/-- The reserved bits of a register's value are 0. -/
theorem getLsbD_regValue_of_reserved (s : State) {r : HostReg} {i : Nat} (hi : i < 32) (hr : fieldWidth r ≤ i) :
    (regValue s r).getLsbD i = false := by
  cases r with
  | ctrl =>
    simp only [fieldWidth] at hr
    simp [regValue, ctrlWord, bitAt, show ¬ i < 1 by omega, show i - 1 ≠ 0 by omega]
    omega
  | status =>
    simp only [fieldWidth] at hr
    rw [regValue, getLsbD_statusWord]
    simp only [show ¬ i < 1 by omega, show ¬ i < 2 by omega, show ¬ i < 3 by omega, show ¬ i < 4 by omega,
      show ¬ i < 6 by omega, show ¬ i < 8 by omega, show ¬ i < 16 by omega, show ¬ i < 19 by omega, if_false]
  | countIdx =>
    simp only [fieldWidth] at hr
    simp [regValue, BitVec.getLsbD_of_ge s.countCtx (i - 8) (by omega), BitVec.getLsbD_of_ge s.countSym i (by omega)]
  | cwLen =>
    simp only [fieldWidth] at hr
    simp [regValue, BitVec.getLsbD_of_ge s.cwLen i (by omega)]
  | _ => simp only [fieldWidth] at hr; omega

/-- A reserved field of a register reads 0. -/
theorem regValue_and_fieldMask (s : State) (r : HostReg) : regValue s r &&& fieldMask r = regValue s r := by
  refine BitVec.eq_of_getLsbD_eq fun i hi => ?_
  by_cases hr : i < fieldWidth r
  · exact getLsbD_and_fieldMask r _ hi hr
  · rw [BitVec.getLsbD_and, getLsbD_regValue_of_reserved s hi (by omega), Bool.false_and]

/-- A host write of any register ignores the reserved bits of the value written, in every state. -/
theorem hostWrite_and_fieldMask {off : Nat} {r : HostReg} (h : off < 256 ∧ off % 4 = 0 ∧ hostRegAt off = r) (v : Word)
    (s : State) : hostWrite off v s = hostWrite off (v &&& fieldMask r) s := by
  obtain ⟨hlt, h4, rfl⟩ := h
  have := regWrite_and_fieldMask v s (hostRegAt off)
  rw [hostWrite_eq hlt h4, hostWrite_eq hlt h4, writeReg, writeReg, this]

/-- Settles O15: the offsets that reach no register, and the bits outside each register's fields. -/
theorem reservedFieldsAndId : Obligations.ReservedFieldsAndId := by
  intro s hs
  refine ⟨hostRead_value (r := .id) (by decide) hs (.inr rfl), fun off ho => ?_, fun p hp => ?_⟩
  · have h := reservedOffsets_spec off ho
    exact ⟨hostRead_value h hs (.inr rfl), fun v => hostWrite_effect h hs (.inr rfl) v⟩
  · have ⟨r, hr, hm⟩ : ∃ r, (p.1 < 256 ∧ p.1 % 4 = 0 ∧ hostRegAt p.1 = r) ∧ p.2 = fieldMask r := by
      refine ⟨hostRegAt p.1, ?_⟩
      revert p; decide
    rw [hm]
    exact ⟨fun v => hostWrite_and_fieldMask hr v s,
      fun hi => ⟨_, hostRead_value hr hs (.inl hi), regValue_and_fieldMask s r⟩⟩

/-! ## IRQ and the values after reset -/

/-- Settles O17: `irq` is the level, masked by the reset input. -/
theorem interruptLevel : Obligations.InterruptLevel := by
  intro s
  by_cases h : s.seq = .inReset <;> simp [irq, h]

/-- Settles O18: each offset reads its register's reset value, and the memories are empty. -/
theorem resetRegisterValues : Obligations.ResetRegisterValues := by
  refine ⟨fun off ho => ?_, ?_, fun ctx sym => rfl, rfl, fun k => rfl, rfl, rfl, rfl, rfl, rfl, fun s => rfl⟩
  · have ⟨hlt, h4, hv⟩ : off < 256 ∧ off % 4 = 0 ∧ regValue State.reset (hostRegAt off) = 0#32 := by
      revert off; decide
    rw [hostRead_value ⟨hlt, h4, rfl⟩ (by decide) (.inl rfl), hv]
  · exact hostRead_value (r := .id) (by decide) (by decide) (.inl rfl)

/-- Settles O58: by evaluation of the one state. -/
theorem resetMeetsInvariant : Obligations.ResetMeetsInvariant := by
  refine ⟨by decide, by decide, by decide, by decide, ?_, reset_memory_wf⟩
  exact fun _ h => nomatch h

end Sys2Proof.Machine
end

section
/-! SUPPORT. How a command can end: one relation with a constructor for each way, and that `exec` ends in one of them. The
statements about every command go through it. -/

namespace Sys2Proof.Machine

/-! ## The error codes a command raises -/

/-- A code that the error entry may store: neither "no error" nor INVALID_CODEWORD, which nothing raises (44_codec.md
R348). -/
abbrev Raisable (code : ErrCode) : Prop := code ≠ .noError ∧ code ≠ .invalidCodeword

/-- Every error that the streaming computation ends in is raisable. -/
def Stream.RaisesOnly {α : Type} : Stream α → Prop
  | .error code _ _ => Raisable code
  | _ => True

theorem Stream.RaisesOnly.bind {α β : Type} {x : Stream α} {f : α → Stream β} (hx : x.RaisesOnly)
    (hf : ∀ a, (f a).RaisesOnly) : (x.bind f).RaisesOnly := by
  cases x with
  | ok a => exact hf a
  | error code info n => exact hx
  | bus off n => trivial

theorem tableBit_raisesOnly (rd : Nat → Nat → Option Byte) (len pos : Nat) : (tableBit rd len pos).RaisesOnly := by
  unfold tableBit
  split
  · split <;> trivial
  · exact ⟨by decide, by decide⟩

theorem tableSymbol_raisesOnly (rd : Nat → Nat → Option Byte) (len n pos : Nat) (acc : Byte) :
    (tableSymbol rd len n pos acc).RaisesOnly := by
  induction n generalizing pos acc with
  | zero => trivial
  | succ n ih => exact (tableBit_raisesOnly rd len pos).bind fun b => ih _ _

theorem readNode_raisesOnly (rd : Nat → Nat → Option Byte) (len fuel : Nat) (isRoot : Bool) (count pos : Nat) :
    (readNode rd len fuel isRoot count pos).RaisesOnly := by
  induction fuel generalizing isRoot count pos with
  | zero => exact ⟨by decide, by decide⟩
  | succ fuel ih =>
    unfold readNode
    split
    · exact ⟨by decide, by decide⟩
    · refine (tableBit_raisesOnly rd len pos).bind fun m => ?_
      cases m with
      | true =>
        cases isRoot with
        | true => exact ⟨by decide, by decide⟩
        | false => exact (tableSymbol_raisesOnly rd len 8 _ _).bind fun _ => trivial
      | false => exact (ih _ _ _).bind fun l => (ih _ _ _).bind fun r => trivial

theorem readSlots_raisesOnly (rd : Nat → Nat → Option Byte) (len : Nat) (cs : List Nat) (pos : Nat)
    (acc : List (Nat × Tree)) : (readSlots rd len cs pos acc).RaisesOnly := by
  induction cs generalizing pos acc with
  | nil => trivial
  | cons c cs ih =>
    refine (tableBit_raisesOnly rd len pos).bind fun present => ?_
    cases present with
    | true => exact (readNode_raisesOnly rd len 512 true 0 _).bind fun t => ih _ _
    | false => exact ih _ _

theorem readTable_raisesOnly (rd : Nat → Nat → Option Byte) (len : Nat) : (readTable rd len).RaisesOnly := by
  refine (tableBit_raisesOnly rd len 0).bind fun d => ?_
  cases d with
  | true => exact readSlots_raisesOnly rd len _ _ _
  | false => exact (readNode_raisesOnly rd len 512 true 0 1).bind fun _ => trivial

theorem compressLoop_raisesOnly (rd : Nat → Nat → Option Byte) (s : State) (cap whole n i : Nat) (prev : Byte)
    (w : Writer) : (compressLoop rd s cap whole n i prev w).RaisesOnly := by
  induction n generalizing i prev w with
  | zero => trivial
  | succ n ih =>
    unfold compressLoop
    cases rd i i with
    | none => trivial
    | some sym =>
      cases contextTree s prev with
      | none => exact ⟨by decide, by decide⟩
      | some t =>
        cases he : encTable t sym with
        | none => simp only [he]; exact ⟨by decide, by decide⟩
        | some code =>
          simp only [he]
          split
          · exact ih _ _ _
          · exact ⟨by decide, by decide⟩

theorem descend_raisesOnly (rd : Nat → Nat → Option Byte) (n total info : Nat) (t : Tree) (cur : Nat) :
    (descend rd n total info t cur).RaisesOnly := by
  induction t generalizing cur with
  | leaf sym => trivial
  | node l r ihl ihr =>
    unfold descend
    split
    · exact ⟨by decide, by decide⟩
    · split
      · trivial
      · exact ihl _
      · exact ihr _

theorem decodeSymbol_raisesOnly (rd : Nat → Nat → Option Byte) (n total : Nat) (tree : Option Tree) (cur : Nat) :
    (decodeSymbol rd n total tree cur).RaisesOnly := by
  unfold decodeSymbol
  cases tree with
  | none => exact ⟨by decide, by decide⟩
  | some t =>
    cases dataWindow rd n cur with
    | none => trivial
    | some win =>
      cases hf : (lutEntry t win).tree with
      | leaf sym =>
        simp only [hf]
        split
        · exact ⟨by decide, by decide⟩
        · trivial
      | node l r =>
        simp only [hf]
        split
        · exact ⟨by decide, by decide⟩
        · exact descend_raisesOnly ..

theorem decompressLoop_raisesOnly (rd : Nat → Nat → Option Byte) (s : State) (n total whole room cur : Nat) (prev : Byte)
    (out : List Byte) : (decompressLoop rd s n total whole room cur prev out).RaisesOnly := by
  induction room generalizing cur prev out with
  | zero =>
    unfold decompressLoop
    split
    · trivial
    · have h := decodeSymbol_raisesOnly rd n total (contextTree s prev) cur
      split
      · trivial
      · rename_i he; rw [he] at h; exact h
      · exact ⟨by decide, by decide⟩
  | succ room ih =>
    unfold decompressLoop
    split
    · trivial
    · have h := decodeSymbol_raisesOnly rd n total (contextTree s prev) cur
      split
      · trivial
      · rename_i he; rw [he] at h; exact h
      · exact ih _ _ _

theorem headerCheck_raisable {h : Byte} {n : Nat} {type : BitVec 1} {e : ErrCode} (he : headerCheck h n type = .error e) :
    Raisable e := by
  simp only [headerCheck] at he
  split_ifs at he <;> cases he <;> decide

theorem codecCheck_raisable {s : State} {e : ErrCode} (he : codecCheck s = some e) : Raisable e := by
  simp only [codecCheck] at he
  split_ifs at he <;> cases he <;> decide

/-- COMPRESS and DECOMPRESS pass their checks in mode CLOSED only. -/
theorem mode_of_codecCheck {s : State} (h : codecCheck s = none) : s.bb.mode = .closed := by
  by_contra hm
  simp [codecCheck, hm] at h

end Sys2Proof.Machine
end

section
/-! SUPPORT. How an accepted command ends, said once: `exec i s` answers a state of `CommandResult s i`. -/

namespace Sys2Proof.Machine

/-! ## What the session's commands compute -/

/-- The commands that write to a session: the pushes, BB_FLUSH, and BB_CLOSE, which flushes. -/
def writesSession : Instr → Bool
  | .bbPushBit _ | .bbPushByte _ | .bbPushDesc | .bbFlush | .bbClose => true
  | _ => false

/-- The commands that push bits. -/
def pushesBits : Instr → Bool
  | .bbPushBit _ | .bbPushByte _ | .bbPushDesc => true
  | _ => false

/-- The commands that read from a session. -/
def readsSession : Instr → Bool
  | .bbPeekBit | .bbPopBit | .bbTryPopBit | .bbPopByte | .bbPopRest _ _ => true
  | _ => false

/-- The write stream of the session after a command that writes to it (R154). -/
def streamAfter (s : State) : Instr → Writer
  | .bbPushBit a => pushBit (a.getLsbD 0) (sessionWriter s)
  | .bbPushByte v => pushByte v (sessionWriter s)
  | .bbPushDesc => pushDesc s.cwLen.toNat (cwByte s) (sessionWriter s)
  | .bbFlush | .bbClose => flush (sessionWriter s)
  | _ => sessionWriter s

/-- The bits that a command appends to `WS` (R156 to R158, R155). -/
def appendedBits (s : State) : Instr → List Bool
  | .bbPushBit a => [a.getLsbD 0]
  | .bbPushByte v => byteBits v
  | .bbPushDesc => (List.range s.cwLen.toNat).map (cwBit s)
  | .bbFlush | .bbClose => List.replicate ((8 - s.bb.bitIdx.toNat) % 8) false
  | _ => []

/-- The bytes of the session not yet known to be in DST after the command's pushes: those staged and those it completes. -/
def pendingCells (s : State) (i : Instr) : List Host.Cell := s.bb.staged ++ emittedCells s (streamAfter s i).out

/-- A push is `pushCommand` of its bits. -/
theorem exec_push {i : Instr} (hi : pushesBits i = true) (s : State) :
    exec i s = pushCommand (appendedBits s i).length (streamAfter s i) (appendedBits s i) s := by
  cases i with
  | bbPushBit a | bbPushByte v => rfl
  | bbPushDesc => simp only [appendedBits, List.length_map, List.length_range]; rfl
  | _ => cases hi

theorem writesSession_of_pushesBits {i : Instr} (h : pushesBits i = true) : writesSession i = true := by
  cases i <;> cases h <;> rfl

/-- The session after a flush, in the mode `mode` (R155, R152): the stream padded, everything written out and final. -/
def flushedTo (mode : BbMode) (s : State) : State :=
  let w := flush (sessionWriter s)
  let pos := s.bb.bytePos + BitVec.ofNat 32 w.out.length
  { s with
    bb := { s.bb with
      mode := mode, bytePos := pos, bitIdx := BitVec.ofNat 3 w.idx, part := w.part
      ws := s.bb.ws ++ List.replicate ((8 - s.bb.bitIdx.toNat) % 8) false, staged := [], flushed := pos }
    memory := writeCells s (flushCells s)
    outLen := pos }

theorem flushedSession_eq_flushedTo (mode : BbMode) (s : State) :
    { flushedSession s with bb := { (flushedSession s).bb with mode := mode } } = flushedTo mode s := rfl

/-- What a refused access of a session command leaves (R409): the session, OUT_LEN and RESULT unspecified. -/
def sessionLost (s : State) : State :=
  { s with
    outLen := Config.freeWord s.env.freeCtr 1, result := Config.freeWord s.env.freeCtr 2, bb := unspecifiedSession s }

theorem failSessionBus_eq (a : Word) (s : State) : failSessionBus a s = fail .busError a (sessionLost s) := rfl

/-- Where the command writes to the session, its DST region too. -/
def writeSessionLost (s : State) : State :=
  { s with
    outLen := Config.freeWord s.env.freeCtr 1, result := Config.freeWord s.env.freeCtr 2, bb := unspecifiedSession s
    memory := scrambleRegion s s.bb.dstBase s.bb.dstCap }

theorem failWriteBus_eq (a : Word) (s : State) : failWriteBus a s = fail .busError a (writeSessionLost s) := rfl

/-- What SOFT_RESET leaves (R383). -/
def softResetState (s : State) : State :=
  { resetState { s with memory := abandonSession s } with
    doneIe := s.doneIe, errIe := s.errIe, wovr := s.wovr, cmd := s.cmd }

/-! ## The ways a command ends -/

/-- `CommandResult s i t`: the accepted command `i` may end with the state `t`. One constructor for each way, with the checks
that it has passed. -/
inductive CommandResult (s : State) : Instr → State → Prop where
  /-- Any command: a check fails and nothing else changes. -/
  | rejected (i : Instr) (code : ErrCode) (info : Word) (hc : Raisable code) :
      CommandResult s i (raiseError code info s)
  | nop : CommandResult s .nop (complete s)
  | softReset : CommandResult s .softReset (complete (softResetState s))
  | clearCounts : CommandResult s .clearCounts (complete { s with counts := [] })
  | counted (c : CountMatrix)
      (hc : countLoop (srcByte s s.latch.srcBase) s.latch.srcLen.toNat 0 Config.spaceSeed s.counts = .ok c) :
      CommandResult s .count (complete { s with counts := c, result := s.latch.srcLen })
  | countRefused (a : Word) :
      CommandResult s .count (raiseError .busError a { unspecifiedResults s with counts := unspecifiedCounts s })
  | builtPlain : CommandResult s .buildP (complete { s with kind := .plain, slots := plainSlots s.counts })
  | builtMarkov : CommandResult s .buildM (complete { s with kind := .markov, slots := markovSlots s.counts })
  | clearTable : CommandResult s .clearTable (complete { s with kind := .none, slots := [] })
  | deserialized (t : ReadTable) (ht : readTable (srcByte s s.latch.srcBase) s.latch.srcLen.toNat = .ok t) :
      CommandResult s .deserialize
        (complete { s with kind := t.kind, slots := t.slots, result := resultWord s t.pos })
  | deserializeFailed (code : ErrCode) (info : Word) (hc : Raisable code) :
      CommandResult s .deserialize (raiseError code info (withoutTable s))
  /-- SERIALIZE, COMPRESS, DECOMPRESS: the output is written. -/
  | output (i : Instr) (hi : writesDst i = true) (hm : s.bb.mode = .closed) (cells : List Host.Cell)
      (hc : ∀ c ∈ cells, c.1 < 2 ^ 32) (outLen result : Word) :
      CommandResult s i (complete { s with memory := writeCells s cells, outLen := outLen, result := result })
  /-- The same commands: a streaming error or a refused access. -/
  | outputFailed (i : Instr) (hi : writesDst i = true) (hm : s.bb.mode = .closed) (code : ErrCode) (info : Word)
      (hc : Raisable code) : CommandResult s i (raiseError code info (unspecifiedOutput s))
  | gotEncoding (prev sym len : Byte) (words : Vector Word 8) :
      CommandResult s (.getEncoding prev sym) (complete { s with cwLen := len, cwBits := words })
  | lookedUp (prev byte : Byte) (v : Word) : CommandResult s (.lookup prev byte) (complete { s with result := v })
  | openedWrite (hf : regionFits s.latch.dstBase s.latch.dstCap = true) :
      CommandResult s .bbOpenWrite (complete (openWrite s))
  | openedRead (hm : s.bb.mode = .closed) (hf : regionFits s.latch.srcBase s.latch.srcLen = true) :
      CommandResult s .bbOpenRead (complete (openRead s))
  | openReadRefused (hm : s.bb.mode = .closed) (hf : regionFits s.latch.srcBase s.latch.srcLen = true) (a : Word)
      (ha : a ∈ refusedReads s s.latch.srcBase s.latch.srcLen) :
      CommandResult s .bbOpenRead (raiseError .busError a (sessionLost (openRead s)))
  | closedRead (hm : s.bb.mode = .read) :
      CommandResult s .bbClose (complete { s with bb := { s.bb with mode := .closed } })
  | closedWrite (hm : s.bb.mode = .write) : CommandResult s .bbClose (complete (flushedTo .closed s))
  | flushed (hm : s.bb.mode = .write) : CommandResult s .bbFlush (complete (flushedTo .write s))
  /-- A push within the capacity: of the pending bytes, those that the staging area passes on are written. -/
  | pushed (i : Instr) (hi : pushesBits i = true) (hm : s.bb.mode = .write)
      (hf : pushFits s.bb.dstCap.toNat (bbPos s.bb) (appendedBits s i).length = true) (written left : List Host.Cell)
      (hst : written ++ left = pendingCells s i) :
      CommandResult s i
        (complete (sessionMoved s (streamAfter s i) (appendedBits s i) left (writeCells s written)))
  | writeRefused (i : Instr) (hi : writesSession i = true) (hm : s.bb.mode = .write) (a : Word)
      (ha : a ∈ refusedCells s (pendingCells s i)) :
      CommandResult s i (raiseError .busError a (writeSessionLost s))
  /-- A read of `n` bits of the stream. -/
  | read (i : Instr) (hi : readsSession i = true) (hm : s.bb.mode = .read) (v : Word) (n : Nat)
      (hn : n = 0 ∨ bbPos s.bb + n ≤ 8 * s.bb.srcLen.toNat) :
      CommandResult s i (complete { s with result := v, bb := setPos (bbPos s.bb + n) s.bb })
  | readRefused (i : Instr) (hi : readsSession i = true) (hm : s.bb.mode = .read) (a : Word)
      (ha : a ∈ refusedReads s s.bb.srcBase s.bb.srcLen) : CommandResult s i (raiseError .busError a (sessionLost s))

/-! ## Each command ends in one of them -/

variable {s t : State}

theorem CommandResult.of_fail {i : Instr} {code : ErrCode} {info : Word} (hc : Raisable code)
    (h : fail code info s = .next t) : CommandResult s i t :=
  fail_next.1 h ▸ .rejected i code info hc

theorem execCount_result (h : exec .count s = .next t) : CommandResult s .count t := by
  simp only [exec, execCount] at h
  split_ifs at h
  · exact .of_fail (by decide) h
  · split at h
    · exact fail_next.1 h ▸ .countRefused _
    · split at h
      · exact fail_next.1 h ▸ .countRefused _
      · rename_i c hc
        exact finish_next.1 h ▸ .counted c hc

theorem execDeserialize_result (h : exec .deserialize s = .next t) : CommandResult s .deserialize t := by
  simp only [exec, execDeserialize] at h
  split_ifs at h
  · exact .of_fail (by decide) h
  · exact .of_fail (by decide) h
  · split at h
    · exact fail_next.1 h ▸ .deserializeFailed _ _ (by decide)
    · split at h
      · exact fail_next.1 h ▸ .deserializeFailed _ _ (by decide)
      · rename_i he
        have hc := readTable_raisesOnly (srcByte s s.latch.srcBase) s.latch.srcLen.toNat
        rw [he] at hc
        exact fail_next.1 h ▸ .deserializeFailed _ _ hc
      · rename_i r hr
        exact finish_next.1 h ▸ .deserialized r hr

/-- A command that ends in its output, written or refused. -/
theorem CommandResult.of_finishOutput {i : Instr} (hi : writesDst i = true) (hm : s.bb.mode = .closed)
    {cells : List Host.Cell} (hc : ∀ c ∈ cells, c.1 < 2 ^ 32) {outLen result : Word}
    (h : finishOutput cells outLen result s = .next t) : CommandResult s i t := by
  rcases finishOutput_cases cells outLen result s with ⟨-, he⟩ | ⟨a, -, he⟩ <;> rw [he] at h
  · exact finish_next.1 h ▸ .output i hi hm cells hc outLen result
  · exact fail_next.1 h ▸ .outputFailed i hi hm _ _ (by decide)

/-- A command that ends in a streaming error, or in a refused write before it. -/
theorem CommandResult.of_failOutput {i : Instr} (hi : writesDst i = true) (hm : s.bb.mode = .closed) {code : ErrCode}
    (hc : Raisable code) {info : Word} {written : Nat} (h : failOutput code info written s = .next t) :
    CommandResult s i t := by
  rcases failOutput_cases code info written s with he | ⟨a, -, he⟩ <;> rw [he] at h
  · exact fail_next.1 h ▸ .outputFailed i hi hm _ _ hc
  · exact fail_next.1 h ▸ .outputFailed i hi hm _ _ (by decide)

theorem execSerialize_result (h : exec .serialize s = .next t) : CommandResult s .serialize t := by
  simp only [exec, execSerialize] at h
  by_cases hm : s.bb.mode = .closed
  · simp only [hm, ne_eq, not_true_eq_false, if_false] at h
    split_ifs at h
    · exact .of_fail (by decide) h
    · exact .of_fail (by decide) h
    · exact .of_fail (by decide) h
    · split at h
      · exact .of_failOutput rfl hm (by decide) h
      · exact .of_finishOutput rfl hm cellsFrom_lt h
  · rw [if_pos hm] at h
    exact .of_fail (by decide) h

theorem compressCells_lt (s : State) (w : Writer) : ∀ c ∈ compressCells s w, c.1 < 2 ^ 32 := by
  intro c hc
  simp only [compressCells, List.cons_append, List.mem_cons, List.mem_append, List.not_mem_nil, or_false] at hc
  rcases hc with rfl | hc | rfl
  · exact BitVec.isLt _
  · exact cellsFrom_lt c hc
  · exact BitVec.isLt _

theorem execCompress_result (h : exec .compress s = .next t) : CommandResult s .compress t := by
  simp only [exec, execCompress] at h
  split at h
  · rename_i e he
    exact .of_fail (codecCheck_raisable he) h
  · rename_i he
    have hm := mode_of_codecCheck he
    split_ifs at h
    · exact .of_fail (by decide) h
    · split at h
      · exact fail_next.1 h ▸ .outputFailed _ rfl hm _ _ (by decide)
      · have hc := compressLoop_raisesOnly (srcByte s s.latch.srcBase) s (s.latch.dstCap.toNat - 1) s.latch.dstCap.toNat
          s.latch.srcLen.toNat 0 Config.spaceSeed .start
        split at h
        · exact .of_failOutput rfl hm (by decide) h
        · rename_i he; rw [he] at hc
          exact .of_failOutput rfl hm hc h
        · exact .of_finishOutput rfl hm (compressCells_lt s _) h

theorem execDecompress_result (h : exec .decompress s = .next t) : CommandResult s .decompress t := by
  simp only [exec, execDecompress] at h
  split at h
  · rename_i e he
    exact .of_fail (codecCheck_raisable he) h
  · rename_i he
    have hm := mode_of_codecCheck he
    split_ifs at h
    · exact .of_fail (by decide) h
    · split at h
      · exact fail_next.1 h ▸ .outputFailed _ rfl hm _ _ (by decide)
      · split at h
        · exact fail_next.1 h ▸ .outputFailed _ rfl hm _ _ (by decide)
        · split at h
          · rename_i e he
            exact .of_fail (headerCheck_raisable he) h
          · rename_i total htotal
            have hc := decompressLoop_raisesOnly (srcByte s s.latch.srcBase) s s.latch.srcLen.toNat total
              s.latch.dstCap.toNat s.latch.dstCap.toNat 0 Config.spaceSeed []
            split at h
            · exact .of_failOutput rfl hm (by decide) h
            · rename_i he; rw [he] at hc
              exact .of_failOutput rfl hm hc h
            · exact .of_finishOutput rfl hm cellsFrom_lt h

theorem execGetEncoding_result {prev sym : Byte} (h : exec (.getEncoding prev sym) s = .next t) :
    CommandResult s (.getEncoding prev sym) t := by
  simp only [exec, execGetEncoding] at h
  rcases queriedTree_cases s prev with ⟨-, hq⟩ | ⟨-, -, hq⟩ | ⟨tr, -, -, hq⟩ <;> simp only [hq] at h
  · exact .of_fail (by decide) h
  · exact .of_fail (by decide) h
  · split at h
    · exact .of_fail (by decide) h
    · exact finish_next.1 h ▸ .gotEncoding prev sym _ _

theorem execLookup_result {prev byte : Byte} (h : exec (.lookup prev byte) s = .next t) :
    CommandResult s (.lookup prev byte) t := by
  simp only [exec, execLookup] at h
  rcases queriedTree_cases s prev with ⟨-, hq⟩ | ⟨-, -, hq⟩ | ⟨tr, -, -, hq⟩ <;> simp only [hq] at h
  · exact .of_fail (by decide) h
  · exact .of_fail (by decide) h
  · exact finish_next.1 h ▸ .lookedUp prev byte _

theorem execBbOpenWrite_result (h : exec .bbOpenWrite s = .next t) : CommandResult s .bbOpenWrite t := by
  simp only [exec, execBbOpenWrite] at h
  split_ifs at h with hm hf
  · exact .of_fail (by decide) h
  · exact .of_fail (by decide) h
  · exact finish_next.1 h ▸ .openedWrite (by simpa using hf)

theorem execBbOpenRead_result (h : exec .bbOpenRead s = .next t) : CommandResult s .bbOpenRead t := by
  simp only [exec, execBbOpenRead] at h
  split_ifs at h with hm hf
  · exact .of_fail (by decide) h
  · exact .of_fail (by decide) h
  · have hm : s.bb.mode = .closed := not_not.1 hm
    have hf : regionFits s.latch.srcBase s.latch.srcLen = true := by simpa using hf
    split at h
    · rename_i a ha
      rw [failSessionBus_eq] at h
      exact fail_next.1 h ▸ .openReadRefused hm hf a (earlyRefusal_mem ha)
    · exact finish_next.1 h ▸ .openedRead hm hf

theorem execBbFlush_result (h : exec .bbFlush s = .next t) : CommandResult s .bbFlush t := by
  simp only [exec, execBbFlush] at h
  split_ifs at h with hm
  · exact .of_fail (by decide) h
  · have hm : s.bb.mode = .write := not_not.1 hm
    rcases takeFlush_cases .write s with ⟨a, ha, he⟩ | ⟨-, he⟩ <;> rw [he] at h
    · rw [failWriteBus_eq] at h
      exact fail_next.1 h ▸ .writeRefused _ rfl hm a ha
    · rw [flushedSession_eq_flushedTo] at h
      exact finish_next.1 h ▸ .flushed hm

theorem execBbClose_result (h : exec .bbClose s = .next t) : CommandResult s .bbClose t := by
  simp only [exec, execBbClose] at h
  cases hm : s.bb.mode <;> simp only [hm] at h
  case closed => exact .of_fail (by decide) h
  case read => exact finish_next.1 h ▸ .closedRead hm
  case write =>
    rcases takeFlush_cases .closed s with ⟨a, ha, he⟩ | ⟨-, he⟩ <;> rw [he] at h
    · rw [failWriteBus_eq] at h
      exact fail_next.1 h ▸ .writeRefused _ rfl hm a ha
    · rw [flushedSession_eq_flushedTo] at h
      exact finish_next.1 h ▸ .closedWrite hm

theorem push_result {i : Instr} (hi : pushesBits i = true) (h : exec i s = .next t) : CommandResult s i t := by
  rw [exec_push hi] at h
  rcases pushCommand_cases (appendedBits s i).length (streamAfter s i) (appendedBits s i) s with
    ⟨-, he⟩ | ⟨-, -, he⟩ | ⟨hm, hf, he⟩ <;> rw [he] at h
  · exact .of_fail (by decide) h
  · exact .of_fail (by decide) h
  · rcases takePush_cases (streamAfter s i) (appendedBits s i) s with ⟨a, ha, he⟩ | ⟨-, he⟩ <;> rw [he] at h
    · rw [failWriteBus_eq] at h
      exact fail_next.1 h ▸ .writeRefused i (writesSession_of_pushesBits hi) hm a ha
    · exact finish_next.1 h ▸ .pushed i hi hm hf _ _ (stage_append ..)

/-! Where a session read meets no value, the byte it needs is refused. -/

theorem mem_refusedReads {base len : Word} {a : Word} :
    a ∈ refusedReads s base len ↔ refusesRead s a = true ∧ ∃ off < len.toNat, regionAddr base off = a := by
  simp only [refusedReads, List.mem_filter, List.mem_map, List.mem_range]
  exact And.comm

theorem sessionByte_eq_none {k off : Nat} :
    sessionByte s k off = none ↔ refusesRead s (regionAddr s.bb.srcBase off) = true := by
  simp [sessionByte, regionByte]

theorem sessionBit_eq_none {j : Nat} :
    sessionBit s j = none ↔ refusesRead s (regionAddr s.bb.srcBase (j / 8)) = true := by
  simp [sessionBit, sessionByte_eq_none]

/-- Of two bytes one of which is refused, `refusedOffset` names one that is. -/
theorem refusedOffset_mem {i j : Nat} (hij : j = i ∨ j = i + 1) (hj : j < s.bb.srcLen.toNat)
    (hr : refusesRead s (regionAddr s.bb.srcBase j) = true) :
    regionAddr s.bb.srcBase (refusedOffset s i) ∈ refusedReads s s.bb.srcBase s.bb.srcLen := by
  unfold refusedOffset
  simp only [Option.isNone_iff_eq_none, sessionByte_eq_none]
  by_cases h : refusesRead s (regionAddr s.bb.srcBase i) = true
  · rw [if_pos h]
    exact mem_refusedReads.2 ⟨h, i, by omega, rfl⟩
  · rw [if_neg h]
    rcases hij with rfl | rfl
    · exact absurd hr h
    · exact mem_refusedReads.2 ⟨hr, _, hj, rfl⟩

theorem poppedByte_none {i b : Nat} (h : poppedByte s i b = none) (hlen : 8 * i + b + 8 ≤ 8 * s.bb.srcLen.toNat) :
    regionAddr s.bb.srcBase (refusedOffset s i) ∈ refusedReads s s.bb.srcBase s.bb.srcLen := by
  unfold poppedByte at h
  split_ifs at h with hb
  · exact refusedOffset_mem (.inl rfl) (by omega) (sessionByte_eq_none.1 h)
  · cases hhi : sessionByte s (8 * i) i with
    | none => exact refusedOffset_mem (.inl rfl) (by omega) (sessionByte_eq_none.1 hhi)
    | some hi =>
      cases hlo : sessionByte s (8 * i) (i + 1) with
      | none => exact refusedOffset_mem (.inr rfl) (by omega) (sessionByte_eq_none.1 hlo)
      | some lo => simp [hhi, hlo] at h

/-- Bits that cannot all be read: one of them cannot. -/
theorem readBits_none {bit : Nat → Option Bool} {c n : Nat} (h : readBits bit c n = none) :
    ∃ j, c ≤ j ∧ j < c + n ∧ bit j = none := by
  induction n generalizing c with
  | zero => cases h
  | succ n ih =>
    cases hb : bit c with
    | none => exact ⟨c, by omega, by omega, hb⟩
    | some b =>
      cases hr : readBits bit (c + 1) n with
      | none =>
        obtain ⟨j, hj, hj', hn⟩ := ih hr
        exact ⟨j, by omega, by omega, hn⟩
      | some bs => simp [readBits, hb, hr] at h

/-- A read command past its checks. -/
theorem CommandResult.of_takeRead {i : Instr} (hi : readsSession i = true) (hm : s.bb.mode = .read) {value : Option Word}
    {n off : Nat} (hn : n = 0 ∨ bbPos s.bb + n ≤ 8 * s.bb.srcLen.toNat)
    (hv : value = none → regionAddr s.bb.srcBase off ∈ refusedReads s s.bb.srcBase s.bb.srcLen)
    (h : takeRead value n off s = .next t) : CommandResult s i t := by
  rcases takeRead_cases value n off s with ⟨a, ha, he⟩ | ⟨hnone, he⟩ | ⟨v, -, he⟩ <;> rw [he] at h
  · rw [failSessionBus_eq] at h
    exact fail_next.1 h ▸ .readRefused i hi hm a ha
  · rw [failSessionBus_eq] at h
    exact fail_next.1 h ▸ .readRefused i hi hm _ (hv hnone)
  · exact finish_next.1 h ▸ .read i hi hm v n hn

/-- A read of the bit at the cursor, before the end of the stream. -/
theorem CommandResult.of_bitRead {i : Instr} (hi : readsSession i = true) (hm : s.bb.mode = .read) (he : ¬ atEnd s = true)
    {n : Nat} (hn : n ≤ 1) (h : takeRead ((sessionBit s (bbPos s.bb)).map bitWord) n (bbPos s.bb / 8) s = .next t) :
    CommandResult s i t := by
  have hpos : bbPos s.bb < 8 * s.bb.srcLen.toNat := by simpa [atEnd] using he
  refine .of_takeRead hi hm (.inr (by omega)) (fun hnone => ?_) h
  exact mem_refusedReads.2 ⟨sessionBit_eq_none.1 (Option.map_eq_none_iff.1 hnone), _, by omega, rfl⟩

theorem execBbPeekBit_result (h : exec .bbPeekBit s = .next t) : CommandResult s .bbPeekBit t := by
  simp only [exec, execBbPeekBit] at h
  split_ifs at h with hm he
  · exact .of_fail (by decide) h
  · exact .of_fail (by decide) h
  · exact .of_bitRead rfl (not_not.1 hm) he (by decide) h

theorem execBbPopBit_result (h : exec .bbPopBit s = .next t) : CommandResult s .bbPopBit t := by
  simp only [exec, execBbPopBit] at h
  split_ifs at h with hm he
  · exact .of_fail (by decide) h
  · exact .of_fail (by decide) h
  · exact .of_bitRead rfl (not_not.1 hm) he (by decide) h

theorem execBbTryPopBit_result (h : exec .bbTryPopBit s = .next t) : CommandResult s .bbTryPopBit t := by
  simp only [exec, execBbTryPopBit] at h
  split_ifs at h with hm he
  · exact .of_fail (by decide) h
  · exact .of_takeRead (value := some 0x00000100#32) rfl (not_not.1 hm) (.inl rfl) nofun h
  · exact .of_bitRead rfl (not_not.1 hm) he (by decide) h

theorem execBbPopByte_result (h : exec .bbPopByte s = .next t) : CommandResult s .bbPopByte t := by
  simp only [exec, execBbPopByte] at h
  split_ifs at h with hm he
  · exact .of_fail (by decide) h
  · exact .of_fail (by decide) h
  · refine .of_takeRead rfl (not_not.1 hm) (.inr (by omega)) (fun hnone => ?_) h
    exact poppedByte_none (Option.map_eq_none_iff.1 hnone) (by simpa [bbPos] using he)

theorem execBbPopRest_result {part : Byte} {k : BitVec 4} (h : exec (.bbPopRest part k) s = .next t) :
    CommandResult s (.bbPopRest part k) t := by
  simp only [exec, execBbPopRest] at h
  split_ifs at h with hm hk
  · exact .of_fail (by decide) h
  · exact .of_fail (by decide) h
  · have hn : restCount s k.toNat ≤ 8 ∧ restCount s k.toNat ≤ 8 * s.bb.srcLen.toNat - bbPos s.bb := by
      unfold restCount; omega
    refine .of_takeRead rfl (not_not.1 hm) (by omega) (fun hnone => ?_) h
    obtain ⟨j, hj, hj', hbit⟩ := readBits_none (Option.map_eq_none_iff.1 hnone)
    exact refusedOffset_mem (j := j / 8) (by omega) (by omega) (sessionBit_eq_none.1 hbit)

/-- An accepted command that ends, ends in one of the ways of `CommandResult`. -/
theorem exec_result {i : Instr} (h : exec i s = .next t) : CommandResult s i t := by
  cases i with
  | nop => exact finish_next.1 h ▸ .nop
  | softReset => exact finish_next.1 h ▸ .softReset
  | clearCounts => exact finish_next.1 h ▸ .clearCounts
  | count => exact execCount_result h
  | buildP => exact finish_next.1 h ▸ .builtPlain
  | buildM => exact finish_next.1 h ▸ .builtMarkov
  | clearTable => exact finish_next.1 h ▸ .clearTable
  | serialize => exact execSerialize_result h
  | deserialize => exact execDeserialize_result h
  | compress => exact execCompress_result h
  | decompress => exact execDecompress_result h
  | getEncoding prev sym => exact execGetEncoding_result h
  | lookup prev byte => exact execLookup_result h
  | bbOpenWrite => exact execBbOpenWrite_result h
  | bbOpenRead => exact execBbOpenRead_result h
  | bbClose => exact execBbClose_result h
  | bbFlush => exact execBbFlush_result h
  | bbPushBit a => exact push_result rfl h
  | bbPushByte v => exact push_result rfl h
  | bbPushDesc => exact push_result rfl h
  | bbPeekBit => exact execBbPeekBit_result h
  | bbPopBit => exact execBbPopBit_result h
  | bbTryPopBit => exact execBbTryPopBit_result h
  | bbPopByte => exact execBbPopByte_result h
  | bbPopRest part k => exact execBbPopRest_result h

end Sys2Proof.Machine
end

section
/-! SUPPORT. What every command leaves alone: the frame of `CommandResult`, field by field, and the statement about it. -/

namespace Sys2Proof.Machine

variable {s t : State} {i : Instr}

theorem usesSession_of_writesSession (h : writesSession i = true) : usesSession i = true := by
  cases i <;> cases h <;> rfl

theorem usesSession_of_readsSession (h : readsSession i = true) : usesSession i = true := by
  cases i <;> cases h <;> rfl

theorem writesResult_of_readsSession (h : readsSession i = true) : writesResult i = true := by
  cases i <;> cases h <;> rfl

theorem writesResult_of_writesDst (h : writesDst i = true) : writesResult i = true ∧ writesOutLen i = true := by
  cases i <;> cases h <;> exact ⟨rfl, rfl⟩

namespace CommandResult

/-- No command writes CTRL, WOVR or CMD, or the outside events, the host's data or the parameters (R37, R42, R47). -/
theorem keeps_control (h : CommandResult s i t) :
    t.doneIe = s.doneIe ∧ t.errIe = s.errIe ∧ t.wovr = s.wovr ∧ t.cmd = s.cmd ∧ KeepsEnv s.env t.env := by
  cases h <;> simp [KeepsEnv, softResetState, resetState, sessionLost, writeSessionLost, flushedTo, openWrite]

/-- Only SOFT_RESET writes the region registers, their latched copies and COUNT_IDX (R48, R49, R54). -/
theorem keeps_regions (h : CommandResult s i t) (hi : i ≠ .softReset) :
    t.srcAddr = s.srcAddr ∧ t.srcLen = s.srcLen ∧ t.dstAddr = s.dstAddr ∧ t.dstCap = s.dstCap
      ∧ t.latch = s.latch ∧ t.countCtx = s.countCtx ∧ t.countSym = s.countSym := by
  cases h with
  | softReset => exact absurd rfl hi
  | _ => simp [sessionLost, writeSessionLost, flushedTo, openWrite]

/-- Which commands write the count matrix (R60). -/
theorem keeps_counts (h : CommandResult s i t) (hi : i ∉ [.softReset, .clearCounts, .count]) : t.counts = s.counts := by
  cases h with
  | softReset | clearCounts | counted | countRefused => exact absurd (by decide) hi
  | _ => rfl

/-- Which commands write the table store (R44, R61). -/
theorem keeps_tables (h : CommandResult s i t) (hi : i ∉ [.softReset, .buildP, .buildM, .clearTable, .deserialize]) :
    t.kind = s.kind ∧ t.slots = s.slots := by
  cases h with
  | softReset | builtPlain | builtMarkov | clearTable | deserialized | deserializeFailed => exact absurd (by decide) hi
  | _ => simp [sessionLost, writeSessionLost, flushedTo, openWrite]

/-- Only GET_ENCODING writes the descriptor registers (R56). -/
theorem keeps_descriptor (h : CommandResult s i t) (hi : i ≠ .softReset) (hd : writesDescriptor i = false) :
    t.cwLen = s.cwLen ∧ t.cwBits = s.cwBits := by
  cases h with
  | softReset => exact absurd rfl hi
  | gotEncoding => cases hd
  | _ => simp [sessionLost, writeSessionLost, flushedTo, openWrite]

/-- Only the bit-buffer commands change the session (R43, R149). -/
theorem keeps_session (h : CommandResult s i t) (hi : i ≠ .softReset) (hu : usesSession i = false) : t.bb = s.bb := by
  cases h with
  | softReset => exact absurd rfl hi
  | openedWrite | openedRead | openReadRefused | closedRead | closedWrite | flushed => cases hu
  | pushed _ hp =>
    rw [usesSession_of_writesSession (writesSession_of_pushesBits hp)] at hu
    cases hu
  | writeRefused _ hw => rw [usesSession_of_writesSession hw] at hu; cases hu
  | read _ hr | readRefused _ hr => rw [usesSession_of_readsSession hr] at hu; cases hu
  | _ => rfl

/-- Where no error ends it, a command leaves RESULT alone unless it delivers one (R51). -/
theorem keeps_result (h : CommandResult s i t) (hi : i ≠ .softReset) (he : t.err = false) (hw : writesResult i = false) :
    t.result = s.result := by
  cases h with
  | softReset => exact absurd rfl hi
  | counted | deserialized | lookedUp => cases hw
  | countRefused | deserializeFailed | outputFailed | openReadRefused | writeRefused | readRefused => cases he
  | output _ hd => rw [(writesResult_of_writesDst hd).1] at hw; cases hw
  | read _ hr => rw [writesResult_of_readsSession hr] at hw; cases hw
  | _ => rfl

/-- Where no error ends it, a command leaves OUT_LEN alone unless it writes or flushes (R50). -/
theorem keeps_outLen (h : CommandResult s i t) (hi : i ≠ .softReset) (he : t.err = false) (hw : writesOutLen i = false) :
    t.outLen = s.outLen := by
  cases h with
  | softReset => exact absurd rfl hi
  | closedWrite | flushed => cases hw
  | countRefused | deserializeFailed | outputFailed | openReadRefused | writeRefused | readRefused => cases he
  | output _ hd => rw [(writesResult_of_writesDst hd).2] at hw; cases hw
  | _ => rfl

end CommandResult

/-- Settles O54: the frames of `CommandResult`. -/
theorem commandFrames : Obligations.CommandFrames := by
  intro i s t h
  have hr := exec_result h
  obtain ⟨hd, he, hw, hc, henv⟩ := hr.keeps_control
  exact ⟨hd, he, hw, hc, henv, hr.keeps_regions, hr.keeps_counts, hr.keeps_tables, hr.keeps_descriptor,
    hr.keeps_session, fun hi _ herr => ⟨hr.keeps_result hi herr, hr.keeps_outLen hi herr⟩⟩

end Sys2Proof.Machine
end

section
/-! SUPPORT. What one step can do: one relation with a constructor for each way, and that every step answers one of them; and
what a step keeps of the status bits. -/

namespace Sys2Proof.Machine

/-- `EventResult s t`: an event, or an engine turn, may take the state `s` to `t`. -/
inductive EventResult (s : State) : State → Prop where
  /-- Nothing to do, or an ignored or foreign access. -/
  | unchanged : EventResult s s
  /-- A host read: the data it returns, and the counter of the free values. -/
  | delivered (v : Word) (c : Nat) : EventResult s { s with env := { s.env with hostData := v, freeCtr := c } }
  /-- A host write discarded because BUSY is 1 (R58). -/
  | discarded : EventResult s { s with wovr := true }
  /-- A host write of a register. -/
  | written (r : HostReg) (v : Word) (hs : s.seq = .idle ∨ discardedWhileBusy r = false) :
      EventResult s (regWrite v s r)
  /-- A host write of a byte of memory in no DST region in use. -/
  | memoryWritten (a : Word) (v : Byte) (races sessionRaces : List Host.Cell) (hd : dstInUse s a.toNat = false) :
      EventResult s
        { s with
          memory := Sparse.set a.toNat v s.memory, env := { s.env with races := races, sessionRaces := sessionRaces } }
  /-- A host write of a byte of a DST region in use: the byte is unspecified and marked as raced (R97). -/
  | memoryRaced (a : Word) (x : Byte) (races sessionRaces : List Host.Cell) (c : Nat) :
      EventResult s
        { s with
          memory := Sparse.set a.toNat x s.memory
          env := { s.env with
            races := races, sessionRaces := sessionRaces, freeCtr := c, dstRaced := a.toNat :: s.env.dstRaced } }
  | resetAsserted : EventResult s (assertReset s)
  | resetReleased : EventResult s { resetState s with seq := .initialising }
  | initialised : EventResult s (finishInitialisation s)
  /-- The accepted command runs. -/
  | ran (i : Instr) (t : State) (hs : s.seq = .running) (hr : CommandResult s i t) : EventResult s t
  /-- The accepted word is illegal. -/
  | illegal (hs : s.seq = .running) : EventResult s (raiseError .illegalCmd 0#32 s)

variable {s t : State}

/-! ## Every event is one of them -/

theorem readReg_result (r : HostReg) (s : State) : EventResult s (readReg r s) := by
  unfold readReg
  split_ifs
  · exact .delivered _ _
  · exact .delivered _ _
  · exact .delivered _ s.env.freeCtr

theorem writeReg_result (r : HostReg) (v : Word) (s : State) : EventResult s (writeReg r v s) := by
  unfold writeReg
  split_ifs with hreset hb
  · exact .unchanged
  · exact .discarded
  · refine .written r v ?_
    cases hd : discardedWhileBusy r
    · exact .inr rfl
    · exact .inl (by simpa [hd, State.busy] using hb)

/-- An access to the register block does what `act` does to a register, or nothing. -/
theorem hostAccess_result {addr : Word} {width : AccessWidth} {act : HostReg → State → State}
    (hact : ∀ r, EventResult s (act r s)) (h : hostAccess addr width act s = .next t) : EventResult s t := by
  rcases hostAccess_cases addr width act s with ⟨-, he⟩ | ⟨-, -, he⟩ | ⟨-, -, -, he⟩ <;> rw [he] at h <;> cases h
  · exact .unchanged
  · exact hact _

theorem hostMemRead_result {a : Word} (h : hostMemRead a s = .next t) : EventResult s t := by
  unfold hostMemRead at h
  split_ifs at h <;> cases h
  · exact .delivered _ _
  · exact .delivered _ s.env.freeCtr

theorem hostMemWrite_result {a : Word} {v : Byte} (h : hostMemWrite a v s = .next t) : EventResult s t := by
  simp only [hostMemWrite] at h
  split_ifs at h with hord hd <;> cases h
  · exact .memoryRaced a _ _ _ _
  · exact .memoryWritten a v _ _ (by simpa using hd)

theorem engineTurn_result (h : engineTurn s = .next t) : EventResult s t := by
  unfold engineTurn at h
  cases hs : s.seq <;> simp only [hs] at h
  case idle => cases h; exact .unchanged
  case inReset => cases h; exact .unchanged
  case initialising => cases h; exact .initialised
  case running =>
    unfold runCommand at h
    split at h
    · exact .ran _ t hs (exec_result h)
    · exact fail_next.1 h ▸ .illegal hs

theorem releaseReset_result (s : State) : EventResult s (releaseReset s) := by
  unfold releaseReset
  split_ifs
  · exact .resetReleased
  · exact .unchanged

theorem takeEvent_result {e : Event} (h : takeEvent e s = .next t) : EventResult s t := by
  cases e with
  | engine => exact engineTurn_result h
  | read addr width => exact hostAccess_result (fun r => readReg_result r s) h
  | write addr width v => exact hostAccess_result (fun r => writeReg_result r v s) h
  | memRead a => exact hostMemRead_result h
  | memWrite a v => exact hostMemWrite_result h
  | resetOn => cases h; exact .resetAsserted
  | resetOff => cases h; exact releaseReset_result s

/-- A step takes the next event off the list, or, with none left, is an engine turn. -/
theorem step_result (h : step s = .next t) : ∃ es, EventResult (withInputs es s) t := by
  unfold step at h
  split at h
  · rename_i hin
    have hs : withInputs [] s = s := by rw [withInputs, ← hin]
    exact ⟨[], hs.symm ▸ engineTurn_result h⟩
  · exact ⟨_, takeEvent_result h⟩

/-! ## The status bits (R40, R41, R45) -/

theorem statusOk_complete (he : s.err = false) (hc : s.errCode = .noError) (hi : s.errInfo = 0#32) :
    StatusOk (complete s) := by
  simp [StatusOk, he, hc, hi]

theorem statusOk_raiseError {code : ErrCode} {info : Word} (hd : s.done = false) (hc : Raisable code) :
    StatusOk (raiseError code info s) := by
  simp [StatusOk, hd, hc.1, hc.2]

/-- A command that was running ends with DONE, or with ERR and its code. -/
theorem CommandResult.statusOk {i : Instr} (h : CommandResult s i t) (hd : s.done = false) (he : s.err = false)
    (hc : s.errCode = .noError) (hi : s.errInfo = 0#32) : StatusOk t := by
  cases h with
  | rejected _ _ _ hcode | deserializeFailed _ _ hcode | outputFailed _ _ _ _ _ hcode => exact statusOk_raiseError hd hcode
  | countRefused | openReadRefused | writeRefused | readRefused => exact statusOk_raiseError hd (by decide)
  | softReset => exact statusOk_complete rfl rfl rfl
  | _ => exact statusOk_complete he hc hi

/-- A write to STATUS clears bits, and the error's code and information with ERR. -/
theorem statusOk_writeStatus (h : StatusOk s) (v : Word) : StatusOk (writeStatus v s) := by
  obtain ⟨hde, hclear, herr, hinv, hseq⟩ := h
  simp only [StatusOk, writeStatus]
  cases v.getLsbD 2 <;> simp_all

theorem statusOk_regWrite (h : StatusOk s) (r : HostReg) (v : Word) : StatusOk (regWrite v s r) := by
  cases r with
  | status => exact statusOk_writeStatus h v
  | cmd =>
    simp only [regWrite]
    rcases acceptCommand_cases v s with ⟨i, -, ha⟩ | ⟨why, -, ha⟩ <;> rw [ha]
    · simp [StatusOk]
    · exact statusOk_raiseError rfl (by decide)
  | _ => exact h

/-- A state whose registers have their reset values. -/
theorem statusOk_of_reset (hd : s.done = false) (he : s.err = false) (hc : s.errCode = .noError) (hi : s.errInfo = 0#32) :
    StatusOk s := by
  simp [StatusOk, hd, he, hc, hi]

theorem EventResult.statusOk (h : EventResult s t) (hs : StatusOk s) : StatusOk t := by
  cases h with
  | written r v => exact statusOk_regWrite hs r v
  | resetAsserted | resetReleased | initialised => exact statusOk_of_reset rfl rfl rfl rfl
  | ran i _ hrun hr =>
    obtain ⟨-, hclear, -, -, hseq⟩ := hs
    obtain ⟨hd, he⟩ := hseq (by simp [hrun])
    exact hr.statusOk hd he (hclear he).1 (hclear he).2
  | illegal hrun =>
    obtain ⟨-, -, -, -, hseq⟩ := hs
    exact statusOk_raiseError (hseq (by simp [hrun])).1 (by decide)
  | _ => exact hs

/-- Settles O60: by the ways a step can go. -/
theorem stepKeepsStatus : Obligations.StepKeepsStatus := by
  intro s t hs h
  obtain ⟨es, hr⟩ := step_result h
  exact hr.statusOk hs

end Sys2Proof.Machine
end

section
/-! SUPPORT. The trees that enter the table store (10_state.md R62): those of the builder and those of a table file have an
internal root and at most 511 nodes. -/

namespace Sys2Proof.Machine

/-! ## The builder (41_tree_builder.md) -/

/-- `pop_min` takes one node out of the queue. -/
theorem popMin_perm (m : QNode) (qs : List QNode) : ((popMin m qs).1 :: (popMin m qs).2).Perm (m :: qs) := by
  induction qs generalizing m with
  | nil => exact .refl _
  | cons x xs ih =>
    unfold popMin
    split
    · exact (List.Perm.swap ..).trans ((ih x).cons m)
    · exact (List.Perm.swap ..).trans (((ih m).cons x).trans (List.Perm.swap ..))

/-- What a merge keeps of a queue: the sum over its trees of one more than their nodes. -/
def queueSize (qs : List QNode) : Nat := (qs.map fun q => treeNodes q.tree + 1).sum

theorem queueSize_cons (q : QNode) (qs : List QNode) : queueSize (q :: qs) = treeNodes q.tree + 1 + queueSize qs := rfl

theorem queueSize_perm {qs qs' : List QNode} (h : qs.Perm qs') : queueSize qs = queueSize qs' := (h.map _).sum_eq

theorem treeNodes_mergeNodes (k : Nat) (x y : QNode) :
    treeNodes (mergeNodes k x y).tree = treeNodes x.tree + treeNodes y.tree + 1 := by
  unfold mergeNodes
  split
  · simp only [treeNodes]; omega
  · rfl

/-- Merging never makes the queue's size grow, so the tree at the end is within it. -/
theorem treeNodes_mergeLoop_lt (fuel k : Nat) (q : QNode) (qs : List QNode) :
    treeNodes (mergeLoop fuel k q qs).tree < queueSize (q :: qs) := by
  induction fuel generalizing k q qs with
  | zero => rw [queueSize_cons]; simp only [mergeLoop]; omega
  | succ fuel ih =>
    have hx := queueSize_perm (popMin_perm q qs)
    unfold mergeLoop
    split
    · rename_i x hpop
      rw [hpop] at hx
      simp only [queueSize_cons] at hx ⊢
      omega
    · rename_i x r rs hpop
      rw [hpop] at hx
      have hy := queueSize_perm (popMin_perm r rs)
      have hm := ih (k + 1) (mergeNodes k x (popMin r rs).1) (popMin r rs).2
      simp only [queueSize_cons, treeNodes_mergeNodes] at hx hy hm ⊢
      omega

theorem treeOk_withInternalRoot {t : Tree} (h : treeNodes t ≤ Config.nodeCap) : TreeOk (withInternalRoot t) := by
  cases t with
  | leaf s => simp [withInternalRoot, TreeOk, isInternal, treeNodes, Config.nodeCap]
  | node l r => exact ⟨rfl, h⟩

/-- The builder's tree of at most 256 weights is one that a slot may hold. -/
theorem treeOk_buildTree {w : List (Byte × Nat)} {t : Tree} (hw : w.length ≤ 256) (h : buildTree w = some t) :
    TreeOk t := by
  have hsize (l : List (Byte × Nat)) : queueSize (l.map fun p => leafNode p.1 p.2) = 2 * l.length := by
    induction l with
    | nil => rfl
    | cons p l ih => rw [List.map_cons, queueSize_cons, ih, List.length_cons]; simp only [leafNode, treeNodes]; omega
  have hq := hsize (w.filter fun p => 0 < p.2)
  have hlen : (w.filter fun p => 0 < p.2).length ≤ w.length := List.length_filter_le ..
  unfold buildTree at h
  split at h
  · cases h
  · rename_i q qs hqs
    cases h
    rw [hqs] at hq
    have := treeNodes_mergeLoop_lt (qs.length + 1) 0 q qs
    exact treeOk_withInternalRoot (by simp only [Config.nodeCap]; omega)

/-- A row of the count matrix has at most 256 cells. -/
theorem length_rowWeights {c : CountMatrix} (hc : CountMatrix.wf c) (ctx : Nat) : (rowWeights c ctx).length ≤ 256 := by
  have hnodup : ((c.filter fun p => p.1 / 256 = ctx).map Prod.fst).Nodup := by
    rw [List.Nodup, List.pairwise_map]
    exact (hc.1.1.filter _).imp fun h => Nat.ne_of_lt h
  have hsub : ((c.filter fun p => p.1 / 256 = ctx).map Prod.fst).toFinset ⊆ Finset.Ico (256 * ctx) (256 * ctx + 256) := by
    intro k hk
    simp only [List.mem_toFinset, List.mem_map, List.mem_filter, decide_eq_true_eq] at hk
    obtain ⟨p, ⟨-, hp⟩, rfl⟩ := hk
    rw [Finset.mem_Ico]
    omega
  have := Finset.card_le_card hsub
  rw [List.toFinset_card_of_nodup hnodup] at this
  simpa [rowWeights] using this

/-! ## Table files (43_serialization.md) -/

theorem Stream.bind_eq_ok {α β : Type} {x : Stream α} {f : α → Stream β} {b : β} :
    x.bind f = .ok b ↔ ∃ a, x = .ok a ∧ f a = .ok b := by
  cases x <;> simp [Stream.bind]

/-- A node that is read has been counted, the count stays within the capacity, and a root is internal (R305). -/
theorem readNode_ok {rd : Nat → Nat → Option Byte} {len fuel : Nat} {isRoot : Bool} {count pos : Nat} {r : ReadTree}
    (hcount : count ≤ Config.nodeCap) (h : readNode rd len fuel isRoot count pos = .ok r) :
    r.count ≤ Config.nodeCap ∧ r.count = count + treeNodes r.tree ∧ (isRoot = true → isInternal r.tree = true) := by
  induction fuel generalizing isRoot count pos r with
  | zero => cases h
  | succ fuel ih =>
    unfold readNode at h
    split at h
    · cases h
    · have hlt : count + 1 ≤ Config.nodeCap := by omega
      obtain ⟨m, -, h⟩ := Stream.bind_eq_ok.1 h
      cases m with
      | true =>
        cases isRoot with
        | true => cases h
        | false =>
          obtain ⟨sym, -, h⟩ := Stream.bind_eq_ok.1 h
          cases h
          exact ⟨hlt, rfl, nofun⟩
      | false =>
        obtain ⟨l, hl, h⟩ := Stream.bind_eq_ok.1 h
        obtain ⟨hlcap, hlcount, -⟩ := ih hlt hl
        obtain ⟨r, hr, h⟩ := Stream.bind_eq_ok.1 h
        obtain ⟨hrcap, hrcount, -⟩ := ih hlcap hr
        cases h
        exact ⟨hrcap, by simp only [treeNodes]; omega, fun _ => rfl⟩

theorem treeOk_readTree {rd : Nat → Nat → Option Byte} {len pos : Nat} {r : ReadTree} (h : readTree rd len pos = .ok r) :
    TreeOk r.tree := by
  obtain ⟨hcap, hcount, hroot⟩ := readNode_ok (Nat.zero_le _) h
  exact ⟨hroot rfl, by omega⟩

/-- The slots read are trees within their bounds, in the order of the contexts. -/
theorem readSlots_ok {rd : Nat → Nat → Option Byte} {len : Nat} {cs : List Nat} {pos : Nat} {acc : List (Nat × Tree)}
    {t : ReadTable} (h : readSlots rd len cs pos acc = .ok t) :
    t.kind = .markov
      ∧ ∃ new, t.slots = acc.reverse ++ new ∧ (new.map Prod.fst).Sublist cs ∧ ∀ p ∈ new, TreeOk p.2 := by
  induction cs generalizing pos acc with
  | nil => cases h; exact ⟨rfl, [], by simp, by simp, by simp⟩
  | cons c cs ih =>
    obtain ⟨present, -, h⟩ := Stream.bind_eq_ok.1 h
    cases present with
    | false =>
      obtain ⟨hk, new, hn, hsub, hok⟩ := ih h
      exact ⟨hk, new, hn, hsub.cons c, hok⟩
    | true =>
      obtain ⟨r, hr, h⟩ := Stream.bind_eq_ok.1 h
      obtain ⟨hk, new, hn, hsub, hok⟩ := ih h
      refine ⟨hk, (c, r.tree) :: new, by simpa using hn, hsub.cons_cons c, ?_⟩
      rw [List.forall_mem_cons]
      exact ⟨treeOk_readTree hr, hok⟩

/-! ## The table store -/

theorem tablesOk_nil {s : State} (h : s.slots = []) : TablesOk s := by
  simp [TablesOk, h]

/-- A plain table with one tree in slot 0. -/
theorem tablesOk_plain {s : State} {t : Tree} (hk : s.kind = .plain) (hs : s.slots = [(0, t)]) (ht : TreeOk t) :
    TablesOk s := by
  simp only [TablesOk, hk, hs]
  simpa using ht

/-- A Markov table whose slots are contexts in order. -/
theorem tablesOk_markov {s : State} (hk : s.kind = .markov) (hsub : (s.slots.map Prod.fst).Sublist (List.range 256))
    (ht : ∀ p ∈ s.slots, TreeOk p.2) : TablesOk s := by
  refine ⟨List.pairwise_map.1 (List.pairwise_lt_range.sublist hsub), fun p hp => ⟨?_, ht p hp⟩, by simp [hk],
    by simp [hk]⟩
  exact List.mem_range.1 (hsub.subset (List.mem_map_of_mem hp))

theorem tablesOk_buildP (s : State) : TablesOk { s with kind := .plain, slots := plainSlots s.counts } := by
  cases hb : buildTree (plainWeights s.counts) with
  | none => exact tablesOk_nil (by simp [plainSlots, hb])
  | some t => exact tablesOk_plain rfl (by simp [plainSlots, hb]) (treeOk_buildTree (by simp [plainWeights]) hb)

theorem tablesOk_buildM {s : State} (hc : CountMatrix.wf s.counts) :
    TablesOk { s with kind := .markov, slots := markovSlots s.counts } := by
  refine tablesOk_markov rfl ?_ fun p hp => ?_
  · unfold markovSlots
    induction List.range 256 with
    | nil => exact .refl _
    | cons ctx cs ih =>
      cases hb : buildTree (rowWeights s.counts ctx) with
      | none => simpa [hb] using ih.cons ctx
      | some t => simpa [hb] using ih
  · simp only [markovSlots, List.mem_filterMap, Option.map_eq_some_iff] at hp
    obtain ⟨ctx, -, t, ht, rfl⟩ := hp
    exact treeOk_buildTree (length_rowWeights hc ctx) ht

theorem tablesOk_readTable {rd : Nat → Nat → Option Byte} {len : Nat} {t : ReadTable} (h : readTable rd len = .ok t)
    {s : State} (hk : s.kind = t.kind) (hs : s.slots = t.slots) : TablesOk s := by
  obtain ⟨d, -, h⟩ := Stream.bind_eq_ok.1 h
  cases d with
  | true =>
    obtain ⟨hm, new, hn, hsub, hok⟩ := readSlots_ok h
    rw [List.reverse_nil, List.nil_append] at hn
    rw [hn] at hs
    exact tablesOk_markov (hk.trans hm) (hs ▸ hsub) (hs ▸ hok)
  | false =>
    obtain ⟨r, hr, h⟩ := Stream.bind_eq_ok.1 h
    cases h
    exact tablesOk_plain hk hs (treeOk_readTree hr)

end Sys2Proof.Machine
end

section
/-! SUPPORT. Bytes as stream bits (00_scope.md R10 to R12), and that the write datapath of R154 appends its bits to the
stream. -/

namespace Sys2Proof.Machine

/-! ## Stream bits of a byte -/

/-- Bytes with the same stream bits are equal. -/
theorem byte_ext {u v : Byte} (h : ∀ j < 8, streamBit u j = streamBit v j) : u = v :=
  BitVec.eq_of_getLsbD_eq fun i hi => by
    have := h (7 - i) (by omega)
    rwa [streamBit, streamBit, show 7 - (7 - i) = i by omega] at this

@[simp] theorem streamBit_zero (j : Nat) : streamBit 0#8 j = false := by simp [streamBit]

@[simp] theorem streamBit_or (u v : Byte) (j : Nat) : streamBit (u ||| v) j = (streamBit u j || streamBit v j) := by
  simp [streamBit]

@[simp] theorem streamBit_and (u v : Byte) (j : Nat) : streamBit (u &&& v) j = (streamBit u j && streamBit v j) := by
  simp [streamBit]

/-- A right shift moves the bits later in the stream. -/
theorem streamBit_shiftRight (v : Byte) (n : Nat) {j : Nat} (hj : j < 8) :
    streamBit (v >>> n) j = (decide (n ≤ j) && streamBit v (j - n)) := by
  unfold streamBit
  rw [BitVec.getLsbD_ushiftRight]
  by_cases h : n ≤ j
  · simp [h, show n + (7 - j) = 7 - (j - n) by omega]
  · simp [h, BitVec.getLsbD_of_ge v (n + (7 - j)) (by omega)]

/-- A left shift moves them earlier. -/
theorem streamBit_shiftLeft (v : Byte) (n : Nat) {j : Nat} (hj : j < 8) :
    streamBit (v <<< n) j = (decide (j + n < 8) && streamBit v (j + n)) := by
  unfold streamBit
  rw [BitVec.getLsbD_shiftLeft]
  by_cases h : j + n < 8
  · simp [h, show 7 - j - n = 7 - (j + n) by omega, show 7 - j < 8 by omega, show ¬ 7 - j < n by omega]
  · simp [h, show 7 - j < n by omega]

theorem streamBit_topmask {k j : Nat} (hk : k ≤ 8) (hj : j < 8) : streamBit (topmask k) j = decide (j < k) := by
  have hall (i : Nat) : streamBit 0xFF#8 i = true := by
    rw [streamBit, show 0xFF#8 = BitVec.allOnes 8 from rfl, BitVec.getLsbD_allOnes]
    exact decide_eq_true (by omega)
  rw [topmask, streamBit_shiftLeft _ _ hj, hall, Bool.and_true]
  exact decide_eq_decide.2 (by omega)

/-- Packing bits and reading them back (R12). -/
theorem streamBit_packByte (f : Nat → Bool) {j : Nat} (hj : j < 8) : streamBit (packByte f) j = f j := by
  unfold packByte streamBit
  interval_cases j <;> simp [List.range_succ]

@[simp] theorem streamBit_window (s : List Bool) (c : Nat) {j : Nat} (hj : j < 8) :
    streamBit (window s c) j = s.getD (c + j) false := streamBit_packByte _ hj

@[simp] theorem length_byteBits (v : Byte) : (byteBits v).length = 8 := by simp [byteBits]

@[simp] theorem getElem_byteBits (v : Byte) (j : Nat) (hj : j < (byteBits v).length) :
    (byteBits v)[j] = streamBit v j := by simp [byteBits]

/-! ## Windows (R12) -/

/-- A window beyond a first part of the stream is one of the rest. -/
theorem window_append {pre : List Bool} {n : Nat} (hn : pre.length = n) (s : List Bool) (c : Nat) :
    window (pre ++ s) (n + c) = window s c :=
  byte_ext fun j hj => by
    rw [streamBit_window _ _ hj, streamBit_window _ _ hj, List.getD_append_right _ _ _ _ (by omega)]
    congr 1; omega

/-- A window that lies in a first part of the stream does not see the rest. -/
theorem window_append_left {s : List Bool} {c : Nat} (hc : c + 8 ≤ s.length) (rest : List Bool) :
    window (s ++ rest) c = window s c :=
  byte_ext fun j hj => by
    rw [streamBit_window _ _ hj, streamBit_window _ _ hj, List.getD_append _ _ _ _ (by omega)]

/-- The window at the start of a byte's bits is the byte. -/
theorem window_byteBits (v : Byte) (rest : List Bool) : window (byteBits v ++ rest) 0 = v :=
  byte_ext fun j hj => by
    rw [streamBit_window _ _ hj, Nat.zero_add, List.getD_append _ _ _ _ (by simpa using hj),
      List.getD_eq_getElem _ _ (by simpa using hj), getElem_byteBits]

theorem length_flatMap_byteBits (out : List Byte) : (out.flatMap byteBits).length = 8 * out.length := by
  simp [List.length_flatMap, Nat.mul_comm]

/-- The window at a byte of a stream of bytes is that byte. -/
theorem window_flatMap_byteBits (out : List Byte) (rest : List Bool) {k : Nat} (hk : k < out.length) :
    window (out.flatMap byteBits ++ rest) (8 * k) = out[k] := by
  have hsplit : out = out.take k ++ out[k] :: out.drop (k + 1) := by simp
  have hlen : ((out.take k).flatMap byteBits).length = 8 * k := by
    rw [length_flatMap_byteBits, List.length_take, Nat.min_eq_left (by omega)]
  have := window_append hlen (byteBits out[k] ++ ((out.drop (k + 1)).flatMap byteBits ++ rest)) 0
  rw [window_byteBits] at this
  rw [← this, Nat.add_zero]
  congr 1
  conv_lhs => rw [hsplit]
  simp only [List.flatMap_append, List.flatMap_cons, List.append_assoc]

/-! ## Writers in their form -/

/-- `WriterOk` by bits: below the bit index, the partial byte is clear. -/
theorem writerOk_iff {w : Writer} : WriterOk w ↔ w.idx < 8 ∧ ∀ j < 8, w.idx ≤ j → streamBit w.part j = false := by
  have hbit {j : Nat} (hj : j < 8) :
      streamBit (window ((byteBits w.part).take w.idx) 0) j = (decide (j < w.idx) && streamBit w.part j) := by
    rw [streamBit_window _ _ hj, Nat.zero_add]
    by_cases h : j < w.idx
    · rw [List.getD_eq_getElem _ _ (by simp; omega)]
      simp [h]
    · rw [List.getD_eq_default _ _ (by simp; omega)]
      simp [h]
  constructor
  · rintro ⟨hidx, hp⟩
    refine ⟨hidx, fun j hj hle => ?_⟩
    rw [hp, hbit hj]
    simp [Nat.not_lt.2 hle]
  · rintro ⟨hidx, hclear⟩
    refine ⟨hidx, byte_ext fun j hj => ?_⟩
    rw [hbit hj]
    by_cases h : j < w.idx
    · simp [h]
    · simp [h, hclear j hj (Nat.not_lt.1 h)]

/-- A writer's stream has as many bits as its position says (R141). -/
theorem length_writerBits {w : Writer} (hw : WriterOk w) : (writerBits w).length = writerPos w := by
  simp [writerBits, writerPos]
  omega

/-- Byte `k` that a writer has completed is the window of its stream there. -/
theorem getElem_out_eq_window (w : Writer) {k : Nat} (hk : k < w.out.length) :
    w.out[k] = window (writerBits w) (8 * k) := (window_flatMap_byteBits _ _ hk).symm

/-- The partial byte is the last window of its stream. -/
theorem part_eq_window {w : Writer} (hw : WriterOk w) : w.part = window (writerBits w) (8 * w.out.length) := by
  have := window_append (length_flatMap_byteBits w.out) ((byteBits w.part).take w.idx) 0
  rw [Nat.add_zero] at this
  rw [writerBits, this]
  exact hw.2

/-! ## The pushes of R154 -/

/-- The shift-and-mask composition: after `b` bits of `p`, the bits of `x` fill the byte and go on in the next. -/
theorem take_byteBits_append {p : Byte} {b : Nat} (hb : b < 8) (hp : ∀ j < 8, b ≤ j → streamBit p j = false) (x : Byte) :
    (byteBits p).take b ++ byteBits x = byteBits (p ||| x >>> b) ++ (byteBits (x <<< (8 - b))).take b := by
  refine List.ext_getElem (by simp; omega) fun j hj _ => ?_
  have hj : j < b + 8 := by simp at hj; omega
  by_cases h8 : j < 8
  · rw [List.getElem_append_left (bs := (byteBits (x <<< (8 - b))).take b) (by simpa using h8), getElem_byteBits,
      streamBit_or, streamBit_shiftRight _ _ h8]
    by_cases hjb : j < b
    · rw [List.getElem_append_left (by simp; omega)]
      simp [Nat.not_le.2 hjb]
    · rw [List.getElem_append_right (by simp; omega)]
      simp [hp j h8 (by omega), show b ≤ j by omega, Nat.min_eq_left (show b ≤ 8 by omega)]
  · rw [List.getElem_append_right (by simp; omega), List.getElem_append_right (by simp; omega)]
    simp only [List.getElem_take, getElem_byteBits, List.length_take, length_byteBits]
    rw [streamBit_shiftLeft _ _ (by omega)]
    simp [show j - 8 + (8 - b) = j - min b 8 by omega, show j - min b 8 < 8 by omega]

theorem pushByte_appends {w : Writer} (hw : WriterOk w) (v : Byte) :
    WriterOk (pushByte v w) ∧ writerBits (pushByte v w) = writerBits w ++ byteBits v := by
  obtain ⟨hidx, hclear⟩ := writerOk_iff.1 hw
  unfold pushByte
  split_ifs with h0
  · exact ⟨hw, by simp [writerBits, h0]⟩
  · refine ⟨writerOk_iff.2 ⟨hidx, fun j hj hle => ?_⟩, ?_⟩
    · simp only at hle
      rw [streamBit_shiftLeft _ _ hj]
      simp [show ¬ j + (8 - w.idx) < 8 by omega]
    · simp [writerBits, take_byteBits_append hidx hclear]

/-- The last bits of a descriptor, by the three cases of R154. -/
theorem pushTail_appends {w : Writer} (hw : WriterOk w) {x : Byte} {rem : Nat} (hrem : 0 < rem ∧ rem < 8)
    (hx : ∀ j < 8, rem ≤ j → streamBit x j = false) :
    WriterOk (pushTail x rem w) ∧ writerBits (pushTail x rem w) = writerBits w ++ (byteBits x).take rem := by
  obtain ⟨hidx, hclear⟩ := writerOk_iff.1 hw
  have hbits : (byteBits w.part).take w.idx ++ (byteBits x).take rem
      = (byteBits (w.part ||| x >>> w.idx) ++ (byteBits (x <<< (8 - w.idx))).take w.idx).take (w.idx + rem) := by
    rw [← take_byteBits_append hidx hclear, List.take_append]
    simp [List.take_of_length_le, show min w.idx 8 = w.idx by omega]
  unfold pushTail
  split_ifs with hlt heq
  · refine ⟨writerOk_iff.2 ⟨hlt, fun j hj hle => ?_⟩, ?_⟩
    · simp only at hle
      rw [streamBit_or, hclear j hj (by omega), streamBit_shiftRight _ _ hj, hx _ (by omega) (by omega)]
      simp
    · rw [writerBits, writerBits, List.append_assoc, hbits, List.take_append_of_le_length (by simp; omega)]
  · refine ⟨writerOk_iff.2 ⟨Nat.zero_lt_succ 7, fun j _ _ => streamBit_zero j⟩, ?_⟩
    rw [writerBits, writerBits, List.append_assoc, hbits, heq, List.take_append_of_le_length (by simp)]
    simp [List.take_of_length_le]
  · refine ⟨writerOk_iff.2 ⟨by simp only; omega, fun j hj hle => ?_⟩, ?_⟩
    · simp only at hle
      rw [streamBit_shiftLeft _ _ hj]
      by_cases h : j + (8 - w.idx) < 8
      · rw [hx _ h (by omega), Bool.and_false]
      · simp [h]
    · rw [writerBits, writerBits, List.append_assoc, hbits, List.take_append]
      simp [List.take_take, show 8 ≤ w.idx + rem by omega, show min (w.idx + rem - 8) w.idx = w.idx + rem - 8 by omega]

/-- One bit is the shortest tail. -/
theorem pushBit_eq_pushTail (v : Bool) {w : Writer} (hw : w.idx < 8) :
    pushBit v w = pushTail ((BitVec.ofBool v).setWidth 8 <<< 7) 1 w := by
  have hx : (BitVec.ofBool v).setWidth 8 <<< (7 - w.idx) = ((BitVec.ofBool v).setWidth 8 <<< 7 : Byte) >>> w.idx := by
    have : ∀ i < 8, ∀ v : Bool,
        (BitVec.ofBool v).setWidth 8 <<< (7 - i) = ((BitVec.ofBool v).setWidth 8 <<< 7 : Byte) >>> i := by decide
    exact this _ hw v
  unfold pushBit pushTail
  rw [hx]
  by_cases h : w.idx + 1 = 8
  · simp [h]
  · simp [h, show w.idx + 1 < 8 by omega]

theorem pushBit_appends {w : Writer} (hw : WriterOk w) (v : Bool) :
    WriterOk (pushBit v w) ∧ writerBits (pushBit v w) = writerBits w ++ [v] := by
  rw [pushBit_eq_pushTail v hw.1]
  have hx : ∀ v : Bool, (byteBits ((BitVec.ofBool v).setWidth 8 <<< 7)).take 1 = [v]
      ∧ ∀ j < 8, 1 ≤ j → streamBit ((BitVec.ofBool v).setWidth 8 <<< 7) j = false := by decide
  have h := pushTail_appends hw (by decide) (hx v).2
  rwa [(hx v).1] at h

theorem flush_appends {w : Writer} (hw : WriterOk w) :
    WriterOk (flush w) ∧ writerBits (flush w) = writerBits w ++ List.replicate ((8 - w.idx) % 8) false := by
  obtain ⟨hidx, hclear⟩ := writerOk_iff.1 hw
  unfold flush
  split_ifs with h0
  · exact ⟨hw, by simp [h0]⟩
  · refine ⟨writerOk_iff.2 ⟨Nat.zero_lt_succ 7, fun j _ _ => streamBit_zero j⟩, ?_⟩
    have hpad : byteBits w.part = (byteBits w.part).take w.idx ++ List.replicate ((8 - w.idx) % 8) false := by
      conv_lhs => rw [← List.take_append_drop w.idx (byteBits w.part)]
      congr 1
      refine List.ext_getElem (by simp; omega) fun j hj _ => ?_
      have hj : j < 8 - w.idx := by simpa using hj
      rw [List.getElem_drop, getElem_byteBits, hclear _ (by omega) (by omega), List.getElem_replicate]
    simp only [writerBits, List.flatMap_append, List.flatMap_cons, List.flatMap_nil, List.append_nil, List.take_zero,
      List.append_assoc]
    rw [← hpad]

/-- The stream bits of the first `n` bytes of a descriptor. -/
theorem flatMap_range_byteBits (bytes : Nat → Byte) (n : Nat) :
    (List.range n).flatMap (fun m => byteBits (bytes m))
      = (List.range (8 * n)).map fun k => streamBit (bytes (k / 8)) (k % 8) := by
  induction n with
  | zero => rfl
  | succ n ih =>
    rw [List.range_succ, List.flatMap_append, ih, Nat.mul_succ, List.range_add, List.map_append, List.map_map]
    congr 1
    simp only [List.flatMap_cons, List.flatMap_nil, List.append_nil, byteBits]
    refine List.map_congr_left fun j hj => ?_
    have := List.mem_range.1 hj
    simp only [Function.comp, show (8 * n + j) / 8 = n by omega, show (8 * n + j) % 8 = j by omega]

theorem pushBytes_appends {w : Writer} (hw : WriterOk w) (bytes : Nat → Byte) (n : Nat) :
    let w' := (List.range n).foldl (fun w m => pushByte (bytes m) w) w
    WriterOk w' ∧ writerBits w' = writerBits w ++ (List.range (8 * n)).map fun k => streamBit (bytes (k / 8)) (k % 8) := by
  rw [← flatMap_range_byteBits]
  induction n with
  | zero => exact ⟨hw, by simp⟩
  | succ n ih =>
    obtain ⟨hok, hbits⟩ := ih
    obtain ⟨hok', hbits'⟩ := pushByte_appends hok (bytes n)
    rw [List.range_succ, List.foldl_append, List.flatMap_append]
    exact ⟨hok', by simpa [hbits] using hbits'⟩

theorem pushDesc_appends {w : Writer} (hw : WriterOk w) (len : Nat) (bytes : Nat → Byte) :
    WriterOk (pushDesc len bytes w)
      ∧ writerBits (pushDesc len bytes w)
        = writerBits w ++ (List.range len).map fun k => streamBit (bytes (k / 8)) (k % 8) := by
  obtain ⟨hok, hbits⟩ := pushBytes_appends hw bytes (len / 8)
  unfold pushDesc
  simp only
  split_ifs with h0
  · rw [show 8 * (len / 8) = len by omega] at hbits
    exact ⟨hok, hbits⟩
  · have hrem : 0 < len % 8 ∧ len % 8 < 8 := by omega
    have hmask {j : Nat} (hj : j < 8) : streamBit (bytes (len / 8) &&& topmask (len % 8)) j
        = (streamBit (bytes (len / 8)) j && decide (j < len % 8)) := by
      rw [streamBit_and, streamBit_topmask (by omega) hj]
    obtain ⟨hok', hbits'⟩ := pushTail_appends hok hrem (x := bytes (len / 8) &&& topmask (len % 8)) fun j hj hle => by
      rw [hmask hj]; simp [Nat.not_lt.2 hle]
    refine ⟨hok', ?_⟩
    have hlast : (byteBits (bytes (len / 8) &&& topmask (len % 8))).take (len % 8)
        = (List.range (len % 8)).map fun j => streamBit (bytes (len / 8)) j := by
      refine List.ext_getElem (by simp; omega) fun j hj _ => ?_
      have hj : j < len % 8 := by simp at hj; omega
      rw [List.getElem_take, getElem_byteBits, hmask (by omega)]
      simp [hj]
    have hsplit : List.range len = List.range (8 * (len / 8)) ++ (List.range (len % 8)).map (8 * (len / 8) + ·) := by
      rw [← List.range_add, Nat.div_add_mod]
    rw [hbits', hbits, hlast, hsplit, List.map_append, List.map_map, List.append_assoc]
    congr 2
    refine List.map_congr_left fun j hj => ?_
    have := List.mem_range.1 hj
    simp only [Function.comp, show (8 * (len / 8) + j) / 8 = len / 8 by omega, show (8 * (len / 8) + j) % 8 = j by omega]

/-- Descriptor bit `k` is stream bit `k mod 8` of descriptor byte `k div 8` (R57). -/
theorem cwBit_eq_streamBit (s : State) (k : Nat) : cwBit s k = streamBit (cwByte s (k / 8)) (k % 8) := by
  unfold cwBit streamBit cwByte
  rw [BitVec.getLsbD_extractLsb', Nat.div_div_eq_div_mul, decide_eq_true (show 7 - k % 8 < 8 by omega), Bool.true_and]
  congr 1
  omega

end Sys2Proof.Machine
end

section
/-! SUPPORT. The open write session as its pushes and flushes move it (40_bit_buffer.md R141 to R144): what it keeps of
`SessionOk`, and which of its bytes are then final in DST (20_memory.md R88 (c)). -/

namespace Sys2Proof.Machine

variable {s : State} {i : Instr}

/-- Every write command appends its bits to the stream (R154, R159). -/
theorem streamAfter_appends (hw : WriterOk (sessionWriter s)) (i : Instr) :
    WriterOk (streamAfter s i) ∧ writerBits (streamAfter s i) = writerBits (sessionWriter s) ++ appendedBits s i := by
  cases i with
  | bbPushBit a => exact pushBit_appends hw _
  | bbPushByte v => exact pushByte_appends hw v
  | bbPushDesc =>
    have h := pushDesc_appends hw s.cwLen.toNat (cwByte s)
    simp only [← cwBit_eq_streamBit] at h
    exact h
  | bbFlush | bbClose => exact flush_appends hw
  | _ => exact ⟨hw, (List.append_nil _).symm⟩

/-- The write stream of a session in its form is in its form, and holds the bits of `WS` after the completed bytes. -/
theorem sessionWriter_spec (hs : SessionOk s.bb) (hm : s.bb.mode = .write) :
    WriterOk (sessionWriter s)
      ∧ s.bb.ws = s.bb.ws.take (8 * s.bb.bytePos.toNat) ++ writerBits (sessionWriter s) := by
  obtain ⟨-, -, -, -, hwrite⟩ := hs
  obtain ⟨-, hlen, hpart, -⟩ := hwrite hm
  have hidx := s.bb.bitIdx.isLt
  simp only [bbPos] at hlen
  have hbit {j : Nat} (hj : j < 8) : streamBit s.bb.part j = s.bb.ws.getD (8 * s.bb.bytePos.toNat + j) false := by
    rw [hpart, streamBit_window _ _ hj]
  refine ⟨writerOk_iff.2 ⟨hidx, fun j hj hle => ?_⟩, ?_⟩
  · simp only [sessionWriter] at hle ⊢
    rw [hbit hj, List.getD_eq_default _ _ (by omega)]
  · conv_lhs => rw [← List.take_append_drop (8 * s.bb.bytePos.toNat) s.bb.ws]
    congr 1
    refine List.ext_getElem (by simp [writerBits, sessionWriter]; omega) fun j hj _ => ?_
    have hj : j < s.bb.bitIdx.toNat := by simp at hj; omega
    simp only [writerBits, sessionWriter, List.flatMap_nil, List.nil_append, List.getElem_take, getElem_byteBits,
      List.getElem_drop]
    rw [hbit (by omega), List.getD_eq_getElem]

/-- `WS` after the command. -/
def wsAfter (s : State) (i : Instr) : List Bool := s.bb.ws ++ appendedBits s i

/-- `BB_BYTEPOS` after the command, as a number. -/
def bytePosAfter (s : State) (i : Instr) : Nat := s.bb.bytePos.toNat + (streamAfter s i).out.length

/-- The write command `i` meets a session in its form, and its bits lie within the capacity. -/
structure Advances (s : State) (i : Instr) : Prop where
  session : SessionOk s.bb
  mode : s.bb.mode = .write
  fits : bbPos s.bb + (appendedBits s i).length ≤ 8 * s.bb.dstCap.toNat

namespace Advances

/-- Up to the completed bytes before it, `WS` after the command is the stream of the writer. -/
theorem wsAfter_eq (h : Advances s i) :
    wsAfter s i = s.bb.ws.take (8 * s.bb.bytePos.toNat) ++ writerBits (streamAfter s i) := by
  obtain ⟨hw, hws⟩ := sessionWriter_spec h.session h.mode
  rw [(streamAfter_appends hw i).2, ← List.append_assoc, ← hws, wsAfter]

theorem length_take_ws (h : Advances s i) : (s.bb.ws.take (8 * s.bb.bytePos.toNat)).length = 8 * s.bb.bytePos.toNat := by
  obtain ⟨-, -, -, -, hwrite⟩ := h.session
  obtain ⟨-, hlen, -⟩ := hwrite h.mode
  simp only [bbPos] at hlen
  rw [List.length_take]
  omega

/-- The stream has as many bits as the position says. -/
theorem length_wsAfter (h : Advances s i) : (wsAfter s i).length = 8 * bytePosAfter s i + (streamAfter s i).idx := by
  have hw := (streamAfter_appends (sessionWriter_spec h.session h.mode).1 i).1
  rw [h.wsAfter_eq, List.length_append, h.length_take_ws, length_writerBits hw, writerPos, bytePosAfter]
  omega

theorem idx_lt (h : Advances s i) : (streamAfter s i).idx < 8 :=
  (streamAfter_appends (sessionWriter_spec h.session h.mode).1 i).1.1

/-- No position passes the capacity. -/
theorem position_le (h : Advances s i) : 8 * bytePosAfter s i + (streamAfter s i).idx ≤ 8 * s.bb.dstCap.toNat := by
  have hfits := h.fits
  obtain ⟨-, -, -, -, hwrite⟩ := h.session
  obtain ⟨-, hlen, -⟩ := hwrite h.mode
  rw [← h.length_wsAfter, wsAfter, List.length_append, hlen]
  exact hfits

theorem bytePosAfter_le (h : Advances s i) : bytePosAfter s i ≤ s.bb.dstCap.toNat := by
  have := h.position_le
  omega

/-- `BB_BYTEPOS` does not wrap. -/
theorem toNat_bytePos (h : Advances s i) :
    (s.bb.bytePos + BitVec.ofNat 32 (streamAfter s i).out.length).toNat = bytePosAfter s i := by
  have hle := h.bytePosAfter_le
  have hcap := s.bb.dstCap.isLt
  simp only [bytePosAfter, BitVec.toNat_add, BitVec.toNat_ofNat] at hle ⊢
  omega

/-- `P` is the last partial byte of `WS`. -/
theorem part_eq (h : Advances s i) : (streamAfter s i).part = window (wsAfter s i) (8 * bytePosAfter s i) := by
  have hw := (streamAfter_appends (sessionWriter_spec h.session h.mode).1 i).1
  rw [h.wsAfter_eq, bytePosAfter, Nat.mul_add, window_append h.length_take_ws]
  exact part_eq_window hw

/-- The bytes not yet known to be in DST are the last completed ones, each the window of `WS` at its offset. -/
theorem pendingCells_eq (h : Advances s i) :
    pendingCells s i = (List.range' (drainedCount s.bb) (bytePosAfter s i - drainedCount s.bb)).map
      fun k => cellAt s.bb.dstBase k (window (wsAfter s i) (8 * k)) := by
  obtain ⟨-, -, -, -, hwrite⟩ := h.session
  obtain ⟨-, hlen, -, hst, -, hstaged⟩ := hwrite h.mode
  simp only [bbPos] at hlen
  have hsplit : bytePosAfter s i - drainedCount s.bb = s.bb.staged.length + (streamAfter s i).out.length := by
    simp only [bytePosAfter, drainedCount]; omega
  have hmid : drainedCount s.bb + s.bb.staged.length = s.bb.bytePos.toNat := by simp only [drainedCount]; omega
  rw [hsplit, ← List.range'_append_1, List.map_append, pendingCells, hmid]
  congr 1
  · conv_lhs => rw [hstaged]
    refine List.map_congr_left fun k hk => ?_
    have hk := (List.mem_range'_1.1 hk).2
    rw [wsAfter, window_append_left (by omega)]
  · rw [emittedCells, cellsFrom_eq_map, List.range'_eq_map_range, List.map_map]
    refine List.map_congr_left fun k hk => ?_
    have hk := List.mem_range.1 hk
    simp only [Function.comp]
    rw [List.getD_eq_getElem _ _ hk, getElem_out_eq_window _ hk, h.wsAfter_eq, Nat.mul_add, window_append h.length_take_ws]

/-- Of the pending bytes, those written come first and those left staged last. -/
theorem written_left (h : Advances s i) {written left : List Host.Cell} (hst : written ++ left = pendingCells s i) :
    drainedCount s.bb + written.length + left.length = bytePosAfter s i
      ∧ written = (List.range' (drainedCount s.bb) written.length).map
          (fun k => cellAt s.bb.dstBase k (window (wsAfter s i) (8 * k)))
      ∧ left = (List.range' (drainedCount s.bb + written.length) left.length).map
          (fun k => cellAt s.bb.dstBase k (window (wsAfter s i) (8 * k))) := by
  have hd : drainedCount s.bb ≤ bytePosAfter s i := by simp only [drainedCount, bytePosAfter]; omega
  have hp := h.pendingCells_eq
  have hlen := congrArg List.length (hst.trans hp)
  rw [List.length_append, List.length_map, List.length_range'] at hlen
  rw [← hlen, ← List.range'_append_1, List.map_append] at hp
  obtain ⟨hwritten, hleft⟩ := List.append_inj (hst.trans hp) (by simp)
  exact ⟨by omega, hwritten, hleft⟩

theorem mem_written (h : Advances s i) {written left : List Host.Cell} (hst : written ++ left = pendingCells s i)
    {c : Host.Cell} :
    c ∈ written ↔ ∃ k, (drainedCount s.bb ≤ k ∧ k < drainedCount s.bb + written.length)
      ∧ cellAt s.bb.dstBase k (window (wsAfter s i) (8 * k)) = c := by
  conv_lhs => rw [(h.written_left hst).2.1]
  simp only [List.mem_map, List.mem_range'_1]

/-- Different offsets below the position after the command are different addresses. -/
theorem address_inj (h : Advances s i) {j k : Nat} (hj : j < bytePosAfter s i) (hk : k < bytePosAfter s i) :
    (regionAddr s.bb.dstBase j).toNat = (regionAddr s.bb.dstBase k).toNat ↔ j = k := by
  have hcap := h.bytePosAfter_le
  obtain ⟨-, hdst, -⟩ := h.session
  exact toNat_inj_regionAddr hdst (by omega) (by omega)

theorem written_distinct (h : Advances s i) {written left : List Host.Cell} (hst : written ++ left = pendingCells s i) :
    written.Pairwise fun c d => c.1 ≠ d.1 := by
  obtain ⟨hsum, hwritten, -⟩ := h.written_left hst
  rw [hwritten, List.pairwise_map]
  refine (List.pairwise_lt_range' (s := drainedCount s.bb) (n := written.length)).imp_of_mem fun {j k} hj hk hlt heq => ?_
  have hj := List.mem_range'_1.1 hj
  have hk := List.mem_range'_1.1 hk
  exact absurd ((h.address_inj (by omega) (by omega)).1 heq) (by omega)

end Advances

/-- The session that a write command leads to, with the bytes `left` staged. -/
def advanced (s : State) (i : Instr) (mode : BbMode) (left : List Host.Cell) (flushed : Word) : BitBuffer :=
  { s.bb with
    mode := mode, bytePos := s.bb.bytePos + BitVec.ofNat 32 (streamAfter s i).out.length
    bitIdx := BitVec.ofNat 3 (streamAfter s i).idx, part := (streamAfter s i).part, ws := wsAfter s i, staged := left
    flushed := flushed }

theorem toNat_advanced_bytePos (h : Advances s i) (mode : BbMode) (left : List Host.Cell) (flushed : Word) :
    (advanced s i mode left flushed).bytePos.toNat = bytePosAfter s i := h.toNat_bytePos

/-- The bytes written have left the staging area. -/
theorem drainedCount_advanced (h : Advances s i) (mode : BbMode) {written left : List Host.Cell} (flushed : Word)
    (hst : written ++ left = pendingCells s i) :
    drainedCount (advanced s i mode left flushed) = drainedCount s.bb + written.length := by
  have hsum := (h.written_left hst).1
  rw [drainedCount, toNat_advanced_bytePos h]
  simp only [advanced]
  omega

/-- It is in its form again. -/
theorem sessionOk_advanced (h : Advances s i) {mode : BbMode} {written left : List Host.Cell} {flushed : Word}
    (hst : written ++ left = pendingCells s i) (hmode : mode = .write ∨ mode = .closed ∧ left = [])
    (hfl : flushed.toNat ≤ bytePosAfter s i - left.length) : SessionOk (advanced s i mode left flushed) := by
  obtain ⟨hsum, -, hleft⟩ := h.written_left hst
  obtain ⟨hsrc, hdst, -⟩ := h.session
  have hidx := h.idx_lt
  have hbyte := toNat_advanced_bytePos h mode left flushed
  have hpos : bbPos (advanced s i mode left flushed) = 8 * bytePosAfter s i + (streamAfter s i).idx := by
    rw [bbPos, hbyte]
    simp only [advanced, BitVec.toNat_ofNat]
    omega
  refine ⟨hsrc, hdst, fun hr => ?_, fun hw => ?_, fun _ => ⟨?_, ?_, ?_, ?_, ?_, ?_⟩⟩
  · rcases hmode with rfl | ⟨rfl, -⟩ <;> cases hr
  · exact (hmode.resolve_left hw).2
  · rw [hpos]; exact h.position_le
  · rw [hpos]; exact h.length_wsAfter
  · rw [hbyte]; exact h.part_eq
  · rw [hbyte]; simp only [advanced]; omega
  · rw [drainedCount, hbyte]; exact hfl
  · rw [drainedCount_advanced h mode flushed hst]; exact hleft

/-- What `DrainedOk` says of a session, its DST bytes being in the memory `m`. -/
def DrainedIn (m : Memory) (raced : List Nat) (b : BitBuffer) : Prop :=
  ∀ k < drainedCount b, (regionAddr b.dstBase k).toNat ∉ raced →
    Sparse.get (regionAddr b.dstBase k).toNat m = window b.ws (8 * k)

/-- A cell of distinct addresses that the host has not raced on is what memory then holds. -/
theorem get_writeCells_of_mem {cells : List Host.Cell} (hm : Sparse.wf s.memory)
    (hd : cells.Pairwise fun c d => c.1 ≠ d.1) {c : Host.Cell} (hc : c ∈ cells) (hr : c.1 ∉ s.env.dstRaced) :
    Sparse.get c.1 (writeCells s cells) = c.2 := by
  unfold writeCells
  generalize s.memory = m at hm
  induction cells generalizing m with
  | nil => cases hc
  | cons d cells ih =>
    obtain ⟨hne, hd⟩ := List.pairwise_cons.1 hd
    rw [List.foldl_cons]
    rcases List.mem_cons.1 hc with rfl | hc
    · rw [get_foldl_writeCell_of_notMem s cells _ fun e he => (hne e he).symm, writeCell, if_neg hr]
      exact get_set_same _ _ hm
    · exact ih hd hc _ (set_wf _ _ hm)

/-- The bytes that have left the staging area are final once the written ones are in memory. -/
theorem drainedIn_advanced (h : Advances s i) (hwf : Memory.wf s.memory)
    (hold : DrainedIn s.memory s.env.dstRaced s.bb) {mode : BbMode} {written left : List Host.Cell} {flushed : Word}
    (hst : written ++ left = pendingCells s i) :
    DrainedIn (writeCells s written) s.env.dstRaced (advanced s i mode left flushed) := by
  have hsum := (h.written_left hst).1
  obtain ⟨-, -, -, -, hwrite⟩ := h.session
  obtain ⟨-, hlen, -⟩ := hwrite h.mode
  simp only [bbPos] at hlen
  intro k hk hraced
  rw [drainedCount_advanced h mode flushed hst] at hk
  by_cases hnew : drainedCount s.bb ≤ k
  · exact get_writeCells_of_mem hwf.1 (h.written_distinct hst) ((h.mem_written hst).2 ⟨k, ⟨hnew, hk⟩, rfl⟩) hraced
  · have hkb : k < s.bb.bytePos.toNat := by simp only [drainedCount] at hnew; omega
    rw [writeCells, get_foldl_writeCell_of_notMem]
    · exact (hold k (by omega) hraced).trans (window_append_left (by omega) _).symm
    · intro c hc heq
      obtain ⟨j, hj, rfl⟩ := (h.mem_written hst).1 hc
      exact absurd ((h.address_inj (by omega) (by omega)).1 heq) (by omega)

/-- A push within the capacity advances the session. -/
theorem advances_of_pushFits (hs : SessionOk s.bb) (hm : s.bb.mode = .write)
    (hf : pushFits s.bb.dstCap.toNat (bbPos s.bb) (appendedBits s i).length = true) : Advances s i := by
  refine ⟨hs, hm, ?_⟩
  obtain ⟨-, -, -, -, hwrite⟩ := hs
  have hpos := (hwrite hm).1
  simp only [pushFits, Bool.or_eq_true, decide_eq_true_eq] at hf
  omega

/-- A flush always fits: the capacity is whole bytes. -/
theorem advances_flush (hs : SessionOk s.bb) (hm : s.bb.mode = .write) : Advances s .bbFlush := by
  refine ⟨hs, hm, ?_⟩
  obtain ⟨-, -, -, -, hwrite⟩ := hs
  have hpos := (hwrite hm).1
  have hidx := s.bb.bitIdx.isLt
  simp only [bbPos, appendedBits, List.length_replicate] at hpos ⊢
  omega

end Sys2Proof.Machine
end

section
/-! SUPPORT. The invariant (`Inv`), kept by every command and every other event: the status bits and the latched copies are
of the sequencer; the rest, `DataOk`, is of the tables, the session and the memories. -/

namespace Sys2Proof.Machine

/-- The part of the invariant that says nothing of the sequencer. A state that agrees with `s` in the fields it reads meets it
as `s` does, by `{ hs with }`. -/
structure DataOk (s : State) : Prop where
  tables : TablesOk s
  session : SessionOk s.bb
  drained : DrainedOk s
  memory : Memory.wf s.memory
  counts : CountMatrix.wf s.counts

variable {s t : State}

theorem inv_iff : Inv s ↔ StatusOk s ∧ LatchOk s ∧ DataOk s :=
  ⟨fun ⟨hst, hl, ht, hs, hd, hm, hc⟩ => ⟨hst, hl, ht, hs, hd, hm, hc⟩,
    fun ⟨hst, hl, ht, hs, hd, hm, hc⟩ => ⟨hst, hl, ht, hs, hd, hm, hc⟩⟩

/-! ## The session's drained bytes -/

/-- `DrainedOk` says nothing outside WRITE mode. -/
theorem drainedOk_of_mode (h : s.bb.mode ≠ .write) : DrainedOk s := fun _ hm => absurd hm h

/-- Nor where the platform refuses an access. -/
theorem drainedOk_of_windows (h : s.env.params.windows ≠ []) : DrainedOk s := fun hw => absurd hw h

theorem drainedOk_iff : DrainedOk s ↔
    (s.env.params.windows = [] → s.bb.mode = .write → DrainedIn s.memory s.env.dstRaced s.bb) := Iff.rfl

/-- The end of a command forgets only raced addresses outside the session's region. -/
theorem drainedOk_endCommand (hs : SessionOk s.bb) (h : DrainedOk s) : DrainedOk (endCommand s) := by
  intro hw hm k hk hraced
  obtain ⟨-, hdst, -, -, hwrite⟩ := hs
  have hpos := (hwrite hm).1
  have hk' : k < s.bb.dstCap.toNat := by
    simp only [endCommand_bb, drainedCount] at hk
    simp only [bbPos] at hpos
    omega
  refine h hw hm k hk fun hmem => hraced ?_
  have hm' : s.bb.mode = .write := hm
  simp only [endCommand_env, liveDstRaced, hm', if_true, endCommand_bb]
  exact List.mem_filter.2 ⟨hmem, inRegion_regionAddr hdst hk'⟩

theorem countMatrix_wf_nil : CountMatrix.wf [] := by decide

namespace DataOk

theorem endCommand (h : DataOk s) : DataOk (endCommand s) :=
  ⟨h.tables, h.session, drainedOk_endCommand h.session h.drained, h.memory, h.counts⟩

theorem complete (h : DataOk s) : DataOk (complete s) :=
  ⟨h.endCommand.tables, h.endCommand.session, h.endCommand.drained, h.endCommand.memory, h.endCommand.counts⟩

theorem raiseError (h : DataOk s) (code : ErrCode) (info : Word) : DataOk (raiseError code info s) :=
  ⟨h.endCommand.tables, h.endCommand.session, h.endCommand.drained, h.endCommand.memory, h.endCommand.counts⟩

/-- Registers, memories and session at their reset values, over any system memory in its form. -/
theorem of_reset (hb : s.bb = .reset) (hs : s.slots = []) (hc : s.counts = []) (hm : Memory.wf s.memory) : DataOk s where
  tables := tablesOk_nil hs
  session := by rw [hb]; decide
  drained := drainedOk_of_mode (by rw [hb]; decide)
  memory := hm
  counts := hc ▸ countMatrix_wf_nil

end DataOk

/-! ## The session -/

/-- The staged cells have 32-bit addresses. -/
theorem staged_lt (hs : SessionOk s.bb) : ∀ c ∈ s.bb.staged, c.1 < 2 ^ 32 := by
  obtain ⟨-, -, -, hempty, hwrite⟩ := hs
  by_cases hm : s.bb.mode = .write
  · obtain ⟨-, -, -, -, -, hstaged⟩ := hwrite hm
    rw [hstaged]
    intro c hc
    obtain ⟨k, -, rfl⟩ := List.mem_map.1 hc
    exact BitVec.isLt _
  · simp [hempty hm]

theorem pendingCells_lt (hs : SessionOk s.bb) (i : Instr) : ∀ c ∈ pendingCells s i, c.1 < 2 ^ 32 := by
  intro c hc
  rcases List.mem_append.1 hc with hc | hc
  · exact staged_lt hs c hc
  · exact cellsFrom_lt c hc

/-- A window of no bits. -/
theorem window_nil {c : Nat} : window [] c = 0#8 := byte_ext fun j hj => by simp [streamBit_window _ _ hj]

theorem sessionOk_openWrite (hs : SessionOk s.bb) (hf : regionFits s.latch.dstBase s.latch.dstCap = true) :
    SessionOk (openWrite s).bb := by
  obtain ⟨hsrc, -⟩ := hs
  refine ⟨hsrc, hf, nofun, fun _ => rfl, fun _ => ⟨?_, rfl, window_nil.symm, ?_, ?_, rfl⟩⟩
  · simp [openWrite, bbPos]
  · simp [openWrite]
  · simp [openWrite]

theorem sessionOk_openRead (hs : SessionOk s.bb) (hm : s.bb.mode = .closed)
    (hf : regionFits s.latch.srcBase s.latch.srcLen = true) : SessionOk (openRead s).bb := by
  obtain ⟨-, hdst, -, hstaged, -⟩ := hs
  exact ⟨hf, hdst, fun _ => by simp [bbPos], fun _ => hstaged (by simp [hm]), nofun⟩

theorem sessionOk_closed (hs : SessionOk s.bb) (hm : s.bb.mode = .read) :
    SessionOk { s.bb with mode := .closed } := by
  obtain ⟨hsrc, hdst, -, hstaged, -⟩ := hs
  exact ⟨hsrc, hdst, nofun, fun _ => hstaged (by simp [hm]), nofun⟩

/-- A read moves the position within the stream. -/
theorem sessionOk_read (hs : SessionOk s.bb) (hm : s.bb.mode = .read) {n : Nat}
    (hn : n = 0 ∨ bbPos s.bb + n ≤ 8 * s.bb.srcLen.toNat) : SessionOk (setPos (bbPos s.bb + n) s.bb) := by
  obtain ⟨hsrc, hdst, hread, hstaged, -⟩ := hs
  have hpos := hread hm
  have hlen := s.bb.srcLen.isLt
  refine ⟨hsrc, hdst, fun _ => ?_, fun _ => hstaged (by simp [hm]), fun hw => ?_⟩
  · rw [bbPos_setPos _ (by omega), setPos_srcLen]
    omega
  · rw [setPos_mode, hm] at hw
    cases hw

/-- The session that a refused access leaves is unspecified within its form (log 11). -/
theorem sessionOk_unspecified (hs : SessionOk s.bb) : SessionOk (unspecifiedSession s) := by
  obtain ⟨hsrc, hdst, -⟩ := hs
  have hdc := s.bb.dstCap.isLt
  have hsl := s.bb.srcLen.isLt
  unfold unspecifiedSession
  simp only
  generalize modeOf (Config.freeNat s.env.freeCtr 1) = mode
  have hle : Config.freeNat s.env.freeCtr 2 % (posLimit s.bb mode + 1) ≤ posLimit s.bb mode :=
    Nat.le_of_lt_succ (Nat.mod_lt _ (Nat.succ_pos _))
  generalize Config.freeNat s.env.freeCtr 2 % (posLimit s.bb mode + 1) = pos at hle
  have hlimit : posLimit s.bb mode < 8 * 2 ^ 32 := by
    cases mode <;> simp only [posLimit] <;> omega
  refine ⟨hsrc, hdst, fun hr => ?_, fun _ => rfl, fun hw => ?_⟩
  · rw [bbPos_setPos _ (by omega)]
    simp only [setPos_mode] at hr
    simpa [hr, posLimit] using hle
  · simp only [setPos_mode] at hw
    subst hw
    simp only [posLimit] at hle
    rw [bbPos_setPos _ (by omega)]
    have hbyte : (BitVec.ofNat 32 (pos / 8)).toNat = pos / 8 := by
      rw [BitVec.toNat_ofNat]; omega
    refine ⟨hle, by simp, ?_, by simp, by simp, rfl⟩
    simp only [setPos, hbyte, if_true]

/-! ## The commands -/

theorem windows_ne_nil_of_refusesRead {a : Word} (h : refusesRead s a = true) : s.env.params.windows ≠ [] := by
  intro hw
  simp [refusesRead, hw] at h

theorem windows_ne_nil_of_refusesWrite {a : Word} (h : refusesWrite s a = true) : s.env.params.windows ≠ [] := by
  intro hw
  simp [refusesWrite, hw] at h

theorem windows_ne_nil_of_refusedReads {base len a : Word} (h : a ∈ refusedReads s base len) :
    s.env.params.windows ≠ [] := windows_ne_nil_of_refusesRead (mem_refusedReads.1 h).1

theorem windows_ne_nil_of_refusedCells {cells : List Host.Cell} {a : Word} (h : a ∈ refusedCells s cells) :
    s.env.params.windows ≠ [] := windows_ne_nil_of_refusesWrite (mem_refusedCells.1 h).1

/-- SOFT_RESET writes staged cells at most. -/
theorem abandonSession_wf (hs : DataOk s) : Memory.wf (abandonSession s) := by
  unfold abandonSession
  split_ifs
  · exact writeCells_wf s hs.memory fun c hc => staged_lt hs.session c (List.mem_filter.1 hc).1
  · exact hs.memory

theorem dataOk_pushed (hs : DataOk s) {i : Instr} (hm : s.bb.mode = .write)
    (hf : pushFits s.bb.dstCap.toNat (bbPos s.bb) (appendedBits s i).length = true) {written left : List Host.Cell}
    (hst : written ++ left = pendingCells s i) :
    DataOk (sessionMoved s (streamAfter s i) (appendedBits s i) left (writeCells s written)) := by
  have h := advances_of_pushFits hs.session hm hf
  have hbb : (sessionMoved s (streamAfter s i) (appendedBits s i) left (writeCells s written)).bb
      = advanced s i .write left s.bb.flushed := by rw [← hm]; rfl
  have hfl : s.bb.flushed.toNat ≤ bytePosAfter s i - left.length := by
    have hsum := (h.written_left hst).1
    obtain ⟨-, -, -, -, hwrite⟩ := hs.session
    obtain ⟨-, -, -, -, hle, -⟩ := hwrite hm
    omega
  refine ⟨hs.tables, hbb ▸ sessionOk_advanced h hst (.inl rfl) hfl, drainedOk_iff.2 fun hw _ => ?_, ?_, hs.counts⟩
  · rw [hbb]
    exact drainedIn_advanced h hs.memory (drainedOk_iff.1 hs.drained hw hm) hst
  · exact writeCells_wf s hs.memory fun c hc =>
      pendingCells_lt hs.session i c (hst ▸ List.mem_append_left left hc)

theorem dataOk_flushedTo (hs : DataOk s) (hm : s.bb.mode = .write) {mode : BbMode}
    (hmode : mode = .write ∨ mode = .closed) : DataOk (flushedTo mode s) := by
  have h := advances_flush hs.session hm
  have hst : pendingCells s .bbFlush ++ [] = pendingCells s .bbFlush := List.append_nil _
  have hbb : (flushedTo mode s).bb
      = advanced s .bbFlush mode [] (s.bb.bytePos + BitVec.ofNat 32 (streamAfter s .bbFlush).out.length) := rfl
  refine ⟨hs.tables, hbb ▸ sessionOk_advanced h hst (hmode.imp_right fun hc => ⟨hc, rfl⟩) h.toNat_bytePos.le,
    drainedOk_iff.2 fun hw _ => ?_, writeCells_wf s hs.memory (pendingCells_lt hs.session .bbFlush), hs.counts⟩
  rw [hbb]
  exact drainedIn_advanced h hs.memory (drainedOk_iff.1 hs.drained hw hm) hst

/-- Any count matrix in its form will do, whatever OUT_LEN and RESULT hold. -/
theorem dataOk_unspecifiedResults_counts (hs : DataOk s) {c : CountMatrix} (hc : CountMatrix.wf c) :
    DataOk { unspecifiedResults s with counts := c } := { hs with counts := hc }

/-- Every command keeps the tables, the session and the memories in their forms. -/
theorem CommandResult.dataOk {i : Instr} (h : CommandResult s i t) (hs : DataOk s) : DataOk t := by
  cases h with
  | rejected => exact hs.raiseError _ _
  | nop => exact hs.complete
  | softReset => exact (DataOk.of_reset rfl rfl rfl (abandonSession_wf hs)).complete
  | clearCounts => exact DataOk.complete { hs with counts := countMatrix_wf_nil }
  | counted c hc => exact DataOk.complete { hs with counts := countLoop_wf hs.counts hc }
  | countRefused =>
    exact DataOk.raiseError (dataOk_unspecifiedResults_counts hs (unspecifiedCounts_wf s)) _ _
  | builtPlain => exact DataOk.complete { hs with tables := tablesOk_buildP s }
  | builtMarkov => exact DataOk.complete { hs with tables := tablesOk_buildM hs.counts }
  | clearTable => exact DataOk.complete { hs with tables := tablesOk_nil rfl }
  | deserialized r hr => exact DataOk.complete { hs with tables := tablesOk_readTable hr rfl rfl }
  | deserializeFailed =>
    refine DataOk.raiseError ?_ _ _
    exact { hs with tables := tablesOk_nil rfl }
  | output _ _ hm cells hc =>
    exact DataOk.complete
      { hs with drained := drainedOk_of_mode (by simp [hm]), memory := writeCells_wf s hs.memory hc }
  | outputFailed _ _ hm =>
    refine DataOk.raiseError ?_ _ _
    exact { hs with drained := drainedOk_of_mode (by simp [hm]), memory := scrambleRegion_wf s _ _ hs.memory }
  | gotEncoding => exact DataOk.complete { hs with }
  | lookedUp => exact DataOk.complete { hs with }
  | openedWrite hf =>
    exact DataOk.complete
      { hs with
        session := sessionOk_openWrite hs.session hf
        drained := fun _ _ k hk => absurd hk (by simp [openWrite, drainedCount]) }
  | openedRead hm hf =>
    exact DataOk.complete
      { hs with session := sessionOk_openRead hs.session hm hf, drained := drainedOk_of_mode nofun }
  | openReadRefused hm hf a ha =>
    refine DataOk.raiseError ?_ _ _
    exact
      { hs with
        session := sessionOk_unspecified (sessionOk_openRead hs.session hm hf)
        drained := drainedOk_of_windows (windows_ne_nil_of_refusedReads ha) }
  | closedRead hm =>
    exact DataOk.complete { hs with session := sessionOk_closed hs.session hm, drained := drainedOk_of_mode nofun }
  | closedWrite hm => exact (dataOk_flushedTo hs hm (.inr rfl)).complete
  | flushed hm => exact (dataOk_flushedTo hs hm (.inl rfl)).complete
  | pushed _ _ hm hf written left hst => exact (dataOk_pushed hs hm hf hst).complete
  | writeRefused _ _ _ a ha =>
    refine DataOk.raiseError ?_ _ _
    exact
      { hs with
        session := sessionOk_unspecified hs.session
        drained := drainedOk_of_windows (windows_ne_nil_of_refusedCells ha)
        memory := scrambleRegion_wf s _ _ hs.memory }
  | read _ _ hm v n hn =>
    exact DataOk.complete
      { hs with session := sessionOk_read hs.session hm hn, drained := drainedOk_of_mode (by simp [hm]) }
  | readRefused _ _ _ a ha =>
    refine DataOk.raiseError ?_ _ _
    exact
      { hs with
        session := sessionOk_unspecified hs.session
        drained := drainedOk_of_windows (windows_ne_nil_of_refusedReads ha) }

/-! ## The other events -/

theorem dataOk_regWrite (hs : DataOk s) (r : HostReg) (v : Word) : DataOk (regWrite v s r) := by
  cases r with
  | cmd =>
    have hl : DataOk (latchCommand v s) := { hs with }
    simp only [regWrite]
    rcases acceptCommand_cases v s with ⟨i, -, ha⟩ | ⟨why, -, ha⟩ <;> rw [ha]
    · exact hl
    · exact hl.raiseError _ _
  | countData => exact { hs with counts := setCountCell_wf _ _ _ hs.counts }
  | _ => exact { hs with }

/-- A host write to a byte of the session's region marks it as raced; any other leaves the session's bytes alone. -/
theorem drainedIn_set {m : Memory} {raced raced' : List Nat} {b : BitBuffer} {a : Nat} {v : Byte}
    (h : DrainedIn m raced b) (hsub : ∀ x ∈ raced, x ∈ raced')
    (ha : ∀ k < drainedCount b, (regionAddr b.dstBase k).toNat ∉ raced' → (regionAddr b.dstBase k).toNat ≠ a) :
    DrainedIn (Sparse.set a v m) raced' b := by
  intro k hk hraced
  rw [get_set_of_ne v m (ha k hk hraced)]
  exact h k hk fun hr => hraced (hsub _ hr)

/-- The drained bytes lie in the session's region, which is in use while the session is open. -/
theorem dstInUse_drained (hs : SessionOk s.bb) (hm : s.bb.mode = .write) {k : Nat} (hk : k < drainedCount s.bb) :
    dstInUse s (regionAddr s.bb.dstBase k).toNat = true := by
  obtain ⟨-, hdst, -, -, hwrite⟩ := hs
  have hpos := (hwrite hm).1
  have hk : k < s.bb.dstCap.toNat := by
    simp only [drainedCount] at hk
    simp only [bbPos] at hpos
    omega
  simp [dstInUse, hm, inRegion_regionAddr hdst hk]

/-- Reset's abandonment scrambles regions at most. -/
theorem abandonedMemory_wf (hm : Memory.wf s.memory) : Memory.wf (abandonedMemory s) := by
  have hsession : Memory.wf (abandonedSessionMemory s) := by
    unfold abandonedSessionMemory
    split_ifs
    · exact scrambleRegion_wf s _ _ hm
    · exact hm
  unfold abandonedMemory
  simp only
  split
  · split_ifs
    · exact scrambleRegion_wf { s with memory := abandonedSessionMemory s } _ _ hsession
    · exact hsession
  · exact hsession

theorem EventResult.dataOk (h : EventResult s t) (hs : DataOk s) : DataOk t := by
  cases h with
  | written r v => exact dataOk_regWrite hs r v
  | memoryWritten a v _ _ hd =>
    refine { hs with memory := memory_set_wf a v hs.memory, drained := drainedOk_iff.2 fun hw hm => ?_ }
    refine drainedIn_set (drainedOk_iff.1 hs.drained hw hm) (fun _ hx => hx) fun k hk _ he => ?_
    rw [← he, dstInUse_drained hs.session hm hk] at hd
    cases hd
  | memoryRaced a x =>
    refine { hs with memory := memory_set_wf a x hs.memory, drained := drainedOk_iff.2 fun hw hm => ?_ }
    exact drainedIn_set (drainedOk_iff.1 hs.drained hw hm) (fun _ hx => List.mem_cons_of_mem _ hx) fun k _ hraced he =>
      hraced (he ▸ List.mem_cons_self ..)
  | resetAsserted => exact .of_reset rfl rfl rfl (abandonedMemory_wf hs.memory)
  | resetReleased => exact .of_reset rfl rfl rfl hs.memory
  | initialised => exact .of_reset rfl rfl rfl hs.memory
  | ran _ _ _ hr => exact hr.dataOk hs
  | illegal => exact hs.raiseError _ _
  | _ => exact { hs with }

/-! ## The latched copies (R380) -/

theorem CommandResult.seq_idle {i : Instr} (h : CommandResult s i t) : t.seq = .idle := by
  cases h <;> rfl

/-- A region register is written only while no command runs; acceptance latches them all. -/
theorem latchOk_regWrite (hs : LatchOk s) {r : HostReg} (hr : s.seq = .idle ∨ discardedWhileBusy r = false) (v : Word) :
    LatchOk (regWrite v s r) := by
  intro hrun
  cases r with
  | cmd =>
    simp only [regWrite] at hrun ⊢
    rcases acceptCommand_cases v s with ⟨i, -, ha⟩ | ⟨why, -, ha⟩ <;> rw [ha] at hrun ⊢
    · rfl
    · cases hrun
  | srcAddr | srcLen | dstAddr | dstCap =>
    have hrun : s.seq = .running := hrun
    rcases hr with hr | hr
    · rw [hr] at hrun; cases hrun
    · cases hr
  | _ => exact hs hrun

theorem EventResult.latchOk (h : EventResult s t) (hs : LatchOk s) : LatchOk t := by
  cases h with
  | written r v hr => exact latchOk_regWrite hs hr v
  | resetAsserted | resetReleased | initialised | illegal => exact nofun
  | ran _ _ _ hr => exact fun hrun => by rw [hr.seq_idle] at hrun; cases hrun
  | _ => exact hs

/-- Settles O59: each part of the invariant is kept by each way a step can go. -/
theorem stepKeepsInvariant : Obligations.StepKeepsInvariant := by
  intro s t hs h
  obtain ⟨hstatus, hlatch, hdata⟩ := inv_iff.1 hs
  obtain ⟨es, hr⟩ := step_result h
  exact inv_iff.2 ⟨hr.statusOk hstatus, hr.latchOk hlatch, hr.dataOk { hdata with }⟩

end Sys2Proof.Machine
end

section
/-! SUPPORT. The host's accesses: those that reach the register block or miss it (20_memory.md R89), and those to a byte of
system memory (R95, R97). -/

namespace Sys2Proof.Machine

variable {s : State} {a : Word}

/-! ## Accesses by address -/

/-- An access with a byte in the block that is not an aligned word is refused (I-HOSTACC). -/
theorem hostAccess_refused {addr : Word} {width : AccessWidth} (act : HostReg → State → State)
    (ht : touchesBlock s addr width = true) (hf : width ≠ .word ∨ blockOffset s addr % 4 ≠ 0) :
    hostAccess addr width act s = .refused .hostAccess := by
  rcases hostAccess_cases addr width act s with ⟨hn, -⟩ | ⟨-, -, he⟩ | ⟨-, hw, h4, -⟩
  · rw [ht] at hn; cases hn
  · exact he
  · exact absurd (And.intro hw h4) (by tauto)

/-- An access with no byte in the block changes nothing (log 20). -/
theorem hostAccess_foreign {addr : Word} {width : AccessWidth} (act : HostReg → State → State)
    (ht : touchesBlock s addr width = false) : hostAccess addr width act s = .next s := by
  simp [hostAccess, ht]

/-- Settles O16: `touchesBlock` says which accesses have a byte in the block. -/
theorem hostAccessForms : Obligations.HostAccessForms := by
  intro s addr width v off
  have hoff : off 0 = blockOffset s addr := by simp [off, blockOffset]
  constructor
  · intro htouch hform
    have ht := (touchesBlock_iff s addr width).2 htouch
    rw [hoff] at hform
    exact ⟨hostAccess_refused readReg ht hform, hostAccess_refused (writeReg · v) ht hform⟩
  · intro hmiss
    have ht : touchesBlock s addr width = false := by
      rw [← Bool.not_eq_true, touchesBlock_iff]
      rintro ⟨k, hk, hlt⟩
      exact absurd hlt (Nat.not_lt.2 (hmiss k hk))
    exact ⟨hostAccess_foreign readReg ht, hostAccess_foreign (writeReg · v) ht⟩

/-! ## Accesses to a byte of system memory -/

theorem ordinaryMemory_iff :
    ordinaryMemory s a = true ↔ ∀ w ∈ s.env.params.windows, windowCovers w a.toNat = false := by
  simp [ordinaryMemory]

theorem dstInUse_iff {n : Nat} :
    dstInUse s n = true ↔ (s.seq = .running ∧ inRegion s.latch.dstBase s.latch.dstCap n = true)
      ∨ (s.bb.mode = .write ∧ inRegion s.bb.dstBase s.bb.dstCap n = true) := by
  simp [dstInUse]

theorem commandSrcInUse_iff {n : Nat} :
    commandSrcInUse s n = true ↔ s.seq = .running ∧ inRegion s.latch.srcBase s.latch.srcLen n = true := by
  simp [commandSrcInUse]

theorem sessionSrcInUse_iff {n : Nat} :
    sessionSrcInUse s n = true ↔ s.bb.mode = .read ∧ inRegion s.bb.srcBase s.bb.srcLen n = true := by
  simp [sessionSrcInUse]

theorem hostMemRead_window (h : ordinaryMemory s a = false) : hostMemRead a s = .refused .hostMemoryWindow := by
  simp [hostMemRead, h]

theorem hostMemWrite_window (h : ordinaryMemory s a = false) (v : Byte) :
    hostMemWrite a v s = .refused .hostMemoryWindow := by
  simp [hostMemWrite, h]

/-- A byte in no DST region in use, or one that a flush has made final, is read as memory holds it. -/
theorem hostMemRead_value (ho : ordinaryMemory s a = true)
    (h : dstInUse s a.toNat = false ∨ flushedByte s a.toNat = true) :
    hostMemRead a s = .next (withHostData ((readByte s a).setWidth 32) s) := by
  rcases h with h | h <;> simp [hostMemRead, ho, h, deliverByte, deliver, withHostData]

/-- Whatever the byte read, only the host's data and the counter of the free values change. -/
theorem hostMemRead_ordinary (ho : ordinaryMemory s a = true) :
    ∃ (x : Byte) (c : Nat), hostMemRead a s = .next
      { s with env := { s.env with hostData := x.setWidth 32, freeCtr := c } } := by
  cases h : dstInUse s a.toNat && !flushedByte s a.toNat with
  | true => exact ⟨Config.freeByte s.env.freeCtr a.toNat, s.env.freeCtr + 1, by simp only [hostMemRead, ho, h]; rfl⟩
  | false => exact ⟨readByte s a, s.env.freeCtr, by simp only [hostMemRead, ho, h]; rfl⟩

/-- The model's own fields once the host has written the byte at `a`: what it held is recorded where a SRC region in use
holds it (R97). -/
def racedEnv (s : State) (a : Word) : Env :=
  { s.env with
    races := raceRecord (commandSrcInUse s a.toNat) (a.toNat, readByte s a) s.env.races
    sessionRaces := raceRecord (sessionSrcInUse s a.toNat) (a.toNat, readByte s a) s.env.sessionRaces }

/-- The state once the host has written `v` to the byte at `a`, in no DST region in use. -/
def hostWrote (s : State) (a : Word) (v : Byte) : State :=
  { s with memory := Sparse.set a.toNat v s.memory, env := racedEnv s a }

theorem hostMemWrite_unused (ho : ordinaryMemory s a = true) (h : dstInUse s a.toNat = false) (v : Byte) :
    hostMemWrite a v s = .next (hostWrote s a v) := by
  simp only [hostMemWrite, ho, h]; rfl

theorem readByte_hostWrote (hm : Memory.wf s.memory) (v : Byte) : readByte (hostWrote s a v) a = v :=
  get_set_same _ _ hm.1

/-- A write to a byte of a DST region in use: the byte is unspecified. -/
theorem hostMemWrite_dst (ho : ordinaryMemory s a = true) (h : dstInUse s a.toNat = true) (v : Byte) :
    hostMemWrite a v s = .next
      { s with
        memory := Sparse.set a.toNat (Config.freeByte s.env.freeCtr a.toNat) s.memory
        env := { racedEnv s a with freeCtr := s.env.freeCtr + 1, dstRaced := a.toNat :: s.env.dstRaced } } := by
  simp only [hostMemWrite, ho, h]; rfl

/-- A read of a byte for which the records give no value returns what memory holds. -/
theorem observedByte_of_notMem {others : List Host.Cell} (h : ∀ c ∈ others, c.1 ≠ a.toNat) (t : Nat) :
    observedByte s others t a = readByte s a := by
  have hnone : valuesAt others a = [] := by
    simpa [valuesAt, List.filter_eq_nil_iff] using h
  simp [observedByte, hnone]

/-- The only record of a byte is the old value: a read returns the old or the new one. -/
theorem observedByte_raceRecord {pre post : List Host.Cell} {inUse : Bool} {old : Byte}
    (h : ∀ c ∈ pre ++ post, c.1 ≠ a.toNat) (t : Nat) :
    observedByte s (pre ++ raceRecord inUse (a.toNat, old) post) t a = readByte s a
      ∨ (inUse = true ∧ observedByte s (pre ++ raceRecord inUse (a.toNat, old) post) t a = old) := by
  cases inUse with
  | false => exact .inl (observedByte_of_notMem h t)
  | true =>
    have hone : valuesAt (pre ++ raceRecord true (a.toNat, old) post) a = [old] := by
      have hnil : ∀ l : List Host.Cell, (∀ c ∈ l, c.1 ≠ a.toNat) → l.filter (·.1 = a.toNat) = [] := by
        simp [List.filter_eq_nil_iff]
      rw [List.forall_mem_append] at h
      simp [valuesAt, raceRecord, hnil pre h.1, hnil post h.2]
    simp only [observedByte, hone, List.length_nil]
    have hlt := Nat.mod_lt (Config.freeNat s.env.freeCtr (4 * (t * 2 ^ 32 + a.toNat) + 3)) (show 0 < 0 + 2 by decide)
    generalize Config.freeNat s.env.freeCtr (4 * (t * 2 ^ 32 + a.toNat) + 3) % (0 + 2) = n at hlt ⊢
    match n, hlt with
    | 0, _ => exact .inr ⟨trivial, rfl⟩
    | 1, _ => exact .inl rfl

/-- Where the platform answers, the value of a region's byte is the one observed at its address. -/
theorem observedByte_of_regionByte {others : List Host.Cell} {base : Word} {t off : Nat} {x : Byte}
    (h : regionByte s others base t off = some x) : observedByte s others t (regionAddr base off) = x := by
  simp only [regionByte] at h
  split_ifs at h
  exact Option.some.inj h

section
variable {v x : Byte} {base : Word} {t off : Nat} (hm : Memory.wf s.memory) (ha : regionAddr base off = a)
include hm ha

/-- What a command reads at `a` after a host write of `v` to it: `v`, or, where its SRC region holds the byte, the old
value. -/
theorem srcByte_hostWrote (hc : ∀ c ∈ s.bb.staged ++ s.env.races, c.1 ≠ a.toNat)
    (hx : srcByte (hostWrote s a v) base t off = some x) :
    x = v ∨ (commandSrcInUse s a.toNat = true ∧ x = readByte s a) := by
  subst ha
  rw [← observedByte_of_regionByte hx]
  exact (observedByte_raceRecord hc t).imp_left fun h => h.trans (readByte_hostWrote hm v)

/-- What a read session reads there. -/
theorem sessionByte_hostWrote (hb : base = s.bb.srcBase) (hc : ∀ c ∈ s.env.sessionRaces, c.1 ≠ a.toNat)
    (hx : sessionByte (hostWrote s a v) t off = some x) :
    x = v ∨ (sessionSrcInUse s a.toNat = true ∧ x = readByte s a) := by
  subst hb ha
  rw [← observedByte_of_regionByte hx]
  exact (observedByte_raceRecord (pre := []) hc t).imp_left fun h => h.trans (readByte_hostWrote hm v)

end

/-- Settles O57: by the windows, and by whether a DST region in use holds the byte. -/
theorem hostMemoryAccesses : Obligations.HostMemoryAccesses := by
  intro s a v running session dstUsed ordinary returned
  have hord : ordinaryMemory s a = true ↔ ordinary := ordinaryMemory_iff
  have hdst : dstInUse s a.toNat = true ↔ dstUsed := dstInUse_iff
  refine ⟨fun hw => ?_, fun ho => ?_⟩
  · have ho : ordinaryMemory s a = false := by rwa [← Bool.not_eq_true, hord]
    exact ⟨hostMemRead_window ho, hostMemWrite_window ho v⟩
  have ho := hord.2 ho
  refine ⟨fun hu => ?_, fun hidle hs hr => ?_, hostMemRead_ordinary ho, ?_⟩
  · exact hostMemRead_value ho (.inl (by rwa [← Bool.not_eq_true, hdst]))
  · exact hostMemRead_value ho (.inr (by simpa [flushedByte, hidle, hr] using hs))
  have hother (m : Byte) (x : Word) (hx : x ≠ a) : Sparse.get x.toNat (Sparse.set a.toNat m s.memory) = readByte s x :=
    get_set_of_ne _ _ (mt BitVec.eq_of_toNat_eq hx)
  cases hu : dstInUse s a.toNat with
  | true =>
    refine ⟨_, _, ?_, hostMemWrite_dst ho hu v, hother _, fun hn => absurd (hdst.1 hu) hn,
      fun _ _ _ _ hn => absurd (hdst.1 hu) hn⟩
    exact ⟨rfl, rfl, rfl⟩
  | false =>
    refine ⟨_, racedEnv s a, ⟨rfl, rfl, rfl⟩, hostMemWrite_unused ho hu v, hother v,
      fun _ hm => readByte_hostWrote hm v, fun k off base x _ hm ha => ⟨fun hc hx => ?_, fun hc hb hx => ?_⟩⟩
    · exact (srcByte_hostWrote hm ha hc hx).imp_right (.imp_left commandSrcInUse_iff.1)
    · exact (sessionByte_hostWrote hm ha hb hc hx).imp_right (.imp_left sessionSrcInUse_iff.1)

end Sys2Proof.Machine
end

section
/-! SUPPORT. The checks of COMPRESS and DECOMPRESS (44_codec.md R331, R341), and that each leaves everything. -/

namespace Sys2Proof.Machine

variable {s : State}

/-- Two regions overlap where each holds a byte and each begins before the other ends (R85). -/
theorem regionsOverlap_iff {l : Latch} :
    regionsOverlap l = true ↔ 0 < l.srcLen.toNat ∧ 0 < l.dstCap.toNat
      ∧ l.srcBase.toNat < l.dstBase.toNat + l.dstCap.toNat ∧ l.dstBase.toNat < l.srcBase.toNat + l.srcLen.toNat := by
  simp [regionsOverlap, and_assoc]

/-- A check of COMPRESS or DECOMPRESS that fails ends the command with nothing else changed. -/
theorem exec_codecCheck {e : ErrCode} (h : codecCheck s = some e) {i : Instr} (hi : i ∈ [Instr.compress, .decompress]) :
    FailsTo (exec i s) s e 0#32 s := by
  have hfail := failsTo_fail (s := s) e 0#32 (keepsEnv_refl s.env)
  simp only [List.mem_cons, List.not_mem_nil, or_false] at hi
  rcases hi with rfl | rfl
  · simpa only [exec, execCompress, h] using hfail
  · simpa only [exec, execDecompress, h] using hfail

/-- COMPRESS needs a byte of DST for the header. -/
theorem execCompress_noRoom (h : codecCheck s = none) (hc : s.latch.dstCap = 0#32) :
    FailsTo (exec .compress s) s .dstOverflow 0#32 s := by
  simpa only [exec, execCompress, h, if_pos hc] using failsTo_fail (s := s) .dstOverflow 0#32 (keepsEnv_refl s.env)

/-- Settles O42: the branches of `codecCheck`, in order. -/
theorem codecPreconditions : Obligations.CodecPreconditions := by
  intro s i hi l fits overlap
  have hfits : fits ↔ regionFits s.latch.srcBase s.latch.srcLen = true
      ∧ regionFits s.latch.dstBase s.latch.dstCap = true := by
    simp [regionFits, fits, l]
  have hoverlap : overlap ↔ regionsOverlap s.latch = true := regionsOverlap_iff.symm
  rw [hfits, hoverlap]
  refine ⟨fun hm => exec_codecCheck ?_ hi, fun hm hf => exec_codecCheck ?_ hi, fun hm hf ho => exec_codecCheck ?_ hi,
    fun hm hf ho hk => exec_codecCheck ?_ hi, ?_⟩
  · simp [codecCheck, hm]
  · simp only [codecCheck, hm, ← Bool.and_eq_true] at hf ⊢
    simp [hf]
  · simp [codecCheck, hm, hf, ho]
  · simp [codecCheck, hm, hf, ho, hk]
  · rintro hm hf ho hk rfl hc
    exact execCompress_noRoom (by simp [codecCheck, hm, hf, ho, hk]) hc

end Sys2Proof.Machine
end

section
/-! SUPPORT. The write streams of SERIALIZE and COMPRESS stay within their capacity (40_bit_buffer.md R144), and so
does the output of DECOMPRESS (44_codec.md R341). -/

namespace Sys2Proof.Machine

/-- A write stream in its form at a position within a capacity of `cap` bytes. -/
structure Writer.Within (cap : Nat) (w : Writer) : Prop where
  ok : WriterOk w
  pos : writerPos w ≤ 8 * cap

/-- A writer that a serialization answers is within the capacity; an error answers none. -/
def WritesWithin (cap : Nat) : Except Nat Writer → Prop
  | .ok w => w.Within cap
  | .error _ => True

theorem WritesWithin.bind {cap : Nat} {x : Except Nat Writer} {f : Writer → Except Nat Writer} (hx : WritesWithin cap x)
    (hf : ∀ w, w.Within cap → WritesWithin cap (f w)) : WritesWithin cap (x.bind f) := by
  cases x with
  | error n => trivial
  | ok w => exact hf w hx

theorem Writer.Within.of_start (cap : Nat) : Writer.start.Within cap := ⟨by decide, by simp [Writer.start, writerPos]⟩

/-- A stream that appends bits moves by their number. -/
theorem writerPos_of_appends {w w' : Writer} (hw : WriterOk w) (hw' : WriterOk w') {bits : List Bool}
    (h : writerBits w' = writerBits w ++ bits) : writerPos w' = writerPos w + bits.length := by
  rw [← length_writerBits hw, ← length_writerBits hw', h, List.length_append]

/-- Where `n` bits fit, a stream that appends them stays within the capacity. -/
theorem Writer.Within.of_pushFits {cap : Nat} {w w' : Writer} (h : w.Within cap) {bits : List Bool}
    (ha : WriterOk w' ∧ writerBits w' = writerBits w ++ bits) (hf : pushFits cap (writerPos w) bits.length = true) :
    w'.Within cap := by
  have hpos := h.pos
  simp only [pushFits, Bool.or_eq_true, decide_eq_true_eq] at hf
  exact ⟨ha.1, by rw [writerPos_of_appends h.ok ha.1 ha.2]; omega⟩

/-- A codeword that fits. -/
theorem Writer.Within.of_pushCode {cap : Nat} {w : Writer} (h : w.Within cap) {code : List Bool}
    (hf : pushFits cap (writerPos w) code.length = true) : (pushCode code w).Within cap :=
  h.of_pushFits (pushDesc_appends h.ok code.length _) (by simpa using hf)

theorem writesWithin_pushWithin {cap : Nat} {w w' : Writer} (h : w.Within cap) {bits : List Bool}
    (ha : WriterOk w' ∧ writerBits w' = writerBits w ++ bits) : WritesWithin cap (pushWithin cap bits.length w w') := by
  unfold pushWithin
  split_ifs with hf
  · exact h.of_pushFits ha hf
  · trivial

theorem writesWithin_pushBit {cap : Nat} {w : Writer} (h : w.Within cap) (v : Bool) :
    WritesWithin cap (pushWithin cap 1 w (pushBit v w)) := writesWithin_pushWithin h (pushBit_appends h.ok v)

theorem writesWithin_pushByte {cap : Nat} {w : Writer} (h : w.Within cap) (v : Byte) :
    WritesWithin cap (pushWithin cap 8 w (pushByte v w)) := writesWithin_pushWithin h (pushByte_appends h.ok v)

theorem serTree_within {cap : Nat} (t : Tree) {w : Writer} (h : w.Within cap) : WritesWithin cap (serTree cap t w) := by
  induction t generalizing w with
  | leaf sym => exact (writesWithin_pushBit h true).bind fun w hw => writesWithin_pushByte hw sym
  | node l r ihl ihr => exact (writesWithin_pushBit h false).bind fun w hw => (ihl hw).bind fun w hw => ihr hw

theorem serSlots_within {cap : Nat} (slots : List (Nat × Tree)) (cs : List Nat) {w : Writer} (h : w.Within cap) :
    WritesWithin cap (serSlots cap slots cs w) := by
  induction cs generalizing w with
  | nil => exact h
  | cons c cs ih =>
    unfold serSlots
    split
    · exact (writesWithin_pushBit h true).bind fun w hw => (serTree_within _ hw).bind fun w hw => ih hw
    · exact (writesWithin_pushBit h false).bind fun w hw => ih hw

theorem serTable_within (cap : Nat) (kind : TableKind) (slots : List (Nat × Tree)) :
    WritesWithin cap (serTable cap kind slots) := by
  unfold serTable
  split
  · exact (writesWithin_pushBit (.of_start cap) false).bind fun w hw => serTree_within _ hw
  · exact (writesWithin_pushBit (.of_start cap) true).bind fun w hw => serSlots_within slots _ hw

/-- A flushed stream has at most as many bytes as the capacity: it is whole bytes. -/
theorem Writer.Within.length_flush_le {cap : Nat} {w : Writer} (h : w.Within cap) : (flush w).out.length ≤ cap := by
  have hpos := h.pos
  unfold flush
  split_ifs with h0 <;> simp only [writerPos, List.length_append, List.length_singleton] at hpos ⊢ <;> omega

/-- The stream that COMPRESS writes after its header. -/
theorem compressLoop_within {rd : Nat → Nat → Option Byte} {s : State} {cap whole n i : Nat} {prev : Byte}
    {w w' : Writer} (h : w.Within cap) (hl : compressLoop rd s cap whole n i prev w = .ok w') : w'.Within cap := by
  induction n generalizing i prev w with
  | zero => cases hl; exact h
  | succ n ih =>
    unfold compressLoop at hl
    simp only at hl
    split at hl
    · cases hl
    · split at hl
      · cases hl
      · split at hl
        · cases hl
        · rename_i code _
          split_ifs at hl with hf
          exact ih (h.of_pushCode hf) hl

/-- DECOMPRESS's output. -/
theorem decompressLoop_length_le {rd : Nat → Nat → Option Byte} {s : State} {n total whole room cur : Nat} {prev : Byte}
    {out bytes : List Byte} (hl : decompressLoop rd s n total whole room cur prev out = .ok bytes) :
    bytes.length ≤ out.length + room := by
  induction room generalizing cur prev out with
  | zero =>
    unfold decompressLoop at hl
    split at hl
    · cases hl; simp
    · split at hl <;> cases hl
  | succ room ih =>
    unfold decompressLoop at hl
    split at hl
    · cases hl; simp
    · split at hl
      · cases hl
      · cases hl
      · have := ih hl
        simp only [List.length_cons] at this
        omega

end Sys2Proof.Machine
end

section
/-! SUPPORT. Which bytes of system memory a command writes (20_memory.md R82): those of the DST region of the command, or of
the session, that runs. -/

namespace Sys2Proof.Machine

variable {s t : State} {base len : Word} {n : Nat}

/-! ## Memories that agree outside a region -/

/-- Writes to bytes of the region leave every other byte. -/
theorem sameOutside_writeCells {cells : List Host.Cell} (h : ∀ c ∈ cells, ∃ k < n, c.1 = (regionAddr base k).toNat) :
    SameOutside s (writeCells s cells) base n := by
  intro a ha
  refine get_foldl_writeCell_of_notMem s cells s.memory fun c hc he => ?_
  obtain ⟨k, hk, hck⟩ := h c hc
  exact ha k hk (BitVec.eq_of_toNat_eq (he.symm.trans hck))

/-- So does making its bytes unspecified. -/
theorem sameOutside_scrambleRegion : SameOutside s (scrambleRegion s base len) base len.toNat := by
  intro a ha
  refine List.foldlRecOn (motive := fun m => Sparse.get a.toNat m = readByte s a) _ _ rfl fun m hm i hi => ?_
  exact (get_set_of_ne _ _ (mt BitVec.eq_of_toNat_eq (ha i (List.mem_range.1 hi)))).trans hm

/-- The addresses of bytes placed from an offset on. -/
theorem mem_cellsFrom {off : Nat} {vs : List Byte} {c : Host.Cell} (h : c ∈ cellsFrom base off vs) :
    ∃ k < off + vs.length, c.1 = (regionAddr base k).toNat := by
  rw [cellsFrom_eq_map] at h
  obtain ⟨k, hk, rfl⟩ := List.mem_map.1 h
  exact ⟨off + k, by have := List.mem_range.1 hk; omega, rfl⟩

/-- The bytes that `t` changes of the state `s` lie in the region. -/
def ChangesWithin (s t : State) (base len : Word) : Prop :=
  ∀ a : Word, readByte t a ≠ readByte s a → inRegion base len a.toNat = true

theorem changesWithin_of_sameOutside (hf : regionFits base len = true) (h : SameOutside s t.memory base len.toNat) :
    ChangesWithin s t base len := by
  intro a ha
  by_contra hin
  refine ha (h a fun k hk he => hin ?_)
  rw [he]
  exact inRegion_regionAddr hf hk

theorem changesWithin_of_memory_eq (h : t.memory = s.memory) : ChangesWithin s t base len :=
  fun _ ha => absurd (by rw [readByte, readByte, h]) ha

/-! ## SERIALIZE, COMPRESS and DECOMPRESS -/

theorem changesWithin_of_fail {code : ErrCode} {info : Word} (h : fail code info s = .next t) :
    ChangesWithin s t base len := changesWithin_of_memory_eq (fail_next.1 h ▸ rfl)

section
variable (hf : regionFits s.latch.dstBase s.latch.dstCap = true)
include hf

/-- An error of the stream, or of the platform, leaves the DST region unspecified at most (R405 (d)). -/
theorem changesWithin_unspecifiedOutput {code : ErrCode} {info : Word}
    (h : fail code info (unspecifiedOutput s) = .next t) : ChangesWithin s t s.latch.dstBase s.latch.dstCap := by
  rw [← fail_next.1 h]
  exact changesWithin_of_sameOutside hf sameOutside_scrambleRegion

theorem changesWithin_failOutput {code : ErrCode} {info : Word} {written : Nat}
    (h : failOutput code info written s = .next t) : ChangesWithin s t s.latch.dstBase s.latch.dstCap := by
  rcases failOutput_cases code info written s with he | ⟨a, -, he⟩ <;> rw [he] at h <;>
    exact changesWithin_unspecifiedOutput hf h

theorem changesWithin_finishOutput {cells : List Host.Cell} {outLen result : Word}
    (hc : ∀ c ∈ cells, ∃ k < s.latch.dstCap.toNat, c.1 = (regionAddr s.latch.dstBase k).toNat)
    (h : finishOutput cells outLen result s = .next t) : ChangesWithin s t s.latch.dstBase s.latch.dstCap := by
  rcases finishOutput_cases cells outLen result s with ⟨-, he⟩ | ⟨a, -, he⟩ <;> rw [he] at h
  · rw [← finish_next.1 h]
    exact changesWithin_of_sameOutside hf (sameOutside_writeCells hc)
  · exact changesWithin_unspecifiedOutput hf h

end

theorem execSerialize_changesWithin (h : exec .serialize s = .next t) :
    ChangesWithin s t s.latch.dstBase s.latch.dstCap := by
  simp only [exec, execSerialize] at h
  split_ifs at h with hm hf
  · exact changesWithin_of_fail h
  · exact changesWithin_of_fail h
  · exact changesWithin_of_fail h
  · exact changesWithin_of_fail h
  · have hf : regionFits s.latch.dstBase s.latch.dstCap = true := by simpa using hf
    have hw := serTable_within s.latch.dstCap.toNat s.kind s.slots
    split at h
    · exact changesWithin_failOutput hf h
    · rename_i w he
      rw [he] at hw
      refine changesWithin_finishOutput hf (fun c hc => ?_) h
      obtain ⟨k, hk, hck⟩ := mem_cellsFrom hc
      have := hw.length_flush_le
      exact ⟨k, by omega, hck⟩

/-- The codec's checks have passed: the DST region does not wrap. -/
theorem regionFits_of_codecCheck (h : codecCheck s = none) : regionFits s.latch.dstBase s.latch.dstCap = true := by
  by_contra hf
  simp [codecCheck, mode_of_codecCheck h, eq_false_of_ne_true hf] at h

/-- The header and a stream within one byte less than the region's capacity lie in it (R332). -/
theorem mem_compressCells {w : Writer} {cap : Nat} (hc0 : 0 < cap) (hw : w.Within (cap - 1)) {c : Host.Cell}
    (hc : c ∈ compressCells s w) : ∃ k < cap, c.1 = (regionAddr s.latch.dstBase k).toNat := by
  simp only [compressCells, List.cons_append, List.mem_cons, List.mem_append, List.not_mem_nil, or_false] at hc
  rcases hc with rfl | hc | rfl
  · exact ⟨0, hc0, rfl⟩
  · obtain ⟨k, hk, hck⟩ := mem_cellsFrom hc
    have := hw.length_flush_le
    exact ⟨k, by omega, hck⟩
  · exact ⟨0, hc0, rfl⟩

theorem execCompress_changesWithin (h : exec .compress s = .next t) :
    ChangesWithin s t s.latch.dstBase s.latch.dstCap := by
  simp only [exec, execCompress] at h
  split at h
  · exact changesWithin_of_fail h
  · rename_i hcheck
    have hf := regionFits_of_codecCheck hcheck
    split_ifs at h with hcap
    · exact changesWithin_of_fail h
    · split at h
      · exact changesWithin_unspecifiedOutput hf h
      · split at h
        · exact changesWithin_failOutput hf h
        · exact changesWithin_failOutput hf h
        · rename_i w hw
          have hcap : 0 < s.latch.dstCap.toNat := by bv_omega
          exact changesWithin_finishOutput hf
            (fun c hc => mem_compressCells hcap (compressLoop_within (.of_start _) hw) hc) h

theorem execDecompress_changesWithin (h : exec .decompress s = .next t) :
    ChangesWithin s t s.latch.dstBase s.latch.dstCap := by
  simp only [exec, execDecompress] at h
  split at h
  · exact changesWithin_of_fail h
  · rename_i hcheck
    have hf := regionFits_of_codecCheck hcheck
    split_ifs at h
    · exact changesWithin_of_fail h
    · split at h
      · exact changesWithin_unspecifiedOutput hf h
      · split at h
        · exact changesWithin_unspecifiedOutput hf h
        · split at h
          · exact changesWithin_of_fail h
          · split at h
            · exact changesWithin_failOutput hf h
            · exact changesWithin_failOutput hf h
            · rename_i out hout
              refine changesWithin_finishOutput hf (fun c hc => ?_) h
              obtain ⟨k, hk, hck⟩ := mem_cellsFrom hc
              have := decompressLoop_length_le hout
              simp only [List.length_nil] at this
              exact ⟨k, by omega, hck⟩

/-! ## The session and SOFT_RESET -/

/-- The bytes not yet known to be in DST are bytes of the session's region. -/
theorem Advances.mem_pendingCells {i : Instr} (h : Advances s i) {c : Host.Cell} (hc : c ∈ pendingCells s i) :
    ∃ k < s.bb.dstCap.toNat, c.1 = (regionAddr s.bb.dstBase k).toNat := by
  rw [h.pendingCells_eq] at hc
  obtain ⟨k, hk, rfl⟩ := List.mem_map.1 hc
  have := List.mem_range'_1.1 hk
  have := h.bytePosAfter_le
  exact ⟨k, by omega, rfl⟩

/-- Writing some of them changes bytes of that region only. -/
theorem Advances.changesWithin {i : Instr} (h : Advances s i) {cells : List Host.Cell} (hc : cells ⊆ pendingCells s i)
    (ht : t.memory = writeCells s cells) : ChangesWithin s t s.bb.dstBase s.bb.dstCap := by
  obtain ⟨-, hf, -⟩ := h.session
  exact changesWithin_of_sameOutside hf (ht ▸ sameOutside_writeCells fun c hm => h.mem_pendingCells (hc hm))

/-- A command with no DST region of its own leaves memory alone, or a write session is open, the command is one of the
bit buffer's or SOFT_RESET, and it changes bytes of the session's region only. -/
theorem CommandResult.memory_changes {i : Instr} (h : CommandResult s i t) (hd : writesDst i = false)
    (hs : SessionOk s.bb) :
    t.memory = s.memory
      ∨ ((usesSession i = true ∨ i = .softReset) ∧ s.bb.mode = .write
        ∧ ChangesWithin s t s.bb.dstBase s.bb.dstCap) := by
  cases h with
  | output _ hi | outputFailed _ hi => rw [hi] at hd; cases hd
  | softReset =>
    by_cases hm : s.bb.mode = .write
    · refine .inr ⟨.inr rfl, hm, (advances_flush hs hm).changesWithin (cells := abandonedCells s) ?_ ?_⟩
      · exact fun c hc => List.mem_append_left _ (List.mem_filter.1 hc).1
      · simp [softResetState, resetState, abandonSession, hm]
    · left
      simp [softResetState, resetState, abandonSession, hm]
  | closedWrite hm => exact .inr ⟨.inl rfl, hm, (advances_flush hs hm).changesWithin (List.Subset.refl _) rfl⟩
  | flushed hm => exact .inr ⟨.inl rfl, hm, (advances_flush hs hm).changesWithin (List.Subset.refl _) rfl⟩
  | pushed _ hi hm hf written left hst =>
    exact .inr ⟨.inl (usesSession_of_writesSession (writesSession_of_pushesBits hi)), hm,
      (advances_of_pushFits hs hm hf).changesWithin (hst ▸ List.subset_append_left written left) rfl⟩
  | writeRefused _ hi hm =>
    obtain ⟨-, hf, -⟩ := hs
    exact .inr ⟨.inl (usesSession_of_writesSession hi), hm, changesWithin_of_sameOutside hf sameOutside_scrambleRegion⟩
  | _ => exact .inl rfl

/-- Settles O55: the three commands with a DST region of their own, and the rest. -/
theorem engineWritesOnlyDst : Obligations.EngineWritesOnlyDst := by
  intro i s t a hs h ha
  cases hd : writesDst i with
  | true =>
    left
    cases i with
    | serialize => exact ⟨by decide, execSerialize_changesWithin h a ha⟩
    | compress => exact ⟨by decide, execCompress_changesWithin h a ha⟩
    | decompress => exact ⟨by decide, execDecompress_changesWithin h a ha⟩
    | _ => cases hd
  | false =>
    rcases (exec_result h).memory_changes hd hs with hmem | ⟨hi, hm, hc⟩
    · exact absurd (by rw [readByte, readByte, hmem]) ha
    · exact .inr ⟨hi, hm, hc a ha⟩

end Sys2Proof.Machine
end

section
/-! SUPPORT. The command word (30_encoding.md): a word is its fields, a row selects the words that what it builds encodes to,
and the statements about decoding that follow. -/

namespace Sys2Proof

open Machine

/-! ## Words by their fields (R111) -/

/-- The reserved bits 11:9 (R111). -/
def fieldRsv (w : Word) : BitVec 3 := w.extractLsb' 9 3

/-- The reserved bits of an assembled word. -/
@[simp] theorem fieldRsv_assemble (opc : Byte) (m : BitVec 1) (k : BitVec 4) (a b : Byte) :
    fieldRsv (assemble opc m k a b) = 0#3 := by
  refine BitVec.eq_of_getLsbD_eq fun i hi => ?_
  rw [fieldRsv, BitVec.getLsbD_extractLsb', getLsbD_assemble, if_neg (by omega), if_neg (by omega), if_pos (by omega)]
  simp

/-- The six fields are all of a word. -/
theorem eq_iff_fields {v w : Word} :
    v = w ↔ fieldOpc v = fieldOpc w ∧ fieldM v = fieldM w ∧ fieldRsv v = fieldRsv w ∧ fieldK v = fieldK w
      ∧ fieldA v = fieldA w ∧ fieldB v = fieldB w := by
  refine ⟨by rintro rfl; simp, fun h => BitVec.eq_of_toNat_eq ?_⟩
  simp only [fieldOpc, fieldM, fieldRsv, fieldK, fieldA, fieldB, BitVec.toNat_eq, BitVec.extractLsb'_toNat,
    Nat.shiftRight_eq_div_pow] at h
  omega

theorem eq_assemble_iff {opc : Byte} {m : BitVec 1} {k : BitVec 4} {a b : Byte} {w : Word} :
    w = assemble opc m k a b ↔ fieldOpc w = opc ∧ fieldM w = m ∧ fieldRsv w = 0#3 ∧ fieldK w = k ∧ fieldA w = a
      ∧ fieldB w = b := by
  simp [eq_iff_fields]

/-! ## What a row selects (R115, R116) -/

/-- Every row fixes the opcode, `M` and the reserved bits, the latter at 0. -/
theorem opRows_mask : ∀ r ∈ opRows, fieldOpc r.mask = BitVec.allOnes 8 ∧ fieldM r.mask = BitVec.allOnes 1
    ∧ fieldRsv r.mask = BitVec.allOnes 3 ∧ fieldRsv r.pattern = 0#3 := by decide

/-- A row selects a word field by field. -/
theorem selects_iff_fields {r : OpRow} (hr : r ∈ opRows) {w : Word} :
    r.selects w = true ↔ fieldOpc w = fieldOpc r.pattern ∧ fieldM w = fieldM r.pattern ∧ fieldRsv w = 0#3
      ∧ fieldK w &&& fieldK r.mask = fieldK r.pattern ∧ fieldA w &&& fieldA r.mask = fieldA r.pattern
      ∧ fieldB w &&& fieldB r.mask = fieldB r.pattern := by
  obtain ⟨ho, hm, hv, hp⟩ := opRows_mask r hr
  rw [OpRow.selects, beq_iff_eq, eq_iff_fields, hp]
  simp only [fieldOpc, fieldM, fieldRsv, fieldK, fieldA, fieldB, BitVec.extractLsb'_and] at ho hm hv ⊢
  simp only [ho, hm, hv, BitVec.and_allOnes]

/-! ## A row spells what it builds

The one fact about the rows that both directions of the round trip need: for a row with operands, `A`, `B` and `K` are
compared as its mask says (all ones: fixed; 0: free). -/

/-- The row selects exactly the words `w` such that what it builds of `w` is well formed and encodes to `w`. -/
def OpRow.Spells (r : OpRow) : Prop :=
  ∀ w, r.selects w = true ↔ WellFormed (r.build w) ∧ w = encode (r.build w)

/-- A row with no operand selects its pattern only. -/
theorem OpRow.plain_spells_iff {p : Word} {i : Instr} : (OpRow.plain p i).Spells ↔ WellFormed i ∧ p = encode i := by
  have hs (w : Word) : (OpRow.plain p i).selects w = true ↔ w = p := by
    rw [OpRow.selects, beq_iff_eq]
    exact (congrArg (· = p) (BitVec.and_allOnes (x := w))).to_iff
  refine ⟨fun h => (h p).1 ((hs p).2 rfl), fun ⟨hi, hp⟩ w => ?_⟩
  rw [hs, hp]
  exact (and_iff_right hi).symm

/-- A row with operands spells what it builds where its mask on `K`, `A` and `B` asks just for a well-formed instruction with
those fields. -/
theorem OpRow.spells_of_fields {r : OpRow} (hr : r ∈ opRows) {k : Word → BitVec 4} {a b : Word → Byte}
    (he : ∀ w, encode (r.build w) = assemble (fieldOpc r.pattern) (fieldM r.pattern) (k w) (a w) (b w))
    (hf : ∀ w, fieldK w &&& fieldK r.mask = fieldK r.pattern ∧ fieldA w &&& fieldA r.mask = fieldA r.pattern
        ∧ fieldB w &&& fieldB r.mask = fieldB r.pattern
      ↔ WellFormed (r.build w) ∧ fieldK w = k w ∧ fieldA w = a w ∧ fieldB w = b w) : r.Spells := by
  intro w
  rw [selects_iff_fields hr, he, eq_assemble_iff, hf]
  tauto

theorem getEncoding_spells : OpRow.Spells ⟨0x0000FFFF#32, 0x00000010#32, fun w => .getEncoding (fieldA w) (fieldB w)⟩ := by
  refine OpRow.spells_of_fields (by simp [opRows]) (fun _ => rfl) fun w => ?_
  change fieldK w &&& BitVec.allOnes 4 = 0#4 ∧ fieldA w &&& 0#8 = 0#8 ∧ fieldB w &&& 0#8 = 0#8 ↔ _
  simp only [BitVec.and_allOnes, BitVec.and_zero, WellFormed, Instr.wellFormed, true_and]

theorem lookup_spells : OpRow.Spells ⟨0x0000FFFF#32, 0x00000011#32, fun w => .lookup (fieldA w) (fieldB w)⟩ := by
  refine OpRow.spells_of_fields (by simp [opRows]) (fun _ => rfl) fun w => ?_
  change fieldK w &&& BitVec.allOnes 4 = 0#4 ∧ fieldA w &&& 0#8 = 0#8 ∧ fieldB w &&& 0#8 = 0#8 ↔ _
  simp only [BitVec.and_allOnes, BitVec.and_zero, WellFormed, Instr.wellFormed, true_and]

theorem bbPushByte_spells : OpRow.Spells ⟨0xFF00FFFF#32, 0x00000025#32, fun w => .bbPushByte (fieldA w)⟩ := by
  refine OpRow.spells_of_fields (by simp [opRows]) (fun _ => rfl) fun w => ?_
  change fieldK w &&& BitVec.allOnes 4 = 0#4 ∧ fieldA w &&& 0#8 = 0#8 ∧ fieldB w &&& BitVec.allOnes 8 = 0#8 ↔ _
  simp only [BitVec.and_allOnes, BitVec.and_zero, WellFormed, Instr.wellFormed, true_and]

theorem bbPopRest_spells : OpRow.Spells ⟨0xFF000FFF#32, 0x0000002C#32, fun w => .bbPopRest (fieldA w) (fieldK w)⟩ := by
  refine OpRow.spells_of_fields (by simp [opRows]) (fun _ => rfl) fun w => ?_
  change fieldK w &&& 0#4 = 0#4 ∧ fieldA w &&& 0#8 = 0#8 ∧ fieldB w &&& BitVec.allOnes 8 = 0#8 ↔ _
  simp only [BitVec.and_allOnes, BitVec.and_zero, WellFormed, Instr.wellFormed, true_and]

/-- What the mask of BB_PUSH_BIT asks of `A` is that its operand is well formed. -/
theorem and_0xFE_eq_zero_iff (a : Byte) : a &&& 0xFE#8 = 0#8 ↔ WellFormed (.bbPushBit a) := by revert a; decide

theorem bbPushBit_spells : OpRow.Spells ⟨0xFFFEFFFF#32, 0x00000024#32, fun w => .bbPushBit (fieldA w)⟩ := by
  refine OpRow.spells_of_fields (by simp [opRows]) (fun _ => rfl) fun w => ?_
  change fieldK w &&& BitVec.allOnes 4 = 0#4 ∧ fieldA w &&& 0xFE#8 = 0#8 ∧ fieldB w &&& BitVec.allOnes 8 = 0#8 ↔ _
  simp only [BitVec.and_allOnes, and_0xFE_eq_zero_iff, true_and]
  exact and_left_comm

/-- Every row of the table spells what it builds. -/
theorem opRows_spell : ∀ r ∈ opRows, r.Spells := by
  simp only [opRows, List.cons_append, List.nil_append, List.forall_mem_cons, getEncoding_spells, lookup_spells,
    bbPushBit_spells, bbPushByte_spells, bbPopRest_spells, OpRow.plain_spells_iff, List.not_mem_nil, true_and, false_implies,
    implies_true, and_true]
  decide

/-! ## At most one row (R115), and what the decoder answers -/

/-- Two rows disagree on a bit that both fix. -/
theorem opRows_disagree : ∀ j k : Fin opRows.length, j ≠ k →
    opRows[j].pattern &&& opRows[k].mask ≠ opRows[k].pattern &&& opRows[j].mask := by decide

/-- The rows are pairwise disjoint (R115). -/
theorem opRows_disjoint {w : Word} {j k : Fin opRows.length} (hj : opRows[j].selects w = true)
    (hk : opRows[k].selects w = true) : j = k := by
  by_contra hne
  refine opRows_disagree j k hne ?_
  rw [OpRow.selects, beq_iff_eq] at hj hk
  rw [← hj, ← hk, BitVec.and_assoc, BitVec.and_assoc, BitVec.and_comm opRows[j].mask]

/-- A selected row is the one the decoder finds. -/
theorem decode_of_selects {r : OpRow} (hr : r ∈ opRows) {w : Word} (h : r.selects w = true) :
    decode w = .instr (r.build w) := by
  cases hf : opRows.find? (·.selects w) with
  | none => exact absurd h (List.find?_eq_none.1 hf r hr)
  | some q =>
    obtain ⟨j, hj, rfl⟩ := List.getElem_of_mem hr
    obtain ⟨k, hk, rfl⟩ := List.getElem_of_mem (List.mem_of_find?_eq_some hf)
    obtain rfl := Fin.mk.inj (opRows_disjoint (j := ⟨j, hj⟩) (k := ⟨k, hk⟩) h
      (List.find?_some (p := fun r : OpRow => r.selects w) hf))
    rw [decode, hf]

theorem decode_eq_rejected {w : Word} (h : ∀ r ∈ opRows, r.selects w = false) : ∃ why, decode w = .rejected why := by
  have hf : opRows.find? (·.selects w) = none := List.find?_eq_none.2 fun r hr => by simp [h r hr]
  exact ⟨_, by rw [decode, hf]⟩

theorem exists_selects_of_decode {w : Word} {i : Instr} (h : decode w = .instr i) :
    ∃ r ∈ opRows, r.selects w = true ∧ r.build w = i := by
  unfold decode at h
  split at h
  next r hf =>
    cases h
    exact ⟨r, List.mem_of_find?_eq_some hf, List.find?_some (p := fun r : OpRow => r.selects w) hf, rfl⟩
  next => cases h

/-- Every instruction is what some row builds of its encoding. -/
theorem exists_build_encode (i : Instr) : ∃ r ∈ opRows, r.build (encode i) = i := by
  cases i with
  | getEncoding prev sym => exact ⟨opRows[11], List.getElem_mem _, by simp [opRows, encode]⟩
  | lookup prev byte => exact ⟨opRows[12], List.getElem_mem _, by simp [opRows, encode]⟩
  | bbPushBit a => exact ⟨opRows[17], List.getElem_mem _, by simp [opRows, encode]⟩
  | bbPushByte v => exact ⟨opRows[18], List.getElem_mem _, by simp [opRows, encode]⟩
  | bbPopRest part k => exact ⟨opRows[24], List.getElem_mem _, by simp [opRows, encode]⟩
  | _ => decide

/-- Decoding and encoding are inverse to each other (R111, R116). -/
theorem decode_eq_instr_iff {w : Word} {i : Instr} : decode w = .instr i ↔ WellFormed i ∧ w = encode i := by
  constructor
  · intro h
    obtain ⟨r, hr, hs, rfl⟩ := exists_selects_of_decode h
    exact (opRows_spell r hr w).1 hs
  · rintro ⟨hi, rfl⟩
    obtain ⟨r, hr, hb⟩ := exists_build_encode i
    have hs := (opRows_spell r hr (encode i)).2 (by rw [hb]; exact ⟨hi, rfl⟩)
    rw [decode_of_selects hr hs, hb]

/-- Settles O1: the half of `decode_eq_instr_iff` from the encoding. -/
theorem decodeOfEncode : Obligations.DecodeOfEncode := fun _ hi => decode_eq_instr_iff.2 ⟨hi, rfl⟩

/-- Settles O2: the half of `decode_eq_instr_iff` from the word. -/
theorem encodeOfDecode : Obligations.EncodeOfDecode := by
  intro w i h
  obtain ⟨hi, rfl⟩ := decode_eq_instr_iff.1 h
  exact ⟨hi, rfl⟩

/-- Settles O3: `opRows_disjoint`, and the branches of the decoder and of acceptance. -/
theorem commandWordSelectsOneRow : Obligations.CommandWordSelectsOneRow := by
  refine ⟨fun _ _ _ => opRows_disjoint, fun _ _ hr => decode_of_selects hr, fun s w hs hw => ?_⟩
  obtain ⟨why, hd⟩ := decode_eq_rejected hw
  have ha : acceptCommand w s = raiseError .illegalCmd 0#32 (latchCommand w s) := by rw [acceptCommand, hd]
  refine ⟨(raiseError .illegalCmd 0#32 (latchCommand w s)).env, ⟨rfl, rfl, rfl⟩, ?_⟩
  rw [hostWrite_effect (r := .cmd) (by decide) (by simp [hs]) (.inl hs), regWrite, ha]
  simp [raiseError, endCommand, latchCommand, clearError, hs]

/-! ## Legal words (R117) -/

/-- The opcodes that are defined are the ones outside the reserved ranges of R114. -/
theorem mem_definedOpcodes_iff (o : Byte) : o ∈ definedOpcodes ↔
    ¬ (0x0A#8 ≤ o ∧ o ≤ 0x0F#8) ∧ ¬ (0x12#8 ≤ o ∧ o ≤ 0x1F#8) ∧ o ≠ 0x27#8 ∧ ¬ 0x2D#8 ≤ o := by
  revert o; decide

/-- The operand fields that the opcode requires to be 0 are 0 (R117); BB_PUSH_BIT leaves `A[0]` free. -/
def UnusedFieldsZero (opc : Byte) (m : BitVec 1) (k : BitVec 4) (a b : Byte) : Prop :=
  (m = 0#1 ∨ opc = 0x04#8) ∧ (k = 0#4 ∨ opc = 0x2C#8)
    ∧ (a = 0#8 ∨ opc ∈ [0x10#8, 0x11#8, 0x25#8, 0x2C#8] ∨ (opc = 0x24#8 ∧ a = 1#8))
    ∧ (b = 0#8 ∨ opc ∈ [0x10#8, 0x11#8])

/-- An encoding has a defined opcode, and its unused fields are 0. -/
theorem encode_fields {i : Instr} (hi : WellFormed i) : ∃ opc m k a b,
    encode i = assemble opc m k a b ∧ opc ∈ definedOpcodes ∧ UnusedFieldsZero opc m k a b := by
  cases i with
  | bbPushBit a =>
    refine ⟨_, _, _, _, _, rfl, by decide, .inl rfl, .inl rfl, ?_, .inl rfl⟩
    have ha : ∀ a : Byte, WellFormed (.bbPushBit a) → a = 0#8 ∨ a = 1#8 := by decide
    simpa using ha a hi
  | _ => exact ⟨_, _, _, _, _, rfl, by decide, by simp [UnusedFieldsZero]⟩

theorem exists_decode_encode {i : Instr} (hi : WellFormed i) : ∃ j, decode (encode i) = .instr j :=
  ⟨i, decode_eq_instr_iff.2 ⟨hi, rfl⟩⟩

/-- An opcode that is not reserved is legal with every other field 0. -/
theorem exists_selects_opcode :
    ∀ opc ∈ definedOpcodes, ∃ r ∈ opRows, r.selects (assemble opc 0#1 0#4 0#8 0#8) = true := by decide

/-- A word with a defined opcode, no reserved bit and its unused fields 0 is legal: six opcodes have a field that may be
nonzero, the others have none. -/
theorem legal_of_fields {opc : Byte} {m : BitVec 1} {k : BitVec 4} {a b : Byte} (ho : opc ∈ definedOpcodes)
    (h : UnusedFieldsZero opc m k a b) : ∃ i, decode (assemble opc m k a b) = .instr i := by
  obtain ⟨hm, hk, ha, hb⟩ := h
  by_cases hop : opc ∈ [0x04#8, 0x10#8, 0x11#8, 0x24#8, 0x25#8, 0x2C#8]
  · simp only [List.mem_cons, List.not_mem_nil, or_false] at hop
    rcases hop with rfl | rfl | rfl | rfl | rfl | rfl
    all_goals
      simp +decide only [or_false, false_or, false_and, true_and, or_true] at hm hk ha hb
      subst_vars
    · rcases BitVec.eq_zero_or_eq_one m with rfl | rfl
      · exact exists_decode_encode (i := .buildP) rfl
      · exact exists_decode_encode (i := .buildM) rfl
    · exact exists_decode_encode (i := .getEncoding a b) rfl
    · exact exists_decode_encode (i := .lookup a b) rfl
    · exact exists_decode_encode (i := .bbPushBit a) (by rcases ha with rfl | rfl <;> decide)
    · exact exists_decode_encode (i := .bbPushByte a) rfl
    · exact exists_decode_encode (i := .bbPopRest a k) rfl
  · simp only [List.mem_cons, List.not_mem_nil, or_false, not_or] at hop
    obtain ⟨h04, h10, h11, h24, h25, h2C⟩ := hop
    obtain rfl : m = 0#1 := hm.resolve_right h04
    obtain rfl : k = 0#4 := hk.resolve_right h2C
    obtain rfl : a = 0#8 := by simpa [h10, h11, h24, h25, h2C] using ha
    obtain rfl : b = 0#8 := by simpa [h10, h11] using hb
    obtain ⟨r, hr, hs⟩ := exists_selects_opcode opc ho
    exact ⟨_, decode_of_selects hr hs⟩

/-- Settles O4: a legal word is the encoding of an instruction, and the fields of a legal word spell one. -/
theorem legalWordFields : Obligations.LegalWordFields := by
  refine fun w => ⟨⟨?_, ?_⟩, ?_⟩
  · rintro ⟨i, h⟩
    obtain ⟨hi, rfl⟩ := decode_eq_instr_iff.1 h
    obtain ⟨opc, m, k, a, b, he, ho, hu⟩ := encode_fields hi
    simp only [he, fieldOpc_assemble, fieldM_assemble, fieldK_assemble, fieldA_assemble, fieldB_assemble]
    exact ⟨(mem_definedOpcodes_iff opc).1 ho, fieldRsv_assemble opc m k a b, hu⟩
  · rintro ⟨ho, hr, hu⟩
    rw [eq_assemble_iff.2 ⟨rfl, rfl, hr, rfl, rfl, rfl⟩]
    exact legal_of_fields ((mem_definedOpcodes_iff _).2 ho) hu
  · rw [decode_eq_instr_iff]
    exact and_iff_right rfl

/-- Settles O5: each word is evaluated. -/
theorem specWordsDecode : Obligations.SpecWordsDecode := by
  unfold Obligations.SpecWordsDecode
  decide

end Sys2Proof
end

section
/-! SUPPORT. The checks that end a bit-buffer command in an error before it touches the session (40_bit_buffer.md R145, R150 to
R175), and the commands that open a session (R150, R151). -/

namespace Sys2Proof.Machine

variable {s : State} {i : Instr}

/-! ## The mode preconditions (R145) -/

theorem exec_openWrite_of_mode (hm : s.bb.mode ≠ .closed) : exec .bbOpenWrite s = fail .bbMode 0#32 s := by
  simp [exec, execBbOpenWrite, hm]

theorem exec_openRead_of_mode (hm : s.bb.mode ≠ .closed) : exec .bbOpenRead s = fail .bbMode 0#32 s := by
  simp [exec, execBbOpenRead, hm]

theorem exec_push_of_mode (hi : pushesBits i = true) (hm : s.bb.mode ≠ .write) : exec i s = fail .bbMode 0#32 s := by
  rw [exec_push hi, pushCommand, if_pos hm]

theorem exec_flush_of_mode (hm : s.bb.mode ≠ .write) : exec .bbFlush s = fail .bbMode 0#32 s := by
  simp [exec, execBbFlush, hm]

theorem exec_read_of_mode (hi : readsSession i = true) (hm : s.bb.mode ≠ .read) : exec i s = fail .bbMode 0#32 s := by
  cases i with
  | bbPeekBit | bbPopBit | bbTryPopBit | bbPopByte | bbPopRest => exact if_pos hm
  | _ => cases hi

theorem exec_close_of_mode (hm : s.bb.mode = .closed) : exec .bbClose s = fail .bbMode 0#32 s := by
  simp [exec, execBbClose, hm]

/-- A command that answers an error entry on `s` changes nothing else. -/
theorem failsTo_of_exec_eq {code : ErrCode} {info : Word} (h : exec i s = fail code info s) :
    FailsTo (exec i s) s code info s := h ▸ failsTo_fail code info (keepsEnv_refl s.env)

/-- Settles O52: the first check of each command. -/
theorem modePreconditions : Obligations.ModePreconditions := by
  refine fun s => ⟨fun i hi hm => ?_, fun hm => ⟨fun a => ?_, fun v => ?_, ?_, ?_⟩,
    fun hm => ⟨fun i hi => ?_, fun part k => ?_⟩, fun hm => failsTo_of_exec_eq (exec_close_of_mode hm)⟩
  · simp only [List.mem_cons, List.not_mem_nil, or_false] at hi
    rcases hi with rfl | rfl
    · exact failsTo_of_exec_eq (exec_openWrite_of_mode hm)
    · exact failsTo_of_exec_eq (exec_openRead_of_mode hm)
  · exact failsTo_of_exec_eq (exec_push_of_mode rfl hm)
  · exact failsTo_of_exec_eq (exec_push_of_mode rfl hm)
  · exact failsTo_of_exec_eq (exec_push_of_mode rfl hm)
  · exact failsTo_of_exec_eq (exec_flush_of_mode hm)
  · have hread : ∀ i ∈ [Instr.bbPeekBit, .bbPopBit, .bbTryPopBit, .bbPopByte], readsSession i = true := by decide
    exact failsTo_of_exec_eq (exec_read_of_mode (hread i hi) hm)
  · exact failsTo_of_exec_eq (exec_read_of_mode rfl hm)

/-! ## Regions that wrap, the end of the stream, a bad index -/

theorem regionFits_eq_false {base len : Word} (h : 2 ^ 32 < base.toNat + len.toNat) : regionFits base len = false :=
  decide_eq_false (Nat.not_le.2 h)

theorem exec_count_wraps (hf : regionFits s.latch.srcBase s.latch.srcLen = false) :
    exec .count s = fail .addrRange 0#32 s := by
  simp [exec, execCount, hf]

theorem exec_openWrite_wraps (hm : s.bb.mode = .closed) (hf : regionFits s.latch.dstBase s.latch.dstCap = false) :
    exec .bbOpenWrite s = fail .addrRange 0#32 s := by
  simp [exec, execBbOpenWrite, hm, hf]

theorem exec_openRead_wraps (hm : s.bb.mode = .closed) (hf : regionFits s.latch.srcBase s.latch.srcLen = false) :
    exec .bbOpenRead s = fail .addrRange 0#32 s := by
  simp [exec, execBbOpenRead, hm, hf]

theorem exec_peekBit_atEnd (hm : s.bb.mode = .read) (he : atEnd s = true) :
    exec .bbPeekBit s = fail .bbEof s.bb.bytePos s := by
  simp [exec, execBbPeekBit, hm, he]

theorem exec_popBit_atEnd (hm : s.bb.mode = .read) (he : atEnd s = true) :
    exec .bbPopBit s = fail .bbEof s.bb.bytePos s := by
  simp [exec, execBbPopBit, hm, he]

theorem exec_popByte_pastEnd (hm : s.bb.mode = .read) (he : 8 * s.bb.srcLen.toNat < bbPos s.bb + 8) :
    exec .bbPopByte s = fail .bbEof s.bb.bytePos s := by
  simp [exec, execBbPopByte, hm, he]

theorem exec_popRest_badIndex {part : Byte} {k : BitVec 4} (hm : s.bb.mode = .read) (hk : 8 ≤ k.toNat) :
    exec (.bbPopRest part k) s = fail .badIndex (BitVec.ofNat 32 k.toNat) s := by
  simp [exec, execBbPopRest, hm, hk]

/-- Settles O53: the checks that follow the mode's. -/
theorem sessionAndRegionErrors : Obligations.SessionAndRegionErrors := by
  refine fun s => ⟨fun hw => ?_, fun hm hw => ?_, fun hm hw => ?_, fun hm he => ⟨?_, ?_⟩, fun hm he => ?_,
    fun part k hm hk => ?_⟩
  · exact failsTo_of_exec_eq (exec_count_wraps (regionFits_eq_false hw))
  · exact failsTo_of_exec_eq (exec_openWrite_wraps hm (regionFits_eq_false hw))
  · exact failsTo_of_exec_eq (exec_openRead_wraps hm (regionFits_eq_false hw))
  · exact failsTo_of_exec_eq (exec_peekBit_atEnd hm (decide_eq_true he))
  · exact failsTo_of_exec_eq (exec_popBit_atEnd hm (decide_eq_true he))
  · exact failsTo_of_exec_eq (exec_popByte_pastEnd hm he)
  · exact failsTo_of_exec_eq (exec_popRest_badIndex hm hk)

/-! ## Opening a session (R150, R151) -/

theorem exec_openWrite_opens (hm : s.bb.mode = .closed) (hf : regionFits s.latch.dstBase s.latch.dstCap = true)
    (hd : touchesDevice s s.latch.dstBase s.latch.dstCap = false) : exec .bbOpenWrite s = finish (openWrite s) := by
  simp [exec, execBbOpenWrite, hm, hf, hd]

theorem exec_openRead_opens (hm : s.bb.mode = .closed) (hf : regionFits s.latch.srcBase s.latch.srcLen = true)
    (hp : PlainRegion s s.latch.srcBase s.latch.srcLen) : exec .bbOpenRead s = finish (openRead s) := by
  simp [exec, execBbOpenRead, hm, hf, plainRegion_touchesDevice hp, refusedReads_nil hf hp]

/-- Settles O44: each open passes its checks, and the session is the one it opens. -/
theorem sessionsOpen : Obligations.SessionsOpen := by
  refine fun s hm => ⟨fun hf hd => ?_, fun hf hp => ?_⟩
  · rw [exec_openWrite_opens hm (decide_eq_true hf) hd]
    exact completesTo_finish (keepsEnv_refl s.env)
  · rw [exec_openRead_opens hm (decide_eq_true hf) hp]
    exact completesTo_finish (t := openRead s) ⟨rfl, rfl, rfl⟩

end Sys2Proof.Machine
end

section
/-! SUPPORT. The write commands of the bit buffer (40_bit_buffer.md R154 to R159): pushes, BB_FLUSH and BB_CLOSE in a session
whose DST region nothing disturbs. -/

namespace Sys2Proof.Machine

variable {s : State} {i : Instr}

/-- Settles O45: the lemma about each push, and what a writer's form says of its bytes. -/
theorem datapathMatchesStream : Obligations.DatapathMatchesStream := by
  intro w hw
  obtain ⟨hflush, hbits⟩ := flush_appends hw
  exact ⟨pushBit_appends hw, pushByte_appends hw, pushDesc_appends hw, hflush, hbits,
    fun k hk => getElem_out_eq_window w hk, part_eq_window hw⟩

/-! ## Where the session stands after the command -/

namespace Advances

/-- The position moves by the number of bits, and is that of the write stream. -/
theorem bbPos_add (h : Advances s i) :
    bbPos s.bb + (appendedBits s i).length = 8 * bytePosAfter s i + (streamAfter s i).idx := by
  obtain ⟨-, -, -, -, hwrite⟩ := h.session
  obtain ⟨-, hlen, -⟩ := hwrite h.mode
  rw [← h.length_wsAfter, wsAfter, List.length_append, hlen]

theorem bbPos_add_div (h : Advances s i) : (bbPos s.bb + (appendedBits s i).length) / 8 = bytePosAfter s i := by
  have := h.bbPos_add
  have := h.idx_lt
  omega

/-- `BB_BYTEPOS` after the command. -/
theorem bytePos_eq (s : State) (i : Instr) :
    s.bb.bytePos + BitVec.ofNat 32 (streamAfter s i).out.length = BitVec.ofNat 32 (bytePosAfter s i) := by
  rw [bytePosAfter, BitVec.ofNat_add, BitVec.ofNat_toNat, BitVec.setWidth_eq]

/-- The session after the command, by its position and its bits (R141, R159). -/
theorem advanced_eq (h : Advances s i) {pos : Nat} (hpos : pos = bbPos s.bb + (appendedBits s i).length) (mode : BbMode)
    (left : List Host.Cell) (flushed : Word) :
    advanced s i mode left flushed
      = { setPos pos s.bb with
          mode := mode, ws := wsAfter s i, part := window (wsAfter s i) (8 * (pos / 8)), staged := left
          flushed := flushed } := by
  have hidx := h.idx_lt
  have hdiv : pos / 8 = bytePosAfter s i := hpos ▸ h.bbPos_add_div
  have hmod : pos % 8 = (streamAfter s i).idx := by have := h.bbPos_add; omega
  simp only [advanced, setPos, hdiv, hmod, bytePos_eq, h.part_eq]

/-! ## Its bytes in an undisturbed region -/

theorem refusedCells_pendingCells (h : Advances s i) (hq : QuietDst s s.bb.dstBase s.bb.dstCap) :
    refusedCells s (pendingCells s i) = [] := by
  obtain ⟨hf, hp, -⟩ := hq
  refine refusedCells_nil hp fun c hc => ?_
  obtain ⟨k, hk, hck⟩ := h.mem_pendingCells hc
  rw [hck]
  exact ⟨inRegion_regionAddr hf hk, BitVec.isLt _⟩

/-- The host has raced on no byte of the region. -/
theorem notMem_dstRaced (h : Advances s i) (hq : QuietDst s s.bb.dstBase s.bb.dstCap) {k : Nat}
    (hk : k < bytePosAfter s i) : (regionAddr s.bb.dstBase k).toNat ∉ s.env.dstRaced := by
  obtain ⟨hf, -, hr, -⟩ := hq
  intro hmem
  have hin := inRegion_regionAddr hf (Nat.lt_of_lt_of_le hk h.bytePosAfter_le)
  rw [hr _ hmem] at hin
  cases hin

/-- The bytes written leave every other address. -/
theorem get_writeCells_of_ne (h : Advances s i) {written left : List Host.Cell} (hst : written ++ left = pendingCells s i)
    {a : Word} (ha : ∀ k, drainedCount s.bb ≤ k → k < drainedCount s.bb + written.length → a ≠ regionAddr s.bb.dstBase k) :
    Sparse.get a.toNat (writeCells s written) = readByte s a := by
  refine get_foldl_writeCell_of_notMem s written s.memory fun c hc he => ?_
  obtain ⟨k, ⟨hle, hlt⟩, rfl⟩ := (h.mem_written hst).1 hc
  exact ha k hle hlt (BitVec.eq_of_toNat_eq he.symm)

/-- A byte not yet known to be in DST is then there, or is still what it was. -/
theorem get_writeCells_pending (h : Advances s i) (hq : QuietDst s s.bb.dstBase s.bb.dstCap)
    {written left : List Host.Cell} (hst : written ++ left = pendingCells s i) {k : Nat} (hle : drainedCount s.bb ≤ k)
    (hlt : k < bytePosAfter s i) :
    Sparse.get (regionAddr s.bb.dstBase k).toNat (writeCells s written) = readByte s (regionAddr s.bb.dstBase k)
      ∨ Sparse.get (regionAddr s.bb.dstBase k).toNat (writeCells s written) = window (wsAfter s i) (8 * k) := by
  have hsum := (h.written_left hst).1
  by_cases hk : k < drainedCount s.bb + written.length
  · have ⟨_, _, _, hwf⟩ := hq
    exact .inr (get_writeCells_of_mem hwf.1 (h.written_distinct hst) ((h.mem_written hst).2 ⟨k, ⟨hle, hk⟩, rfl⟩)
      (h.notMem_dstRaced hq hlt))
  · refine .inl (h.get_writeCells_of_ne hst fun j _ hj he => ?_)
    have := (h.address_inj hlt (by omega)).1 (congrArg BitVec.toNat he)
    omega

end Advances

/-! ## The pushes (R156 to R158) -/

/-- A push passes its checks where its bits lie within the capacity. -/
theorem exec_push_fits (hi : pushesBits i = true) (hm : s.bb.mode = .write)
    (hf : pushFits s.bb.dstCap.toNat (bbPos s.bb) (appendedBits s i).length = true) :
    exec i s = takePush (streamAfter s i) (appendedBits s i) s := by
  simp [exec_push hi, pushCommand, hm, hf]

/-- A push past its checks, where the platform refuses none of the pending bytes: the staging area passes some of them on. -/
theorem exec_push_eq_finish (hi : pushesBits i = true) (hm : s.bb.mode = .write)
    (hf : pushFits s.bb.dstCap.toNat (bbPos s.bb) (appendedBits s i).length = true)
    (hr : refusedCells s (pendingCells s i) = []) :
    ∃ written left : List Host.Cell, written ++ left = pendingCells s i
      ∧ exec i s = finish (sessionMoved s (streamAfter s i) (appendedBits s i) left (writeCells s written)) := by
  rcases takePush_cases (streamAfter s i) (appendedBits s i) s with ⟨a, ha, -⟩ | ⟨-, he⟩
  · rw [← pendingCells, hr] at ha
    cases ha
  · exact ⟨_, _, stage_append .., (exec_push_fits hi hm hf).trans he⟩

theorem sessionMoved_eq_advanced (s : State) (i : Instr) (left : List Host.Cell) (m : Memory) :
    sessionMoved s (streamAfter s i) (appendedBits s i) left m
      = { s with bb := advanced s i s.bb.mode left s.bb.flushed, memory := m } := rfl

/-- A push within the capacity appends its bits. -/
theorem pushAppends_exec (hi : pushesBits i = true) (h : Writing s)
    (hf : pushFits s.bb.dstCap.toNat (bbPos s.bb) (appendedBits s i).length = true) :
    PushAppends (exec i s) s (appendedBits s i) := by
  obtain ⟨hm, hs, hq⟩ := h
  have hadv : Advances s i := advances_of_pushFits hs hm hf
  obtain ⟨written, left, hst, he⟩ := exec_push_eq_finish hi hm hf (hadv.refusedCells_pendingCells hq)
  have hsum := (hadv.written_left hst).1
  have hpos := hadv.bbPos_add_div
  refine ⟨left, writeCells s written, ?_, fun a ha => hadv.get_writeCells_of_ne hst fun k hle hlt => ha k hle (by omega),
    fun k hle hlt => hadv.get_writeCells_pending hq hst hle (by omega)⟩
  rw [he, sessionMoved_eq_advanced, hadv.advanced_eq rfl]
  exact completesTo_finish (keepsEnv_refl s.env)

/-- A push beyond the capacity overflows. -/
theorem exec_push_overflows (hi : pushesBits i = true) (hm : s.bb.mode = .write)
    (hf : pushFits s.bb.dstCap.toNat (bbPos s.bb) (appendedBits s i).length = false) :
    exec i s = fail .dstOverflow s.bb.dstCap s := by
  simp [exec_push hi, pushCommand, hm, hf]

/-- A push within the capacity does not: what it ends in is a completion or BUS_ERROR. -/
theorem errCode_of_push_fits (hi : pushesBits i = true) (hm : s.bb.mode = .write)
    (hf : pushFits s.bb.dstCap.toNat (bbPos s.bb) (appendedBits s i).length = true) {t : State}
    (h : exec i s = .next t) : t.errCode = s.errCode ∨ t.errCode = .busError := by
  rw [exec_push_fits hi hm hf] at h
  rcases takePush_cases (streamAfter s i) (appendedBits s i) s with ⟨a, -, he⟩ | ⟨-, he⟩ <;> rw [he] at h
  · rw [failWriteBus_eq] at h
    exact .inr (fail_next.1 h ▸ rfl)
  · exact .inl (finish_next.1 h ▸ rfl)

/-- Settles O46: each push is within the capacity. -/
theorem pushCommandsAppendBits : Obligations.PushCommandsAppendBits := by
  refine fun s h => ⟨fun a hc => ?_, fun v hc => ?_, fun hc => ?_⟩
  · refine pushAppends_exec (i := .bbPushBit a) rfl h ?_
    simpa [pushFits, appendedBits] using hc
  · refine pushAppends_exec (i := .bbPushByte v) rfl h ?_
    simpa [pushFits, appendedBits] using hc
  · refine pushAppends_exec (i := .bbPushDesc) rfl h ?_
    simpa [pushFits, appendedBits, BitVec.toNat_eq] using hc

/-- Settles O47: a push overflows exactly where its last bit lies beyond the capacity. -/
theorem pushOverflow : Obligations.PushOverflow := by
  refine fun s hm => ⟨fun a hc => ?_, fun v hc => ?_, fun h0 hc => ?_, fun h0 he t ht => ?_⟩
  · refine failsTo_of_exec_eq (exec_push_overflows rfl hm ?_)
    simpa [pushFits, appendedBits] using hc
  · refine failsTo_of_exec_eq (exec_push_overflows rfl hm ?_)
    simpa [pushFits, appendedBits] using hc
  · refine failsTo_of_exec_eq (exec_push_overflows rfl hm ?_)
    simpa [pushFits, appendedBits, BitVec.toNat_eq] using And.intro h0 hc
  · rcases errCode_of_push_fits rfl hm (by simp [pushFits, appendedBits, h0]) ht with h | h <;> rw [h]
    · exact he
    · decide

/-! ## BB_FLUSH and BB_CLOSE (R155, R152) -/

/-- The bits of a flush bring the position to whole bytes. -/
theorem bbPos_add_padding (s : State) :
    8 * bytesFor (bbPos s.bb) = bbPos s.bb + (appendedBits s .bbFlush).length := by
  have := s.bb.bitIdx.isLt
  simp only [bytesFor, bbPos, appendedBits, List.length_replicate]
  omega

/-- A window at or beyond the end of the stream is empty (R12). -/
theorem window_of_length_le {l : List Bool} {c : Nat} (h : l.length ≤ c) : window l c = 0#8 :=
  byte_ext fun j hj => by rw [streamBit_window _ _ hj, List.getD_eq_default _ _ (by omega), streamBit_zero]

theorem flushedTo_eq_advanced (mode : BbMode) (s : State) :
    flushedTo mode s
      = { s with
          bb := advanced s .bbFlush mode [] (s.bb.bytePos + BitVec.ofNat 32 (streamAfter s .bbFlush).out.length)
          memory := writeCells s (pendingCells s .bbFlush)
          outLen := s.bb.bytePos + BitVec.ofNat 32 (streamAfter s .bbFlush).out.length } := rfl

/-- A flush none of whose bytes the platform refuses. -/
theorem takeFlush_eq_finish (mode : BbMode) (hr : refusedCells s (pendingCells s .bbFlush) = []) :
    takeFlush mode s = finish (flushedTo mode s) := by
  rcases takeFlush_cases mode s with ⟨a, ha, -⟩ | ⟨-, he⟩
  · rw [show flushCells s = pendingCells s .bbFlush from rfl, hr] at ha
    cases ha
  · exact he

/-- After the padding no partial byte is left. -/
theorem Advances.window_wsAfter_flush (h : Advances s .bbFlush) :
    window (wsAfter s .bbFlush) (8 * bytesFor (bbPos s.bb)) = 0#8 :=
  window_of_length_le (by rw [h.length_wsAfter, ← h.bbPos_add, bbPos_add_padding])

/-- The flush of an undisturbed session writes every byte out. -/
theorem flushesTo_takeFlush (h : Writing s) (hd : DrainedBytes s) (mode : BbMode) :
    FlushesTo (takeFlush mode s) s mode := by
  obtain ⟨hm, hs, hq⟩ := h
  have hadv := advances_flush hs hm
  have hst : pendingCells s .bbFlush ++ [] = pendingCells s .bbFlush := List.append_nil _
  have hpad := bbPos_add_padding s
  have hn : bytesFor (bbPos s.bb) = bytePosAfter s .bbFlush := by
    rw [← hadv.bbPos_add_div, ← hpad, Nat.mul_div_cancel_left _ (by decide)]
  have hsum := (hadv.written_left hst).1
  rw [List.length_nil, Nat.add_zero] at hsum
  refine ⟨writeCells s (pendingCells s .bbFlush), ?_, fun k hk => ?_,
    fun a ha => hadv.get_writeCells_of_ne hst fun k hle hlt => ha k hle (by omega)⟩
  · rw [takeFlush_eq_finish mode (hadv.refusedCells_pendingCells hq), flushedTo_eq_advanced, hadv.advanced_eq hpad,
      Nat.mul_div_cancel_left _ (by decide), hadv.window_wsAfter_flush, Advances.bytePos_eq, ← hn]
    exact completesTo_finish (keepsEnv_refl s.env)
  · have ⟨_, _, _, hwf⟩ := hq
    have hold : DrainedIn s.memory s.env.dstRaced s.bb := fun k hk _ => hd k hk
    refine drainedIn_advanced hadv hwf hold (mode := mode) (flushed := 0#32) hst k ?_ (hadv.notMem_dstRaced hq (by omega))
    rw [drainedCount_advanced hadv mode 0#32 hst]
    omega

/-- Settles O48: both commands flush a write session; closing a read session only sets the mode. -/
theorem flushAndClose : Obligations.FlushAndClose := by
  refine fun s => ⟨fun h hd => ⟨?_, ?_⟩, fun hm => ?_⟩
  · have he : exec .bbFlush s = takeFlush .write s := by simp [exec, execBbFlush, h.1]
    exact he ▸ flushesTo_takeFlush h hd .write
  · have he : exec .bbClose s = takeFlush .closed s := by simp [exec, execBbClose, h.1]
    exact he ▸ flushesTo_takeFlush h hd .closed
  · have he : exec .bbClose s = finish { s with bb := { s.bb with mode := .closed } } := by simp [exec, execBbClose, hm]
    exact he ▸ completesTo_finish (keepsEnv_refl s.env)

end Sys2Proof.Machine
end

section
/-! SUPPORT. The read commands of the bit buffer (40_bit_buffer.md R170 to R175) in a session whose SRC region nothing disturbs:
what they read is the stream `RS` of R142. -/

namespace Sys2Proof.Machine

variable {s : State}

/-! ## The stream of a region -/

/-- Bit `k` of a region's stream is bit `k mod 8` of its byte `k div 8` (R11). -/
theorem regionBits_eq_map (s : State) (base : Word) (len : Nat) :
    regionBits s base len
      = (List.range (8 * len)).map fun k => streamBit (readByte s (regionAddr base (k / 8))) (k % 8) := by
  rw [regionBits, regionBytes, List.flatMap_map, flatMap_range_byteBits]

/-- The window at a byte of the region is that byte. -/
theorem window_regionBits {base : Word} {len k : Nat} (hk : k < len) :
    window (regionBits s base len) (8 * k) = readByte s (regionAddr base k) := by
  have hlen : k < (regionBytes s base len).length := by simpa [regionBytes] using hk
  have := window_flatMap_byteBits (regionBytes s base len) [] hlen
  rw [List.append_nil] at this
  rw [regionBits, this]
  simp [regionBytes]

/-! ## What the session reads (R148) -/

theorem length_sessionBits (s : State) : (sessionBits s).length = 8 * s.bb.srcLen.toNat := by
  simp [sessionBits, regionBits_eq_map]

theorem bbPos_le_of_reading (h : Reading s) : bbPos s.bb ≤ 8 * s.bb.srcLen.toNat := by
  obtain ⟨hm, ⟨-, -, hpos, -⟩, -⟩ := h
  exact hpos hm

theorem sessionByte_eq_window (h : Reading s) {off : Nat} (ho : off < s.bb.srcLen.toNat) (t : Nat) :
    sessionByte s t off = some (window (sessionBits s) (8 * off)) := by
  obtain ⟨-, -, hq⟩ := h
  rw [sessionByte_quiet hq ho, sessionBits, window_regionBits ho]

theorem sessionBit_eq_getD (h : Reading s) {c : Nat} (hc : c < 8 * s.bb.srcLen.toNat) :
    sessionBit s c = some ((sessionBits s).getD c false) := by
  have hj : c % 8 < 8 := Nat.mod_lt _ (by decide)
  rw [sessionBit, sessionByte_eq_window h (by omega), Option.map_some, streamBit_window _ _ hj, Nat.div_add_mod]

/-- A read command past its checks delivers its value. -/
theorem completesTo_takeRead (h : Reading s) (v : Word) (n off : Nat) :
    CompletesTo (takeRead (some v) n off s) s { s with result := v, bb := setPos (bbPos s.bb + n) s.bb } := by
  obtain ⟨-, ⟨hf, -⟩, -, hp, -⟩ := h
  rw [takeRead_quiet hf hp]
  exact completesTo_finish (keepsEnv_refl s.env)

/-! ## BB_PEEK_BIT, BB_POP_BIT and BB_TRY_POP_BIT (R170 to R172) -/

theorem bitWord_eq_ite (b : Bool) : bitWord b = if b then 1#32 else 0#32 := by cases b <;> rfl

/-- The read of the bit at the cursor. -/
theorem completesTo_bitRead (h : Reading s) (hpos : bbPos s.bb < 8 * s.bb.srcLen.toNat) (n off : Nat) :
    CompletesTo (takeRead ((sessionBit s (bbPos s.bb)).map bitWord) n off s) s
      { s with
        result := if (sessionBits s).getD (bbPos s.bb) false then 1#32 else 0#32
        bb := setPos (bbPos s.bb + n) s.bb } := by
  rw [sessionBit_eq_getD h hpos, Option.map_some, bitWord_eq_ite]
  exact completesTo_takeRead h _ n off

/-- Settles O49: each command reads the bit at the cursor; at the end BB_TRY_POP_BIT reads none. -/
theorem bitReadsComplete : Obligations.BitReadsComplete := by
  intro s h
  have hm : s.bb.mode = .read := h.1
  refine ⟨fun hpos => ?_, fun hpos => ?_⟩
  · have he : atEnd s = false := decide_eq_false (Nat.not_le.2 hpos)
    have hpeek := completesTo_bitRead h hpos 0 (bbPos s.bb / 8)
    have hpop := completesTo_bitRead h hpos 1 (bbPos s.bb / 8)
    rw [Nat.add_zero, setPos_bbPos] at hpeek
    refine ⟨?_, ?_, ?_⟩
    · simpa [exec, execBbPeekBit, hm, he] using hpeek
    · simpa [exec, execBbPopBit, hm, he] using hpop
    · simpa [exec, execBbTryPopBit, hm, he] using hpop
  · have he : atEnd s = true := decide_eq_true hpos.ge
    have hend := completesTo_takeRead h 0x00000100#32 0 0
    rw [Nat.add_zero, setPos_bbPos] at hend
    simpa [exec, execBbTryPopBit, hm, he] using hend

/-! ## BB_POP_BYTE (R173) -/

/-- The two-byte composition is the window between the bytes. -/
theorem composeByte_window (l : List Bool) (c : Nat) {b : Nat} (hb : b ≤ 8) :
    composeByte (window l c) (window l (c + 8)) b = window l (c + b) := by
  refine byte_ext fun j hj => ?_
  rw [composeByte, streamBit_or, streamBit_shiftLeft _ _ hj, streamBit_shiftRight _ _ hj, streamBit_window _ _ hj]
  by_cases hlt : j + b < 8
  · rw [streamBit_window _ _ hlt]
    simp [hlt, show ¬ 8 - b ≤ j by omega, show c + b + j = c + (j + b) by omega]
  · rw [streamBit_window _ _ (show j - (8 - b) < 8 by omega)]
    simp [hlt, show 8 - b ≤ j by omega, show c + 8 + (j - (8 - b)) = c + b + j by omega]

/-- The byte at the cursor, whatever the bit index. -/
theorem poppedByte_eq_window (h : Reading s) {i b : Nat} (hb : b < 8) (hlen : 8 * i + b + 8 ≤ 8 * s.bb.srcLen.toNat) :
    poppedByte s i b = some (window (sessionBits s) (8 * i + b)) := by
  unfold poppedByte
  rw [sessionByte_eq_window h (by omega)]
  split_ifs with h0
  · rw [h0, Nat.add_zero]
  · rw [sessionByte_eq_window h (by omega)]
    simp only [Nat.mul_succ, composeByte_window _ _ hb.le]

/-- Settles O50: BB_POP_BYTE passes its checks and delivers the window. -/
theorem popByteCompletes : Obligations.PopByteCompletes := by
  intro s h hlen
  have hm : s.bb.mode = .read := h.1
  have hbyte : poppedByte s s.bb.bytePos.toNat s.bb.bitIdx.toNat = some (window (sessionBits s) (bbPos s.bb)) :=
    poppedByte_eq_window h s.bb.bitIdx.isLt hlen
  have hread := completesTo_takeRead h ((window (sessionBits s) (bbPos s.bb)).setWidth 32) 8
    (refusedOffset s s.bb.bytePos.toNat)
  simpa [exec, execBbPopByte, hm, Nat.not_lt.2 hlen, hbyte] using hread

/-! ## BB_POP_REST (R175) -/

/-- Bits that can all be read are those of the stream. -/
theorem readBits_eq_take {bit : Nat → Option Bool} {l : List Bool} (hbit : ∀ c < l.length, bit c = some (l.getD c false))
    {c n : Nat} (h : c + n ≤ l.length) : readBits bit c n = some ((l.drop c).take n) := by
  induction n generalizing c with
  | zero => simp [readBits]
  | succ n ih =>
    have hc : c < l.length := by omega
    rw [List.drop_eq_getElem_cons hc, List.take_succ_cons]
    simp [readBits, hbit c hc, ih (c := c + 1) (by omega), hc]

/-- The bits of the stream after the top `k` of `part`, as many as there are and fit, then zeros. -/
theorem restByte_eq_window (part : Byte) (l : List Bool) (c : Nat) {k n : Nat} (hn : n = min (8 - k) (l.length - c)) :
    restByte part k ((l.drop c).take n) = (part &&& topmask k) ||| (window l c >>> k) := by
  refine byte_ext fun j hj => ?_
  simp only [restByte, streamBit_or, streamBit_packByte _ hj, streamBit_shiftRight _ _ hj]
  congr 1
  by_cases hk : k ≤ j
  · rw [streamBit_window _ _ (by omega)]
    simp only [hk, decide_true, Bool.true_and]
    by_cases hjn : j - k < n
    · simp [List.getD_eq_getElem?_getD, hjn]
    · rw [List.getD_eq_default _ _ (by simp; omega), List.getD_eq_default _ _ (by omega)]
  · simp [hk]

/-- RESULT holds the byte in bits 7:0 and the count in bits 11:8 (R175). -/
theorem restWord_eq_add (v : Byte) {n : Nat} (hn : n ≤ 8) :
    v.setWidth 32 ||| (BitVec.ofNat 32 n <<< 8) = BitVec.ofNat 32 (v.toNat + 256 * n) := by
  have hv := v.isLt
  have hcount : BitVec.ofNat 32 n = (BitVec.ofNat 8 n).setWidth 32 := BitVec.eq_of_toNat_eq (by
    simp only [BitVec.toNat_setWidth, BitVec.toNat_ofNat]
    omega)
  rw [BitVec.or_comm, hcount, countIdx_add]
  refine BitVec.eq_of_toNat_eq ?_
  simp only [BitVec.toNat_setWidth, BitVec.toNat_add, BitVec.toNat_mul, BitVec.toNat_ofNat]
  omega

/-- Settles O51: BB_POP_REST passes its checks and delivers the bits that are left, up to a whole byte. -/
theorem popRestCompletes : Obligations.PopRestCompletes := by
  intro s part k h hk n r
  have hm : s.bb.mode = .read := h.1
  have hlen := length_sessionBits s
  have hpos := bbPos_le_of_reading h
  have hbits : readBits (sessionBit s) (bbPos s.bb) n = some (((sessionBits s).drop (bbPos s.bb)).take n) :=
    readBits_eq_take (fun c hc => sessionBit_eq_getD h (hlen ▸ hc)) (by omega)
  have hbyte : restByte part k.toNat (((sessionBits s).drop (bbPos s.bb)).take n) = r :=
    restByte_eq_window part _ _ (by rw [hlen])
  have hword := restWord_eq_add r (n := n) (by omega)
  have hread := completesTo_takeRead h (BitVec.ofNat 32 (r.toNat + 256 * n)) n (refusedOffset s (bbPos s.bb / 8))
  have he : exec (.bbPopRest part k) s
      = takeRead (some (BitVec.ofNat 32 (r.toNat + 256 * n))) n (refusedOffset s (bbPos s.bb / 8)) s := by
    rw [← hword, ← hbyte]
    simp [exec, execBbPopRest, hm, Nat.not_le.2 hk, hbits, restCount, n]
  exact he ▸ hread

end Sys2Proof.Machine
end

section
/-! SUPPORT. Paths of a code tree: a codeword is the path to a leaf of its symbol (42_lookup_tables.md R251), so of
distinct symbols neither's codeword begins the other's (41_tree_builder.md R210), and none is longer than the tree is deep
(R209). -/

namespace Sys2Proof.Machine

/-! ## Paths -/

/-- Below a leaf there is no path. -/
theorem treeAt_leaf {sym : Byte} {path : List Bool} {u : Tree} :
    treeAt (.leaf sym) path = some u ↔ path = [] ∧ u = .leaf sym := by
  cases path <;> simp [treeAt, eq_comm]

/-- A path is followed part by part. -/
theorem treeAt_append (t : Tree) (p q : List Bool) : treeAt t (p ++ q) = (treeAt t p).bind (treeAt · q) := by
  induction p generalizing t with
  | nil => cases t <;> rfl
  | cons b p ih =>
    cases t with
    | leaf sym => simp [treeAt]
    | node l r => cases b <;> exact ih _

/-- A path to a leaf does not go on to a leaf of another symbol: leaves have no children. -/
theorem not_isPrefix_of_treeAt_leaf {t : Tree} {x y : Byte} {p q : List Bool} (hxy : x ≠ y)
    (hp : treeAt t p = some (.leaf x)) (hq : treeAt t q = some (.leaf y)) : ¬ p <+: q := by
  rintro ⟨rest, rfl⟩
  rw [treeAt_append, hp, Option.bind_some, treeAt_leaf] at hq
  obtain ⟨-, hleaf⟩ := hq
  exact hxy (Tree.leaf.inj hleaf).symm

/-- No path is longer than the tree is deep. -/
theorem length_le_treeDepth {t u : Tree} {path : List Bool} (h : treeAt t path = some u) : path.length ≤ treeDepth t := by
  induction path generalizing t with
  | nil => exact Nat.zero_le _
  | cons b path ih =>
    cases t with
    | leaf sym => simp [treeAt] at h
    | node l r =>
      cases b with
      | false => have := ih (t := l) h; simp only [List.length_cons, treeDepth]; omega
      | true => have := ih (t := r) h; simp only [List.length_cons, treeDepth]; omega

/-! ## The encoding table (R250 to R253) -/

/-- The walk reaches exactly the leaves, each with its path. -/
theorem mem_walkLeaves {t : Tree} {pre code : List Bool} {sym : Byte} :
    (sym, code) ∈ walkLeaves t pre ↔ ∃ path, code = pre ++ path ∧ treeAt t path = some (.leaf sym) := by
  induction t generalizing pre with
  | leaf s =>
    simp only [walkLeaves, List.mem_singleton, Prod.mk.injEq, treeAt_leaf, Tree.leaf.injEq]
    constructor
    · rintro ⟨rfl, rfl⟩
      exact ⟨[], by simp⟩
    · rintro ⟨path, rfl, rfl, rfl⟩
      simp
  | node l r ihl ihr =>
    simp only [walkLeaves, List.mem_append, ihl, ihr]
    constructor
    · rintro (⟨path, rfl, h⟩ | ⟨path, rfl, h⟩)
      · exact ⟨false :: path, by simp, h⟩
      · exact ⟨true :: path, by simp, h⟩
    · rintro ⟨path, rfl, h⟩
      match path, h with
      | false :: path, h => exact .inl ⟨path, by simp, h⟩
      | true :: path, h => exact .inr ⟨path, by simp, h⟩

/-- A codeword is the path to a leaf of its symbol (R251). -/
theorem treeAt_of_encTable {t : Tree} {sym : Byte} {code : List Bool} (h : encTable t sym = some code) :
    treeAt t code = some (.leaf sym) := by
  obtain ⟨⟨sym', code'⟩, hlast, rfl⟩ := Option.map_eq_some_iff.1 h
  obtain ⟨hmem, hsym⟩ := List.mem_filter.1 (List.mem_of_getLast? hlast)
  obtain rfl : sym' = sym := of_decide_eq_true hsym
  obtain ⟨path, rfl, hpath⟩ := mem_walkLeaves.1 hmem
  exact hpath

/-- A codeword under an internal root has at least one bit, and no more than the tree is deep. -/
theorem length_of_encTable {t : Tree} (hi : isInternal t = true) {sym : Byte} {code : List Bool}
    (h : encTable t sym = some code) : 1 ≤ code.length ∧ code.length ≤ treeDepth t := by
  have hat := treeAt_of_encTable h
  refine ⟨List.length_pos_iff.2 fun hnil => ?_, length_le_treeDepth hat⟩
  subst hnil
  cases t with
  | leaf s => cases hi
  | node l r => cases hat

/-- Settles O26: codewords are paths to leaves, and a leaf has no children. -/
theorem codewordsArePrefixFree : Obligations.CodewordsArePrefixFree := by
  intro t x y cx cy hxy hx hy
  exact ⟨not_isPrefix_of_treeAt_leaf hxy (treeAt_of_encTable hx) (treeAt_of_encTable hy),
    not_isPrefix_of_treeAt_leaf hxy.symm (treeAt_of_encTable hy) (treeAt_of_encTable hx)⟩

end Sys2Proof.Machine
end

section
/-! SUPPORT. The tree builder (41_tree_builder.md R201 to R208) refines the relation `Merges`: `pop_min` pops a node of least
key, the keys of a queue stay distinct, and the least node of a queue is the only one, so the tree at the end is too. -/

namespace Sys2Proof.Machine

/-! ## The key order (R201) -/

theorem keyBefore_iff {x y : QNode} :
    keyBefore x y = true ↔ x.weight < y.weight ∨ (x.weight = y.weight ∧ x.seq < y.seq) := by
  simp [keyBefore]

theorem keyBefore_trans {x y z : QNode} (hxy : keyBefore x y = true) (hyz : keyBefore y z = true) :
    keyBefore x z = true := by
  rw [keyBefore_iff] at *
  omega

theorem keyBefore_asymm {x y : QNode} (hxy : keyBefore x y = true) : ¬ keyBefore y x = true := by
  rw [keyBefore_iff] at *
  omega

/-- Nodes with different numbers are comparable. -/
theorem keyBefore_of_not {x y : QNode} (hseq : x.seq ≠ y.seq) (h : ¬ keyBefore x y = true) : keyBefore y x = true := by
  rw [keyBefore_iff] at *
  omega

/-- A node that is the first of two queues, before every other of its queue, is the first of both. -/
theorem least_unique {x x' : QNode} {l l' : List QNode} (hperm : (x :: l).Perm (x' :: l'))
    (hx : ∀ z ∈ l, keyBefore x z = true) (hx' : ∀ z ∈ l', keyBefore x' z = true) : x = x' ∧ l.Perm l' := by
  have heq : x = x' := by
    rcases List.mem_cons.1 (hperm.subset (List.mem_cons_self ..)) with h | hmem
    · exact h
    · rcases List.mem_cons.1 (hperm.symm.subset (List.mem_cons_self ..)) with h | hmem'
      · exact h.symm
      · exact absurd (hx x' hmem') (keyBefore_asymm (hx' x hmem))
  subst heq
  exact ⟨rfl, hperm.cons_inv⟩

/-- The node popped is the one `pop_min` starts from, or is before it; so it is before whatever that one is before. -/
theorem popMin_before {m u : QNode} {qs : List QNode}
    (hleast : ∀ z ∈ (popMin m qs).2, keyBefore (popMin m qs).1 z = true) (hmu : keyBefore m u = true) :
    keyBefore (popMin m qs).1 u = true := by
  rcases List.mem_cons.1 ((popMin_perm m qs).symm.subset (List.mem_cons_self ..)) with h | h
  · exact h ▸ hmu
  · exact keyBefore_trans (hleast m h) hmu

/-- Of nodes with distinct numbers `pop_min` pops the one whose key is before every other's. -/
theorem popMin_least {m : QNode} {qs : List QNode} (hd : ((m :: qs).map (·.seq)).Nodup) :
    ∀ z ∈ (popMin m qs).2, keyBefore (popMin m qs).1 z = true := by
  induction qs generalizing m with
  | nil => simp [popMin]
  | cons x xs ih =>
    obtain ⟨hm, hxs⟩ := List.nodup_cons.1 hd
    have hmx : m.seq ≠ x.seq := fun h => hm (by simp [h])
    have hmxs : ((m :: xs).map (·.seq)).Nodup :=
      List.nodup_cons.2 ⟨fun h => hm (List.mem_cons_of_mem _ h), (List.nodup_cons.1 hxs).2⟩
    unfold popMin
    split
    · rename_i hxm
      exact List.forall_mem_cons.2 ⟨popMin_before (ih hxs) hxm, ih hxs⟩
    · rename_i hxm
      exact List.forall_mem_cons.2 ⟨popMin_before (ih hmxs) (keyBefore_of_not hmx.symm hxm), ih hmxs⟩

/-! ## The queue -/

/-- The queue after `k` merges (R201, R205): the numbers of its nodes are distinct, and the next merge's is new. -/
def QueueOk (k : Nat) (qs : List QNode) : Prop := (qs.map (·.seq)).Nodup ∧ ∀ q ∈ qs, q.seq < 256 + k

theorem QueueOk.perm {k : Nat} {qs qs' : List QNode} (h : QueueOk k qs) (hp : qs.Perm qs') : QueueOk k qs' :=
  ⟨(hp.map _).nodup_iff.1 h.1, fun q hq => h.2 q (hp.symm.subset hq)⟩

theorem QueueOk.tail {k : Nat} {q : QNode} {qs : List QNode} (h : QueueOk k (q :: qs)) : QueueOk k qs :=
  ⟨(List.nodup_cons.1 h.1).2, fun p hp => h.2 p (List.mem_cons_of_mem _ hp)⟩

/-- Queueing the `k`-th merge keeps the numbers distinct. -/
theorem QueueOk.merge {k : Nat} {rest : List QNode} (h : QueueOk k rest) (x y : QNode) :
    QueueOk (k + 1) (mergeNodes k x y :: rest) := by
  obtain ⟨hd, hlt⟩ := h
  constructor
  · refine List.nodup_cons.2 ⟨fun hmem => ?_, hd⟩
    obtain ⟨q, hq, hseq⟩ := List.mem_map.1 hmem
    exact absurd (hlt q hq) (by rw [hseq]; exact Nat.lt_irrefl _)
  · exact List.forall_mem_cons.2 ⟨Nat.lt_succ_self _, fun q hq => Nat.lt_succ_of_lt (hlt q hq)⟩

/-! ## Merging (R205, R208) -/

/-- The model's merge is the relation's. -/
theorem mergeNodes_eq (k : Nat) (x y : QNode) :
    mergeNodes k x y = ⟨x.weight + y.weight, 256 + k, 1 + max x.height y.height,
      if isInternal x.tree = true ∧ isInternal y.tree = true ∧ y.height < x.height then .node y.tree x.tree
      else .node x.tree y.tree⟩ := by
  simp only [mergeNodes, Bool.and_eq_true, decide_eq_true_eq, and_assoc]

/-- Popping the least two nodes of a queue with distinct numbers and queueing their merge is a step of the relation. -/
theorem merges_of_popMin {k : Nat} {q r : QNode} {qs rs : List QNode} {t : Tree} (hq : QueueOk k (q :: qs))
    (hpop : (popMin q qs).2 = r :: rs)
    (h : Merges (k + 1) (mergeNodes k (popMin q qs).1 (popMin r rs).1 :: (popMin r rs).2) t) : Merges k (q :: qs) t := by
  have hfirst := popMin_perm q qs
  have hleast := popMin_least hq.1
  rw [hpop] at hfirst hleast
  have hsecond := popMin_perm r rs
  have hd : ((r :: rs).map (·.seq)).Nodup := (hq.perm hfirst.symm).tail.1
  rw [mergeNodes_eq] at h
  exact .merge k _ _ _ _ t (hfirst.symm.trans (hsecond.symm.cons _))
    (fun z hz => keyBefore_iff.1 (hleast z (hsecond.subset hz))) (fun z hz => keyBefore_iff.1 (popMin_least hd z hz)) h

/-- With fuel for every node the loop ends in what the relation leads to. -/
theorem merges_mergeLoop {fuel k : Nat} {q : QNode} {qs : List QNode} (hf : qs.length < fuel) (hq : QueueOk k (q :: qs)) :
    Merges k (q :: qs) (mergeLoop fuel k q qs).tree := by
  induction fuel generalizing k q qs with
  | zero => exact absurd hf (Nat.not_lt_zero _)
  | succ fuel ih =>
    have hfirst := popMin_perm q qs
    unfold mergeLoop
    split
    · rename_i x hpop
      rw [hpop] at hfirst
      rw [← show [x] = q :: qs from List.singleton_perm.1 hfirst]
      exact .done k x
    · rename_i x r rs hpop
      have hsecond := popMin_perm r rs
      refine merges_of_popMin hq (congrArg Prod.snd hpop) ?_
      rw [hpop] at hfirst ⊢
      refine ih ?_ (QueueOk.merge ((hq.perm hfirst.symm).tail.perm hsecond.symm).tail x _)
      have h1 := hfirst.length_eq
      have h2 := hsecond.length_eq
      simp only [List.length_cons] at h1 h2
      omega

/-- The relation leads to one tree, in whatever order the queue is listed. -/
theorem Merges.unique {k : Nat} {qs qs' : List QNode} {t t' : Tree} (h : Merges k qs t) (hp : qs.Perm qs')
    (h' : Merges k qs' t') : t = t' := by
  induction h generalizing qs' t' with
  | done k q =>
    cases h' with
    | done _ q' => rw [List.singleton_perm_singleton.1 hp]
    | merge _ _ _ _ _ _ hperm' => exact absurd (hp.trans hperm').length_eq (by simp)
  | merge k qs rest x y t hperm hx hy _ ih =>
    cases h' with
    | done _ q' => exact absurd (hperm.symm.trans hp).length_eq (by simp)
    | merge _ _ rest' x' y' _ hperm' hx' hy' hrest' =>
      simp only [← keyBefore_iff] at hx hy hx' hy'
      obtain ⟨rfl, htail⟩ := least_unique (hperm.symm.trans (hp.trans hperm')) hx hx'
      obtain ⟨rfl, hrest⟩ := least_unique htail hy hy'
      exact ih (hrest.cons _) hrest'

/-! ## BuildTree -/

/-- The leaves that are queued (R203): one for each symbol of nonzero weight. -/
def leafQueue (w : List (Byte × Nat)) : List QNode := (w.filter fun p => 0 < p.2).map fun p => leafNode p.1 p.2

theorem buildTree_of_leafQueue_nil {w : List (Byte × Nat)} (h : leafQueue w = []) : buildTree w = none := by
  unfold leafQueue at h
  simp only [buildTree, h]

theorem buildTree_of_leafQueue_cons {w : List (Byte × Nat)} {q : QNode} {qs : List QNode} (h : leafQueue w = q :: qs) :
    buildTree w = some (withInternalRoot (mergeLoop (qs.length + 1) 0 q qs).tree) := by
  unfold leafQueue at h
  simp only [buildTree, h]

/-- BuildTree is EMPTY exactly where no leaf is queued (R207). -/
theorem buildTree_eq_none {w : List (Byte × Nat)} : buildTree w = none ↔ leafQueue w = [] := by
  cases h : leafQueue w with
  | nil => simp [buildTree_of_leafQueue_nil h]
  | cons q qs => simp [buildTree_of_leafQueue_cons h]

/-- The numbers of the leaves are their symbols' (R203). -/
theorem queueOk_leafQueue {w : List (Byte × Nat)} (hw : (w.map (·.1)).Nodup) : QueueOk 0 (leafQueue w) := by
  have hseq : (leafQueue w).map (·.seq) = ((w.filter fun p => 0 < p.2).map (·.1)).map BitVec.toNat := by
    simp [leafQueue, leafNode]
  constructor
  · rw [hseq]
    exact (hw.sublist (List.filter_sublist.map _)).map fun _ _ => BitVec.eq_of_toNat_eq
  · intro q hq
    obtain ⟨p, -, rfl⟩ := List.mem_map.1 hq
    exact p.1.isLt

/-- Of distinct symbols, the tree built is the one the relation leads to, with an internal root (R206, R208). -/
theorem buildTree_eq_some {w : List (Byte × Nat)} {t : Tree} (hw : (w.map (·.1)).Nodup) :
    buildTree w = some t ↔ leafQueue w ≠ [] ∧ ∃ root, Merges 0 (leafQueue w) root ∧ t = withInternalRoot root := by
  have hok := queueOk_leafQueue hw
  cases h : leafQueue w with
  | nil => simp [buildTree_of_leafQueue_nil h]
  | cons q qs =>
    rw [h] at hok
    have hloop := merges_mergeLoop (Nat.lt_succ_self qs.length) hok
    simp only [buildTree_of_leafQueue_cons h, Option.some.injEq, ne_eq, reduceCtorEq, not_false_eq_true, true_and]
    constructor
    · exact fun ht => ⟨_, hloop, ht.symm⟩
    · rintro ⟨root, hroot, rfl⟩
      rw [hloop.unique (.refl _) hroot]

/-- Settles O24: the loop is a run of the relation, and the relation has only one. -/
theorem builderMergesLeastNodes : Obligations.BuilderMergesLeastNodes :=
  fun _ hw => ⟨buildTree_eq_none, fun _ => buildTree_eq_some hw⟩

/-! ## The shape of a tree (R209) -/

theorem treeNodes_eq_leaves (t : Tree) : treeNodes t + 1 = 2 * (leafSyms t).length := by
  induction t with
  | leaf s => rfl
  | node l r ihl ihr => simp only [treeNodes, leafSyms, List.length_append]; omega

theorem treeDepth_lt_leaves (t : Tree) : treeDepth t < (leafSyms t).length := by
  induction t with
  | leaf s => exact Nat.one_pos
  | node l r ihl ihr => simp only [treeDepth, leafSyms, List.length_append]; omega

/-- Merging keeps every leaf. -/
theorem Merges.leafSyms_perm {k : Nat} {qs : List QNode} {t : Tree} (h : Merges k qs t) :
    (leafSyms t).Perm (qs.flatMap fun q => leafSyms q.tree) := by
  induction h with
  | done k q => simp
  | merge k qs rest x y t hperm _ _ _ ih =>
    refine ih.trans (List.Perm.trans ?_ (hperm.flatMap_right _).symm)
    simp only [List.flatMap_cons, ← List.append_assoc]
    refine List.Perm.append_right _ ?_
    split
    · exact List.perm_append_comm
    · exact .refl _

/-- The tree built, before its root is made internal, has one leaf for each symbol of nonzero weight. -/
theorem exists_root_of_buildTree {w : List (Byte × Nat)} {t : Tree} (hw : (w.map (·.1)).Nodup) (h : buildTree w = some t) :
    ∃ root, t = withInternalRoot root ∧ (leafSyms root).Perm ((w.filter fun p => 0 < p.2).map (·.1)) := by
  obtain ⟨-, root, hroot, ht⟩ := (buildTree_eq_some hw).1 h
  have hleaves : (leafQueue w).flatMap (fun q => leafSyms q.tree) = (w.filter fun p => 0 < p.2).map (·.1) := by
    simp only [leafQueue, List.flatMap_map, leafNode, leafSyms, ← List.map_eq_flatMap]
  exact ⟨root, ht, hleaves ▸ hroot.leafSyms_perm⟩

/-- There are 256 symbols. -/
theorem length_symbols_le {l : List Byte} (h : l.Nodup) : l.length ≤ 256 := by
  simpa using (h.map (f := BitVec.toFin) fun _ _ => BitVec.eq_of_toFin_eq).length_le_card

/-- A tree within its bounds is less deep than 256. -/
theorem treeDepth_le_of_treeOk {t : Tree} (h : TreeOk t) : treeDepth t ≤ 255 := by
  obtain ⟨-, hcap⟩ := h
  have hnodes := treeNodes_eq_leaves t
  have hdepth := treeDepth_lt_leaves t
  simp only [Config.nodeCap] at hcap
  omega

/-- Settles O25: the leaves are the symbols of nonzero weight; a tree has one internal node fewer than leaves, and its depth is
below their number. -/
theorem builtTreeShape : Obligations.BuiltTreeShape := by
  intro w t hw hb syms
  have hok : TreeOk t := treeOk_buildTree (by simpa using length_symbols_le hw) hb
  have hdepth := treeDepth_le_of_treeOk hok
  obtain ⟨root, hroot, hperm⟩ := exists_root_of_buildTree hw hb
  have hlen : (leafSyms root).length = syms.length := hperm.length_eq
  refine ⟨hok.1, hok.2, hdepth, fun htwo => ?_, fun hone => ?_, fun sym code h => ?_⟩
  · cases root with
    | leaf s => exact absurd (hlen ▸ htwo) (by simp [leafSyms])
    | node l r =>
      have hnodes := treeNodes_eq_leaves (.node l r)
      subst hroot
      exact ⟨hperm, by simp only [withInternalRoot]; omega⟩
  · cases root with
    | leaf s =>
      have hsyms : syms = [s] := List.perm_singleton.1 hperm.symm
      simp [hroot, hsyms, withInternalRoot, leafSyms, treeNodes]
    | node l r =>
      have := treeDepth_lt_leaves (.node l r)
      simp only [treeDepth] at this
      omega
  · obtain ⟨hpos, hle⟩ := length_of_encTable hok.1 h
    exact ⟨hpos, hle.trans hdepth⟩

end Sys2Proof.Machine
end

section
/-! SUPPORT. COUNT in an undisturbed SRC region (41_tree_builder.md R214), the weights as sums and rows of the count matrix
(R211, R212), and the table stores of BUILD.P and BUILD.M (R215, R216). -/

namespace Sys2Proof.Machine

/-! ## COUNT (R214) -/

theorem toNat_saturatingSucc (v : Word) : (saturatingSucc v).toNat = min 0xFFFFFFFF (v.toNat + 1) := by
  have hv := v.isLt
  unfold saturatingSucc
  split
  · rename_i h
    rw [h]
    rfl
  · rename_i h
    have hne : v.toNat ≠ 0xFFFFFFFF := fun e => h (BitVec.eq_of_toNat_eq e)
    rw [BitVec.toNat_add]
    simp only [BitVec.toNat_ofNat]
    omega

/-- Where every read answers, the loop adds to each cell the occurrences of its pair. -/
theorem countLoop_adds {rd : Nat → Nat → Option Byte} {bs : List Byte} {i : Nat} {prev : Byte} {c : CountMatrix}
    (hc : CountMatrix.wf c) (hrd : ∀ j (h : j < bs.length), rd (i + j) (i + j) = some bs[j]) :
    ∃ c', countLoop rd bs.length i prev c = .ok c' ∧ ∀ ctx sym, (countCell c' ctx sym).toNat =
      min 0xFFFFFFFF ((countCell c ctx sym).toNat + ((prev :: bs).zip bs).count (ctx, sym)) := by
  induction bs generalizing i prev c with
  | nil =>
    refine ⟨c, rfl, fun ctx sym => ?_⟩
    have := (countCell c ctx sym).isLt
    simp only [List.zip_nil_right, List.count_nil]
    omega
  | cons b bs ih =>
    have hfirst : rd i i = some b := hrd 0 (Nat.succ_pos _)
    obtain ⟨c', hloop, hcells⟩ := ih (i := i + 1) (prev := b)
      (setCountCell_wf prev b (saturatingSucc (countCell c prev b)) hc) fun j h => by
        simpa [Nat.add_assoc, Nat.add_comm 1] using hrd (j + 1) (Nat.succ_lt_succ h)
    refine ⟨c', by simpa [countLoop, hfirst] using hloop, fun ctx sym => ?_⟩
    rw [hcells, countCell_setCountCell _ _ _ _ _ hc, List.zip_cons_cons]
    by_cases hpair : ctx = prev ∧ sym = b
    · obtain ⟨rfl, rfl⟩ := hpair
      rw [if_pos ⟨rfl, rfl⟩, toNat_saturatingSucc, List.count_cons_self]
      omega
    · have hne : (prev, b) ≠ (ctx, sym) := fun h => hpair (by cases h; exact ⟨rfl, rfl⟩)
      rw [if_neg hpair, List.count_cons_of_ne hne]

/-- Settles O21: in an undisturbed region every check passes and every read answers. -/
theorem countAddsPairs : Obligations.CountAddsPairs := by
  intro s hc hq
  have ⟨hf, hp, _⟩ := hq
  obtain ⟨c, hloop, hcells⟩ := countLoop_adds (rd := srcByte s s.latch.srcBase) (bs := sourceBytes s) (i := 0)
    (prev := 0x20#8) hc fun j h => by
      have hj : j < s.latch.srcLen.toNat := by simpa [sourceBytes, regionBytes] using h
      simpa [sourceBytes, regionBytes] using srcByte_quiet hq hj j
  rw [show (sourceBytes s).length = s.latch.srcLen.toNat by simp [sourceBytes, regionBytes]] at hloop
  refine ⟨c, ?_, hcells⟩
  have he : exec .count s = finish { s with counts := c, result := s.latch.srcLen } := by
    simp [exec, execCount, hf, plainRegion_touchesDevice hp, refusedReads_nil hf hp, Config.spaceSeed, hloop]
  exact he ▸ completesTo_finish (keepsEnv_refl s.env)

/-! ## The weights (R211, R212) -/

/-- The listed entries are the keys that do not read 0, with what they read. -/
theorem mem_iff_get {w a : Nat} {v : BitVec w} {m : Sparse w} (hm : Sparse.wf m) :
    (a, v) ∈ m ↔ Sparse.get a m = v ∧ v ≠ unlisted w := by
  induction m with
  | nil => simp only [List.not_mem_nil, Sparse.get, false_iff]; rintro ⟨rfl, h⟩; exact h rfl
  | cons p m ih =>
    obtain ⟨k, x⟩ := p
    obtain ⟨hlt, hx, hm'⟩ := wf_cons.1 hm
    rw [List.mem_cons, Prod.mk.injEq, ih hm', Sparse.get]
    by_cases hk : k = a
    · subst hk
      rw [get_of_lt hlt, if_pos rfl]
      constructor
      · rintro (⟨-, rfl⟩ | ⟨rfl, h⟩)
        · exact ⟨rfl, hx⟩
        · exact absurd rfl h
      · exact fun h => .inl ⟨rfl, h.1.symm⟩
    · simp [hk, Ne.symm hk]

theorem countCell_ofNat (c : CountMatrix) {ctx sym : Nat} (hctx : ctx < 256) (hsym : sym < 256) :
    countCell c (BitVec.ofNat 8 ctx) (BitVec.ofNat 8 sym) = Sparse.get (256 * ctx + sym) c := by
  simp only [countCell, countKey, BitVec.toNat_ofNat]
  rw [Nat.mod_eq_of_lt hctx, Nat.mod_eq_of_lt hsym]

/-- A column's sum over the listed cells is its sum over all contexts. -/
theorem columnSum_eq_sum {c : CountMatrix} (hc : CountMatrix.wf c) {sym : Nat} (hsym : sym < 256) :
    columnSum c sym = ∑ ctx ∈ Finset.range 256, (Sparse.get (256 * ctx + sym) c).toNat := by
  obtain ⟨hwf, hkeys⟩ := hc
  induction c with
  | nil => simp [columnSum, Sparse.get, unlisted]
  | cons p c ih =>
    obtain ⟨k, v⟩ := p
    obtain ⟨hlt, -, hwf'⟩ := wf_cons.1 hwf
    have hk : k < 65536 := hkeys (k, v) (List.mem_cons_self ..)
    have hget (ctx : Nat) : (Sparse.get (256 * ctx + sym) ((k, v) :: c)).toNat
        = (if ctx = k / 256 then (if k % 256 = sym then v.toNat else 0) else 0)
          + (Sparse.get (256 * ctx + sym) c).toNat := by
      simp only [Sparse.get]
      by_cases h : k = 256 * ctx + sym
      · rw [← h, get_of_lt hlt]
        simp [unlisted, show ctx = k / 256 by omega, show k % 256 = sym by omega]
      · by_cases hctx : ctx = k / 256
        · simp [h, show ¬ k % 256 = sym by omega]
        · simp [h, hctx]
    have hsum : columnSum ((k, v) :: c) sym = (if k % 256 = sym then v.toNat else 0) + columnSum c sym := by
      unfold columnSum
      by_cases h : k % 256 = sym <;> simp [h]
    simp only [hget, Finset.sum_add_distrib, Finset.sum_ite_eq', Finset.mem_range,
      show k / 256 < 256 by omega, if_true, hsum,
      ih hwf' fun d hd => hkeys d (List.mem_cons_of_mem _ hd)]

/-- BUILD.P's weights are the column sums (R211). -/
theorem plainWeights_eq {c : CountMatrix} (hc : CountMatrix.wf c) :
    plainWeights c = (List.range 256).map fun x => (BitVec.ofNat 8 x,
      ((List.range 256).map fun ctx => (countCell c (BitVec.ofNat 8 ctx) (BitVec.ofNat 8 x)).toNat).sum) := by
  refine List.map_congr_left fun x hx => ?_
  have hx' := List.mem_range.1 hx
  rw [columnSum_eq_sum hc hx', ← List.toFinset_range, List.sum_toFinset _ List.nodup_range]
  congr 2
  exact List.map_congr_left fun ctx hctx => by rw [countCell_ofNat c (List.mem_range.1 hctx) hx']

/-- The weights of a row, every symbol listed (R212). -/
def rowList (c : CountMatrix) (ctx : Byte) : List (Byte × Nat) :=
  (List.range 256).map fun x => (BitVec.ofNat 8 x, (countCell c ctx (BitVec.ofNat 8 x)).toNat)

theorem mem_rowList {c : CountMatrix} {ctx : Byte} {p : Byte × Nat} :
    p ∈ rowList c ctx ↔ p.2 = (countCell c ctx p.1).toNat := by
  obtain ⟨sym, n⟩ := p
  simp only [rowList, List.mem_map, List.mem_range, Prod.mk.injEq]
  constructor
  · rintro ⟨x, -, rfl, rfl⟩
    rfl
  · rintro rfl
    exact ⟨sym.toNat, sym.isLt, by simp, by simp⟩

/-- BUILD.M's weights of a context are the nonzero ones of its row. -/
theorem mem_rowWeights {c : CountMatrix} (hc : CountMatrix.wf c) {ctx : Byte} {p : Byte × Nat} :
    p ∈ rowWeights c ctx.toNat ↔ p.2 = (countCell c ctx p.1).toNat ∧ 0 < p.2 := by
  obtain ⟨sym, n⟩ := p
  have hpos (v : Word) : v ≠ unlisted 32 ↔ 0 < v.toNat := by
    rw [Nat.pos_iff_ne_zero, ne_eq, ne_eq, ← BitVec.toNat_inj]
    rfl
  simp only [rowWeights, List.mem_map, List.mem_filter, decide_eq_true_eq, Prod.mk.injEq]
  constructor
  · rintro ⟨⟨k, v⟩, ⟨hmem, hrow⟩, rfl, rfl⟩
    obtain ⟨hget, hne⟩ := (mem_iff_get hc.1).1 hmem
    have hkey : countKey ctx (BitVec.ofNat 8 (k % 256)) = k := by
      simp only [countKey, BitVec.toNat_ofNat]
      omega
    exact ⟨by rw [countCell, hkey, hget], (hpos v).1 hne⟩
  · rintro ⟨rfl, h⟩
    have hsym := sym.isLt
    refine ⟨(countKey ctx sym, countCell c ctx sym), ⟨(mem_iff_get hc.1).2 ⟨rfl, (hpos _).2 h⟩, ?_⟩, ?_, rfl⟩
    · simp only [countKey]; omega
    · refine BitVec.eq_of_toNat_eq ?_
      simp only [countKey, BitVec.toNat_ofNat]
      omega

/-- Lists of weights by rising symbol with the same nonzero weights build the same tree: no leaf is queued for a weight of 0
(R203). -/
theorem buildTree_congr {w w' : List (Byte × Nat)} (hw : (w.map (·.1.toNat)).Pairwise (· < ·))
    (hw' : (w'.map (·.1.toNat)).Pairwise (· < ·)) (h : ∀ p : Byte × Nat, 0 < p.2 → (p ∈ w ↔ p ∈ w')) :
    buildTree w = buildTree w' := by
  have hfilter : (w.filter fun p => 0 < p.2) = w'.filter fun p => 0 < p.2 := by
    refine List.Pairwise.eq_of_mem_iff (r := InvImage (· < ·) fun p : Byte × Nat => p.1.toNat)
      ((List.pairwise_map.1 hw).filter _) ((List.pairwise_map.1 hw').filter _) fun p => ?_
    simp only [List.mem_filter, decide_eq_true_eq]
    exact and_congr_left (h p)
  simp only [buildTree, hfilter]

theorem pairwise_rowList (c : CountMatrix) (ctx : Byte) : ((rowList c ctx).map (·.1.toNat)).Pairwise (· < ·) := by
  have hsyms : (rowList c ctx).map (·.1.toNat) = List.range 256 := by
    rw [rowList, List.map_map]
    exact (List.map_congr_left (g := id) fun x hx => Nat.mod_eq_of_lt (List.mem_range.1 hx)).trans (List.map_id _)
  rw [hsyms]
  exact List.pairwise_lt_range

theorem pairwise_rowWeights {c : CountMatrix} (hc : CountMatrix.wf c) (ctx : Nat) :
    ((rowWeights c ctx).map (·.1.toNat)).Pairwise (· < ·) := by
  obtain ⟨⟨hrise, -⟩, -⟩ := hc
  rw [rowWeights, List.map_map, List.pairwise_map]
  refine (hrise.filter _).imp_of_mem fun hp hq hlt => ?_
  have hprow := of_decide_eq_true (List.mem_filter.1 hp).2
  have hqrow := of_decide_eq_true (List.mem_filter.1 hq).2
  simp only [Function.comp, BitVec.toNat_ofNat]
  omega

/-- The row's listed cells build the tree of the whole row (R212). -/
theorem buildTree_rowWeights {c : CountMatrix} (hc : CountMatrix.wf c) (ctx : Byte) :
    buildTree (rowWeights c ctx.toNat) = buildTree (rowList c ctx) :=
  buildTree_congr (pairwise_rowWeights hc _) (pairwise_rowList c ctx) fun p hp => by
    rw [mem_rowWeights hc, mem_rowList]
    exact and_iff_left hp

/-! ## The table stores (R215, R216) -/

/-- A store listed from a function of the slot's number holds what the function gives. -/
theorem slotTree_filterMap (f : Nat → Option Tree) (ks : List Nat) (k : Nat) :
    slotTree (ks.filterMap fun j => (f j).map fun t => (j, t)) k = if k ∈ ks then f k else none := by
  induction ks with
  | nil => rfl
  | cons j ks ih =>
    by_cases hj : j = k
    · subst hj
      cases hf : f j <;> simp [hf, slotTree, ih]
    · cases hf : f j <;> simp [hf, slotTree, ih, hj, Ne.symm hj]

theorem slotTree_markovSlots {c : CountMatrix} (hc : CountMatrix.wf c) (ctx : Byte) :
    slotTree (markovSlots c) ctx.toNat = buildTree (rowList c ctx) := by
  rw [markovSlots, slotTree_filterMap, if_pos (List.mem_range.2 ctx.isLt), buildTree_rowWeights hc]

theorem slotTree_plainSlots (c : CountMatrix) (k : Nat) :
    slotTree (plainSlots c) k = if k = 0 then buildTree (plainWeights c) else none := by
  unfold plainSlots
  cases buildTree (plainWeights c) <;> simp [slotTree, eq_comm]

/-- Settles O22: the column sums are the weights, and their tree is all the store holds. -/
theorem buildPlainCompletes : Obligations.BuildPlainCompletes := by
  intro s hc
  refine ⟨plainSlots s.counts, completesTo_finish (keepsEnv_refl s.env), ?_, fun k hk => ?_⟩
  · rw [slotTree_plainSlots, if_pos rfl, plainWeights_eq hc]
  · rw [slotTree_plainSlots, if_neg hk]

/-- Settles O23: the row's listed cells are its nonzero weights. -/
theorem buildMarkovCompletes : Obligations.BuildMarkovCompletes := fun s hc =>
  ⟨markovSlots s.counts, completesTo_finish (keepsEnv_refl s.env), slotTree_markovSlots hc⟩

end Sys2Proof.Machine
end

section
/-! SUPPORT. The tables computed from a slot's tree (42_lookup_tables.md): the codeword is the greatest path to a leaf of its
symbol (R251, R253), a lookup slot holds what the bits of its index lead to (R255 to R257), and GET_ENCODING and LOOKUP
answer from them (R258 to R262). -/

namespace Sys2Proof.Machine

variable {s : State} {prev : Byte}

/-! ## The leaf reached last (R251, R253) -/

/-- The walk's codewords begin with the codeword of the node it starts from. -/
theorem walkLeaves_eq_map (t : Tree) (pre : List Bool) :
    walkLeaves t pre = (walkLeaves t []).map fun p => (p.1, pre ++ p.2) := by
  induction t generalizing pre with
  | leaf s => simp [walkLeaves]
  | node l r ihl ihr =>
    simp only [walkLeaves, List.nil_append, List.map_append]
    rw [ihl, ihl [false], ihr, ihr [true]]
    simp [Function.comp_def]

theorem encTable_leaf (x sym : Byte) : encTable (.leaf x) sym = if x = sym then some [] else none := by
  by_cases h : x = sym <;> simp [encTable, walkLeaves, h]

/-- The leaves on the right are reached after those on the left. -/
theorem encTable_node (l r : Tree) (sym : Byte) :
    encTable (.node l r) sym = ((encTable r sym).map (true :: ·)).or ((encTable l sym).map (false :: ·)) := by
  simp only [encTable, walkLeaves, List.nil_append]
  rw [walkLeaves_eq_map l [false], walkLeaves_eq_map r [true]]
  simp [List.filter_append, List.filter_map, Function.comp_def, Option.map_or]

/-- A symbol has a codeword exactly where it has a leaf. -/
theorem encTable_eq_none {t : Tree} {sym : Byte} :
    encTable t sym = none ↔ ∀ code, treeAt t code ≠ some (.leaf sym) := by
  simp only [encTable, Option.map_eq_none_iff, List.getLast?_eq_none_iff, List.filter_eq_nil_iff, decide_eq_true_eq]
  constructor
  · exact fun h code hat => h (sym, code) (mem_walkLeaves.2 ⟨code, rfl, hat⟩) rfl
  · rintro h ⟨_, code⟩ hmem rfl
    obtain ⟨path, -, hat⟩ := mem_walkLeaves.1 hmem
    exact h path hat

/-- The codeword is the greatest of the paths to the symbol's leaves. -/
theorem path_le_encTable {t : Tree} {sym : Byte} {code other : List Bool} (h : encTable t sym = some code)
    (ho : treeAt t other = some (.leaf sym)) : other = code ∨ List.Lex (fun a b => a = false ∧ b = true) other code := by
  induction t generalizing code other with
  | leaf x =>
    have hcode := (treeAt_leaf.1 (treeAt_of_encTable h)).1
    exact .inl ((treeAt_leaf.1 ho).1.trans hcode.symm)
  | node l r ihl ihr =>
    rw [encTable_node] at h
    match other, ho with
    | true :: p, hp =>
      cases hr : encTable r sym with
      | none => exact absurd hp (encTable_eq_none.1 hr p)
      | some c =>
        obtain rfl : true :: c = code := by simpa [hr] using h
        exact (ihr hr hp).imp (congrArg _) .cons
    | false :: p, hp =>
      cases hr : encTable r sym with
      | some c =>
        obtain rfl : true :: c = code := by simpa [hr] using h
        exact .inr (.rel ⟨rfl, rfl⟩)
      | none =>
        obtain ⟨c, hl, rfl⟩ : ∃ c, encTable l sym = some c ∧ false :: c = code := by simpa [hr] using h
        exact (ihl hl hp).imp (congrArg _) .cons

/-- Settles O27: the codeword is a path to a leaf of the symbol, and no other such path is greater. -/
theorem encodingTableIsLastLeaf : Obligations.EncodingTableIsLastLeaf := fun _ _ =>
  ⟨fun _ h => ⟨treeAt_of_encTable h, fun _ => path_le_encTable h⟩, encTable_eq_none⟩

/-! ## The lookup table (R255 to R257) -/

/-- Of the assignments made at a node of codeword `code` at depth `d` and below it, the one that slot `b` is left with. -/
def lastFill (t : Tree) (d code b : Nat) : Option LutFill := (lutFills t d code).reverse.find? (fillCovers b)

theorem lutEntry_eq (t : Tree) (b : Byte) : lutEntry t b = (lastFill t 0 0 b.toNat).getD ⟨0, 256, t, 0⟩ := by
  rw [lutEntry, lastFill, List.getLast?_filter]

theorem fillCovers_iff {b : Nat} {f : LutFill} : fillCovers b f = true ↔ f.lo ≤ b ∧ b < f.lo + f.n := by
  simp [fillCovers]

/-- The slots of a codeword of `d` bits are those whose first `d` bits it is. -/
theorem fillCovers_shiftLeft (b code d : Nat) (t : Tree) :
    fillCovers b ⟨code <<< (8 - d), 2 ^ (8 - d), t, d⟩ = true ↔ b / 2 ^ (8 - d) = code := by
  rw [fillCovers_iff, Nat.shiftLeft_eq, Nat.div_eq_iff (Nat.two_pow_pos _)]
  have := Nat.two_pow_pos (8 - d)
  dsimp only
  omega

theorem fillCovers_one (b code d : Nat) (t : Tree) : fillCovers b ⟨code, 1, t, d⟩ = true ↔ b = code := by
  rw [fillCovers_iff]
  dsimp only
  omega

/-- Below depth 8 the walk assigns nothing. -/
theorem lutFills_deep (t : Tree) {d : Nat} (hd : 8 < d) (code : Nat) : lutFills t d code = [] := by
  induction t generalizing d code with
  | leaf s => simp [lutFills, hd.ne', hd]
  | node l r ihl ihr => simp [lutFills, hd.ne', ihl (Nat.lt_succ_of_lt hd), ihr (Nat.lt_succ_of_lt hd)]

/-- At a leaf, at depth 8 too, the last assignment is to all the slots of its codeword. -/
theorem lastFill_leaf (x : Byte) {d : Nat} (hd : d ≤ 8) (code b : Nat) :
    lastFill (.leaf x) d code b
      = if b / 2 ^ (8 - d) = code then some ⟨code <<< (8 - d), 2 ^ (8 - d), .leaf x, d⟩ else none := by
  rcases hd.lt_or_eq with hlt | rfl
  · simp [lastFill, lutFills, hlt.ne, hd, List.find?_singleton, fillCovers_shiftLeft]
  · by_cases hb : b = code <;> simp [lastFill, lutFills, fillCovers_one, hb]

/-- The right subtree's assignments come after the left's. -/
theorem lastFill_node_of_lt (l r : Tree) {d : Nat} (hd : d < 8) (code b : Nat) :
    lastFill (.node l r) d code b = (lastFill r (d + 1) (2 * code + 1) b).or (lastFill l (d + 1) (2 * code) b) := by
  simp [lastFill, lutFills, hd.ne, List.find?_append]

theorem lastFill_node_eight (l r : Tree) (code b : Nat) :
    lastFill (.node l r) 8 code b = if b = code then some ⟨code, 1, .node l r, 8⟩ else none := by
  simp [lastFill, lutFills, lutFills_deep, List.find?_singleton, fillCovers_one]

/-- From an internal node above depth 8 the next bit of the index selects the child. -/
theorem followBits_drop_byteBits (l r : Tree) (b : Byte) {d : Nat} (hd : d < 8) :
    followBits (.node l r) ((byteBits b).drop d)
      = ((followBits (if streamBit b d then r else l) ((byteBits b).drop (d + 1))).1,
        (followBits (if streamBit b d then r else l) ((byteBits b).drop (d + 1))).2 + 1) := by
  rw [List.drop_eq_getElem_cons (by simpa using hd), getElem_byteBits, followBits]

theorem streamBit_eq_decide_div (b : Byte) (d : Nat) : streamBit b d = decide (b.toNat / 2 ^ (7 - d) % 2 = 1) := by
  rw [streamBit, BitVec.getLsbD, Nat.testBit_eq_decide_div_mod_eq]

/-- A slot under the codeword of a node is left with what the rest of its index's bits lead to from that node; the node's
subtree assigns no other slot (R256). -/
theorem lastFill_eq_followBits (t : Tree) {d : Nat} (hd : d ≤ 8) (code : Nat) (b : Byte) :
    (lastFill t d code b.toNat).map (fun f => (f.tree, f.depth))
      = if b.toNat / 2 ^ (8 - d) = code
        then some ((followBits t ((byteBits b).drop d)).1, d + (followBits t ((byteBits b).drop d)).2) else none := by
  induction t generalizing d code with
  | leaf x =>
    rw [lastFill_leaf x hd]
    split_ifs <;> simp [followBits]
  | node l r ihl ihr =>
    rcases hd.lt_or_eq with hlt | rfl
    · have hhalf : b.toNat / 2 ^ (8 - d) = b.toNat / 2 ^ (8 - (d + 1)) / 2 := by
        rw [Nat.div_div_eq_div_mul, ← pow_succ, show 8 - (d + 1) + 1 = 8 - d by omega]
      have hbit := streamBit_eq_decide_div b d
      rw [show 7 - d = 8 - (d + 1) by omega] at hbit
      rw [lastFill_node_of_lt l r hlt, Option.map_or, ihl hlt, ihr hlt, followBits_drop_byteBits l r b hlt, hhalf, hbit]
      generalize b.toNat / 2 ^ (8 - (d + 1)) = q
      have hsum (n : Nat) : d + 1 + n = d + (n + 1) := by omega
      by_cases hq : q % 2 = 1
      · simp [hq, hsum, show ¬ q = 2 * code by omega, show q = 2 * code + 1 ↔ q / 2 = code by omega]
      · simp [hq, hsum, show ¬ q = 2 * code + 1 by omega, show q = 2 * code ↔ q / 2 = code by omega]
    · simp only [lastFill_node_eight, Nat.sub_self, pow_zero, Nat.div_one]
      split_ifs <;> simp [List.drop_of_length_le, followBits]

/-- Settles O28: every index begins with the root's codeword, which is empty. -/
theorem lookupTableFollowsBits : Obligations.LookupTableFollowsBits := by
  intro t b
  have hroot := lastFill_eq_followBits t (Nat.zero_le 8) 0 b
  rw [if_pos (Nat.div_eq_of_lt b.isLt), List.drop_zero, Nat.zero_add, Option.map_eq_some_iff] at hroot
  obtain ⟨f, hf, hpair⟩ := hroot
  rw [lutEntry_eq, hf]
  exact hpair

/-! ## The queries (R258 to R262) -/

theorem queriedTree_of_kind_none (h : s.kind = .none) : queriedTree s prev = .error .noTable := by
  simp [queriedTree, h]

theorem queriedTree_of_treeFor_none (hk : s.kind ≠ .none) (h : treeFor s.kind s.slots prev = none) :
    queriedTree s prev = .error .emptyTable := by
  simp [queriedTree, hk, contextTree_eq_treeFor, h]

theorem queriedTree_of_treeFor_some {t : Tree} (hk : s.kind ≠ .none) (h : treeFor s.kind s.slots prev = some t) :
    queriedTree s prev = .ok t := by
  simp [queriedTree, hk, contextTree_eq_treeFor, h]

/-- Both queries raise the error of the slot's check. -/
theorem exec_query_error {e : ErrCode} (h : queriedTree s prev = .error e) (x : Byte) :
    exec (.getEncoding prev x) s = fail e 0#32 s ∧ exec (.lookup prev x) s = fail e 0#32 s := by
  simp [exec, execGetEncoding, execLookup, h]

theorem exec_getEncoding_of_none {t : Tree} {sym : Byte} (h : queriedTree s prev = .ok t) (hc : encTable t sym = none) :
    exec (.getEncoding prev sym) s = fail .noCodeword 0#32 s := by
  simp [exec, execGetEncoding, h, hc]

theorem exec_getEncoding_of_some {t : Tree} {sym : Byte} {code : List Bool} (h : queriedTree s prev = .ok t)
    (hc : encTable t sym = some code) :
    exec (.getEncoding prev sym) s
      = finish { s with cwLen := BitVec.ofNat 8 code.length, cwBits := cwWordsOf code } := by
  simp [exec, execGetEncoding, h, hc]

theorem exec_lookup {t : Tree} (h : queriedTree s prev = .ok t) (byte : Byte) :
    exec (.lookup prev byte) s = finish { s with result := lookupResult (lutEntry t byte) } := by
  simp [exec, execLookup, h]

/-- Settles O31: the checks of the slot, then that of the codeword. -/
theorem tableQueryErrors : Obligations.TableQueryErrors := by
  refine fun s prev x => ⟨fun hk => ?_, fun hk hslot => ?_, fun t hk hslot hcode => ?_⟩
  · exact (exec_query_error (queriedTree_of_kind_none hk) x).imp failsTo_of_exec_eq failsTo_of_exec_eq
  · exact (exec_query_error (queriedTree_of_treeFor_none hk hslot) x).imp failsTo_of_exec_eq failsTo_of_exec_eq
  · exact failsTo_of_exec_eq (exec_getEncoding_of_none (queriedTree_of_treeFor_some hk hslot) hcode)

/-! ## The descriptor words (R57, R261) -/

/-- Bits packed from bit 31 down, the first `n` of them. -/
theorem getLsbD_packBits (f : Nat → Bool) {n i : Nat} (hn : n ≤ 32) (hi : i < 32) :
    ((List.range n).foldl (fun acc k => acc ||| ((BitVec.ofBool (f k)).setWidth 32 <<< (31 - k))) 0#32).getLsbD i
      = (decide (31 - i < n) && f (31 - i)) := by
  induction n with
  | zero => simp
  | succ n ih =>
    rw [List.range_succ, List.foldl_append, List.foldl_cons, List.foldl_nil, BitVec.getLsbD_or, ih (by omega),
      BitVec.getLsbD_shiftLeft, BitVec.getLsbD_setWidth, BitVec.getLsbD_ofBool]
    rcases Nat.lt_trichotomy (31 - i) n with h | rfl | h
    · simp [h, h.trans (Nat.lt_succ_self n), show i - (31 - n) ≠ 0 by omega]
    · simp [hi, show 31 - (31 - i) = i by omega]
    · simp [h.not_gt, show ¬ 31 - i < n + 1 by omega, show i < 31 - n by omega]

/-- Bit `k` of a packed word, counted from bit 31 down, is the `k`-th bit packed. -/
theorem getLsbD_packWord (f : Nat → Bool) {k : Nat} (hk : k < 32) : (packWord f).getLsbD (31 - k) = f k := by
  rw [packWord, getLsbD_packBits f le_rfl (by omega)]
  simp [show 31 - (31 - k) = k by omega, hk]

theorem getElem_cwWordsOf (code : List Bool) {j : Nat} (hj : j < 8) :
    (cwWordsOf code)[j] = packWord fun k => code.getD (32 * j + k) false := by
  interval_cases j <;> rfl

/-- The descriptor words hold the codeword's bits, zeros after the last. -/
theorem getLsbD_cwWordsOf (code : List Bool) (k : Fin 256) :
    (cwWordsOf code)[k.val / 32].getLsbD (31 - k.val % 32) = code.getD k.val false := by
  rw [getElem_cwWordsOf, getLsbD_packWord _ (Nat.mod_lt _ (by decide)), Nat.div_add_mod]

theorem mem_of_slotTree {slots : List (Nat × Tree)} {k : Nat} {t : Tree} (h : slotTree slots k = some t) :
    (k, t) ∈ slots := by
  induction slots with
  | nil => cases h
  | cons p slots ih =>
    obtain ⟨j, u⟩ := p
    unfold slotTree at h
    split_ifs at h with hj
    · cases h
      exact hj ▸ List.mem_cons_self ..
    · exact List.mem_cons_of_mem _ (ih h)

/-- A tree that a context selects is within its bounds (R62). -/
theorem treeOk_of_treeFor {t : Tree} (hs : TablesOk s) (h : treeFor s.kind s.slots prev = some t) : TreeOk t := by
  obtain ⟨-, htrees, -⟩ := hs
  exact (htrees _ (mem_of_slotTree h)).2

/-- Settles O29: the slot's tree is within its bounds, so the codeword fits the descriptor. -/
theorem getEncodingCompletes : Obligations.GetEncodingCompletes := by
  intro s prev sym t code hs hk ht hc
  have hok : TreeOk t := treeOk_of_treeFor hs ht
  obtain ⟨hpos, hle⟩ := length_of_encTable hok.1 hc
  refine ⟨hpos, hle.trans (treeDepth_le_of_treeOk hok), cwWordsOf code, ?_, getLsbD_cwWordsOf code⟩
  rw [exec_getEncoding_of_some (queriedTree_of_treeFor_some hk ht) hc]
  exact completesTo_finish (keepsEnv_refl s.env)

/-! ## LOOKUP's result (R262) -/

/-- Only where all the bits are used do they lead to an internal node. -/
theorem followBits_snd_of_node {t l r : Tree} {bits : List Bool} (h : (followBits t bits).1 = .node l r) :
    (followBits t bits).2 = bits.length := by
  induction bits generalizing t with
  | nil => cases t <;> simp [followBits]
  | cons b bits ih =>
    cases t with
    | leaf x => simp [followBits] at h
    | node l' r' => simpa [followBits] using ih h

/-- A field above the bits in use is added. -/
theorem or_shiftLeft_eq_add {x i : Nat} (hx : x < 2 ^ i) (a : Nat) : x ||| a <<< i = x + 2 ^ i * a := by
  rw [Nat.lor_comm, ← Nat.shiftLeft_add_eq_or_of_lt hx, Nat.shiftLeft_eq, Nat.add_comm, Nat.mul_comm]

theorem ofNat_shiftLeft (w n i : Nat) : BitVec.ofNat w n <<< i = BitVec.ofNat w (n <<< i) :=
  BitVec.eq_of_toNat_eq (by simp [Nat.shiftLeft_eq])

/-- LEAF, SYM and DEPTH do not overlap. -/
theorem leafWord_eq_add (sym : Byte) (d : Nat) :
    1#32 ||| (sym.setWidth 32 <<< 8) ||| (BitVec.ofNat 32 d <<< 16)
      = BitVec.ofNat 32 (1 + 256 * sym.toNat + 65536 * d) := by
  have hsym := sym.isLt
  have hlow : 1 ||| sym.toNat <<< 8 = 1 + 256 * sym.toNat := or_shiftLeft_eq_add (by decide) _
  have hhigh : (1 + 256 * sym.toNat) ||| d <<< 16 = 1 + 256 * sym.toNat + 65536 * d :=
    or_shiftLeft_eq_add (i := 16) (by omega) _
  rw [← BitVec.ofNat_toNat, ofNat_shiftLeft, ofNat_shiftLeft, ← BitVec.ofNat_or, ← BitVec.ofNat_or, hlow, hhigh]

/-- The result by the node and the depth that the entry holds. -/
theorem lookupResult_leaf {f : LutFill} {sym : Byte} (h : f.tree = .leaf sym) :
    lookupResult f = BitVec.ofNat 32 (1 + 256 * sym.toNat + 65536 * f.depth) := by
  rw [← leafWord_eq_add, lookupResult, h]

theorem lookupResult_node {f : LutFill} {l r : Tree} (h : f.tree = .node l r) :
    lookupResult f = BitVec.ofNat 32 f.depth <<< 16 := by
  rw [lookupResult, h]

/-- Settles O30: the lookup table's entry is what the bits lead to. -/
theorem lookupCompletes : Obligations.LookupCompletes := by
  intro s prev byte t hk ht found
  obtain ⟨htree, hdepth⟩ := Prod.mk.inj (lookupTableFollowsBits t byte)
  rw [exec_lookup (queriedTree_of_treeFor_some hk ht)]
  cases hf : found.1 with
  | leaf sym =>
    rw [lookupResult_leaf (htree.trans hf), hdepth]
    exact completesTo_finish (keepsEnv_refl s.env)
  | node l r =>
    have hend : found.2 = 8 := by simpa using followBits_snd_of_node hf
    rw [lookupResult_node (htree.trans hf), hdepth.trans hend]
    exact completesTo_finish (keepsEnv_refl s.env)

end Sys2Proof.Machine
end

section
/-! SUPPORT. SERIALIZE (43_serialization.md R300 to R303): the write stream appends the table's bits or stops where they do
not fit, and its flushed bytes are the file. -/

namespace Sys2Proof.Machine

/-! ## How long a table file is -/

/-- A slot of a Markov file: the presence bit, then the tree where there is one (R303). -/
def presenceBits : Option Tree → List Bool
  | some t => true :: treeBits t
  | none => [false]

theorem slotBits_eq_presenceBits (slots : List (Nat × Tree)) (c : Nat) :
    slotBits slots c = presenceBits (slotTree slots c) := by
  unfold slotBits
  cases slotTree slots c <;> rfl

theorem length_treeBits_le (t : Tree) : (treeBits t).length ≤ 9 * treeNodes t := by
  induction t with
  | leaf sym => simp [treeBits, treeNodes]
  | node l r ihl ihr => simp only [treeBits, treeNodes, List.length_cons, List.length_append]; omega

theorem length_slotBits_le {slots : List (Nat × Tree)} (hs : ∀ p ∈ slots, TreeOk p.2) (c : Nat) :
    (slotBits slots c).length ≤ 4600 := by
  rw [slotBits_eq_presenceBits]
  cases ht : slotTree slots c with
  | none => simp [presenceBits]
  | some t =>
    obtain ⟨-, hcap⟩ := hs _ (mem_of_slotTree ht)
    have hlen := length_treeBits_le t
    simp only [Config.nodeCap] at hcap
    simp only [presenceBits, List.length_cons]
    omega

/-- A table of trees within their bounds has a file whose length in bits is a 32-bit number (R306). -/
theorem length_tableBits_lt {kind : TableKind} {slots : List (Nat × Tree)} {bits : List Bool}
    (hs : ∀ p ∈ slots, TreeOk p.2) (hb : tableBits kind slots = some bits) : bits.length < 2 ^ 32 := by
  cases kind with
  | none => simp [tableBits] at hb
  | plain =>
    have hslot := length_slotBits_le hs 0
    cases ht : slotTree slots 0 with
    | none => simp [tableBits, ht] at hb
    | some t =>
      simp only [tableBits, ht, Option.some.injEq] at hb
      simp only [slotBits_eq_presenceBits, ht, presenceBits, List.length_cons] at hslot
      subst hb
      simp only [List.length_cons]
      omega
  | markov =>
    have hsum := List.sum_le_card_nsmul ((List.range 256).map fun c => (slotBits slots c).length) 4600 fun n hn => by
      obtain ⟨c, -, rfl⟩ := List.mem_map.1 hn
      exact length_slotBits_le hs c
    simp only [tableBits, Option.some.injEq] at hb
    subst hb
    simp only [List.length_map, List.length_range, smul_eq_mul] at hsum
    simp only [List.length_cons, List.length_flatMap]
    omega

/-! ## The write stream (R154, R144) -/

/-- A serialization of `bits` from the stream `w` on: within the capacity it appends them; otherwise it stops, with at
most the region's bytes placed. -/
def Emits (cap : Nat) (w : Writer) (bits : List Bool) : Except Nat Writer → Prop
  | .ok w' => w'.Within cap ∧ writerBits w' = writerBits w ++ bits
  | .error written => 8 * cap < writerPos w + bits.length ∧ written ≤ cap

theorem Emits.bind {cap : Nat} {w : Writer} {a b : List Bool} {x : Except Nat Writer} {f : Writer → Except Nat Writer}
    (hw : w.Within cap) (hx : Emits cap w a x) (hf : ∀ w', w'.Within cap → Emits cap w' b (f w')) :
    Emits cap w (a ++ b) (x.bind f) := by
  cases x with
  | error n =>
    obtain ⟨hlong, hn⟩ := hx
    exact ⟨by rw [List.length_append]; omega, hn⟩
  | ok w' =>
    obtain ⟨hw', ha⟩ := hx
    have hpos := writerPos_of_appends hw.ok hw'.ok ha
    have hy := hf w' hw'
    show Emits cap w (a ++ b) (f w')
    cases hfw : f w' with
    | error n =>
      rw [hfw] at hy
      obtain ⟨hlong, hn⟩ := hy
      exact ⟨by rw [List.length_append]; omega, hn⟩
    | ok w'' =>
      rw [hfw] at hy
      obtain ⟨hw'', hb⟩ := hy
      exact ⟨hw'', by rw [hb, ha, List.append_assoc]⟩

theorem emits_pushWithin {cap : Nat} {w w' : Writer} (hw : w.Within cap) {bits : List Bool}
    (ha : WriterOk w' ∧ writerBits w' = writerBits w ++ bits) :
    Emits cap w bits (pushWithin cap bits.length w w') := by
  have hpos := hw.pos
  unfold pushWithin
  split_ifs with hf
  · exact ⟨hw.of_pushFits ha hf, ha.2⟩
  · simp only [pushFits, Bool.or_eq_true, decide_eq_true_eq, not_or] at hf
    simp only [writerPos] at hpos hf
    exact ⟨by simp only [writerPos]; omega, by omega⟩

theorem emits_pushBit {cap : Nat} {w : Writer} (hw : w.Within cap) (v : Bool) :
    Emits cap w [v] (pushWithin cap 1 w (pushBit v w)) := emits_pushWithin hw (pushBit_appends hw.ok v)

theorem emits_pushByte {cap : Nat} {w : Writer} (hw : w.Within cap) (v : Byte) :
    Emits cap w (byteBits v) (pushWithin cap 8 w (pushByte v w)) := by
  simpa using emits_pushWithin hw (pushByte_appends hw.ok v)

/-! ## The formats (R301 to R303) -/

theorem emits_serTree {cap : Nat} (t : Tree) {w : Writer} (hw : w.Within cap) :
    Emits cap w (treeBits t) (serTree cap t w) := by
  induction t generalizing w with
  | leaf sym => exact (emits_pushBit hw true).bind hw fun w hw => emits_pushByte hw sym
  | node l r ihl ihr =>
    exact (emits_pushBit hw false).bind hw fun w hw => (ihl hw).bind hw fun w hw => ihr hw

theorem emits_serSlots {cap : Nat} (slots : List (Nat × Tree)) (cs : List Nat) {w : Writer} (hw : w.Within cap) :
    Emits cap w (cs.flatMap (slotBits slots)) (serSlots cap slots cs w) := by
  induction cs generalizing w with
  | nil => exact ⟨hw, (List.append_nil _).symm⟩
  | cons c cs ih =>
    rw [List.flatMap_cons, slotBits_eq_presenceBits]
    unfold serSlots
    cases slotTree slots c with
    | none => exact (emits_pushBit hw false).bind hw fun w hw => ih hw
    | some t =>
      show Emits cap w ([true] ++ (treeBits t ++ cs.flatMap (slotBits slots))) _
      exact (emits_pushBit hw true).bind hw fun w hw => (emits_serTree t hw).bind hw fun w hw => ih hw

theorem emits_serTable (cap : Nat) {kind : TableKind} {slots : List (Nat × Tree)} {bits : List Bool}
    (hb : tableBits kind slots = some bits) : Emits cap .start bits (serTable cap kind slots) := by
  have hw := Writer.Within.of_start cap
  cases kind with
  | none => simp [tableBits] at hb
  | markov =>
    simp only [tableBits, Option.some.injEq] at hb
    subst hb
    exact (emits_pushBit hw true).bind hw fun w hw => emits_serSlots slots _ hw
  | plain =>
    cases ht : slotTree slots 0 with
    | none => simp [tableBits, ht] at hb
    | some t =>
      simp only [tableBits, ht, Option.some.injEq] at hb
      subst hb
      simp only [serTable, ht]
      exact (emits_pushBit hw false).bind hw fun w hw => emits_serTree t hw

theorem writerPos_start : writerPos .start = 0 := rfl

/-! ## The file's bytes -/

theorem bytesFor_le_iff {n cap : Nat} : bytesFor n ≤ cap ↔ n ≤ 8 * cap := by
  unfold bytesFor
  omega

/-- A flush leaves whole bytes. -/
theorem length_flush_out {w : Writer} (hw : WriterOk w) : (flush w).out.length = bytesFor (writerPos w) := by
  have hidx := hw.1
  unfold flush
  split_ifs with h0 <;> simp only [bytesFor, writerPos, List.length_append, List.length_singleton] <;> omega

/-- Zeros at its end are what a stream reads as beyond it (R12). -/
theorem window_append_zeros (l : List Bool) (n c : Nat) : window (l ++ List.replicate n false) c = window l c := by
  refine byte_ext fun j hj => ?_
  rw [streamBit_window _ _ hj, streamBit_window _ _ hj]
  rcases Nat.lt_or_ge (c + j) l.length with h | h
  · rw [List.getD_append _ _ _ _ h]
  · rw [List.getD_append_right _ _ _ _ h, List.getD_eq_default l _ h]
    rw [List.getD_eq_getElem?_getD, List.getElem?_replicate]
    split <;> rfl

/-- Byte `k` of a flushed stream is the window of its bits there. -/
theorem getElem_flush_out {w : Writer} (hw : WriterOk w) {k : Nat} (hk : k < (flush w).out.length) :
    (flush w).out[k] = window (writerBits w) (8 * k) := by
  rw [getElem_out_eq_window, (flush_appends hw).2, window_append_zeros]

section
variable {s : State} {base len : Word} {off : Nat} {vs : List Byte}
variable (hq : QuietDst s base len) (hfit : off + vs.length ≤ len.toNat)
include hq hfit

theorem refusedCells_cellsFrom : refusedCells s (cellsFrom base off vs) = [] := by
  obtain ⟨hf, hp, -⟩ := hq
  refine refusedCells_nil hp fun c hc => ⟨?_, cellsFrom_lt c hc⟩
  obtain ⟨k, hk, hck⟩ := mem_cellsFrom hc
  exact hck ▸ inRegion_regionAddr hf (by omega)

/-- Bytes written from an offset of an undisturbed region on are what memory then holds there. -/
theorem get_writeCells_cellsFrom {k : Nat} (hk : k < vs.length) :
    Sparse.get (regionAddr base (off + k)).toNat (writeCells s (cellsFrom base off vs)) = vs[k] := by
  obtain ⟨hf, -, hraced, hwf⟩ := hq
  have hmem : cellAt base (off + k) vs[k] ∈ cellsFrom base off vs := by
    rw [cellsFrom_eq_map]
    exact List.mem_map.2 ⟨k, List.mem_range.2 hk, by rw [List.getD_eq_getElem _ _ hk]⟩
  refine get_foldl_writeCell_of_mem s _ hwf.1 ?_ (fun c hc hr => ?_) hmem
  · rw [cellsFrom_eq_map, List.pairwise_map]
    refine List.pairwise_lt_range.imp_of_mem fun {i j} hi hj hlt he => ?_
    rw [List.mem_range] at hi hj
    have := (toNat_inj_regionAddr hf (j := off + i) (k := off + j) (by omega) (by omega)).1 he
    omega
  · obtain ⟨j, hj, hcj⟩ := mem_cellsFrom hc
    have hin := inRegion_regionAddr hf (off := j) (by omega)
    rw [← hcj, hraced _ hr] at hin
    cases hin

end

/-- A stream's flushed bytes, written from an offset on, hold its bits. -/
theorem holdsBits_writeCells {s : State} {base len : Word} {off : Nat} {w : Writer} (hq : QuietDst s base len)
    (hw : WriterOk w) (hfit : off + (flush w).out.length ≤ len.toNat) :
    HoldsBits (writeCells s (cellsFrom base off (flush w).out)) base off (writerBits w) := by
  intro k hk
  rw [length_writerBits hw, ← length_flush_out hw] at hk
  rw [get_writeCells_cellsFrom hq hfit hk, getElem_flush_out hw]

/-! ## SERIALIZE -/

/-- A table that has a file is not NONE, nor a plain one without its tree (R300). -/
theorem table_of_tableBits {kind : TableKind} {slots : List (Nat × Tree)} {bits : List Bool}
    (hb : tableBits kind slots = some bits) : kind ≠ .none ∧ ¬ (kind = .plain ∧ slotTree slots 0 = none) := by
  cases kind with
  | none => simp [tableBits] at hb
  | markov => exact ⟨nofun, fun h => nomatch h.1⟩
  | plain =>
    refine ⟨nofun, fun ⟨_, hempty⟩ => ?_⟩
    simp [tableBits, hempty] at hb

theorem regionFits_of_le {base len : Word} (h : base.toNat + len.toNat ≤ 2 ^ 32) : regionFits base len = true :=
  decide_eq_true h

section
variable {s : State} {bits : List Bool} (hm : s.bb.mode = .closed) (hq : QuietDst s s.latch.dstBase s.latch.dstCap)
  (hb : tableBits s.kind s.slots = some bits)
include hm hq hb

/-- Past the checks, a stream that fits is flushed and written. -/
theorem exec_serialize_of_ok {w : Writer} (hw : serTable s.latch.dstCap.toNat s.kind s.slots = .ok w) :
    exec .serialize s
      = finishOutput (cellsFrom s.latch.dstBase 0 (flush w).out) (BitVec.ofNat 32 (flush w).out.length)
          (resultWord s (writerPos w)) s := by
  obtain ⟨hf, hp, -⟩ := hq
  obtain ⟨hkind, htree⟩ := table_of_tableBits hb
  simp [exec, execSerialize, hm, hf, hkind, htree, plainRegion_touchesDevice hp, hw]

/-- One that does not fit ends in DST_OVERFLOW: in an ordinary region no refused write takes its place. -/
theorem exec_serialize_of_error {n : Nat} (hn : n ≤ s.latch.dstCap.toNat)
    (hw : serTable s.latch.dstCap.toNat s.kind s.slots = .error n) :
    exec .serialize s = fail .dstOverflow s.latch.dstCap (unspecifiedOutput s) := by
  obtain ⟨hf, hp, -⟩ := hq
  obtain ⟨hkind, htree⟩ := table_of_tableBits hb
  simp [exec, execSerialize, hm, hf, hkind, htree, plainRegion_touchesDevice hp, hw, failOutput,
    refusedWrites_nil hf hp hn]

end

/-- Settles O32: the stream is within the capacity, and its flushed bytes are written where nothing is refused. -/
theorem serializeCompletes : Obligations.SerializeCompletes := by
  intro s bits hm hs hq hb hfit
  obtain ⟨-, htrees, -⟩ := hs
  have hlen := length_tableBits_lt (fun p hp => (htrees p hp).2) hb
  have hemits := emits_serTable s.latch.dstCap.toNat hb
  cases hw : serTable s.latch.dstCap.toNat s.kind s.slots with
  | error n =>
    rw [hw] at hemits
    obtain ⟨hlong, -⟩ := hemits
    rw [writerPos_start, Nat.zero_add] at hlong
    exact absurd (bytesFor_le_iff.1 hfit) (Nat.not_le.2 hlong)
  | ok w =>
    rw [hw] at hemits
    obtain ⟨hwithin, hbits⟩ := hemits
    have hpos : writerPos w = bits.length := by
      rw [writerPos_of_appends (by decide) hwithin.ok hbits, writerPos_start, Nat.zero_add]
    have hout : (flush w).out.length = bytesFor bits.length := by rw [length_flush_out hwithin.ok, hpos]
    have hroom : 0 + (flush w).out.length ≤ s.latch.dstCap.toNat := by omega
    refine ⟨hlen, writeCells s (cellsFrom s.latch.dstBase 0 (flush w).out), ?_, ?_, ?_⟩
    · rw [exec_serialize_of_ok hm hq hb hw, finishOutput, refusedCells_cellsFrom hq hroom, hout, resultWord, hpos,
        if_pos hlen]
      exact completesTo_finish (keepsEnv_refl s.env)
    · have hheld := holdsBits_writeCells hq hwithin.ok hroom
      rwa [hbits] at hheld
    · refine sameOutside_writeCells fun c hc => ?_
      simpa [hout] using mem_cellsFrom hc

/-- Settles O33: each check in its turn, and a stream that is longer than the region stops in it. -/
theorem serializeErrors : Obligations.SerializeErrors := by
  refine fun s => ⟨fun hm => ?_, fun hm hf => ?_, fun hm hf hk => ?_, fun hm hf hk hempty => ?_,
    fun bits hm hq hb hlong => ?_⟩
  · exact failsTo_of_exec_eq (if_pos hm)
  · exact failsTo_of_exec_eq (by simp [exec, execSerialize, hm, regionFits_eq_false hf])
  · exact failsTo_of_exec_eq (by simp [exec, execSerialize, hm, regionFits_of_le hf, hk])
  · exact failsTo_of_exec_eq (by simp [exec, execSerialize, hm, regionFits_of_le hf, hk, hempty])
  · have hemits := emits_serTable s.latch.dstCap.toNat hb
    cases hw : serTable s.latch.dstCap.toNat s.kind s.slots with
    | ok w =>
      rw [hw] at hemits
      obtain ⟨hwithin, hbits⟩ := hemits
      have hpos := hwithin.pos
      rw [writerPos_of_appends (by decide) hwithin.ok hbits, writerPos_start, Nat.zero_add] at hpos
      exact absurd (bytesFor_le_iff.2 hpos) (Nat.not_le.2 hlong)
    | error n =>
      rw [hw] at hemits
      obtain ⟨-, hn⟩ := hemits
      rw [exec_serialize_of_error hm hq hb hn hw]
      exact ⟨_, _, _, failsTo_fail _ _ (keepsEnv_refl s.env), sameOutside_scrambleRegion⟩

end Sys2Proof.Machine
end

section
/-! SUPPORT. Reading a table file (43_serialization.md R304, R305), function by function: a reader on a file that holds
the bits of what it reads answers it, and one whose file ends before them ends in TABLE_EOF. -/

namespace Sys2Proof.Machine

/-! ## Parts of a bit list -/

theorem isPrefix_drop_zero (l : List Bool) : l <+: l.drop 0 := List.prefix_rfl

theorem append_isPrefix_drop {a b l : List Bool} {pos : Nat} :
    a ++ b <+: l.drop pos ↔ a <+: l.drop pos ∧ b <+: l.drop (pos + a.length) := by
  rw [← List.drop_drop]
  constructor
  · rintro ⟨rest, h⟩
    rw [← h, List.append_assoc, List.drop_left]
    exact ⟨List.prefix_append .., List.prefix_append ..⟩
  · rintro ⟨⟨rest, h⟩, hb⟩
    rw [← h, List.drop_left] at hb
    rw [← h]
    exact (List.prefix_append_right_inj a).2 hb

theorem cons_isPrefix_drop {b : Bool} {bs l : List Bool} {pos : Nat} :
    b :: bs <+: l.drop pos ↔ l[pos]? = some b ∧ bs <+: l.drop (pos + 1) := by
  rw [← List.singleton_append, append_isPrefix_drop]
  refine and_congr_left fun _ => ?_
  rw [← List.head?_drop]
  cases l.drop pos <;> simp [eq_comm]

/-! ## A file that may end early -/

/-- The file of `len` bytes that `rd` reads holds `bits`, as far as it reaches. -/
def FileHolds (rd : Nat → Nat → Option Byte) (len : Nat) (bits : List Bool) : Prop :=
  ∀ pos b, bits[pos]? = some b → pos < 8 * len → ∃ v, rd pos (pos / 8) = some v ∧ streamBit v (pos % 8) = b

/-- What a reader ends in that has read the file up to bit `pos` for the result `x`: TABLE_EOF where the file is shorter
(R304). -/
def upTo {α : Type} (len pos : Nat) (x : Stream α) : Stream α := if pos ≤ 8 * len then x else .error .tableEof len 0

theorem upTo_of_le {α : Type} {len pos : Nat} (h : pos ≤ 8 * len) (x : Stream α) : upTo len pos x = x := if_pos h

theorem upTo_of_lt {α : Type} {len pos : Nat} (h : 8 * len < pos) (x : Stream α) :
    upTo len pos x = .error .tableEof len 0 := if_neg (Nat.not_le.2 h)

theorem upTo_bind {α β : Type} (len pos : Nat) (x : Stream α) (f : α → Stream β) :
    (upTo len pos x).bind f = upTo len pos (x.bind f) := by
  unfold upTo
  split <;> rfl

/-- A reader goes on with what it has read. -/
theorem upTo_bind_of_ok {α β : Type} {len pos pos' : Nat} {x : Stream α} {a : α}
    (h : upTo len pos x = upTo len pos' (.ok a)) (f : α → Stream β) :
    upTo len pos (x.bind f) = upTo len pos' (f a) := by
  rw [← upTo_bind, h, upTo_bind]
  rfl

/-- An error ends it. -/
theorem upTo_bind_of_error {α β : Type} {len pos pos' : Nat} {x : Stream α} {code : ErrCode} {info n : Nat}
    (h : upTo len pos x = upTo len pos' (.error code info n)) (f : α → Stream β) :
    upTo len pos (x.bind f) = upTo len pos' (.error code info n) := by
  rw [← upTo_bind, h, upTo_bind]
  rfl

/-- Shifting in a bit below the others (R305). -/
def shiftIn (acc : Byte) (b : Bool) : Byte := (acc <<< 1) ||| (BitVec.ofBool b).setWidth 8

theorem foldl_shiftIn_byteBits (sym : Byte) : (byteBits sym).foldl shiftIn 0#8 = sym := by
  revert sym
  decide

section
variable {rd : Nat → Nat → Option Byte} {len : Nat} {bits : List Bool} (hf : FileHolds rd len bits)
include hf

/-! ## Bits and symbols -/

theorem tableBit_eq {pos : Nat} {b : Bool} (h : bits[pos]? = some b) :
    upTo len pos (tableBit rd len pos) = upTo len (pos + 1) (.ok b) := by
  rcases Nat.lt_or_ge pos (8 * len) with hlt | hge
  · obtain ⟨v, hv, hb⟩ := hf pos b h hlt
    rw [upTo_of_le hlt.le, upTo_of_le hlt, tableBit, if_pos hlt, hv, ← hb]
  · rw [upTo_of_lt (pos := pos + 1) (by omega), tableBit, if_neg (by omega)]
    exact ite_self _

/-- Bits are shifted in most significant first. -/
theorem tableSymbol_eq_foldl {new : List Bool} {pos : Nat} (h : new <+: bits.drop pos) (acc : Byte) :
    upTo len pos (tableSymbol rd len new.length pos acc)
      = upTo len (pos + new.length) (.ok (new.foldl shiftIn acc)) := by
  induction new generalizing pos acc with
  | nil => rfl
  | cons b new ih =>
    obtain ⟨hb, hnew⟩ := cons_isPrefix_drop.1 h
    rw [List.length_cons, Nat.add_comm new.length, ← Nat.add_assoc, List.foldl_cons, ← ih hnew, Nat.add_comm 1]
    exact upTo_bind_of_ok (tableBit_eq hf hb) _

theorem tableSymbol_eq {sym : Byte} {pos : Nat} (h : byteBits sym <+: bits.drop pos) :
    upTo len pos (tableSymbol rd len 8 pos 0#8) = upTo len (pos + 8) (.ok sym) := by
  have hread := tableSymbol_eq_foldl hf h 0#8
  rwa [length_byteBits, foldl_shiftIn_byteBits] at hread

/-! ## One node (R305) -/

section
variable {fuel count pos : Nat} {isRoot : Bool}

omit hf in
/-- The 512th node is refused before it is read. -/
theorem readNode_full (h : count = Config.nodeCap) :
    readNode rd len fuel isRoot count pos = .error .tableCapacity (pos / 8) 0 := by
  cases fuel with
  | zero => rfl
  | succ fuel => exact if_pos h

variable (hc : count < Config.nodeCap)
include hc

theorem readNode_leaf {sym : Byte} (h : nodeBits (some sym) <+: bits.drop pos) :
    upTo len pos (readNode rd len (fuel + 1) false count pos)
      = upTo len (pos + 9) (.ok ⟨.leaf sym, count + 1, pos + 9⟩) := by
  obtain ⟨hmark, hsym⟩ := cons_isPrefix_drop.1 h
  rw [readNode, if_neg hc.ne, upTo_bind_of_ok (tableBit_eq hf hmark)]
  exact upTo_bind_of_ok (tableSymbol_eq hf hsym) _

theorem readNode_leafRoot (h : bits[pos]? = some true) :
    upTo len pos (readNode rd len (fuel + 1) true count pos)
      = upTo len (pos + 1) (.error .tableLeafRoot (pos / 8) 0) := by
  rw [readNode, if_neg hc.ne, upTo_bind_of_ok (tableBit_eq hf h)]
  rfl

theorem readNode_internal (h : bits[pos]? = some false) :
    upTo len pos (readNode rd len (fuel + 1) isRoot count pos)
      = upTo len (pos + 1) ((readNode rd len fuel false (count + 1) (pos + 1)).bind fun l =>
          (readNode rd len fuel false l.count l.pos).bind fun r => .ok ⟨.node l.tree r.tree, r.count, r.pos⟩) := by
  rw [readNode, if_neg hc.ne, upTo_bind_of_ok (tableBit_eq hf h)]
  rfl

/-- A node that the file does not hold to its end. -/
theorem readNode_eof {n : Option Byte} (hroot : isRoot = true → n = none) (h : nodeBits n <+: bits.drop pos)
    (hend : 8 * len < pos + (nodeBits n).length) :
    upTo len pos (readNode rd len (fuel + 1) isRoot count pos) = .error .tableEof len 0 := by
  cases n with
  | none =>
    obtain ⟨hmark, -⟩ := cons_isPrefix_drop.1 h
    rw [readNode_internal hf hc hmark]
    exact upTo_of_lt hend _
  | some sym =>
    have hroot : isRoot = false := by simpa using hroot
    rw [hroot, readNode_leaf hf hc h, upTo_of_lt]
    simpa [nodeBits, Nat.add_comm] using hend

end

/-! ## Trees in the order their nodes are read -/

theorem readNode_tree {t : Tree} {fuel count pos : Nat} {isRoot : Bool} (h : treeBits t <+: bits.drop pos)
    (hroot : isRoot = true → isInternal t = true) (hcap : count + treeNodes t ≤ Config.nodeCap)
    (hfuel : Config.nodeCap < fuel + count) :
    upTo len pos (readNode rd len fuel isRoot count pos)
      = upTo len (pos + (treeBits t).length) (.ok ⟨t, count + treeNodes t, pos + (treeBits t).length⟩) := by
  induction t generalizing fuel count pos isRoot with
  | leaf sym =>
    have hroot : isRoot = false := by simpa [isInternal] using hroot
    have hlen : (treeBits (.leaf sym)).length = 9 := by simp [treeBits]
    simp only [treeNodes] at hcap
    obtain ⟨fuel, rfl⟩ : ∃ m, fuel = m + 1 := ⟨fuel - 1, by omega⟩
    rw [hroot, hlen]
    exact readNode_leaf hf (by omega) h
  | node l r ihl ihr =>
    simp only [treeNodes] at hcap
    obtain ⟨fuel, rfl⟩ : ∃ m, fuel = m + 1 := ⟨fuel - 1, by omega⟩
    obtain ⟨hmark, hlr⟩ := cons_isPrefix_drop.1 h
    obtain ⟨hl, hr⟩ := append_isPrefix_drop.1 hlr
    have hleft := ihl (isRoot := false) (fuel := fuel) (count := count + 1) hl nofun (by omega) (by omega)
    have hright := ihr (isRoot := false) (fuel := fuel) (count := count + 1 + treeNodes l) hr nofun (by omega) (by omega)
    rw [readNode_internal hf (by omega) hmark, upTo_bind_of_ok hleft, upTo_bind_of_ok hright]
    have hlen : pos + (treeBits (.node l r)).length = pos + 1 + (treeBits l).length + (treeBits r).length := by
      simp only [treeBits, List.length_cons, List.length_append]
      omega
    simp only [hlen, treeNodes]
    congr 3
    omega

/-- `ReadTree` on a tree within its bounds. -/
theorem readTree_eq {t : Tree} (ht : TreeOk t) {pos : Nat} (h : treeBits t <+: bits.drop pos) :
    upTo len pos (readTree rd len pos)
      = upTo len (pos + (treeBits t).length) (.ok ⟨t, 0 + treeNodes t, pos + (treeBits t).length⟩) := by
  obtain ⟨hroot, hcap⟩ := ht
  exact readNode_tree hf h (fun _ => hroot) (by omega) (by decide)

/-! ## The table (R304) -/

/-- Reading the slots of the contexts `cs`, of which `tr` gives the trees. -/
theorem readSlots_append {tr : Nat → Option Tree} {cs : List Nat} (cs' : List Nat) {pos : Nat}
    (acc : List (Nat × Tree)) (htr : ∀ c ∈ cs, ∀ t, tr c = some t → TreeOk t)
    (h : cs.flatMap (fun c => presenceBits (tr c)) <+: bits.drop pos) :
    upTo len pos (readSlots rd len (cs ++ cs') pos acc)
      = upTo len (pos + (cs.flatMap fun c => presenceBits (tr c)).length)
          (readSlots rd len cs' (pos + (cs.flatMap fun c => presenceBits (tr c)).length)
            ((cs.filterMap fun c => (tr c).map fun t => (c, t)).reverse ++ acc)) := by
  induction cs generalizing pos acc with
  | nil => rfl
  | cons c cs ih =>
    obtain ⟨hc, hcs⟩ := List.forall_mem_cons.1 htr
    rw [List.flatMap_cons, append_isPrefix_drop] at h
    obtain ⟨hslot, hrest⟩ := h
    rw [List.flatMap_cons, List.length_append, ← Nat.add_assoc, List.cons_append, readSlots]
    cases ht : tr c with
    | none =>
      rw [ht] at hslot hrest
      obtain ⟨hbit, -⟩ := cons_isPrefix_drop.1 hslot
      rw [upTo_bind_of_ok (tableBit_eq hf hbit), List.filterMap_cons_none (by rw [ht]; rfl)]
      exact ih acc hcs hrest
    | some t =>
      rw [ht] at hslot hrest
      obtain ⟨hbit, htree⟩ := cons_isPrefix_drop.1 hslot
      have hlen : pos + (presenceBits (some t)).length = pos + 1 + (treeBits t).length := by
        simp only [presenceBits, List.length_cons]
        omega
      rw [hlen] at hrest ⊢
      rw [upTo_bind_of_ok (tableBit_eq hf hbit), List.filterMap_cons_some (by rw [ht]; rfl), List.reverse_cons,
        List.append_assoc]
      exact (upTo_bind_of_ok (readTree_eq hf (hc t ht) htree) _).trans (ih _ hcs hrest)

end

end Sys2Proof.Machine
end

section
/-! SUPPORT. The nodes that begin a tree and do not finish it (43_serialization.md R305): reading them leads to the next
node, and an error there is the error of the whole. -/

namespace Sys2Proof.Machine

/-- The nodes of a tree in the order `ReadNode` reads them. -/
def treeOrder : Tree → List (Option Byte)
  | .leaf s => [some s]
  | .node l r => none :: (treeOrder l ++ treeOrder r)

theorem length_treeOrder (t : Tree) : (treeOrder t).length = treeNodes t := by
  induction t with
  | leaf s => rfl
  | node l r ihl ihr => simp [treeOrder, treeNodes, ihl, ihr]

theorem flatMap_treeOrder (t : Tree) : (treeOrder t).flatMap nodeBits = treeBits t := by
  induction t with
  | leaf s => simp [treeOrder, treeBits, nodeBits]
  | node l r ihl ihr => simp [treeOrder, treeBits, nodeBits, ihl, ihr]

theorem flatMap_nodeBits_none (ns : List (Option Byte)) :
    (none :: ns).flatMap nodeBits = false :: ns.flatMap nodeBits := rfl

/-- Nodes that begin a tree and do not finish it: none, or a root with its left subtree begun, or with its left subtree
read and its right one begun. -/
inductive TreePrefix : List (Option Byte) → Prop where
  | nil : TreePrefix []
  | left {ns : List (Option Byte)} (h : TreePrefix ns) : TreePrefix (none :: ns)
  | right (l : Tree) {ns : List (Option Byte)} (h : TreePrefix ns) : TreePrefix (none :: (treeOrder l ++ ns))

/-- Nodes that ask for `k + 1` subtrees begin with a whole tree, or begin one and do not finish it. -/
theorem treeOrder_or_treePrefix (ns : List (Option Byte)) {k j : Nat} (h : openSubtrees (k + 1) ns = some j) :
    (∃ t rest, ns = treeOrder t ++ rest ∧ openSubtrees k rest = some j) ∨ TreePrefix ns := by
  match ns with
  | [] => exact .inr .nil
  | some s :: ms => exact .inl ⟨.leaf s, ms, rfl, h⟩
  | none :: ms =>
    rcases treeOrder_or_treePrefix ms (k := k + 1) h with ⟨l, rest, rfl, hl⟩ | hms
    · rcases treeOrder_or_treePrefix rest hl with ⟨r, rest, rfl, hr⟩ | hrest
      · exact .inl ⟨.node l r, rest, by simp [treeOrder], hr⟩
      · exact .inr (.right l hrest)
    · exact .inr (.left hms)
termination_by ns.length

theorem treePrefix_of_unfinishedTree {ns : List (Option Byte)} (h : UnfinishedTree ns) : TreePrefix ns := by
  obtain ⟨k, hk⟩ := h
  rcases treeOrder_or_treePrefix ns hk with ⟨t, rest, rfl, hrest⟩ | hns
  · cases rest <;> cases hrest
  · exact hns

/-- The slots listed by the contexts they belong to. -/
theorem flatMap_presenceBits_eq (before : List (Option Tree)) :
    before.flatMap presenceBits = (List.range before.length).flatMap fun c => presenceBits (before.getD c none) := by
  have hlist : before = (List.range before.length).map fun c => before.getD c none :=
    List.ext_getElem (by simp) (by simp +contextual)
  conv_lhs => rw [hlist, List.flatMap_map]

/-- A context below 256 follows those before it. -/
theorem range_256_split {c : Nat} (h : c < 256) : ∃ cs, List.range 256 = List.range c ++ c :: cs := by
  obtain ⟨m, hm⟩ : ∃ m, 256 = c + (m + 1) := ⟨255 - c, by omega⟩
  rw [hm, List.range_add, List.range_succ_eq_map, List.map_cons]
  exact ⟨_, rfl⟩

/-- `BeforeTree` by the slots' bits. -/
theorem beforeTree_iff {pre : List Bool} :
    BeforeTree pre ↔ pre = [false] ∨ ∃ before : List (Option Tree), before.length < 256
      ∧ (∀ t, some t ∈ before → TreeOk t) ∧ pre = true :: (before.flatMap presenceBits ++ [true]) := Iff.rfl

section
variable {rd : Nat → Nat → Option Byte} {len : Nat} {bits : List Bool} (hf : FileHolds rd len bits)
include hf

/-- Where the node after those of a begun tree ends in an error, so does the tree. -/
theorem readNode_treePrefix {ns : List (Option Byte)} (hns : TreePrefix ns) {fuel count count' pos pos' last : Nat}
    {isRoot : Bool} {code : ErrCode} {info n : Nat} (h : ns.flatMap nodeBits <+: bits.drop pos)
    (hcount : count' = count + ns.length) (hpos : pos' = pos + (ns.flatMap nodeBits).length)
    (hcap : count' ≤ Config.nodeCap) (hfuel : Config.nodeCap < fuel + count)
    (hnext : ∀ fuel' isRoot', Config.nodeCap < fuel' + count' → (isRoot' = true → isRoot = true ∧ ns = []) →
      upTo len pos' (readNode rd len fuel' isRoot' count' pos') = upTo len last (.error code info n)) :
    upTo len pos (readNode rd len fuel isRoot count pos) = upTo len last (.error code info n) := by
  induction hns generalizing fuel count pos isRoot with
  | nil =>
    subst hcount hpos
    exact hnext fuel isRoot hfuel fun hr => ⟨hr, rfl⟩
  | @left ns _ ih =>
    rw [flatMap_nodeBits_none] at h hpos
    obtain ⟨hmark, hrest⟩ := cons_isPrefix_drop.1 h
    simp only [List.length_cons] at hcount hpos
    obtain ⟨fuel, rfl⟩ : ∃ m, fuel = m + 1 := ⟨fuel - 1, by omega⟩
    have hleft := ih (fuel := fuel) (isRoot := false) (count := count + 1) (pos := pos + 1) hrest (by omega) (by omega)
      (by omega) fun fuel' _ hfuel' hroot => hnext fuel' _ hfuel' fun hr => nomatch (hroot hr).1
    rw [readNode_internal hf (by omega) hmark]
    exact upTo_bind_of_error hleft _
  | @right l ns _ ih =>
    rw [flatMap_nodeBits_none, List.flatMap_append, flatMap_treeOrder] at h hpos
    obtain ⟨hmark, hlr⟩ := cons_isPrefix_drop.1 h
    obtain ⟨hl, hrest⟩ := append_isPrefix_drop.1 hlr
    simp only [List.length_cons, List.length_append, length_treeOrder] at hcount hpos
    obtain ⟨fuel, rfl⟩ : ∃ m, fuel = m + 1 := ⟨fuel - 1, by omega⟩
    have hleft := readNode_tree hf (isRoot := false) (fuel := fuel) (count := count + 1) hl nofun (by omega) (by omega)
    have hright := ih (fuel := fuel) (isRoot := false) (count := count + 1 + treeNodes l) hrest (by omega) (by omega)
      (by omega) fun fuel' _ hfuel' hroot => hnext fuel' _ hfuel' fun hr => nomatch (hroot hr).1
    rw [readNode_internal hf (by omega) hmark, upTo_bind_of_ok hleft]
    exact upTo_bind_of_error hright _

/-- An unfinished tree of 511 nodes needs one more (R305). -/
theorem readTree_capacity {ns : List (Option Byte)} (hns : UnfinishedTree ns) (hlen : ns.length = 511) {pos : Nat}
    (h : ns.flatMap nodeBits <+: bits.drop pos) :
    upTo len pos (readTree rd len pos)
      = upTo len (pos + (ns.flatMap nodeBits).length)
          (.error .tableCapacity ((pos + (ns.flatMap nodeBits).length) / 8) 0) := by
  have hcap : 0 + ns.length = Config.nodeCap := by rw [hlen]; rfl
  refine readNode_treePrefix hf (treePrefix_of_unfinishedTree hns) h rfl rfl hcap.le (by decide) fun fuel' _ _ _ => ?_
  rw [readNode_full hcap]

/-- A tree whose next node the file does not hold to its end. -/
theorem readTree_eof {ns : List (Option Byte)} (hns : UnfinishedTree ns) (hlen : ns.length < 511) {n : Option Byte}
    (hroot : ns = [] → n = none) {pos : Nat} (h : (ns ++ [n]).flatMap nodeBits <+: bits.drop pos)
    (hend : 8 * len < pos + ((ns ++ [n]).flatMap nodeBits).length) :
    upTo len pos (readTree rd len pos) = .error .tableEof len 0 := by
  rw [List.flatMap_append, List.flatMap_singleton] at h hend
  rw [List.length_append] at hend
  obtain ⟨hread, hnode⟩ := append_isPrefix_drop.1 h
  have hcap : 0 + ns.length < Config.nodeCap := by simpa [Config.nodeCap] using hlen
  have hlast : 8 * len < pos + (ns.flatMap nodeBits).length + (nodeBits n).length := by omega
  rw [← upTo_of_lt hlast (.error .tableEof len 0)]
  refine readNode_treePrefix hf (treePrefix_of_unfinishedTree hns) hread rfl rfl hcap.le (by decide)
    fun fuel' isRoot' hfuel' hr => ?_
  obtain ⟨fuel', rfl⟩ : ∃ m, fuel' = m + 1 := ⟨fuel' - 1, by omega⟩
  rw [readNode_eof hf hcap (fun hr' => hroot (hr hr').2) hnode hlast, upTo_of_lt hlast]

/-- A root that is marked as a leaf. -/
theorem readTree_leafRoot {pos : Nat} (h : bits[pos]? = some true) :
    upTo len pos (readTree rd len pos) = upTo len (pos + 1) (.error .tableLeafRoot (pos / 8) 0) :=
  readNode_leafRoot hf (by decide) h

/-! ## Up to the tree that fails -/

/-- An error of `ReadTree` is that of the table, whose bits before the tree can be read. -/
theorem readTable_of_readTree_error {pre : List Bool} (hpre : BeforeTree pre) (h : pre <+: bits) {last : Nat}
    {code : ErrCode} {info n : Nat}
    (ht : upTo len pre.length (readTree rd len pre.length) = upTo len last (.error code info n)) :
    readTable rd len = upTo len last (.error code info n) := by
  rw [← upTo_of_le (Nat.zero_le _) (readTable rd len)]
  rcases beforeTree_iff.1 hpre with rfl | ⟨before, hlt, htrees, rfl⟩
  · obtain ⟨hbit, -⟩ := (cons_isPrefix_drop (pos := 0)).1 h
    exact (upTo_bind_of_ok (tableBit_eq hf hbit) _).trans (upTo_bind_of_error ht _)
  · obtain ⟨hbit, hrest⟩ := (cons_isPrefix_drop (pos := 0)).1 h
    obtain ⟨hslots, hmark⟩ := append_isPrefix_drop.1 hrest
    obtain ⟨hpresent, -⟩ := cons_isPrefix_drop.1 hmark
    obtain ⟨cs, hcs⟩ := range_256_split hlt
    rw [flatMap_presenceBits_eq] at ht hslots hpresent
    have hok : ∀ c ∈ List.range before.length, ∀ t, before.getD c none = some t → TreeOk t := fun c hc t hct =>
      htrees t (hct ▸ by rw [List.getD_eq_getElem _ _ (List.mem_range.1 hc)]; exact List.getElem_mem _)
    have hread := readSlots_append hf (before.length :: cs) [] hok hslots
    refine (upTo_bind_of_ok (tableBit_eq hf hbit) _).trans ?_
    show upTo len 1 (readSlots rd len (List.range 256) 1 []) = _
    rw [hcs, hread, readSlots, upTo_bind_of_ok (tableBit_eq hf hpresent)]
    refine upTo_bind_of_error ?_ _
    simpa [Nat.add_comm 1, Nat.add_assoc] using ht

end

/-! ## The errors of a file (R304, R305) -/

section
variable {rd : Nat → Nat → Option Byte} {len : Nat} {pre : List Bool} {ns : List (Option Byte)}

/-- The bits after a first part of the file lie where it ends. -/
theorem isPrefix_drop_length (pre bits : List Bool) : bits <+: (pre ++ bits).drop pre.length := by rw [List.drop_left]

theorem readTable_capacity (hf : FileHolds rd len (pre ++ ns.flatMap nodeBits)) (hpre : BeforeTree pre)
    (hns : UnfinishedTree ns) (hlen : ns.length = 511) (hfits : (pre ++ ns.flatMap nodeBits).length ≤ 8 * len) :
    readTable rd len = .error .tableCapacity ((pre ++ ns.flatMap nodeBits).length / 8) 0 := by
  have htree := readTree_capacity hf hns hlen (isPrefix_drop_length _ _)
  rw [← List.length_append] at htree
  rw [readTable_of_readTree_error hf hpre (List.prefix_append ..) htree, upTo_of_le hfits]

theorem readTable_eof {n : Option Byte} (hf : FileHolds rd len (pre ++ (ns ++ [n]).flatMap nodeBits))
    (hpre : BeforeTree pre) (hns : UnfinishedTree ns) (hlen : ns.length < 511) (hroot : ns = [] → n = none)
    (hend : 8 * len < (pre ++ (ns ++ [n]).flatMap nodeBits).length) : readTable rd len = .error .tableEof len 0 := by
  rw [List.length_append] at hend
  have htree := readTree_eof hf hns hlen hroot (isPrefix_drop_length _ _) hend
  rw [← upTo_of_lt hend (.error .tableEof len 0)] at htree
  rw [readTable_of_readTree_error hf hpre (List.prefix_append ..) htree, upTo_of_lt hend]

theorem readTable_leafRoot (hf : FileHolds rd len (pre ++ [true])) (hpre : BeforeTree pre)
    (hfits : (pre ++ [true]).length ≤ 8 * len) : readTable rd len = .error .tableLeafRoot (pre.length / 8) 0 := by
  rw [List.length_append] at hfits
  have htree := readTree_leafRoot hf (pos := pre.length) (by simp)
  exact (readTable_of_readTree_error hf hpre (List.prefix_append ..) htree).trans (upTo_of_le hfits _)

end

end Sys2Proof.Machine
end

section
/-! SUPPORT. DESERIALIZE (43_serialization.md R304 to R307) in an undisturbed SRC region: it reads back a table's file,
each error of a file is found where the file has it, and the trees it loads are within the bounds. -/

namespace Sys2Proof.Machine

variable {s : State}

/-! ## Reading a table back -/

/-- A store in order holds what it lists. -/
theorem slotTree_of_mem {slots : List (Nat × Tree)} (hs : slots.Pairwise fun x y => x.1 < y.1) {k : Nat} {t : Tree}
    (h : (k, t) ∈ slots) : slotTree slots k = some t := by
  induction slots with
  | nil => cases h
  | cons p slots ih =>
    obtain ⟨hp, hs⟩ := List.pairwise_cons.1 hs
    rcases List.mem_cons.1 h with rfl | h
    · exact if_pos rfl
    · exact (if_neg (hp _ h).ne).trans (ih hs h)

/-- A store in order is listed by its contexts. -/
theorem filterMap_slotTree {slots : List (Nat × Tree)} (hs : slots.Pairwise fun x y => x.1 < y.1) {n : Nat}
    (hn : ∀ p ∈ slots, p.1 < n) :
    ((List.range n).filterMap fun c => (slotTree slots c).map fun t => (c, t)) = slots := by
  refine List.Pairwise.eq_of_mem_iff (r := InvImage (· < ·) Prod.fst) ?_ hs fun p => ?_
  · refine List.pairwise_filterMap.2 (List.pairwise_lt_range.imp fun {c d} hlt p hp q hq => ?_)
    obtain ⟨_, -, rfl⟩ := Option.map_eq_some_iff.1 hp
    obtain ⟨_, -, rfl⟩ := Option.map_eq_some_iff.1 hq
    exact hlt
  · obtain ⟨k, t⟩ := p
    simp only [List.mem_filterMap, List.mem_range, Option.map_eq_some_iff, Prod.mk.injEq]
    constructor
    · rintro ⟨_, -, _, ht, rfl, rfl⟩
      exact mem_of_slotTree ht
    · exact fun hp => ⟨k, hn _ hp, t, slotTree_of_mem hs hp, rfl, rfl⟩

/-- The file of a table is read as that table, in as many bits as it has (R307). -/
theorem readTable_eq {rd : Nat → Nat → Option Byte} {len : Nat} {bits : List Bool} (hf : FileHolds rd len bits)
    (hs : TablesOk s) (hb : tableBits s.kind s.slots = some bits) :
    readTable rd len = upTo len bits.length (.ok ⟨s.kind, s.slots, bits.length⟩) := by
  obtain ⟨hsorted, htrees, -, hplain⟩ := hs
  rw [← upTo_of_le (Nat.zero_le _) (readTable rd len)]
  cases hk : s.kind with
  | none => simp [hk, tableBits] at hb
  | plain =>
    cases ht : slotTree s.slots 0 with
    | none => simp [hk, ht, tableBits] at hb
    | some t =>
      simp only [hk, ht, tableBits, Option.some.injEq] at hb
      subst hb
      have hslots := filterMap_slotTree hsorted (n := 1) fun p hp => by simp [hplain hk p hp]
      simp only [List.range_one, List.filterMap_cons, ht, Option.map_some, List.filterMap_nil] at hslots
      obtain ⟨hbit, htree⟩ := cons_isPrefix_drop.1 (isPrefix_drop_zero (false :: treeBits t))
      have hread := readTree_eq hf (htrees _ (mem_of_slotTree ht)).2 htree
      refine ((upTo_bind_of_ok (tableBit_eq hf hbit) _).trans (upTo_bind_of_ok hread _)).trans ?_
      simp [hslots, Nat.add_comm]
  | markov =>
    simp only [hk, tableBits, Option.some.injEq] at hb
    subst hb
    have hslotBits : slotBits s.slots = fun c => presenceBits (slotTree s.slots c) :=
      funext (slotBits_eq_presenceBits s.slots)
    rw [hslotBits] at hf ⊢
    obtain ⟨hbit, hslots⟩ := cons_isPrefix_drop.1 (isPrefix_drop_zero _)
    have hread := readSlots_append hf [] [] (fun c _ t ht => (htrees _ (mem_of_slotTree ht)).2) hslots
    refine (upTo_bind_of_ok (tableBit_eq hf hbit) _).trans ?_
    show upTo len 1 (readSlots rd len (List.range 256) 1 []) = _
    rw [← List.append_nil (List.range 256), hread, readSlots, List.append_nil, List.reverse_reverse,
      filterMap_slotTree hsorted fun p hp => (htrees p hp).1]
    simp [Nat.add_comm]

/-! ## The errors a file can end in -/

/-- A reading that no access of the platform stops ends well or in one of the three errors of a table file. -/
def Stream.EndsInFile {α : Type} : Stream α → Prop
  | .ok _ => True
  | .error code _ _ => code ∈ [.tableEof, .tableCapacity, .tableLeafRoot]
  | .bus _ _ => False

theorem Stream.EndsInFile.error {α : Type} {code : ErrCode} {info n : Nat}
    (h : code ∈ [.tableEof, .tableCapacity, .tableLeafRoot]) : (Stream.error code info n : Stream α).EndsInFile := h

theorem Stream.EndsInFile.bind {α β : Type} {x : Stream α} {f : α → Stream β} (hx : x.EndsInFile)
    (hf : ∀ a, (f a).EndsInFile) : (x.bind f).EndsInFile := by
  cases x with
  | ok a => exact hf a
  | error code info n => exact hx
  | bus off n => exact hx

section
variable {rd : Nat → Nat → Option Byte} {len : Nat} (hrd : ∀ pos < 8 * len, (rd pos (pos / 8)).isSome)
include hrd

theorem tableBit_endsInFile (pos : Nat) : (tableBit rd len pos).EndsInFile := by
  unfold tableBit
  split_ifs with hlt
  · obtain ⟨v, hv⟩ := Option.isSome_iff_exists.1 (hrd pos hlt)
    rw [hv]
    trivial
  · exact .error (by decide)

theorem tableSymbol_endsInFile (n pos : Nat) (acc : Byte) : (tableSymbol rd len n pos acc).EndsInFile := by
  induction n generalizing pos acc with
  | zero => trivial
  | succ n ih => exact (tableBit_endsInFile hrd pos).bind fun b => ih _ _

theorem readNode_endsInFile (fuel : Nat) (isRoot : Bool) (count pos : Nat) :
    (readNode rd len fuel isRoot count pos).EndsInFile := by
  induction fuel generalizing isRoot count pos with
  | zero => exact .error (by decide)
  | succ fuel ih =>
    unfold readNode
    split
    · exact .error (by decide)
    · refine (tableBit_endsInFile hrd pos).bind fun m => ?_
      cases m with
      | true =>
        cases isRoot with
        | true => exact .error (by decide)
        | false => exact (tableSymbol_endsInFile hrd 8 _ _).bind fun _ => trivial
      | false => exact (ih _ _ _).bind fun l => (ih _ _ _).bind fun r => trivial

theorem readSlots_endsInFile (cs : List Nat) (pos : Nat) (acc : List (Nat × Tree)) :
    (readSlots rd len cs pos acc).EndsInFile := by
  induction cs generalizing pos acc with
  | nil => trivial
  | cons c cs ih =>
    refine (tableBit_endsInFile hrd pos).bind fun present => ?_
    cases present with
    | true => exact (readNode_endsInFile hrd 512 true 0 _).bind fun t => ih _ _
    | false => exact ih _ _

theorem readTable_endsInFile : (readTable rd len).EndsInFile := by
  refine (tableBit_endsInFile hrd 0).bind fun d => ?_
  cases d with
  | true => exact readSlots_endsInFile hrd _ _ _
  | false => exact (readNode_endsInFile hrd 512 true 0 1).bind fun _ => trivial

end

/-! ## DESERIALIZE -/

theorem length_regionBits (s : State) (base : Word) (len : Nat) : (regionBits s base len).length = 8 * len := by
  simp [regionBits_eq_map]

section
variable (hm : s.bb.mode = .closed) (hq : QuietSrc s s.latch.srcBase s.latch.srcLen)

section
include hm hq

theorem exec_deserialize_of_ok {r : ReadTable}
    (hr : readTable (srcByte s s.latch.srcBase) s.latch.srcLen.toNat = .ok r) :
    exec .deserialize s = finish { s with kind := r.kind, slots := r.slots, result := resultWord s r.pos } := by
  obtain ⟨hf, hp, -⟩ := hq
  simp [exec, execDeserialize, hm, hf, plainRegion_touchesDevice hp, refusedReads_nil hf hp, hr]

theorem exec_deserialize_of_error {code : ErrCode} {info n : Nat}
    (hr : readTable (srcByte s s.latch.srcBase) s.latch.srcLen.toNat = .error code info n) :
    exec .deserialize s = fail code (BitVec.ofNat 32 info) (withoutTable s) := by
  obtain ⟨hf, hp, -⟩ := hq
  simp [exec, execDeserialize, hm, hf, plainRegion_touchesDevice hp, refusedReads_nil hf hp, hr]

end

include hq

/-- The command reads the bits of its region. -/
theorem srcByte_regionBits {pos : Nat} (hpos : pos < 8 * s.latch.srcLen.toNat) :
    ∃ v, srcByte s s.latch.srcBase pos (pos / 8) = some v
      ∧ (regionBits s s.latch.srcBase s.latch.srcLen.toNat)[pos]? = some (streamBit v (pos % 8)) := by
  refine ⟨_, srcByte_quiet hq (by omega) pos, ?_⟩
  simp [regionBits_eq_map, hpos]

theorem readTable_srcByte_endsInFile : (readTable (srcByte s s.latch.srcBase) s.latch.srcLen.toNat).EndsInFile :=
  readTable_endsInFile fun _ hpos => by
    obtain ⟨v, hv, -⟩ := srcByte_regionBits hq hpos
    exact Option.isSome_iff_exists.2 ⟨v, hv⟩

/-- Its region holds the bits that begin the region's own, and those that go on from them. -/
theorem fileHolds_of_isPrefix {bits : List Bool}
    (h : bits <+: regionBits s s.latch.srcBase s.latch.srcLen.toNat
      ∨ regionBits s s.latch.srcBase s.latch.srcLen.toNat <+: bits) :
    FileHolds (srcByte s s.latch.srcBase) s.latch.srcLen.toNat bits := by
  intro pos b hb hpos
  obtain ⟨v, hv, hbit⟩ := srcByte_regionBits hq hpos
  refine ⟨v, hv, ?_⟩
  rcases h with h | h
  · obtain ⟨hlt, hb⟩ := List.getElem?_eq_some_iff.1 hb
    rw [List.prefix_iff_getElem?.1 h pos hlt, hb] at hbit
    exact (Option.some.inj hbit).symm
  · obtain ⟨hlt, hbit⟩ := List.getElem?_eq_some_iff.1 hbit
    rw [List.prefix_iff_getElem?.1 h pos hlt, hbit] at hb
    exact Option.some.inj hb

end

/-- Settles O34: the file's bits are read as the table, in a number that fits RESULT. -/
theorem deserializeReadsTableFile : Obligations.DeserializeReadsTableFile := by
  intro s kind slots bits hm hq hs hb hfile
  have hlen := hfile.length_le
  rw [length_regionBits] at hlen
  have hread := readTable_eq (fileHolds_of_isPrefix hq (.inl hfile)) hs hb
  rw [upTo_of_le hlen] at hread
  obtain ⟨-, htrees, -⟩ := hs
  rw [exec_deserialize_of_ok hm hq hread, resultWord, if_pos (length_tableBits_lt (fun p hp => (htrees p hp).2) hb)]
  exact completesTo_finish (keepsEnv_refl s.env)

/-- Settles O35: up to the tree that fails the file is read; there its nodes lead to the error. -/
theorem deserializeErrors : Obligations.DeserializeErrors := by
  refine fun s => ⟨fun hm => failsTo_of_exec_eq (if_pos hm), fun hm hf => ?_, fun hm hq => ?_,
    fun t he hm hq h ht => ?_⟩
  · exact failsTo_of_exec_eq (by simp [exec, execDeserialize, hm, regionFits_eq_false hf])
  · intro file LosesTable
    have hlosesTable {code : ErrCode} {info : Nat}
        (hr : readTable (srcByte s s.latch.srcBase) s.latch.srcLen.toNat = .error code info 0) :
        LosesTable code (BitVec.ofNat 32 info) := by
      refine ⟨(withoutTable s).outLen, (withoutTable s).result, ?_⟩
      rw [exec_deserialize_of_error hm hq hr]
      exact failsTo_fail (t := withoutTable s) _ _ (keepsEnv_refl s.env)
    have hfits {n : Nat} (hn : n ≤ file.length) : n ≤ 8 * s.latch.srcLen.toNat := by rwa [length_regionBits] at hn
    refine ⟨fun pre ns hpre hns hlen hfile => hlosesTable ?_, fun pre ns n hpre hns hlen hroot hfile hend => ?_,
      fun pre hpre hfile => hlosesTable ?_⟩
    · exact readTable_capacity (fileHolds_of_isPrefix hq (.inl hfile)) hpre hns hlen (hfits hfile.length_le)
    · simpa using hlosesTable
        (readTable_eof (fileHolds_of_isPrefix hq (.inr hfile)) hpre hns hlen hroot (by rwa [length_regionBits] at hend))
    · exact readTable_leafRoot (fileHolds_of_isPrefix hq (.inl hfile)) hpre (hfits hfile.length_le)
  · have hends := readTable_srcByte_endsInFile hq
    cases hr : readTable (srcByte s s.latch.srcBase) s.latch.srcLen.toNat with
    | bus off n =>
      rw [hr] at hends
      exact hends.elim
    | ok r =>
      rw [exec_deserialize_of_ok hm hq hr, finish_next] at h
      rw [← h] at ht
      exact absurd (he.symm.trans ht) nofun
    | error code info n =>
      rw [hr] at hends
      rw [exec_deserialize_of_error hm hq hr, fail_next] at h
      exact h ▸ ⟨rfl, rfl, hends⟩

/-- Under an internal root no leaf is at depth 0. -/
theorem length_pos_of_treeAt_leaf {t : Tree} (hi : isInternal t = true) {code : List Bool} {sym : Byte}
    (h : treeAt t code = some (.leaf sym)) : 1 ≤ code.length := by
  refine List.length_pos_iff.2 fun hnil => ?_
  subst hnil
  cases t with
  | leaf x => cases hi
  | node l r => cases h

/-- Settles O36: the trees read have been counted (R305); the other bounds follow from their number of nodes. -/
theorem loadedTreesAreBounded : Obligations.LoadedTreesAreBounded := by
  intro s t k tree he h ht hslot
  have hok : TreeOk tree := by
    cases execDeserialize_result h with
    | rejected => cases ht
    | deserializeFailed => cases ht
    | deserialized r hr =>
      obtain ⟨-, htrees, -⟩ := tablesOk_readTable hr (s := { s with kind := r.kind, slots := r.slots }) rfl rfl
      exact (htrees _ (mem_of_slotTree hslot)).2
    | _ => contradiction
  have hdepth := treeDepth_le_of_treeOk hok
  obtain ⟨hroot, hcap⟩ := hok
  have hleaves := treeNodes_eq_leaves tree
  refine ⟨hroot, hcap, ?_, hdepth, fun code sym => length_pos_of_treeAt_leaf hroot⟩
  simp only [Config.nodeCap] at hcap
  omega

end Sys2Proof.Machine
end

section
/-! SUPPORT. The loop of COMPRESS (44_codec.md R331) on bytes that its reads answer: it appends their codewords, stops where
they do not fit, or stops at the first byte that has none. -/

namespace Sys2Proof.Machine

/-! ## The codewords of the bytes (R335) -/

/-- `push_desc` of a codeword appends the codeword (R254). -/
theorem pushCode_appends {w : Writer} (hw : WriterOk w) (code : List Bool) :
    WriterOk (pushCode code w) ∧ writerBits (pushCode code w) = writerBits w ++ code := by
  have hcode : ((List.range code.length).map fun k => streamBit (window code (8 * (k / 8))) (k % 8)) = code := by
    refine List.ext_getElem (by simp) fun k hk hk' => ?_
    simp [streamBit_window _ _ (Nat.mod_lt k (by decide : 0 < 8)), Nat.div_add_mod, hk']
  have happ := pushDesc_appends hw code.length fun m => window code (8 * m)
  rwa [hcode] at happ

theorem codeBits_cons {kind : TableKind} {slots : List (Nat × Tree)} {prev b : Byte} {bs : List Byte} {bits : List Bool} :
    codeBits kind slots prev (b :: bs) = some bits ↔ ∃ t code rest, treeFor kind slots prev = some t
      ∧ encTable t b = some code ∧ codeBits kind slots b bs = some rest ∧ bits = code ++ rest := by
  simp only [codeBits]
  cases ht : treeFor kind slots prev with
  | none => simp
  | some t =>
    cases hc : encTable t b with
    | none => simp [hc]
    | some code => cases codeBits kind slots b bs <;> simp [hc, eq_comm]

/-- The last byte of a list, from the byte before it on: the context that follows (R331, R341). -/
theorem getLastD_cons (prev b : Byte) (bs : List Byte) : (b :: bs).getLast?.getD prev = bs.getLast?.getD b := by
  rw [List.getLast?_cons, Option.getD_some]

/-! ## The loop -/

/-- The reads of the SRC offsets from `i` on answer the bytes. -/
def ReadsFrom (rd : Nat → Nat → Option Byte) (i : Nat) (bs : List Byte) : Prop :=
  ∀ j b, bs[j]? = some b → rd (i + j) (i + j) = some b

section
variable {rd : Nat → Nat → Option Byte} {i : Nat}

theorem ReadsFrom.head {b : Byte} {bs : List Byte} (h : ReadsFrom rd i (b :: bs)) : rd i i = some b := h 0 b rfl

theorem ReadsFrom.tail {b : Byte} {bs : List Byte} (h : ReadsFrom rd i (b :: bs)) : ReadsFrom rd (i + 1) bs := by
  intro j b' hb
  rw [Nat.add_assoc, Nat.add_comm 1]
  exact h (j + 1) b' hb

theorem ReadsFrom.take {bs : List Byte} (h : ReadsFrom rd i bs) (n : Nat) : ReadsFrom rd i (bs.take n) := fun j b hb =>
  h j b (by rw [List.getElem?_take] at hb; split_ifs at hb; exact hb)

end

section
variable {rd : Nat → Nat → Option Byte} {s : State} {cap whole n i : Nat} {prev b : Byte} {w : Writer}
variable (hrd : rd i i = some b)
include hrd

/-! What the loop does at a byte, in the order of its checks. -/

theorem compressLoop_emptyTable (ht : treeFor s.kind s.slots prev = none) :
    compressLoop rd s cap whole (n + 1) i prev w = .error .emptyTable i (1 + w.out.length) := by
  simp [compressLoop, hrd, contextTree_eq_treeFor, ht]

variable {t : Tree} (ht : treeFor s.kind s.slots prev = some t)
include ht

theorem compressLoop_noCodeword (hc : encTable t b = none) :
    compressLoop rd s cap whole (n + 1) i prev w = .error .noCodeword i (1 + w.out.length) := by
  simp [compressLoop, hrd, contextTree_eq_treeFor, ht, hc]

variable {code : List Bool} (hc : encTable t b = some code)
include hc

theorem compressLoop_overflow (hf : pushFits cap (writerPos w) code.length = false) :
    compressLoop rd s cap whole (n + 1) i prev w = .error .dstOverflow whole (1 + w.out.length) := by
  simp [compressLoop, hrd, contextTree_eq_treeFor, ht, hc, hf]

theorem compressLoop_push (hf : pushFits cap (writerPos w) code.length = true) :
    compressLoop rd s cap whole (n + 1) i prev w = compressLoop rd s cap whole n (i + 1) b (pushCode code w) := by
  simp [compressLoop, hrd, contextTree_eq_treeFor, ht, hc, hf]

end

/-- In a stream within its capacity, bits fit where they end within it. -/
theorem Writer.Within.pushFits_iff {cap : Nat} {w : Writer} (h : w.Within cap) (n : Nat) :
    pushFits cap (writerPos w) n = true ↔ writerPos w + n ≤ 8 * cap := by
  have hpos := h.pos
  simp only [pushFits, Bool.or_eq_true, decide_eq_true_eq]
  omega

/-- It has completed no more bytes than its capacity. -/
theorem Writer.Within.length_out_le {cap : Nat} {w : Writer} (h : w.Within cap) : w.out.length ≤ cap := by
  have hpos := h.pos
  simp only [writerPos] at hpos
  omega

/-- COMPRESS's loop on bytes with the codewords `bits`, from the stream `w` on: within the capacity it appends them; otherwise it
stops in DST_OVERFLOW, with at most the header and the stream's bytes placed. -/
def EmitsCode (cap whole : Nat) (w : Writer) (bits : List Bool) : Stream Writer → Prop
  | .ok w' => w'.Within cap ∧ writerBits w' = writerBits w ++ bits
  | .error code info written =>
    code = .dstOverflow ∧ info = whole ∧ 8 * cap < writerPos w + bits.length ∧ written ≤ 1 + cap
  | .bus _ _ => False

/-- A codeword that fits, and what the loop does after it. -/
theorem EmitsCode.of_pushCode {cap whole : Nat} {w : Writer} {code rest : List Bool} {x : Stream Writer} (hw : w.Within cap)
    (h : EmitsCode cap whole (pushCode code w) rest x) : EmitsCode cap whole w (code ++ rest) x := by
  obtain ⟨hok, hbits⟩ := pushCode_appends hw.ok code
  have hpos := writerPos_of_appends hw.ok hok hbits
  cases x with
  | ok w' =>
    obtain ⟨hw', hrest⟩ := h
    exact ⟨hw', by rw [hrest, hbits, List.append_assoc]⟩
  | error code' info n =>
    obtain ⟨hcode, hinfo, hlong, hn⟩ := h
    exact ⟨hcode, hinfo, by rw [List.length_append]; omega, hn⟩
  | bus off n => exact h

theorem emitsCode_compressLoop {rd : Nat → Nat → Option Byte} {s : State} {cap whole i : Nat} {prev : Byte} {w : Writer}
    {bs : List Byte} {bits : List Bool} (hw : w.Within cap) (hrd : ReadsFrom rd i bs)
    (hb : codeBits s.kind s.slots prev bs = some bits) :
    EmitsCode cap whole w bits (compressLoop rd s cap whole bs.length i prev w) := by
  induction bs generalizing i prev w bits with
  | nil =>
    cases hb
    exact ⟨hw, (List.append_nil _).symm⟩
  | cons b bs ih =>
    obtain ⟨t, code, rest, ht, hc, hrest, rfl⟩ := codeBits_cons.1 hb
    rw [List.length_cons]
    by_cases hf : pushFits cap (writerPos w) code.length = true
    · rw [compressLoop_push hrd.head ht hc hf]
      exact (ih (hw.of_pushCode hf) hrd.tail hrest).of_pushCode hw
    · rw [compressLoop_overflow hrd.head ht hc (eq_false_of_ne_true hf)]
      rw [hw.pushFits_iff] at hf
      exact ⟨rfl, rfl, by rw [List.length_append]; omega, Nat.add_le_add_left hw.length_out_le 1⟩

/-- The loop on a first part of the bytes, and from where that ends on. -/
theorem compressLoop_append {rd : Nat → Nat → Option Byte} {s : State} {cap whole m i : Nat} {prev : Byte} {w : Writer}
    {bs : List Byte} {bits : List Bool} (hrd : ReadsFrom rd i bs) (hw : w.Within cap)
    (hb : codeBits s.kind s.slots prev bs = some bits) (hfit : writerPos w + bits.length ≤ 8 * cap) :
    ∃ w', w'.Within cap ∧ writerPos w' = writerPos w + bits.length
      ∧ compressLoop rd s cap whole (bs.length + m) i prev w
        = compressLoop rd s cap whole m (i + bs.length) (bs.getLast?.getD prev) w' := by
  induction bs generalizing i prev w bits with
  | nil =>
    cases hb
    exact ⟨w, hw, rfl, by simp⟩
  | cons b bs ih =>
    obtain ⟨t, code, rest, ht, hc, hrest, rfl⟩ := codeBits_cons.1 hb
    rw [List.length_append] at hfit
    have hf := (hw.pushFits_iff code.length).2 (by omega)
    have hw' := hw.of_pushCode hf
    obtain ⟨-, hbits⟩ := pushCode_appends hw.ok code
    have hpos := writerPos_of_appends hw.ok hw'.ok hbits
    obtain ⟨w', hwithin, hpos', hloop⟩ := ih hrd.tail hw' hrest (by omega)
    refine ⟨w', hwithin, by rw [hpos', hpos, List.length_append, Nat.add_assoc], ?_⟩
    rw [List.length_cons, Nat.add_right_comm, compressLoop_push hrd.head ht hc hf, hloop, getLastD_cons,
      Nat.add_assoc, Nat.add_comm 1]

end Sys2Proof.Machine
end

section
/-! SUPPORT. COMPRESS (44_codec.md R331 to R337) in undisturbed regions: the file it writes, and its streaming errors. -/

namespace Sys2Proof.Machine

variable {s : State}

@[simp] theorem regionAddr_zero (base : Word) : regionAddr base 0 = base := BitVec.add_zero base

/-! ## Past the checks -/

theorem codecCheck_of_codecReady (h : CodecReady s) : codecCheck s = none := by
  obtain ⟨hm, hk, ⟨hsrc, -⟩, ⟨hdst, -⟩, ho⟩ := h
  simp [codecCheck, hm, hk, hsrc, hdst, ho]

theorem codecDevice_of_codecReady (h : CodecReady s) : codecDevice s = false := by
  obtain ⟨-, -, ⟨-, hsrc, -⟩, ⟨-, hdst, -⟩, -⟩ := h
  simp [codecDevice, plainRegion_touchesDevice hsrc, plainRegion_touchesDevice hdst]

theorem refusedReads_of_codecReady (h : CodecReady s) : refusedReads s s.latch.srcBase s.latch.srcLen = [] := by
  obtain ⟨-, -, ⟨hf, hp, -⟩, -, -⟩ := h
  exact refusedReads_nil hf hp

/-- In an ordinary DST region no refused write takes the place of a streaming error. -/
theorem failOutput_of_quietDst (hq : QuietDst s s.latch.dstBase s.latch.dstCap) {written : Nat}
    (hn : written ≤ s.latch.dstCap.toNat) (code : ErrCode) (info : Word) :
    failOutput code info written s = fail code info (unspecifiedOutput s) := by
  obtain ⟨hf, hp, -⟩ := hq
  simp [failOutput, refusedWrites_nil hf hp hn]

/-- A streaming error leaves OUT_LEN, RESULT and the bytes of the DST region unspecified (R405 (d)). -/
theorem failsStreaming_of_eq {o : Out} {code : ErrCode} {info : Word}
    (h : o = fail code info (unspecifiedOutput s)) : FailsStreaming o s code info :=
  h ▸ ⟨_, _, _, failsTo_fail _ _ (keepsEnv_refl s.env), sameOutside_scrambleRegion⟩

theorem length_sourceBytes (s : State) : (sourceBytes s).length = s.latch.srcLen.toNat := by
  simp [sourceBytes, regionBytes]

/-- The commands that read SRC byte by byte read its bytes. -/
theorem readsFrom_sourceBytes (hq : QuietSrc s s.latch.srcBase s.latch.srcLen) :
    ReadsFrom (srcByte s s.latch.srcBase) 0 (sourceBytes s) := by
  intro j b hb
  obtain ⟨hj, hb⟩ := List.getElem?_eq_some_iff.1 hb
  rw [Nat.zero_add, srcByte_quiet hq (length_sourceBytes s ▸ hj), ← hb]
  simp [sourceBytes, regionBytes]

/-- COMPRESS's stream: the codewords of the SRC bytes, in what the header leaves of the DST region (R331, R332). -/
def compressStream (s : State) : Stream Writer :=
  compressLoop (srcByte s s.latch.srcBase) s (s.latch.dstCap.toNat - 1) s.latch.dstCap.toNat s.latch.srcLen.toNat 0
    Config.spaceSeed .start

section
variable (hq : QuietSrc s s.latch.srcBase s.latch.srcLen) {bits : List Bool}
  (hb : codeBits s.kind s.slots 0x20#8 (sourceBytes s) = some bits)
include hq hb

theorem emitsCode_compressStream :
    EmitsCode (s.latch.dstCap.toNat - 1) s.latch.dstCap.toNat .start bits (compressStream s) := by
  rw [compressStream, ← length_sourceBytes]
  exact emitsCode_compressLoop (.of_start _) (readsFrom_sourceBytes hq) hb

theorem compressStream_of_fits (hfit : bytesFor bits.length ≤ s.latch.dstCap.toNat - 1) :
    ∃ w, compressStream s = .ok w ∧ w.Within (s.latch.dstCap.toNat - 1) ∧ writerBits w = bits := by
  have hemits := emitsCode_compressStream hq hb
  cases hw : compressStream s <;> rw [hw] at hemits
  case ok w => exact ⟨w, rfl, hemits⟩
  case error code info n =>
    obtain ⟨-, -, hlong, -⟩ := hemits
    rw [writerPos_start, Nat.zero_add] at hlong
    exact absurd (bytesFor_le_iff.1 hfit) (Nat.not_le.2 hlong)
  case bus off n => exact False.elim hemits

theorem compressStream_of_long (hlong : s.latch.dstCap.toNat - 1 < bytesFor bits.length) :
    ∃ n, compressStream s = .error .dstOverflow s.latch.dstCap.toNat n ∧ n ≤ 1 + (s.latch.dstCap.toNat - 1) := by
  have hemits := emitsCode_compressStream hq hb
  cases hw : compressStream s <;> rw [hw] at hemits
  case ok w =>
    obtain ⟨hwithin, hbits⟩ := hemits
    have hle := hwithin.pos
    rw [← length_writerBits hwithin.ok, hbits] at hle
    exact absurd (bytesFor_le_iff.2 hle) (Nat.not_le.2 hlong)
  case error code info n =>
    obtain ⟨rfl, rfl, -, hn⟩ := hemits
    exact ⟨n, rfl, hn⟩
  case bus off n => exact False.elim hemits

end

section
variable (h : CodecReady s) (hcap : 0 < s.latch.dstCap.toNat)
include h hcap

theorem exec_compress_of_ok {w : Writer} (hw : compressStream s = .ok w) :
    exec .compress s
      = finishOutput (compressCells s w) (BitVec.ofNat 32 (1 + (flush w).out.length)) (resultWord s (writerPos w)) s := by
  have hne : s.latch.dstCap ≠ 0#32 := fun h0 => by simp [h0] at hcap
  rw [compressStream] at hw
  simp [exec, execCompress, codecCheck_of_codecReady h, codecDevice_of_codecReady h, refusedReads_of_codecReady h, hne, hw]

theorem exec_compress_of_error {code : ErrCode} {info written : Nat} (hn : written ≤ s.latch.dstCap.toNat)
    (hw : compressStream s = .error code info written) :
    exec .compress s = fail code (BitVec.ofNat 32 info) (unspecifiedOutput s) := by
  have hne : s.latch.dstCap ≠ 0#32 := fun h0 => by simp [h0] at hcap
  have ⟨_, _, _, hq, _⟩ := h
  rw [compressStream] at hw
  rw [← failOutput_of_quietDst hq hn]
  simp [exec, execCompress, codecCheck_of_codecReady h, codecDevice_of_codecReady h, refusedReads_of_codecReady h, hne, hw]

end

/-! ## The file (R330, R332, R334, R337) -/

/-- The header by its fields: the signature, the coder type inverted, and R. -/
theorem headerByte_eq {kind : TableKind} (hk : kind ≠ .none) {r : Nat} (hr : r < 8) :
    headerByte (coderType kind) r = BitVec.ofNat 8 ((if kind = .plain then 0x38 else 0x30) + r) := by
  cases kind with
  | none => exact absurd rfl hk
  | plain | markov => interval_cases r <;> rfl

/-- The file is the placeholder and the stream's bytes, then the header in the placeholder's place. -/
theorem writeCells_compressCells (s : State) (w : Writer) :
    writeCells s (compressCells s w)
      = writeCell s (writeCells s (cellsFrom s.latch.dstBase 0 (placeholder :: (flush w).out)))
          (cellAt s.latch.dstBase 0 (headerByte (coderType s.kind) (remainderBits (writerPos w)))) := by
  rw [writeCells, compressCells, List.foldl_append]
  rfl

section
variable {w : Writer} (hq : QuietDst s s.latch.dstBase s.latch.dstCap) (hcap : 0 < s.latch.dstCap.toNat)
include hq hcap

/-- The header stands at offset 0. -/
theorem get_compressCells_zero : Sparse.get s.latch.dstBase.toNat (writeCells s (compressCells s w))
    = headerByte (coderType s.kind) (remainderBits (writerPos w)) := by
  obtain ⟨hf, -, hraced, hwf⟩ := hq
  have hnot : s.latch.dstBase.toNat ∉ s.env.dstRaced := fun hr => by
    have hin := inRegion_regionAddr hf hcap
    rw [regionAddr_zero, hraced _ hr] at hin
    cases hin
  rw [writeCells_compressCells, writeCell, cellAt, regionAddr_zero, if_neg hnot]
  exact get_set_same _ _ (writeCells_wf s hwf cellsFrom_lt).1

variable (hw : w.Within (s.latch.dstCap.toNat - 1))
include hw

theorem refusedCells_compressCells : refusedCells s (compressCells s w) = [] := by
  obtain ⟨hf, hp, -⟩ := hq
  refine refusedCells_nil hp fun c hc => ⟨?_, compressCells_lt s w c hc⟩
  obtain ⟨k, hk, hck⟩ := mem_compressCells hcap hw hc
  exact hck ▸ inRegion_regionAddr hf hk

/-- The codewords stand from offset 1 on. -/
theorem holdsBits_compressCells : HoldsBits (writeCells s (compressCells s w)) s.latch.dstBase 1 (writerBits w) := by
  intro k hk
  rw [length_writerBits hw.ok, ← length_flush_out hw.ok] at hk
  have hlen := hw.length_flush_le
  have hne : (regionAddr s.latch.dstBase (1 + k)).toNat ≠ (regionAddr s.latch.dstBase 0).toNat := fun he => by
    have := (toNat_inj_regionAddr hq.1 (j := 1 + k) (k := 0) (by omega) hcap).1 he
    omega
  have hget := get_writeCells_cellsFrom (off := 0) (vs := placeholder :: (flush w).out) hq (by simp; omega)
    (k := 1 + k) (by simp; omega)
  rw [writeCells_compressCells, writeCell, cellAt, get_set_of_ne _ _ hne]
  simp only [Nat.zero_add, Nat.add_comm 1 k, List.getElem_cons_succ] at hget ⊢
  rw [hget, getElem_flush_out hw.ok]

end

/-- Settles O37: the stream is within the capacity, and its flushed bytes are written after the header. -/
theorem compressCompletes : Obligations.CompressCompletes := by
  intro s bits h hb hfit
  have ⟨_, hkind, hsrc, hq, _⟩ := h
  have hcap : 0 < s.latch.dstCap.toNat := by omega
  obtain ⟨w, hw, hwithin, hbits⟩ := compressStream_of_fits hsrc hb (by omega)
  have hpos : writerPos w = bits.length := by rw [← length_writerBits hwithin.ok, hbits]
  have hout : (flush w).out.length = bytesFor bits.length := by rw [length_flush_out hwithin.ok, hpos]
  have hshort : w.Within (1 + bytesFor bits.length - 1) := ⟨hwithin.ok, by rw [hpos, bytesFor]; omega⟩
  refine ⟨writeCells s (compressCells s w), resultWord s (writerPos w), ?_, fun hlt => ?_, ?_, ?_, ?_⟩
  · rw [exec_compress_of_ok h hcap hw, finishOutput, refusedCells_compressCells hq hcap hwithin, hout]
    exact completesTo_finish (keepsEnv_refl s.env)
  · rw [resultWord, hpos, if_pos hlt]
  · rw [get_compressCells_zero hq hcap, remainderBits, hpos, headerByte_eq hkind (Nat.mod_lt _ (by decide))]
  · exact hbits ▸ holdsBits_compressCells hq hcap hwithin
  · exact sameOutside_writeCells fun c hc => mem_compressCells (Nat.lt_add_right _ Nat.one_pos) hshort hc

/-! ## The streaming errors (R333) -/

/-- Where the codewords of all the bytes do not fit, the command ends in DST_OVERFLOW. -/
theorem exec_compress_overflow (h : CodecReady s) {bits : List Bool}
    (hb : codeBits s.kind s.slots 0x20#8 (sourceBytes s) = some bits)
    (hlong : s.latch.dstCap.toNat < 1 + bytesFor bits.length) :
    ∃ info t, exec .compress s = fail .dstOverflow info t := by
  have ⟨_, _, hsrc, _, _⟩ := h
  by_cases hzero : s.latch.dstCap = 0#32
  · exact ⟨0#32, s, by simp only [exec, execCompress, codecCheck_of_codecReady h, if_pos hzero]⟩
  have hcap : 0 < s.latch.dstCap.toNat := by bv_omega
  obtain ⟨n, hw, hn⟩ := compressStream_of_long hsrc hb (by omega)
  exact ⟨_, _, exec_compress_of_error h hcap (by omega) hw⟩

/-- Where the codewords before a byte fit, the loop comes to it with them appended, in the context of the byte before. -/
theorem compressStream_at (hq : QuietSrc s s.latch.srcBase s.latch.srcLen) {i : Nat} {b : Byte} {pre : List Bool}
    (hb : (sourceBytes s)[i]? = some b) (hpre : codeBits s.kind s.slots 0x20#8 ((sourceBytes s).take i) = some pre)
    (hfit : bytesFor pre.length ≤ s.latch.dstCap.toNat - 1) :
    srcByte s s.latch.srcBase i i = some b ∧ ∃ (w : Writer) (n : Nat), w.Within (s.latch.dstCap.toNat - 1)
      ∧ writerPos w = pre.length
      ∧ compressStream s = compressLoop (srcByte s s.latch.srcBase) s (s.latch.dstCap.toNat - 1) s.latch.dstCap.toNat
          (n + 1) i (contextAfter ((sourceBytes s).take i)) w := by
  have hreads := readsFrom_sourceBytes hq
  obtain ⟨hi, -⟩ := List.getElem?_eq_some_iff.1 hb
  have hlen : ((sourceBytes s).take i).length = i := by rw [List.length_take]; omega
  obtain ⟨w, hw, hpos, hloop⟩ := compressLoop_append (s := s) (whole := s.latch.dstCap.toNat)
    (m := (sourceBytes s).length - i - 1 + 1) (hreads.take i) (.of_start (s.latch.dstCap.toNat - 1)) hpre (by
      rw [writerPos_start, Nat.zero_add]
      exact bytesFor_le_iff.1 hfit)
  rw [writerPos_start, Nat.zero_add] at hpos
  rw [hlen, Nat.zero_add, show i + ((sourceBytes s).length - i - 1 + 1) = (sourceBytes s).length by omega,
    length_sourceBytes] at hloop
  exact ⟨by simpa using hreads i b hb, w, _, hw, hpos, hloop⟩

/-- Settles O38: up to the byte that fails the loop appends codewords; there its checks lead to the error. -/
theorem compressStreamingErrors : Obligations.CompressStreamingErrors := by
  intro s i b pre h hb hpre hfit
  have ⟨_, _, hsrc, _, _⟩ := h
  have hcap : 0 < s.latch.dstCap.toNat := by omega
  obtain ⟨hrd, w, n, hw, hpos, hloop⟩ := compressStream_at hsrc hb hpre (by omega)
  have hn : 1 + w.out.length ≤ s.latch.dstCap.toNat := by
    have := hw.length_out_le
    omega
  refine ⟨fun ht => ?_, fun t ht => ⟨fun hc => ?_, fun code hc hlong => ?_⟩⟩
  · exact failsStreaming_of_eq (exec_compress_of_error h hcap hn (hloop.trans (compressLoop_emptyTable hrd ht)))
  · exact failsStreaming_of_eq (exec_compress_of_error h hcap hn (hloop.trans (compressLoop_noCodeword hrd ht hc)))
  · have hf : pushFits (s.latch.dstCap.toNat - 1) (writerPos w) code.length = false := by
      rw [← Bool.not_eq_true, hw.pushFits_iff, hpos, ← bytesFor_le_iff]
      omega
    have := exec_compress_of_error h hcap hn (hloop.trans (compressLoop_overflow hrd ht hc hf))
    rw [BitVec.ofNat_toNat, BitVec.setWidth_eq] at this
    exact failsStreaming_of_eq this

end Sys2Proof.Machine
end

section
/-! SUPPORT. The decoder of DECOMPRESS (44_codec.md R341 to R346): the lookup of a window and the descent answer what the data
bits lead to in the context's tree, and the loop decodes the codewords one after the other. -/

namespace Sys2Proof.Machine

/-! ## Following bits (42_lookup_tables.md R257) -/

@[simp] theorem followBits_leaf (sym : Byte) (bits : List Bool) : followBits (.leaf sym) bits = (.leaf sym, 0) := by
  cases bits <;> rfl

/-- Bits are followed part by part; from a leaf no more are used. -/
theorem followBits_append (t : Tree) (p q : List Bool) :
    followBits t (p ++ q)
      = ((followBits (followBits t p).1 q).1, (followBits t p).2 + (followBits (followBits t p).1 q).2) := by
  induction p generalizing t with
  | nil => cases t <;> simp [followBits]
  | cons b p ih =>
    cases t with
    | leaf sym => simp
    | node l r =>
      simp only [List.cons_append, followBits, ih]
      rw [Nat.add_right_comm]

theorem followBits_snd_le (t : Tree) (bits : List Bool) : (followBits t bits).2 ≤ bits.length := by
  induction bits generalizing t with
  | nil => cases t <;> simp [followBits]
  | cons b bits ih =>
    cases t with
    | leaf sym => simp
    | node l r => simpa [followBits] using ih (if b then r else l)

/-- From an internal node a leaf is at least a bit away. -/
theorem followBits_snd_pos {l r : Tree} {sym : Byte} {bits : List Bool}
    (h : (followBits (.node l r) bits).1 = .leaf sym) : 0 < (followBits (.node l r) bits).2 := by
  cases bits with
  | nil => cases h
  | cons b bits => exact Nat.succ_pos _

/-- A codeword leads to its leaf, whatever follows it. -/
theorem followBits_of_treeAt_leaf {t : Tree} {sym : Byte} {code bits : List Bool} (h : treeAt t code = some (.leaf sym))
    (hp : code <+: bits) : followBits t bits = (.leaf sym, code.length) := by
  obtain ⟨rest, rfl⟩ := hp
  induction code generalizing t with
  | nil =>
    obtain rfl : t = .leaf sym := by simpa [treeAt] using h
    simp
  | cons b code ih =>
    cases t with
    | leaf x => simp [treeAt] at h
    | node l r =>
      have hsub : treeAt (if b then r else l) code = some (.leaf sym) := by cases b <;> exact h
      simp [followBits, ih hsub]

/-- A leaf that bits lead to is at the end of a codeword that begins them. -/
theorem exists_code_of_followBits {t : Tree} {sym : Byte} {bits : List Bool} (h : (followBits t bits).1 = .leaf sym) :
    ∃ code, treeAt t code = some (.leaf sym) ∧ code <+: bits := by
  induction bits generalizing t with
  | nil =>
    cases t with
    | leaf x => cases h; exact ⟨[], rfl, List.prefix_rfl⟩
    | node l r => cases h
  | cons b bits ih =>
    cases t with
    | leaf x => cases h; exact ⟨[], rfl, List.nil_prefix⟩
    | node l r =>
      obtain ⟨code, hat, hp⟩ := ih h
      exact ⟨b :: code, by cases b <;> exact hat, (List.prefix_cons_inj b).2 hp⟩

/-! ## The data bits (R341) -/

/-- What the decoder answers where the data bits lead to a node and the cursor `cur`: the leaf's symbol, or TRUNCATED where they
end before a leaf (R343, R346). -/
def decoded (info : Nat) : Tree → Nat → Stream (Byte × Nat)
  | .leaf sym, cur => .ok (sym, cur)
  | .node _ _, _ => .error .truncated info 0

/-- The bits of a window: those of the stream, and zeros beyond its end (R12). -/
theorem byteBits_window (l : List Bool) (c : Nat) :
    byteBits (window l c) = (l.drop c ++ List.replicate 8 false).take 8 := by
  refine List.ext_getElem (by simp) fun j hj hj' => ?_
  have hj : j < 8 := by simpa using hj
  rw [getElem_byteBits, streamBit_window _ _ hj, List.getElem_take, List.getElem_append]
  split_ifs with h
  · rw [List.getElem_drop, List.getD_eq_getElem]
  · rw [List.getElem_replicate]
    exact List.getD_eq_default _ _ (by simp at h; omega)

/-- Bits that can all be read. -/
theorem readBits_eq_map {bit : Nat → Option Bool} {f : Nat → Bool} (hbit : ∀ j, bit j = some (f j)) (c n : Nat) :
    readBits bit c n = some ((List.range n).map fun k => f (c + k)) := by
  induction n generalizing c with
  | zero => rfl
  | succ n ih =>
    simp only [readBits, hbit, ih, List.range_succ_eq_map, List.map_cons, List.map_map, Function.comp_def, Nat.add_zero,
      Nat.succ_eq_add_one, Nat.add_comm, Nat.add_left_comm]

section
variable {rd : Nat → Nat → Option Byte} {n : Nat} {data : List Bool}
variable (hd : ∀ t j, dataBit rd n t j = some (data.getD j false))
include hd

theorem dataWindow_eq (c : Nat) : dataWindow rd n c = some (window data c) := by
  rw [dataWindow, readBits_eq_map fun j => hd _ j, Option.map_some]
  refine congrArg some (byte_ext fun j hj => ?_)
  rw [streamBit_window _ _ hj, streamBit_window _ _ hj, Nat.zero_add, List.getD_eq_getElem _ _ (by simpa using hj)]
  simp

variable {total cur info : Nat} {rest : List Bool}

/-- The descent follows the data bits (R345). -/
theorem descend_eq {t : Tree} (hrest : rest <+: data.drop cur) (htotal : cur + rest.length = total) :
    descend rd n total info t cur = decoded info (followBits t rest).1 (cur + (followBits t rest).2) := by
  induction rest generalizing t cur with
  | nil =>
    cases t with
    | leaf sym => rfl
    | node l r => rw [descend, if_pos (by simpa using htotal)]; rfl
  | cons b rest ih =>
    cases t with
    | leaf sym => rfl
    | node l r =>
      obtain ⟨hbit, hrest⟩ := cons_isPrefix_drop.1 hrest
      rw [List.length_cons] at htotal
      have hread : dataBit rd n (16 * cur + 8) cur = some b := by rw [hd, List.getD_eq_getElem?_getD, hbit, Option.getD_some]
      have hnext := ih (t := if b then r else l) hrest (by omega)
      rw [Nat.add_assoc, Nat.add_comm 1] at hnext
      rw [descend, if_neg (by omega), hread, followBits, ← hnext]
      cases b <;> rfl

/-- A window that leads to a leaf (R344). -/
theorem decodeSymbol_of_leaf {t : Tree} {sym : Byte}
    (h : (followBits t (byteBits (window data cur))).1 = .leaf sym) :
    decodeSymbol rd n total (some t) cur
      = if total < cur + (followBits t (byteBits (window data cur))).2 then .error .truncated (1 + cur / 8) 0
        else .ok (sym, cur + (followBits t (byteBits (window data cur))).2) := by
  obtain ⟨htree, hdepth⟩ := Prod.mk.inj (lookupTableFollowsBits t (window data cur))
  simp [decodeSymbol, dataWindow_eq hd, htree.trans h, hdepth]

/-- A window that leads to an internal node (R345). -/
theorem decodeSymbol_of_node {t l r : Tree} (h : (followBits t (byteBits (window data cur))).1 = .node l r) :
    decodeSymbol rd n total (some t) cur
      = if total < cur + 8 then .error .truncated (1 + cur / 8) 0
        else descend rd n total (1 + cur / 8) (.node l r) (cur + 8) := by
  obtain ⟨htree, -⟩ := Prod.mk.inj (lookupTableFollowsBits t (window data cur))
  simp [decodeSymbol, dataWindow_eq hd, htree.trans h]

/-- One codeword: the window and the descent below it lead where the data bits lead (R342 to R346). -/
theorem decodeSymbol_eq (t : Tree) (hrest : rest <+: data.drop cur) (htotal : cur + rest.length = total) :
    decodeSymbol rd n total (some t) cur
      = decoded (1 + cur / 8) (followBits t rest).1 (cur + (followBits t rest).2) := by
  have hwin : byteBits (window data cur) <+: data.drop cur ++ List.replicate 8 false := by
    rw [byteBits_window]
    exact List.take_prefix ..
  have hrest' := hrest.trans (List.prefix_append _ (List.replicate 8 false))
  have hlen := length_byteBits (window data cur)
  rcases Nat.lt_or_ge rest.length 8 with hshort | hlong
  · obtain ⟨pad, hpad⟩ := List.prefix_of_prefix_length_le hrest' hwin (by omega)
    have hfollow := followBits_append t rest pad
    rw [hpad] at hfollow
    obtain ⟨htree, hdepth⟩ := Prod.mk.inj hfollow
    have hle := followBits_snd_le t rest
    cases hr : (followBits t rest).1 with
    | leaf sym =>
      rw [hr, followBits_leaf] at htree hdepth
      rw [decodeSymbol_of_leaf hd htree, hdepth, if_neg (by omega)]
      rfl
    | node l r =>
      have hend := followBits_snd_of_node hr
      rw [hr] at htree hdepth
      cases hf : (followBits (.node l r) pad).1 with
      | leaf sym =>
        have hpos := followBits_snd_pos hf
        rw [decodeSymbol_of_leaf hd (htree.trans hf), if_pos (by omega)]
        rfl
      | node l' r' =>
        rw [decodeSymbol_of_node hd (htree.trans hf), if_pos (by omega)]
        rfl
  · obtain ⟨more, rfl⟩ := List.prefix_of_prefix_length_le hwin hrest' (by omega)
    obtain ⟨-, hmore⟩ := append_isPrefix_drop.1 hrest
    rw [List.length_append] at htotal
    rw [followBits_append]
    have hle := followBits_snd_le t (byteBits (window data cur))
    cases hf : (followBits t (byteBits (window data cur))).1 with
    | leaf sym =>
      rw [decodeSymbol_of_leaf hd hf, if_neg (by omega), followBits_leaf]
      rfl
    | node l r =>
      have hend := followBits_snd_of_node hf
      rw [decodeSymbol_of_node hd hf, if_neg (by omega), hend, hlen, ← Nat.add_assoc]
      exact descend_eq hd (by rwa [hlen] at hmore) (by omega)

/-- A codeword that begins the data bits is decoded. -/
theorem decodeSymbol_of_code {t : Tree} {sym : Byte} {code : List Bool} (hat : treeAt t code = some (.leaf sym))
    (hcode : code <+: rest) (hrest : rest <+: data.drop cur) (htotal : cur + rest.length = total) :
    decodeSymbol rd n total (some t) cur = .ok (sym, cur + code.length) := by
  rw [decodeSymbol_eq hd t hrest htotal, followBits_of_treeAt_leaf hat hcode]
  rfl

/-- Where no codeword begins them, the data are truncated. -/
theorem decodeSymbol_truncated {t : Tree} (hnone : ∀ code sym, treeAt t code = some (.leaf sym) → ¬ code <+: rest)
    (hrest : rest <+: data.drop cur) (htotal : cur + rest.length = total) :
    decodeSymbol rd n total (some t) cur = .error .truncated (1 + cur / 8) 0 := by
  rw [decodeSymbol_eq hd t hrest htotal]
  cases hf : (followBits t rest).1 with
  | leaf sym =>
    obtain ⟨code, hat, hcode⟩ := exists_code_of_followBits hf
    exact absurd hcode (hnone code sym hat)
  | node l r => rfl

end

/-! ## The loop (R341) -/

section
variable {rd : Nat → Nat → Option Byte} {s : State} {n total whole room cur : Nat} {prev : Byte} {out : List Byte}

theorem decompressLoop_done (hcur : total ≤ cur) :
    decompressLoop rd s n total whole room cur prev out = .ok out.reverse := by
  cases room <;> simp [decompressLoop, hcur]

section
variable (hcur : cur < total)
include hcur

theorem decompressLoop_error {code : ErrCode} {info written : Nat}
    (h : decodeSymbol rd n total (treeFor s.kind s.slots prev) cur = .error code info written) :
    decompressLoop rd s n total whole room cur prev out = .error code info out.length := by
  cases room <;> simp [decompressLoop, hcur, contextTree_eq_treeFor, h]

variable {sym : Byte} {cur' : Nat}
  (h : decodeSymbol rd n total (treeFor s.kind s.slots prev) cur = .ok (sym, cur'))
include h

theorem decompressLoop_push : decompressLoop rd s n total whole (room + 1) cur prev out
    = decompressLoop rd s n total whole room cur' sym (sym :: out) := by
  rw [decompressLoop]
  simp [hcur, contextTree_eq_treeFor, h]

theorem decompressLoop_overflow :
    decompressLoop rd s n total whole 0 cur prev out = .error .dstOverflow whole out.length := by
  simp [decompressLoop, hcur, contextTree_eq_treeFor, h]

end

/-- The loop decodes the bytes that the bits before `rest` spell, and goes on from there. -/
theorem decompressLoop_spells {data : List Bool} (hd : ∀ t j, dataBit rd n t j = some (data.getD j false))
    (hs : TablesOk s) {bs : List Byte} {bits rest : List Bool} (hspell : Spells s.kind s.slots prev bs bits)
    (hdata : bits ++ rest <+: data.drop cur) (htotal : cur + (bits ++ rest).length = total) :
    decompressLoop rd s n total whole (bs.length + room) cur prev out
      = decompressLoop rd s n total whole room (cur + bits.length) (bs.getLast?.getD prev) (bs.reverse ++ out) := by
  induction bs generalizing bits cur prev out with
  | nil =>
    obtain rfl : bits = [] := hspell
    simp
  | cons b bs ih =>
    obtain ⟨t, code, more, ht, hat, rfl, hspell⟩ := hspell
    have hpos := length_pos_of_treeAt_leaf (treeOk_of_treeFor hs ht).1 hat
    have hdec := decodeSymbol_of_code hd hat ⟨more ++ rest, (List.append_assoc ..).symm⟩ hdata htotal
    rw [List.append_assoc, append_isPrefix_drop] at hdata
    obtain ⟨-, hdata⟩ := hdata
    simp only [List.length_append] at htotal
    rw [List.length_cons, Nat.add_right_comm, decompressLoop_push (by omega) (ht ▸ hdec),
      ih hspell hdata (by rw [List.length_append]; omega), getLastD_cons, List.length_append, Nat.add_assoc,
      List.reverse_cons, List.append_assoc, List.singleton_append]

end

end Sys2Proof.Machine
end

section
/-! SUPPORT. DECOMPRESS (44_codec.md R339 to R347) in undisturbed regions: the header checks, the bytes it writes, and its streaming
errors. -/

namespace Sys2Proof.Machine

variable {s : State}

/-! ## The data bits of the SRC region (R341) -/

/-- The bits of the SRC bytes after the header. -/
def dataBits (s : State) : List Bool := (regionBits s s.latch.srcBase s.latch.srcLen.toNat).drop 8

theorem dataBit_srcByte (hq : QuietSrc s s.latch.srcBase s.latch.srcLen) (t j : Nat) :
    dataBit (srcByte s s.latch.srcBase) s.latch.srcLen.toNat t j = some ((dataBits s).getD j false) := by
  rw [dataBit, List.getD_eq_getElem?_getD, dataBits, List.getElem?_drop]
  split_ifs with hj
  · rw [srcByte_quiet hq (by omega), regionBits_eq_map, List.getElem?_map, List.getElem?_range (by omega)]
    simp [show (8 + j) / 8 = 1 + j / 8 by omega, show (8 + j) % 8 = j % 8 by omega]
  · rw [List.getElem?_eq_none (by rw [length_regionBits]; omega)]
    rfl

/-! ## Past the checks -/

/-- DECOMPRESS's loop on `total` data bits, with the whole DST region to fill (R341). -/
def decompressStream (s : State) (total : Nat) : Stream (List Byte) :=
  decompressLoop (srcByte s s.latch.srcBase) s s.latch.srcLen.toNat total s.latch.dstCap.toNat s.latch.dstCap.toNat 0
    Config.spaceSeed []

section
variable (h : CodecReady s)
include h

theorem exec_decompress_empty (hlen : s.latch.srcLen.toNat = 0) : exec .decompress s = fail .hdrMissing 0#32 s := by
  simp [exec, execDecompress, codecCheck_of_codecReady h, hlen]

variable (hlen : 0 < s.latch.srcLen.toNat)
include hlen

theorem srcByte_header : srcByte s s.latch.srcBase 0 0 = some (readByte s s.latch.srcBase) := by
  obtain ⟨-, -, hsrc, -, -⟩ := h
  simpa using srcByte_quiet hsrc hlen 0

theorem exec_decompress_headerError {e : ErrCode}
    (he : headerCheck (readByte s s.latch.srcBase) s.latch.srcLen.toNat (coderType s.kind) = .error e) :
    exec .decompress s = fail e 0#32 s := by
  simp [exec, execDecompress, codecCheck_of_codecReady h, codecDevice_of_codecReady h, refusedReads_of_codecReady h,
    hlen.ne', srcByte_header h hlen, he]

variable {total : Nat}
  (htotal : headerCheck (readByte s s.latch.srcBase) s.latch.srcLen.toNat (coderType s.kind) = .ok total)
include htotal

theorem exec_decompress_of_ok {out : List Byte} (hout : decompressStream s total = .ok out) : exec .decompress s
    = finishOutput (cellsFrom s.latch.dstBase 0 out) (BitVec.ofNat 32 out.length) (resultWord s total) s := by
  rw [decompressStream] at hout
  simp [exec, execDecompress, codecCheck_of_codecReady h, codecDevice_of_codecReady h, refusedReads_of_codecReady h,
    hlen.ne', srcByte_header h hlen, htotal, hout]

theorem exec_decompress_of_error {code : ErrCode} {info written : Nat} (hn : written ≤ s.latch.dstCap.toNat)
    (hout : decompressStream s total = .error code info written) :
    exec .decompress s = fail code (BitVec.ofNat 32 info) (unspecifiedOutput s) := by
  have ⟨_, _, _, hq, _⟩ := h
  rw [decompressStream] at hout
  rw [← failOutput_of_quietDst hq hn]
  simp [exec, execDecompress, codecCheck_of_codecReady h, codecDevice_of_codecReady h, refusedReads_of_codecReady h,
    hlen.ne', srcByte_header h hlen, htotal, hout]

end

/-! ## The header (R330, R340) -/

theorem shiftRight_eq_signature_iff (h : Byte) : h >>> 4 = Config.headerSignature ↔ h.extractLsb' 4 4 = 0x3#4 := by
  revert h; decide

/-- The type bit is the coder type inverted. -/
theorem typeBit_eq_iff {kind : TableKind} (hk : kind ≠ .none) (h : Byte) :
    1#1 - h.extractLsb' 3 1 = coderType kind ↔ (h.getLsbD 3 = true ↔ kind = .plain) := by
  cases kind with
  | none => exact absurd rfl hk
  | plain | markov => revert h; decide

theorem toNat_and_seven (h : Byte) : (h &&& 7#8).toNat = (h.extractLsb' 0 3).toNat := by
  revert h; decide

/-- Settles O40: the checks of `headerCheck`, in order. -/
theorem decompressHeaderErrors : Obligations.DecompressHeaderErrors := by
  intro s h hdr
  have ⟨_, hk, _, _, _⟩ := h
  have hbytes (hne : s.latch.srcLen ≠ 0#32) : 0 < s.latch.srcLen.toNat := by bv_omega
  have hfails {e : ErrCode} (hne : s.latch.srcLen ≠ 0#32)
      (he : headerCheck hdr s.latch.srcLen.toNat (coderType s.kind) = .error e) :
      FailsTo (exec .decompress s) s e 0#32 s :=
    failsTo_of_exec_eq (exec_decompress_headerError h (hbytes hne) he)
  refine ⟨fun h0 => ?_, fun hne hsig => hfails hne ?_, fun hne hsig htype => hfails hne ?_, fun h1 hsig htype hr => ?_⟩
  · exact failsTo_of_exec_eq (exec_decompress_empty h (by simp [h0]))
  · rw [headerCheck, if_pos (mt (shiftRight_eq_signature_iff hdr).1 hsig)]
  · have hmismatch : 1#1 - hdr.extractLsb' 3 1 ≠ coderType s.kind := fun he => by
      have hplain := (typeBit_eq_iff hk hdr).1 he
      cases hkind : s.kind <;> simp_all
    rw [headerCheck, if_neg (not_not.2 ((shiftRight_eq_signature_iff hdr).2 hsig)), if_pos hmismatch]
  · refine hfails (by simp [h1]) ?_
    have hlong : 8 * (s.latch.srcLen.toNat - 1) < (hdr &&& 7#8).toNat := by
      rw [toNat_and_seven, h1]
      bv_omega
    rw [headerCheck, if_neg (not_not.2 ((shiftRight_eq_signature_iff hdr).2 hsig)),
      if_neg (not_not.2 ((typeBit_eq_iff hk hdr).2 htype)), if_pos hlong]

/-! ## A file of the right header and length (R339) -/

/-- The fields of a header. -/
theorem headerByte_fields (type : BitVec 1) {r : Nat} (hr : r < 8) :
    headerByte type r >>> 4 = Config.headerSignature ∧ 1#1 - (headerByte type r).extractLsb' 3 1 = type
      ∧ (headerByte type r &&& 7#8).toNat = r := by
  interval_cases r <;> revert type <;> decide

/-- The SRC region holds a file with the data bits `bits`, whatever its padding. -/
structure HoldsFile (s : State) (bits : List Bool) : Prop where
  length : s.latch.srcLen.toNat = 1 + bytesFor bits.length
  header : readByte s s.latch.srcBase
    = BitVec.ofNat 8 ((if s.kind = .plain then 0x38 else 0x30) + (8 - bits.length % 8) % 8)
  data : bits <+: dataBits s

namespace HoldsFile

variable {bits : List Bool} (hfile : HoldsFile s bits)
include hfile

theorem length_pos : 0 < s.latch.srcLen.toNat := by rw [hfile.length]; omega

/-- The header tells the number of data bits. -/
theorem headerCheck_eq (hk : s.kind ≠ .none) :
    headerCheck (readByte s s.latch.srcBase) s.latch.srcLen.toNat (coderType s.kind) = .ok bits.length := by
  have hr : (8 - bits.length % 8) % 8 < 8 := Nat.mod_lt _ (by decide)
  obtain ⟨hsig, htype, hrem⟩ := headerByte_fields (coderType s.kind) hr
  rw [hfile.header, ← headerByte_eq hk hr, hfile.length]
  simp only [headerCheck, hsig, htype, hrem, bytesFor]
  rw [if_neg (not_not.2 rfl), if_neg (not_not.2 rfl), if_neg (by omega)]
  exact congrArg _ (by omega)

/-- Where the data bits begin with those that spell the bytes `out`, the loop decodes these and goes on from there. -/
theorem decompressStream_eq (hq : QuietSrc s s.latch.srcBase s.latch.srcLen) (hs : TablesOk s) {out : List Byte}
    {pre rest : List Bool} (hbits : bits = pre ++ rest) (hspell : Spells s.kind s.slots 0x20#8 out pre) {room : Nat}
    (hroom : s.latch.dstCap.toNat = out.length + room) :
    decompressStream s bits.length
      = decompressLoop (srcByte s s.latch.srcBase) s s.latch.srcLen.toNat bits.length s.latch.dstCap.toNat room pre.length
          (contextAfter out) out.reverse := by
  have hloop := decompressLoop_spells (rest := rest) (cur := 0) (out := []) (whole := s.latch.dstCap.toNat) (room := room)
    (dataBit_srcByte hq) hs hspell (hbits ▸ hfile.data) (Nat.zero_add _)
  rwa [← hroom, ← hbits, Nat.zero_add, List.append_nil] at hloop

end HoldsFile

/-- Settles O39: the loop ends with all the data bits decoded, and the bytes are written where nothing is refused. -/
theorem decompressDecodesItsFile : Obligations.DecompressDecodesItsFile := by
  intro s out bits h hs hspell hfit hlen hhdr hdata
  have hfile : HoldsFile s bits := ⟨hlen, hhdr, hdata⟩
  have ⟨_, hk, hsrc, hq, _⟩ := h
  obtain ⟨room, hroom⟩ := Nat.exists_eq_add_of_le hfit
  have hstream : decompressStream s bits.length = .ok out := by
    rw [hfile.decompressStream_eq hsrc hs (List.append_nil bits).symm hspell hroom, decompressLoop_done le_rfl,
      List.reverse_reverse]
  have hroom' : 0 + out.length ≤ s.latch.dstCap.toNat := by omega
  refine ⟨writeCells s (cellsFrom s.latch.dstBase 0 out), resultWord s bits.length, ?_, fun hlt => ?_, fun k hk => ?_, ?_⟩
  · rw [exec_decompress_of_ok h hfile.length_pos (hfile.headerCheck_eq hk) hstream, finishOutput,
      refusedCells_cellsFrom hq hroom']
    exact completesTo_finish (keepsEnv_refl s.env)
  · rw [resultWord, if_pos hlt]
  · have hget := get_writeCells_cellsFrom hq hroom' hk
    rw [Nat.zero_add] at hget
    rw [hget, List.getD_eq_getElem _ _ hk]
  · exact sameOutside_writeCells fun c hc => by simpa using mem_cellsFrom hc

/-- Settles O41: up to the codeword that fails the loop decodes the bytes; there the slot, the data or the room leads to the
error. -/
theorem decompressStreamingErrors : Obligations.DecompressStreamingErrors := by
  intro s out pre rest h hs hspell hfit hne hlen hhdr hdata info
  have hfile : HoldsFile s (pre ++ rest) := ⟨hlen, hhdr, hdata⟩
  have ⟨_, hk, hsrc, _, _⟩ := h
  obtain ⟨room, hroom⟩ := Nat.exists_eq_add_of_le hfit
  have hrest : rest <+: (dataBits s).drop pre.length := by
    have := (append_isPrefix_drop (pos := 0)).1 hdata
    rw [Nat.zero_add] at this
    exact this.2
  have hcur : pre.length < (pre ++ rest).length := by
    have := List.length_pos_iff.2 hne
    rw [List.length_append]
    omega
  have htotal : pre.length + rest.length = (pre ++ rest).length := List.length_append.symm
  have hd := dataBit_srcByte hsrc
  have hfails {code : ErrCode} {info written : Nat} (hn : written ≤ s.latch.dstCap.toNat)
      (hx : decompressStream s (pre ++ rest).length = .error code info written) :
      FailsStreaming (exec .decompress s) s code (BitVec.ofNat 32 info) :=
    failsStreaming_of_eq (exec_decompress_of_error h hfile.length_pos (hfile.headerCheck_eq hk) hn hx)
  have hstream := hfile.decompressStream_eq hsrc hs rfl hspell hroom
  have hn : out.reverse.length ≤ s.latch.dstCap.toNat := by rwa [List.length_reverse]
  refine ⟨fun ht => ?_, fun t ht => ⟨fun hnone => ?_, fun code sym hat hcode hfull => ?_⟩⟩
  · exact hfails hn (hstream.trans (decompressLoop_error hcur (by rw [ht]; rfl)))
  · exact hfails hn (hstream.trans (decompressLoop_error hcur (by
      rw [ht]
      exact decodeSymbol_truncated hd hnone hrest htotal)))
  · obtain rfl : room = 0 := by omega
    have := hfails hn (hstream.trans (decompressLoop_overflow hcur (by
      rw [ht]
      exact decodeSymbol_of_code hd hat hcode hrest htotal)))
    rwa [BitVec.ofNat_toNat, BitVec.setWidth_eq] at this

end Sys2Proof.Machine
end

section
/-! SUPPORT. Tables trained on the bytes (44_codec.md R349): every byte has a codeword in the context of the byte before it, and a
decoder accepts the codewords. -/

namespace Sys2Proof.Machine

/-! ## Codewords of a built tree -/

theorem isSome_encTable {t : Tree} {sym : Byte} : (encTable t sym).isSome ↔ sym ∈ leafSyms t := by
  induction t with
  | leaf x => rw [encTable_leaf, leafSyms, List.mem_singleton, eq_comm (a := sym)]; split_ifs <;> simp_all
  | node l r ihl ihr => simp [encTable_node, leafSyms, ihl, ihr, or_comm]

/-- A symbol of nonzero weight has a codeword in the tree built. -/
theorem exists_codeword_of_weight {w : List (Byte × Nat)} (hw : (w.map (·.1)).Nodup) {sym : Byte} {n : Nat}
    (hmem : (sym, n) ∈ w) (hn : 0 < n) : ∃ t code, buildTree w = some t ∧ encTable t sym = some code := by
  have hqueued : (sym, n) ∈ w.filter fun p => 0 < p.2 := List.mem_filter.2 ⟨hmem, decide_eq_true hn⟩
  cases hb : buildTree w with
  | none =>
    rw [buildTree_eq_none, leafQueue, List.map_eq_nil_iff] at hb
    rw [hb] at hqueued
    cases hqueued
  | some t =>
    obtain ⟨root, rfl, hperm⟩ := exists_root_of_buildTree hw hb
    have hroot : sym ∈ leafSyms root := hperm.mem_iff.2 (List.mem_map_of_mem hqueued)
    have hleaf : sym ∈ leafSyms (withInternalRoot root) := by
      cases root with
      | leaf x => exact List.mem_append_left _ hroot
      | node l r => exact hroot
    obtain ⟨code, hcode⟩ := Option.isSome_iff_exists.1 (isSome_encTable.2 hleaf)
    exact ⟨_, code, rfl, hcode⟩

theorem nodup_symbols : ((List.range 256).map (BitVec.ofNat 8)).Nodup := by
  refine List.nodup_range.map_on fun x hx y hy h => ?_
  have := congrArg BitVec.toNat h
  simp only [BitVec.toNat_ofNat] at this
  have := List.mem_range.1 hx
  have := List.mem_range.1 hy
  omega

section
variable {c : CountMatrix} (hc : CountMatrix.wf c) {prev sym : Byte} (h : 0 < (countCell c prev sym).toNat)
include hc h

/-- A symbol counted in a context has a codeword in the context's tree of BUILD.M. -/
theorem exists_codeword_markovSlots :
    ∃ t code, treeFor .markov (markovSlots c) prev = some t ∧ encTable t sym = some code := by
  rw [treeFor, if_pos rfl, slotTree_markovSlots hc]
  refine exists_codeword_of_weight ?_ (mem_rowList.2 rfl) h
  rw [rowList, List.map_map]
  exact nodup_symbols

/-- It has one in BUILD.P's tree: its column's sum is not 0. -/
theorem exists_codeword_plainSlots :
    ∃ t code, treeFor .plain (plainSlots c) prev = some t ∧ encTable t sym = some code := by
  rw [treeFor, if_neg (by decide), slotTree_plainSlots, if_pos rfl]
  have hcolumn : (countCell c prev sym).toNat ≤ columnSum c sym.toNat := by
    rw [columnSum_eq_sum hc sym.isLt, countCell, countKey]
    exact Finset.single_le_sum (f := fun ctx => (Sparse.get (256 * ctx + sym.toNat) c).toNat) (fun _ _ => Nat.zero_le _)
      (Finset.mem_range.2 prev.isLt)
  have hmem : (sym, columnSum c sym.toNat) ∈ plainWeights c :=
    List.mem_map.2 ⟨sym.toNat, List.mem_range.2 sym.isLt, by simp⟩
  refine exists_codeword_of_weight ?_ hmem (Nat.lt_of_lt_of_le h hcolumn)
  rw [plainWeights, List.map_map]
  exact nodup_symbols

end

/-! ## Codewords of a list of bytes -/

theorem exists_codeBits {kind : TableKind} {slots : List (Nat × Tree)} {prev : Byte} {bs : List Byte}
    (h : ∀ p ∈ (prev :: bs).zip bs, ∃ t code, treeFor kind slots p.1 = some t ∧ encTable t p.2 = some code) :
    ∃ bits, codeBits kind slots prev bs = some bits := by
  induction bs generalizing prev with
  | nil => exact ⟨[], rfl⟩
  | cons b bs ih =>
    obtain ⟨⟨t, code, ht, hcode⟩, hrest⟩ := List.forall_mem_cons.1 (List.zip_cons_cons ▸ h)
    obtain ⟨rest, hbits⟩ := ih hrest
    exact ⟨_, codeBits_cons.2 ⟨t, code, rest, ht, hcode, hbits, rfl⟩⟩

/-- A decoder accepts the codewords as spelling the bytes. -/
theorem spells_of_codeBits {kind : TableKind} {slots : List (Nat × Tree)} {prev : Byte} {bs : List Byte} {bits : List Bool}
    (h : codeBits kind slots prev bs = some bits) : Spells kind slots prev bs bits := by
  induction bs generalizing prev bits with
  | nil => cases h; rfl
  | cons b bs ih =>
    obtain ⟨t, code, rest, ht, hcode, hrest, rfl⟩ := codeBits_cons.1 h
    exact ⟨t, code, rest, ht, treeAt_of_encTable hcode, rfl, ih hrest⟩

end Sys2Proof.Machine
end

section
/-! SUPPORT. The round trip (44_codec.md R349): COUNT and a BUILD lead to a state ready for COMPRESS with a codeword for
every SRC byte, and the file that COMPRESS writes is one that DECOMPRESS decodes to those bytes. -/

namespace Sys2Proof.Machine

variable {s c b : State}

/-! ## Training -/

/-- COUNT from an empty matrix, in an undisturbed region, counts every pair that occurs. -/
theorem exec_count_next (hcounts : s.counts = []) (herr : s.err = false) (hq : QuietSrc s s.latch.srcBase s.latch.srcLen)
    (h : exec .count s = .next c) :
    ∃ m, CountMatrix.wf m ∧ c = complete { s with counts := m, result := s.latch.srcLen }
      ∧ ∀ p ∈ (0x20#8 :: sourceBytes s).zip (sourceBytes s), 0 < (countCell m p.1 p.2).toNat := by
  have hwf : CountMatrix.wf s.counts := hcounts ▸ countMatrix_wf_nil
  obtain ⟨m, ⟨e, -, hm⟩, hcells⟩ := countAddsPairs s hwf hq
  have hnext := Host.Outcome.next.inj (h.symm.trans hm)
  have hok : c.err = false := by rw [hnext]; exact herr
  cases exec_result h with
  | rejected | countRefused => cases hok
  | counted m' hloop =>
    obtain rfl : m' = m := congrArg State.counts hnext
    refine ⟨m', countLoop_wf hwf hloop, rfl, fun (ctx, sym) hp => ?_⟩
    have hcell := hcells ctx sym
    have hoccurs := List.count_pos_iff.2 hp
    simp only
    omega
  | _ => contradiction

/-- The table store that a BUILD makes of the counts (R215, R216). -/
def BuiltFrom (m : CountMatrix) (kind : TableKind) (slots : List (Nat × Tree)) : Prop :=
  (kind = .plain ∧ slots = plainSlots m) ∨ (kind = .markov ∧ slots = markovSlots m)

theorem exec_build_next {build : Instr} (hbuild : build = .buildP ∨ build = .buildM) (h : exec build c = .next b) :
    ∃ kind slots, BuiltFrom c.counts kind slots ∧ b = complete { c with kind := kind, slots := slots } := by
  rcases hbuild with rfl | rfl
  · exact ⟨_, _, .inl ⟨rfl, rfl⟩, (finish_next.1 h).symm⟩
  · exact ⟨_, _, .inr ⟨rfl, rfl⟩, (finish_next.1 h).symm⟩

namespace BuiltFrom

variable {m : CountMatrix} {kind : TableKind} {slots : List (Nat × Tree)} (h : BuiltFrom m kind slots)
include h

theorem kind_ne_none : kind ≠ .none := by
  rcases h with ⟨rfl, -⟩ | ⟨rfl, -⟩ <;> decide

variable (hm : CountMatrix.wf m)
include hm

theorem tablesOk {y : State} (hkind : y.kind = kind) (hslots : y.slots = slots) : TablesOk y := by
  have hbuilt : TablesOk { y with counts := m, kind := kind, slots := slots } := by
    rcases h with ⟨rfl, rfl⟩ | ⟨rfl, rfl⟩
    · exact tablesOk_buildP { y with counts := m }
    · exact tablesOk_buildM (s := { y with counts := m }) hm
  subst hkind hslots
  exact hbuilt

/-- Every byte counted in its context has a codeword there. -/
theorem exists_codeBits {prev : Byte} {bs : List Byte}
    (hpairs : ∀ p ∈ (prev :: bs).zip bs, 0 < (countCell m p.1 p.2).toNat) :
    ∃ bits, codeBits kind slots prev bs = some bits := by
  refine Machine.exists_codeBits fun p hp => ?_
  rcases h with ⟨rfl, rfl⟩ | ⟨rfl, rfl⟩
  · exact exists_codeword_plainSlots hm (hpairs p hp)
  · exact exists_codeword_markovSlots hm (hpairs p hp)

end BuiltFrom

/-- The commands keep the session, the regions and memory, and leave no race; so the codec's regions stay undisturbed. -/
theorem codecReady_trained (hm : s.bb.mode = .closed) (hsrc : QuietSrc s s.latch.srcBase s.latch.srcLen)
    (hdst : QuietDst s s.latch.dstBase s.latch.dstCap) (ho : regionsOverlap s.latch = false) (m : CountMatrix) (result : Word)
    {kind : TableKind} (hk : kind ≠ .none) (slots : List (Nat × Tree)) :
    CodecReady (complete { complete { s with counts := m, result := result } with kind := kind, slots := slots }) := by
  obtain ⟨hsrcFits, hsrcPlain, hothers⟩ := hsrc
  obtain ⟨hdstFits, hdstPlain, -, hwf⟩ := hdst
  refine ⟨hm, hk, ⟨hsrcFits, hsrcPlain, fun cell hcell => hothers cell ?_⟩, ⟨hdstFits, hdstPlain, ?_, hwf⟩, ho⟩
  · rcases List.mem_append.1 hcell with hstaged | hrace
    · exact List.mem_append_left _ hstaged
    · cases hrace
  · simp [liveDstRaced, hm]

/-! ## The file, read back -/

/-- The bits that a file holds after its header are the first of its data bits. -/
theorem isPrefix_drop_regionBits {z : State} {base : Word} {bits : List Bool} (h : HoldsBits z.memory base 1 bits) :
    bits <+: (regionBits z base (1 + bytesFor bits.length)).drop 8 := by
  rw [List.prefix_iff_getElem?]
  intro k hk
  have hbyte := h (k / 8) (by rw [bytesFor]; omega)
  have hmod : k % 8 < 8 := Nat.mod_lt _ (by decide)
  rw [List.getElem?_drop, regionBits_eq_map, List.getElem?_map, List.getElem?_range (by rw [bytesFor]; omega),
    Option.map_some, show (8 + k) / 8 = 1 + k / 8 by omega, show (8 + k) % 8 = k % 8 by omega, readByte, hbyte,
    streamBit_window _ _ hmod, Nat.div_add_mod, List.getD_eq_getElem _ _ hk]

/-- A SRC region that holds what COMPRESS wrote holds a file of its codeword bits. -/
theorem holdsFile_of_compressed {y z : State} {base : Word} {bits : List Bool}
    (hlen : y.latch.srcLen.toNat = 1 + bytesFor bits.length)
    (hbytes : sourceBytes y = regionBytes z base (1 + bytesFor bits.length))
    (hheader : Sparse.get base.toNat z.memory
      = BitVec.ofNat 8 ((if y.kind = .plain then 0x38 else 0x30) + (8 - bits.length % 8) % 8))
    (hbits : HoldsBits z.memory base 1 bits) : HoldsFile y bits where
  length := hlen
  header := by
    have hfirst := congrArg (·[0]?) hbytes
    simp only [sourceBytes, regionBytes, List.getElem?_map] at hfirst
    rw [List.getElem?_range (by omega), List.getElem?_range (by omega)] at hfirst
    rw [← hheader]
    simpa only [regionAddr_zero, Option.map_some, Option.some.injEq, readByte] using hfirst
  data := by
    have := isPrefix_drop_regionBits hbits
    rwa [regionBits, ← hbytes] at this

/-- DECOMPRESS of such a file puts the bytes that its bits spell in the DST region. -/
theorem exists_decompressed {y : State} (h : CodecReady y) (hs : TablesOk y) {out : List Byte} {bits : List Bool}
    (hfile : HoldsFile y bits) (hspell : Spells y.kind y.slots 0x20#8 out bits) (hfit : out.length ≤ y.latch.dstCap.toNat) :
    ∃ t, CompletesTo (exec .decompress y) y t ∧ t.outLen = BitVec.ofNat 32 out.length
      ∧ regionBytes t y.latch.dstBase out.length = out := by
  obtain ⟨m, result, hdone, -, hbytes, -⟩ := decompressDecodesItsFile y out bits h hs hspell hfit hfile.length hfile.header
    hfile.data
  refine ⟨_, hdone, rfl, List.ext_getElem (by simp [regionBytes]) fun k _ hk => ?_⟩
  simp only [regionBytes, List.getElem_map, List.getElem_range, readByte]
  rw [hbytes k hk, List.getD_eq_getElem _ _ hk]

/-- Settles O43: every byte has a codeword, so COMPRESS writes the file of the codewords or runs out of room, and the
decoder reads its data bits as the bytes. -/
theorem codecRoundTrip : Obligations.CodecRoundTrip := by
  intro s c b z build hbuild hcounts herr hm hsrc hdst ho hcount hbuilt hcompress
  obtain ⟨m, hwf, rfl, hpairs⟩ := exec_count_next hcounts herr hsrc hcount
  obtain ⟨kind, slots, htable, rfl⟩ := exec_build_next hbuild hbuilt
  have hready := codecReady_trained hm hsrc hdst ho m s.latch.srcLen htable.kind_ne_none slots
  obtain ⟨bits, hbits⟩ := htable.exists_codeBits hwf hpairs
  rcases Nat.lt_or_ge s.latch.dstCap.toNat (1 + bytesFor bits.length) with hlong | hfit
  · obtain ⟨info, t, hoverflow⟩ := exec_compress_overflow hready hbits hlong
    have hz := fail_next.1 (hoverflow.symm.trans hcompress)
    subst hz
    exact ⟨fun _ => rfl, fun h => by cases h⟩
  · obtain ⟨mem, result, ⟨e, -, hdone⟩, -, hheader, hheld, -⟩ := compressCompletes _ bits hready hbits hfit
    have hz := Host.Outcome.next.inj (hdone.symm.trans hcompress)
    subst hz
    refine ⟨fun h => ?_, fun _ y hy hkind hslots hbase hlen hbytes hroom => ?_⟩
    · rw [show s.err = true from h] at herr
      cases herr
    · have hsize : y.latch.srcLen.toNat = 1 + bytesFor bits.length := by
        rw [hlen]
        exact Nat.mod_eq_of_lt (Nat.lt_of_le_of_lt hfit s.latch.dstCap.isLt)
      rw [← hlen, hsize] at hbytes
      have hfile := holdsFile_of_compressed hsize hbytes (hkind ▸ hheader) hheld
      have hspell : Spells y.kind y.slots 0x20#8 (sourceBytes s) bits := by
        rw [hkind, hslots]
        exact spells_of_codeBits hbits
      obtain ⟨t, ht, hout, hread⟩ := exists_decompressed hy (htable.tablesOk hwf hkind hslots) hfile hspell
        (by rwa [length_sourceBytes])
      rw [length_sourceBytes] at hout hread
      exact ⟨t, ht, by rw [hout, BitVec.ofNat_toNat, BitVec.setWidth_eq], hread⟩

end Sys2Proof.Machine
end

section
/-! SUPPORT. The life of a command (45_engine_control.md): its acceptance and the step that runs it, that it ends in one of two
ways, and the commands of no sub-block; and the statements about them. -/

namespace Sys2Proof.Machine

variable {s t : State} {i : Instr}

/-! ## The step that runs a command (R31, R380) -/

/-- The engine's turn on an accepted command executes it. -/
theorem engineTurn_of_running (hs : s.seq = .running) (hd : decode s.cmd = .instr i) : engineTurn s = exec i s := by
  simp only [engineTurn, hs, runCommand, hd]

/-- With no event to come the engine moves. -/
theorem step_of_noInputs (h : s.env.inputs = []) : step s = engineTurn s := by
  simp only [step, h]

/-- The next event takes place, and is no longer to come. -/
theorem step_of_inputs {e : Event} {es : List Event} (h : s.env.inputs = e :: es) :
    step s = takeEvent e (withInputs es s) := by
  simp only [step, h]

/-- The state with the word `w` placed is that of its acceptance, with an engine turn to come. -/
theorem withFetchWord_toNat (s : State) (w : Word) :
    s.withFetchWord 32 w.toNat = withInputs (.engine :: s.env.inputs) (latchCommand w s) := by
  rw [State.withFetchWord, Nat.mod_eq_of_lt w.isLt, BitVec.ofNat_toNat, BitVec.setWidth_eq]

/-- Settles O6: an engine turn, first of the events to come or with none to come, runs the command in `CMD`. -/
theorem stepRunsTheDecodedCommand : Obligations.StepRunsTheDecodedCommand := by
  refine ⟨fun s i hs hd => ⟨fun hin => ?_, fun es hin => ?_⟩, fun s i hi => ?_⟩
  · rw [step_of_noInputs hin, engineTurn_of_running hs hd]
  · rw [step_of_inputs hin]
    exact engineTurn_of_running hs hd
  · rw [withFetchWord_toNat, step_of_inputs rfl]
    exact engineTurn_of_running (s := latchCommand (encode i) s) rfl (decodeOfEncode i hi)

/-! ## Acceptance (R380) -/

/-- A host write of a command word while no command runs is its acceptance. -/
theorem hostWrite_cmd (hs : s.seq = .idle) (w : Word) : hostWrite 0x0C w s = .next (acceptCommand w s) :=
  hostWrite_effect (r := .cmd) (by decide) (by simp [hs]) (.inl hs) w

/-- Of the registers that a running command leaves open to writes (R58) none is CMD or a region register. -/
theorem regWrite_keeps_command {r : HostReg} (hr : discardedWhileBusy r = false) (v : Word) :
    (regWrite v s r).latch = s.latch ∧ (regWrite v s r).cmd = s.cmd := by
  cases r with
  | cmd | srcAddr | srcLen | dstAddr | dstCap | countIdx | countData | cwLen | cwBits => cases hr
  | _ => exact ⟨rfl, rfl⟩

/-- An event that leaves the command running leaves its word and its latched regions. -/
theorem EventResult.keeps_command (h : EventResult s t) (hs : s.seq = .running) (ht : t.seq = .running) :
    t.latch = s.latch ∧ t.cmd = s.cmd := by
  cases h with
  | written r v hr => exact regWrite_keeps_command (hr.resolve_left (by simp [hs])) v
  | resetAsserted | resetReleased | initialised | illegal => cases ht
  | ran _ _ _ hr => rw [hr.seq_idle] at ht; cases ht
  | _ => exact ⟨rfl, rfl⟩

/-- An acceptance that leaves the command running has latched it, and ended nothing. -/
theorem acceptCommand_running {w : Word} (h : (acceptCommand w s).seq = .running) :
    acceptCommand w s = latchCommand w s := by
  rcases acceptCommand_cases w s with ⟨i, -, ha⟩ | ⟨why, -, ha⟩
  · exact ha
  · rw [ha] at h; cases h

/-- A command just accepted reads what memory held at its acceptance (R94): no race is left, and no staged byte is another. -/
theorem srcByte_latchCommand {w base : Word} {off : Nat} (hst : ∀ c ∈ s.bb.staged, c.1 ≠ (regionAddr base off).toNat)
    (hr : refusesRead s (regionAddr base off) = false) (k : Nat) :
    srcByte (latchCommand w s) base k off = some (readByte s (regionAddr base off)) := by
  have hothers : commandOthers (latchCommand w s) = s.bb.staged := List.append_nil _
  have hr : refusesRead (latchCommand w s) (regionAddr base off) = false := hr
  simp only [srcByte, regionByte, hothers, hr, Bool.false_eq_true, if_false, observedByte_of_notMem hst]
  rfl

/-- Settles O7: the two branches of acceptance, the engine's turn, the ways an event can go, and the reads of a command just
accepted. -/
theorem commandAcceptance : Obligations.CommandAcceptance := by
  refine ⟨fun s w i hs hd => ?_, fun s w why hs hd => ?_, fun s i hs hd => engineTurn_of_running hs hd,
    fun s t e hs hl h ht => ?_, fun s t w base k off hs h ht hst hr => ?_⟩
  · rw [hostWrite_cmd hs, acceptCommand, hd]
    rfl
  · refine ⟨(raiseError .illegalCmd 0#32 (latchCommand w s)).env, ⟨rfl, rfl, rfl⟩, ?_⟩
    rw [hostWrite_cmd hs, acceptCommand, hd, hs]
    rfl
  · have hres := takeEvent_result h
    exact ⟨hres.latchOk hl, hres.keeps_command hs ht⟩
  · rw [hostWrite_cmd hs] at h
    obtain rfl := Host.Outcome.next.inj h
    rw [acceptCommand_running ht]
    exact srcByte_latchCommand hst hr k

/-! ## The two ends of a command (R384) -/

/-- A command that ends has completed or entered an error. -/
theorem CommandResult.done_or_err (h : CommandResult s i t) : t.done = true ∨ t.err = true := by
  cases h with
  | rejected | countRefused | deserializeFailed | outputFailed | openReadRefused | writeRefused | readRefused =>
    exact .inr rfl
  | _ => exact .inl rfl

/-- The outcome is a next state: the command ends. -/
def Ends (o : Out) : Prop := ∃ t, o = .next t

theorem ends_finish (s : State) : Ends (finish s) := ⟨_, rfl⟩

theorem ends_fail (code : ErrCode) (info : Word) (s : State) : Ends (fail code info s) := ⟨_, rfl⟩

theorem ends_finishOutput (cells : List Host.Cell) (outLen result : Word) (s : State) :
    Ends (finishOutput cells outLen result s) := by
  rcases finishOutput_cases cells outLen result s with ⟨-, he⟩ | ⟨a, -, he⟩ <;> rw [he]
  · exact ends_finish _
  · exact ends_fail ..

theorem ends_failOutput (code : ErrCode) (info : Word) (written : Nat) (s : State) :
    Ends (failOutput code info written s) := by
  rcases failOutput_cases code info written s with he | ⟨a, -, he⟩ <;> rw [he] <;> exact ends_fail ..

theorem ends_takeFlush (mode : BbMode) (s : State) : Ends (takeFlush mode s) := by
  rcases takeFlush_cases mode s with ⟨a, -, he⟩ | ⟨-, he⟩ <;> rw [he]
  · exact ends_fail ..
  · exact ends_finish _

theorem ends_pushCommand (n : Nat) (w : Writer) (bits : List Bool) (s : State) : Ends (pushCommand n w bits s) := by
  rcases pushCommand_cases n w bits s with ⟨-, he⟩ | ⟨-, -, he⟩ | ⟨-, -, he⟩ <;> rw [he]
  · exact ends_fail ..
  · exact ends_fail ..
  · rcases takePush_cases w bits s with ⟨a, -, he⟩ | ⟨-, he⟩ <;> rw [he]
    · exact ends_fail ..
    · exact ends_finish _

theorem ends_takeRead (value : Option Word) (n off : Nat) (s : State) : Ends (takeRead value n off s) := by
  rcases takeRead_cases value n off s with ⟨a, -, he⟩ | ⟨-, he⟩ | ⟨v, -, he⟩ <;> rw [he]
  · exact ends_fail ..
  · exact ends_fail ..
  · exact ends_finish _

section
variable (hw : ∀ w ∈ s.env.params.windows, w.kind ≠ .device)
include hw

/-- With no window with side effects no region touches one. -/
theorem touchesDevice_eq_false (base len : Word) : touchesDevice s base len = false := by
  simp only [touchesDevice, List.any_eq_false]
  intro w hmem
  simp [hw w hmem]

theorem codecDevice_eq_false : codecDevice s = false := by
  simp only [codecDevice, touchesDevice_eq_false hw, Bool.or_false]

theorem exec_count_ends : Ends (exec .count s) := by
  simp only [exec, execCount, touchesDevice_eq_false hw, Bool.false_eq_true, if_false]
  split_ifs
  · exact ends_fail ..
  · split
    · exact ends_fail ..
    · split
      · exact ends_fail ..
      · exact ends_finish _

theorem exec_serialize_ends : Ends (exec .serialize s) := by
  simp only [exec, execSerialize, touchesDevice_eq_false hw, Bool.false_eq_true, if_false]
  split_ifs
  · exact ends_fail ..
  · exact ends_fail ..
  · exact ends_fail ..
  · exact ends_fail ..
  · split
    · exact ends_failOutput ..
    · exact ends_finishOutput ..

theorem exec_deserialize_ends : Ends (exec .deserialize s) := by
  simp only [exec, execDeserialize, touchesDevice_eq_false hw, Bool.false_eq_true, if_false]
  split_ifs
  · exact ends_fail ..
  · exact ends_fail ..
  · split
    · exact ends_fail ..
    · split
      · exact ends_fail ..
      · exact ends_fail ..
      · exact ends_finish _

theorem exec_compress_ends : Ends (exec .compress s) := by
  simp only [exec, execCompress, codecDevice_eq_false hw, Bool.false_eq_true, if_false]
  split
  · exact ends_fail ..
  · split_ifs
    · exact ends_fail ..
    · split
      · exact ends_fail ..
      · split
        · exact ends_failOutput ..
        · exact ends_failOutput ..
        · exact ends_finishOutput ..

theorem exec_decompress_ends : Ends (exec .decompress s) := by
  simp only [exec, execDecompress, codecDevice_eq_false hw, Bool.false_eq_true, if_false]
  split
  · exact ends_fail ..
  · split_ifs
    · exact ends_fail ..
    · split
      · exact ends_fail ..
      · split
        · exact ends_fail ..
        · split
          · exact ends_fail ..
          · split
            · exact ends_failOutput ..
            · exact ends_failOutput ..
            · exact ends_finishOutput ..

theorem exec_bbOpenWrite_ends : Ends (exec .bbOpenWrite s) := by
  simp only [exec, execBbOpenWrite, touchesDevice_eq_false hw, Bool.false_eq_true, if_false]
  split_ifs
  · exact ends_fail ..
  · exact ends_fail ..
  · exact ends_finish _

theorem exec_bbOpenRead_ends : Ends (exec .bbOpenRead s) := by
  simp only [exec, execBbOpenRead, touchesDevice_eq_false hw, Bool.false_eq_true, if_false]
  split_ifs
  · exact ends_fail ..
  · exact ends_fail ..
  · split
    · exact ends_fail ..
    · exact ends_finish _

end

theorem exec_getEncoding_ends (prev sym : Byte) (s : State) : Ends (exec (.getEncoding prev sym) s) := by
  simp only [exec, execGetEncoding]
  split
  · exact ends_fail ..
  · split
    · exact ends_fail ..
    · exact ends_finish _

theorem exec_lookup_ends (prev byte : Byte) (s : State) : Ends (exec (.lookup prev byte) s) := by
  simp only [exec, execLookup]
  split
  · exact ends_fail ..
  · exact ends_finish _

theorem exec_push_ends (hi : pushesBits i = true) (s : State) : Ends (exec i s) := by
  rw [exec_push hi]
  exact ends_pushCommand ..

theorem exec_bbClose_ends (s : State) : Ends (exec .bbClose s) := by
  simp only [exec, execBbClose]
  cases s.bb.mode with
  | closed => exact ends_fail ..
  | read => exact ends_finish _
  | write => exact ends_takeFlush ..

theorem exec_bbFlush_ends (s : State) : Ends (exec .bbFlush s) := by
  simp only [exec, execBbFlush]
  split_ifs
  · exact ends_fail ..
  · exact ends_takeFlush ..

/-- A read command ends in the error of a check, or in its read; BB_TRY_POP_BIT answers at the end of the stream too. -/
theorem exec_read_ends (hi : readsSession i = true) (s : State) : Ends (exec i s) := by
  cases i with
  | bbPeekBit | bbPopBit | bbPopByte | bbPopRest =>
    simp only [exec, execBbPeekBit, execBbPopBit, execBbPopByte, execBbPopRest]
    split_ifs
    · exact ends_fail ..
    · exact ends_fail ..
    · exact ends_takeRead ..
  | bbTryPopBit =>
    simp only [exec, execBbTryPopBit]
    split_ifs
    · exact ends_fail ..
    · exact ends_takeRead ..
    · exact ends_takeRead ..
  | _ => cases hi

/-- Every command ends where no region has side effects (I-SIDEEFFECT). -/
theorem exec_ends (hw : ∀ w ∈ s.env.params.windows, w.kind ≠ .device) (i : Instr) : Ends (exec i s) := by
  cases i with
  | nop | softReset | clearCounts | buildP | buildM | clearTable => exact ends_finish _
  | count => exact exec_count_ends hw
  | serialize => exact exec_serialize_ends hw
  | deserialize => exact exec_deserialize_ends hw
  | compress => exact exec_compress_ends hw
  | decompress => exact exec_decompress_ends hw
  | getEncoding prev sym => exact exec_getEncoding_ends prev sym s
  | lookup prev byte => exact exec_lookup_ends prev byte s
  | bbOpenWrite => exact exec_bbOpenWrite_ends hw
  | bbOpenRead => exact exec_bbOpenRead_ends hw
  | bbClose => exact exec_bbClose_ends s
  | bbFlush => exact exec_bbFlush_ends s
  | bbPushBit | bbPushByte | bbPushDesc => exact exec_push_ends rfl s
  | bbPeekBit | bbPopBit | bbTryPopBit | bbPopByte | bbPopRest => exact exec_read_ends rfl s

/-- Settles O8: a command that ends leaves the status bits in their form with DONE or ERR set, and every command ends. -/
theorem everyCommandEndsOnce : Obligations.EveryCommandEndsOnce := by
  refine ⟨fun i s t hd he hc hi h => ?_, fun i s hw => exec_ends hw i⟩
  have hr := exec_result h
  obtain ⟨hnot, hclear, hcode, hinv, -⟩ := hr.statusOk hd he hc hi
  refine ⟨hr.seq_idle, hr.done_or_err.imp (fun hdone => ?_) fun herr => ?_⟩
  · have herr : t.err = false := by simpa [hdone] using hnot
    exact ⟨hdone, herr, hclear herr⟩
  · exact ⟨by simpa [herr] using hnot, herr, hcode herr, hinv⟩

/-! ## The commands of no sub-block (R382, R383, R213, R263) -/

/-- Settles O9: each of the three finishes at once. -/
theorem nopAndClearsComplete : Obligations.NopAndClearsComplete := by
  intro s
  have hkeep := keepsEnv_refl s.env
  exact ⟨completesTo_finish hkeep, ⟨[], completesTo_finish hkeep, fun _ _ => rfl⟩,
    ⟨[], completesTo_finish hkeep, fun _ => rfl⟩⟩

section
variable (hs : SessionOk s.bb) (hm : s.bb.mode = .write)
include hs hm

/-- A staged byte is the window of `WS` at an offset below `BB_BYTEPOS`. -/
theorem mem_staged {c : Host.Cell} (hc : c ∈ s.bb.staged) :
    ∃ k < s.bb.bytePos.toNat, c = cellAt s.bb.dstBase k (window s.bb.ws (8 * k)) := by
  obtain ⟨-, -, -, -, hwrite⟩ := hs
  obtain ⟨-, -, -, hle, -, hstaged⟩ := hwrite hm
  rw [hstaged] at hc
  obtain ⟨k, hk, rfl⟩ := List.mem_map.1 hc
  have hk := (List.mem_range'_1.1 hk).2
  exact ⟨k, by rw [drainedCount] at hk; omega, rfl⟩

/-- No two staged bytes have one address: they are the first that a flush would write. -/
theorem staged_distinct : s.bb.staged.Pairwise fun c d => c.1 ≠ d.1 :=
  (advances_flush hs hm).written_distinct (written := s.bb.staged) rfl

/-- An abandoned session leaves each of its bytes as it was or as it was pushed (R383, R88 (c)). -/
theorem get_abandonedCells (hq : QuietDst s s.bb.dstBase s.bb.dstCap) {k : Nat} (hk : k < s.bb.bytePos.toNat) :
    Sparse.get (regionAddr s.bb.dstBase k).toNat (writeCells s (abandonedCells s))
        = readByte s (regionAddr s.bb.dstBase k)
      ∨ Sparse.get (regionAddr s.bb.dstBase k).toNat (writeCells s (abandonedCells s)) = window s.bb.ws (8 * k) := by
  have ⟨_, _, _, hwf⟩ := hq
  have hadv := advances_flush hs hm
  have hlt {j : Nat} (hj : j < s.bb.bytePos.toNat) : j < bytePosAfter s .bbFlush :=
    Nat.lt_of_lt_of_le hj (Nat.le_add_right ..)
  by_cases hc : ∃ c ∈ abandonedCells s, c.1 = (regionAddr s.bb.dstBase k).toNat
  · obtain ⟨c, hc, hck⟩ := hc
    obtain ⟨j, hj, rfl⟩ := mem_staged hs hm (List.mem_filter.1 hc).1
    obtain rfl := (hadv.address_inj (hlt hj) (hlt hk)).1 hck
    exact .inr (get_writeCells_of_mem hwf.1 ((staged_distinct hs hm).filter _) hc (hadv.notMem_dstRaced hq (hlt hk)))
  · exact .inl (get_foldl_writeCell_of_notMem s _ s.memory fun c hmem he => hc ⟨c, hmem, he⟩)

end

/-- Abandoning a session changes only bytes below `BB_BYTEPOS`, and none without a write session. -/
theorem sameOutside_abandonSession (hs : SessionOk s.bb) :
    SameOutside s (abandonSession s) s.bb.dstBase s.bb.bytePos.toNat := by
  unfold abandonSession
  split_ifs with hm
  · refine sameOutside_writeCells fun c hc => ?_
    obtain ⟨k, hk, rfl⟩ := mem_staged hs hm (List.mem_filter.1 hc).1
    exact ⟨k, hk, rfl⟩
  · exact fun _ _ => rfl

/-- Settles O10: the registers are those of the reset, and the memory that of the abandoned session. -/
theorem softResetCompletes : Obligations.SoftResetCompletes := by
  refine fun s => ⟨abandonSession s, ?_, fun hm => if_neg hm, sameOutside_abandonSession, fun hs hq k hk => ?_⟩
  · exact completesTo_finish (t := softResetState s) ⟨rfl, rfl, rfl⟩
  · by_cases hm : s.bb.mode = .write
    · rw [abandonSession, if_pos hm]
      exact get_abandonedCells hs hm hq hk
    · rw [abandonSession, if_neg hm]
      exact .inl rfl

end Sys2Proof.Machine
end

section
/-! SUPPORT. What BUS_ERROR carries (60_exceptions.md R409): an address the platform refuses, of a latched region of the command
or of its session. Said of every command, over each of its ends. -/

namespace Sys2Proof.Machine

variable {s : State}

/-! ## Refused addresses of the regions -/

/-- The platform refuses reads of `a` in a SRC region in use, or writes of `a` in a DST region in use. -/
def RefusedInRegion (s : State) (a : Word) : Prop :=
  (refusesRead s a = true
    ∧ (inRegion s.latch.srcBase s.latch.srcLen a.toNat = true
      ∨ (s.bb.mode = .read ∧ inRegion s.bb.srcBase s.bb.srcLen a.toNat = true)))
  ∨ (refusesWrite s a = true
    ∧ (inRegion s.latch.dstBase s.latch.dstCap a.toNat = true
      ∨ (s.bb.mode = .write ∧ inRegion s.bb.dstBase s.bb.dstCap a.toNat = true)))

theorem mem_refusedWrites {base a : Word} {n : Nat} :
    a ∈ refusedWrites s base n ↔ refusesWrite s a = true ∧ ∃ k < n, regionAddr base k = a := by
  simp only [refusedWrites, List.mem_filter, List.mem_map, List.mem_range]
  exact And.comm

/-- The refused cells of bytes of a region are refused writes of it. -/
theorem mem_refusedWrites_of_refusedCells {base a : Word} {n : Nat} {cells : List Host.Cell}
    (hc : ∀ c ∈ cells, ∃ k < n, c.1 = (regionAddr base k).toNat) (ha : a ∈ refusedCells s cells) :
    a ∈ refusedWrites s base n := by
  obtain ⟨hr, c, hcm, rfl⟩ := mem_refusedCells.1 ha
  obtain ⟨k, hk, hck⟩ := hc c hcm
  exact mem_refusedWrites.2 ⟨hr, k, hk, by simp [hck]⟩

theorem refuses_of_refusedReads {base len a : Word} (hf : regionFits base len = true) (ha : a ∈ refusedReads s base len) :
    refusesRead s a = true ∧ inRegion base len a.toNat = true := by
  obtain ⟨hr, k, hk, rfl⟩ := mem_refusedReads.1 ha
  exact ⟨hr, inRegion_regionAddr hf hk⟩

theorem refuses_of_refusedWrites {base len a : Word} {n : Nat} (hf : regionFits base len = true) (hn : n ≤ len.toNat)
    (ha : a ∈ refusedWrites s base n) : refusesWrite s a = true ∧ inRegion base len a.toNat = true := by
  obtain ⟨hr, k, hk, rfl⟩ := mem_refusedWrites.1 ha
  exact ⟨hr, inRegion_regionAddr hf (Nat.lt_of_lt_of_le hk hn)⟩

theorem RefusedInRegion.of_latchedRead {a : Word} (hf : regionFits s.latch.srcBase s.latch.srcLen = true)
    (ha : a ∈ refusedReads s s.latch.srcBase s.latch.srcLen) : RefusedInRegion s a :=
  have ⟨hr, hin⟩ := refuses_of_refusedReads hf ha
  .inl ⟨hr, .inl hin⟩

theorem RefusedInRegion.of_sessionRead {a : Word} (hm : s.bb.mode = .read) (hs : SessionOk s.bb)
    (ha : a ∈ refusedReads s s.bb.srcBase s.bb.srcLen) : RefusedInRegion s a :=
  have ⟨hr, hin⟩ := refuses_of_refusedReads hs.1 ha
  .inl ⟨hr, .inr ⟨hm, hin⟩⟩

theorem RefusedInRegion.of_latchedWrite {a : Word} {n : Nat} (hf : regionFits s.latch.dstBase s.latch.dstCap = true)
    (hn : n ≤ s.latch.dstCap.toNat) (ha : a ∈ refusedWrites s s.latch.dstBase n) : RefusedInRegion s a :=
  have ⟨hr, hin⟩ := refuses_of_refusedWrites hf hn ha
  .inr ⟨hr, .inl hin⟩

theorem RefusedInRegion.of_pendingCells {i : Instr} {a : Word} (h : Advances s i) (ha : a ∈ refusedCells s (pendingCells s i)) :
    RefusedInRegion s a := by
  obtain ⟨-, hf, -⟩ := h.session
  obtain ⟨hr, hin⟩ := refuses_of_refusedWrites hf le_rfl
    (mem_refusedWrites_of_refusedCells (fun c hc => h.mem_pendingCells hc) ha)
  exact .inr ⟨hr, .inr ⟨h.mode, hin⟩⟩

/-! ## Ends of a command -/

/-- Where the outcome of a command is BUS_ERROR, it carries such an address. -/
def BusErrorRefused (s : State) (o : Out) : Prop :=
  ∀ t, o = .next t → t.errCode = .busError → RefusedInRegion s t.errInfo

theorem busErrorRefused_fail {t : State} {code : ErrCode} {info : Word} (h : code = .busError → RefusedInRegion s info) :
    BusErrorRefused s (fail code info t) := by
  intro u hu
  rw [← fail_next.1 hu]
  exact h

theorem busErrorRefused_refused (r : Refusal) : BusErrorRefused s (.refused r) :=
  fun _ h => nomatch h

theorem busErrorRefused_finish {t : State} (h : t.errCode ≠ .busError) : BusErrorRefused s (finish t) := by
  intro u hu hc
  rw [← finish_next.1 hu] at hc
  exact absurd hc h

/-- A streaming error, the streaming refusal of a SRC byte among them. -/
theorem busErrorRefused_failOutput (hf : regionFits s.latch.dstBase s.latch.dstCap = true) {code : ErrCode} {info : Word}
    {written : Nat} (hw : written ≤ s.latch.dstCap.toNat) (h : code = .busError → RefusedInRegion s info) :
    BusErrorRefused s (failOutput code info written s) := by
  rcases failOutput_cases code info written s with he | ⟨a, ha, he⟩ <;> rw [he]
  · exact busErrorRefused_fail h
  · exact busErrorRefused_fail fun _ => .of_latchedWrite hf hw ha

/-! ## Streams (R90, R96) -/

theorem srcByte_eq_none {base : Word} {t off : Nat} :
    srcByte s base t off = none ↔ refusesRead s (regionAddr base off) = true := by
  simp [srcByte, regionByte]

theorem mem_refusedReads_of_srcByte {t off : Nat} (h : srcByte s s.latch.srcBase t off = none)
    (hoff : off < s.latch.srcLen.toNat) :
    regionAddr s.latch.srcBase off ∈ refusedReads s s.latch.srcBase s.latch.srcLen :=
  mem_refusedReads.2 ⟨srcByte_eq_none.1 h, off, hoff, rfl⟩

/-- A stream over the latched SRC region that stops, stops in an error of its own or at a refused byte of the region, with at most
`room` bytes placed. -/
def Stream.StopsInSrc (s : State) (room : Nat) {α : Type} : Stream α → Prop
  | .ok _ => True
  | .error code _ written => code ≠ .busError ∧ written ≤ room
  | .bus off written =>
    regionAddr s.latch.srcBase off ∈ refusedReads s s.latch.srcBase s.latch.srcLen ∧ written ≤ room

theorem Stream.StopsInSrc.bind {room : Nat} {α β : Type} {x : Stream α} {f : α → Stream β} (hx : x.StopsInSrc s room)
    (hf : ∀ a, (f a).StopsInSrc s room) : (x.bind f).StopsInSrc s room := by
  cases x with
  | ok a => exact hf a
  | error code info n => exact hx
  | bus off n => exact hx

/-! A table file. -/

theorem tableBit_stopsInSrc (pos : Nat) :
    (tableBit (srcByte s s.latch.srcBase) s.latch.srcLen.toNat pos).StopsInSrc s 0 := by
  unfold tableBit
  split_ifs with hlt
  · split
    · rename_i hnone
      exact ⟨mem_refusedReads_of_srcByte hnone (by omega), le_rfl⟩
    · trivial
  · exact ⟨nofun, le_rfl⟩

theorem tableSymbol_stopsInSrc (n pos : Nat) (acc : Byte) :
    (tableSymbol (srcByte s s.latch.srcBase) s.latch.srcLen.toNat n pos acc).StopsInSrc s 0 := by
  induction n generalizing pos acc with
  | zero => trivial
  | succ n ih => exact (tableBit_stopsInSrc pos).bind fun b => ih _ _

theorem readNode_stopsInSrc (fuel : Nat) (isRoot : Bool) (count pos : Nat) :
    (readNode (srcByte s s.latch.srcBase) s.latch.srcLen.toNat fuel isRoot count pos).StopsInSrc s 0 := by
  induction fuel generalizing isRoot count pos with
  | zero => exact ⟨nofun, le_rfl⟩
  | succ fuel ih =>
    unfold readNode
    split
    · exact ⟨nofun, le_rfl⟩
    · refine (tableBit_stopsInSrc pos).bind fun m => ?_
      cases m with
      | true =>
        cases isRoot with
        | true => exact ⟨nofun, le_rfl⟩
        | false => exact (tableSymbol_stopsInSrc 8 _ _).bind fun _ => trivial
      | false => exact (ih _ _ _).bind fun l => (ih _ _ _).bind fun r => trivial

theorem readSlots_stopsInSrc (cs : List Nat) (pos : Nat) (acc : List (Nat × Tree)) :
    (readSlots (srcByte s s.latch.srcBase) s.latch.srcLen.toNat cs pos acc).StopsInSrc s 0 := by
  induction cs generalizing pos acc with
  | nil => trivial
  | cons c cs ih =>
    refine (tableBit_stopsInSrc pos).bind fun present => ?_
    cases present with
    | true => exact (readNode_stopsInSrc 512 true 0 _).bind fun t => ih _ _
    | false => exact ih _ _

theorem readTable_stopsInSrc : (readTable (srcByte s s.latch.srcBase) s.latch.srcLen.toNat).StopsInSrc s 0 := by
  refine (tableBit_stopsInSrc 0).bind fun d => ?_
  cases d with
  | true => exact readSlots_stopsInSrc _ _ _
  | false => exact (readNode_stopsInSrc 512 true 0 1).bind fun _ => trivial

/-! The bytes of COUNT and COMPRESS. -/

theorem countLoop_error {rd : Nat → Nat → Option Byte} {n i off : Nat} {prev : Byte} {c : CountMatrix}
    (h : countLoop rd n i prev c = .error off) : off < i + n ∧ rd off off = none := by
  induction n generalizing i prev c with
  | zero => cases h
  | succ n ih =>
    unfold countLoop at h
    split at h
    · rename_i hnone
      cases h
      exact ⟨by omega, hnone⟩
    · obtain ⟨hoff, hnone⟩ := ih h
      exact ⟨by omega, hnone⟩

theorem compressLoop_stopsInSrc {cap n i : Nat} (whole : Nat) (prev : Byte) {w : Writer} (hw : w.Within cap)
    (hn : i + n ≤ s.latch.srcLen.toNat) :
    (compressLoop (srcByte s s.latch.srcBase) s cap whole n i prev w).StopsInSrc s (1 + cap) := by
  induction n generalizing i prev w with
  | zero => trivial
  | succ n ih =>
    have hwritten : 1 + w.out.length ≤ 1 + cap := Nat.add_le_add_left hw.length_out_le 1
    unfold compressLoop
    simp only
    split
    · rename_i hnone
      exact ⟨mem_refusedReads_of_srcByte hnone (by omega), hwritten⟩
    · split
      · exact ⟨nofun, hwritten⟩
      · split
        · exact ⟨nofun, hwritten⟩
        · split_ifs with hf
          · exact ih _ (hw.of_pushCode hf) (by omega)
          · exact ⟨nofun, hwritten⟩

/-! The bits of DECOMPRESS. -/

theorem dataBit_eq_none {n t j : Nat} (h : dataBit (srcByte s s.latch.srcBase) n t j = none) :
    1 + j / 8 < n ∧ srcByte s s.latch.srcBase t (1 + j / 8) = none := by
  unfold dataBit at h
  split_ifs at h with hj
  exact ⟨by omega, Option.map_eq_none_iff.1 h⟩

/-- Where a window cannot be read, `refusedDataByte` names a refused byte of the file. -/
theorem refusedDataByte_mem {c : Nat} (h : dataWindow (srcByte s s.latch.srcBase) s.latch.srcLen.toNat c = none) :
    regionAddr s.latch.srcBase (refusedDataByte (srcByte s s.latch.srcBase) c)
      ∈ refusedReads s s.latch.srcBase s.latch.srcLen := by
  obtain ⟨j, hcj, hj, hbit⟩ := readBits_none (Option.map_eq_none_iff.1 h)
  obtain ⟨hlen, hbyte⟩ := dataBit_eq_none hbit
  simp only [refusedDataByte, Option.isNone_iff_eq_none]
  split_ifs with hfirst
  · exact mem_refusedReads_of_srcByte hfirst (by omega)
  · have hnext : 1 + j / 8 ≠ 1 + c / 8 := fun he => hfirst (srcByte_eq_none.2 (srcByte_eq_none.1 (he ▸ hbyte)))
    rw [show 2 + c / 8 = 1 + j / 8 by omega]
    exact mem_refusedReads_of_srcByte hbyte hlen

theorem descend_stopsInSrc (total info : Nat) (t : Tree) (cur : Nat) :
    (descend (srcByte s s.latch.srcBase) s.latch.srcLen.toNat total info t cur).StopsInSrc s 0 := by
  induction t generalizing cur with
  | leaf sym => trivial
  | node l r ihl ihr =>
    unfold descend
    split
    · exact ⟨nofun, le_rfl⟩
    · split
      · rename_i hnone
        obtain ⟨hlen, hbyte⟩ := dataBit_eq_none hnone
        exact ⟨mem_refusedReads_of_srcByte hbyte hlen, le_rfl⟩
      · exact ihl _
      · exact ihr _

theorem decodeSymbol_stopsInSrc (total : Nat) (tree : Option Tree) (cur : Nat) :
    (decodeSymbol (srcByte s s.latch.srcBase) s.latch.srcLen.toNat total tree cur).StopsInSrc s 0 := by
  unfold decodeSymbol
  cases tree with
  | none => exact ⟨nofun, le_rfl⟩
  | some t =>
    cases hwin : dataWindow (srcByte s s.latch.srcBase) s.latch.srcLen.toNat cur with
    | none => exact ⟨refusedDataByte_mem hwin, le_rfl⟩
    | some win =>
      cases hf : (lutEntry t win).tree with
      | leaf sym =>
        simp only [hf]
        split
        · exact ⟨nofun, le_rfl⟩
        · trivial
      | node l r =>
        simp only [hf]
        split
        · exact ⟨nofun, le_rfl⟩
        · exact descend_stopsInSrc ..

theorem decompressLoop_stopsInSrc (total : Nat) {whole room : Nat} (cur : Nat) (prev : Byte) {out : List Byte}
    (hout : out.length + room ≤ whole) :
    (decompressLoop (srcByte s s.latch.srcBase) s s.latch.srcLen.toNat total whole room cur prev out).StopsInSrc s whole := by
  induction room generalizing cur prev out with
  | zero =>
    have hsym := decodeSymbol_stopsInSrc (s := s) total (contextTree s prev) cur
    unfold decompressLoop
    split
    · trivial
    · split <;> rename_i he
      · rw [he] at hsym
        exact ⟨hsym.1, hout⟩
      · rw [he] at hsym
        exact ⟨hsym.1, hout⟩
      · exact ⟨nofun, hout⟩
  | succ room ih =>
    have hsym := decodeSymbol_stopsInSrc (s := s) total (contextTree s prev) cur
    unfold decompressLoop
    split
    · trivial
    · split <;> rename_i he
      · rw [he] at hsym
        exact ⟨hsym.1, by omega⟩
      · rw [he] at hsym
        exact ⟨hsym.1, by omega⟩
      · exact ih _ _ (by rw [List.length_cons]; omega)

/-- A stream that stopped ends its command in a streaming error. -/
theorem busErrorRefused_of_stops (hsrc : regionFits s.latch.srcBase s.latch.srcLen = true)
    (hdst : regionFits s.latch.dstBase s.latch.dstCap = true) {α : Type} {x : Stream α}
    (h : x.StopsInSrc s s.latch.dstCap.toNat) :
    (∀ off written, x = .bus off written →
      BusErrorRefused s (failOutput .busError (regionAddr s.latch.srcBase off) written s))
    ∧ ∀ code info written, x = .error code info written →
      BusErrorRefused s (failOutput code (BitVec.ofNat 32 info) written s) := by
  refine ⟨fun off written he => ?_, fun code info written he => ?_⟩ <;> rw [he] at h
  · exact busErrorRefused_failOutput hdst h.2 fun _ => .of_latchedRead hsrc h.1
  · exact busErrorRefused_failOutput hdst h.2 fun hc => absurd hc h.1

end Sys2Proof.Machine
end

section
/-! SUPPORT. Command by command, that BUS_ERROR carries a refused address of a region in use (60_exceptions.md R409). -/

namespace Sys2Proof.Machine

variable {s : State}

/-! ## Checks that raise no BUS_ERROR -/

theorem codecCheck_ne_busError {e : ErrCode} (he : codecCheck s = some e) : e ≠ .busError := by
  simp only [codecCheck] at he
  split_ifs at he <;> cases he <;> decide

theorem headerCheck_ne_busError {h : Byte} {n : Nat} {type : BitVec 1} {e : ErrCode} (he : headerCheck h n type = .error e) :
    e ≠ .busError := by
  simp only [headerCheck] at he
  split_ifs at he <;> cases he <;> decide

theorem regionFits_src_of_codecCheck (h : codecCheck s = none) : regionFits s.latch.srcBase s.latch.srcLen = true := by
  by_contra hf
  simp [codecCheck, mode_of_codecCheck h, eq_false_of_ne_true hf] at h

theorem queriedTree_ne_busError {prev : Byte} {e : ErrCode} (he : queriedTree s prev = .error e) : e ≠ .busError := by
  rcases queriedTree_cases s prev with ⟨-, hq⟩ | ⟨-, -, hq⟩ | ⟨t, -, -, hq⟩ <;> rw [hq] at he <;> cases he <;> decide

/-- Where SERIALIZE passes its checks of the table, there is a file. -/
theorem exists_tableBits {kind : TableKind} {slots : List (Nat × Tree)} (hkind : kind ≠ .none)
    (hempty : kind = .plain → slotTree slots 0 ≠ none) : ∃ bits, tableBits kind slots = some bits := by
  cases kind with
  | none => exact absurd rfl hkind
  | markov => exact ⟨_, rfl⟩
  | plain =>
    obtain ⟨t, ht⟩ := Option.ne_none_iff_exists'.1 (hempty rfl)
    exact ⟨false :: treeBits t, by simp [tableBits, ht]⟩

/-! ## Reads of a session -/

/-- A read command ends in the error of a check, or reads; where it has no value to deliver, the byte it names is refused. -/
theorem exec_read_cases {i : Instr} (hi : readsSession i = true) :
    (∃ code info, code ≠ .busError ∧ exec i s = fail code info s)
      ∨ (s.bb.mode = .read ∧ ∃ value n off, exec i s = takeRead value n off s
          ∧ (value = none → regionAddr s.bb.srcBase off ∈ refusedReads s s.bb.srcBase s.bb.srcLen)) := by
  by_cases hm : s.bb.mode = .read
  swap
  · exact .inl ⟨.bbMode, 0#32, nofun, exec_read_of_mode hi hm⟩
  have hbit (he : ¬ atEnd s = true) (hnone : (sessionBit s (bbPos s.bb)).map bitWord = none) :
      regionAddr s.bb.srcBase (bbPos s.bb / 8) ∈ refusedReads s s.bb.srcBase s.bb.srcLen := by
    have hpos : bbPos s.bb < 8 * s.bb.srcLen.toNat := by simpa [atEnd] using he
    exact mem_refusedReads.2 ⟨sessionBit_eq_none.1 (Option.map_eq_none_iff.1 hnone), _, by omega, rfl⟩
  cases i with
  | bbPeekBit | bbPopBit =>
    by_cases he : atEnd s = true
    · exact .inl ⟨.bbEof, s.bb.bytePos, nofun, by simp [exec, execBbPeekBit, execBbPopBit, hm, he]⟩
    · exact .inr ⟨hm, _, _, _, by simp [exec, execBbPeekBit, execBbPopBit, hm, he]; rfl, hbit he⟩
  | bbTryPopBit =>
    by_cases he : atEnd s = true
    · exact .inr ⟨hm, some 0x00000100#32, 0, 0, by simp [exec, execBbTryPopBit, hm, he], nofun⟩
    · exact .inr ⟨hm, _, _, _, by simp [exec, execBbTryPopBit, hm, he]; rfl, hbit he⟩
  | bbPopByte =>
    by_cases he : 8 * s.bb.srcLen.toNat < bbPos s.bb + 8
    · exact .inl ⟨.bbEof, s.bb.bytePos, nofun, exec_popByte_pastEnd hm he⟩
    · refine .inr ⟨hm, _, _, _, by simp [exec, execBbPopByte, hm, he]; rfl, fun hnone => ?_⟩
      exact poppedByte_none (Option.map_eq_none_iff.1 hnone) (by simpa [bbPos] using he)
  | bbPopRest part k =>
    by_cases hk : 8 ≤ k.toNat
    · exact .inl ⟨.badIndex, _, nofun, exec_popRest_badIndex hm hk⟩
    · refine .inr ⟨hm, _, _, _, by simp [exec, execBbPopRest, hm, hk]; rfl, fun hnone => ?_⟩
      obtain ⟨j, hj, hj', hbit⟩ := readBits_none (Option.map_eq_none_iff.1 hnone)
      have hn : restCount s k.toNat ≤ 8 ∧ restCount s k.toNat ≤ 8 * s.bb.srcLen.toNat - bbPos s.bb := by
        unfold restCount; omega
      exact refusedOffset_mem (j := j / 8) (by omega) (by omega) (sessionBit_eq_none.1 hbit)
  | _ => cases hi

/-! ## The commands -/

section
variable (hc : s.errCode ≠ .busError)
include hc

theorem busErrorRefused_finishOutput (hf : regionFits s.latch.dstBase s.latch.dstCap = true) {cells : List Host.Cell}
    {outLen result : Word} (h : ∀ c ∈ cells, ∃ k < s.latch.dstCap.toNat, c.1 = (regionAddr s.latch.dstBase k).toNat) :
    BusErrorRefused s (finishOutput cells outLen result s) := by
  rcases finishOutput_cases cells outLen result s with ⟨-, he⟩ | ⟨a, ha, he⟩ <;> rw [he]
  · exact busErrorRefused_finish hc
  · exact busErrorRefused_fail fun _ => .of_latchedWrite hf le_rfl (mem_refusedWrites_of_refusedCells h ha)

theorem exec_count_busErrorRefused : BusErrorRefused s (exec .count s) := by
  simp only [exec, execCount]
  split_ifs with hf
  · exact busErrorRefused_fail nofun
  · exact busErrorRefused_refused _
  · have hf : regionFits s.latch.srcBase s.latch.srcLen = true := by simpa using hf
    split
    · rename_i a ha
      exact busErrorRefused_fail fun _ => .of_latchedRead hf (earlyRefusal_mem ha)
    · split
      · rename_i off hoff
        obtain ⟨hlt, hnone⟩ := countLoop_error hoff
        exact busErrorRefused_fail fun _ => .of_latchedRead hf (mem_refusedReads_of_srcByte hnone (by omega))
      · exact busErrorRefused_finish hc

theorem exec_serialize_busErrorRefused : BusErrorRefused s (exec .serialize s) := by
  simp only [exec, execSerialize]
  split_ifs with hm hf hkind hempty
  · exact busErrorRefused_fail nofun
  · exact busErrorRefused_fail nofun
  · exact busErrorRefused_fail nofun
  · exact busErrorRefused_fail nofun
  · exact busErrorRefused_refused _
  · have hf : regionFits s.latch.dstBase s.latch.dstCap = true := by simpa using hf
    obtain ⟨bits, hbits⟩ := exists_tableBits hkind (slots := s.slots) (by simpa using hempty)
    have hemits := emits_serTable s.latch.dstCap.toNat hbits
    split <;> rename_i he <;> rw [he] at hemits
    · exact busErrorRefused_failOutput hf hemits.2 nofun
    · refine busErrorRefused_finishOutput hc hf fun c hcell => ?_
      obtain ⟨k, hk, hck⟩ := mem_cellsFrom hcell
      have := hemits.1.length_flush_le
      exact ⟨k, by omega, hck⟩

theorem exec_deserialize_busErrorRefused : BusErrorRefused s (exec .deserialize s) := by
  simp only [exec, execDeserialize]
  split_ifs with hm hf
  · exact busErrorRefused_fail nofun
  · exact busErrorRefused_fail nofun
  · exact busErrorRefused_refused _
  · have hf : regionFits s.latch.srcBase s.latch.srcLen = true := by simpa using hf
    have hstop := readTable_stopsInSrc (s := s)
    split
    · rename_i a ha
      exact busErrorRefused_fail fun _ => .of_latchedRead hf (earlyRefusal_mem ha)
    · split <;> rename_i he
      · rw [he] at hstop
        exact busErrorRefused_fail fun _ => .of_latchedRead hf hstop.1
      · rw [he] at hstop
        exact busErrorRefused_fail fun h => absurd h hstop.1
      · exact busErrorRefused_finish hc

theorem exec_compress_busErrorRefused : BusErrorRefused s (exec .compress s) := by
  simp only [exec, execCompress]
  split
  · rename_i e he
    exact busErrorRefused_fail fun h => absurd h (codecCheck_ne_busError he)
  · rename_i hcheck
    have hsrc := regionFits_src_of_codecCheck hcheck
    have hdst := regionFits_of_codecCheck hcheck
    split_ifs with hcap
    · exact busErrorRefused_fail nofun
    · exact busErrorRefused_refused _
    · have hcap : 0 < s.latch.dstCap.toNat := by bv_omega
      have hstop := compressLoop_stopsInSrc (s := s) (i := 0) (n := s.latch.srcLen.toNat) s.latch.dstCap.toNat
        Config.spaceSeed (.of_start (s.latch.dstCap.toNat - 1)) (by omega)
      rw [Nat.add_sub_cancel' hcap] at hstop
      split
      · rename_i a ha
        exact busErrorRefused_fail fun _ => .of_latchedRead hsrc (earlyRefusal_mem ha)
      · split <;> rename_i he
        · exact (busErrorRefused_of_stops hsrc hdst hstop).1 _ _ he
        · exact (busErrorRefused_of_stops hsrc hdst hstop).2 _ _ _ he
        · exact busErrorRefused_finishOutput hc hdst fun c hcell =>
            mem_compressCells hcap (compressLoop_within (.of_start _) he) hcell

theorem exec_decompress_busErrorRefused : BusErrorRefused s (exec .decompress s) := by
  simp only [exec, execDecompress]
  split
  · rename_i e he
    exact busErrorRefused_fail fun h => absurd h (codecCheck_ne_busError he)
  · rename_i hcheck
    have hsrc := regionFits_src_of_codecCheck hcheck
    have hdst := regionFits_of_codecCheck hcheck
    split_ifs with hlen
    · exact busErrorRefused_fail nofun
    · exact busErrorRefused_refused _
    · split
      · rename_i a ha
        exact busErrorRefused_fail fun _ => .of_latchedRead hsrc (earlyRefusal_mem ha)
      · split
        · rename_i hnone
          exact busErrorRefused_fail fun _ => .of_latchedRead hsrc (mem_refusedReads_of_srcByte hnone (by omega))
        · split
          · rename_i e he
            exact busErrorRefused_fail fun h => absurd h (headerCheck_ne_busError he)
          · rename_i total _
            have hstop := decompressLoop_stopsInSrc (s := s) total 0 Config.spaceSeed (out := [])
              (Nat.zero_add s.latch.dstCap.toNat).le
            split <;> rename_i he
            · exact (busErrorRefused_of_stops hsrc hdst hstop).1 _ _ he
            · exact (busErrorRefused_of_stops hsrc hdst hstop).2 _ _ _ he
            · refine busErrorRefused_finishOutput hc hdst fun c hcell => ?_
              obtain ⟨k, hk, hck⟩ := mem_cellsFrom hcell
              have := decompressLoop_length_le he
              simp only [List.length_nil] at this
              exact ⟨k, by omega, hck⟩

theorem exec_query_busErrorRefused (prev x : Byte) :
    BusErrorRefused s (exec (.getEncoding prev x) s) ∧ BusErrorRefused s (exec (.lookup prev x) s) := by
  simp only [exec, execGetEncoding, execLookup]
  cases hq : queriedTree s prev with
  | error e =>
    have he := queriedTree_ne_busError hq
    exact ⟨busErrorRefused_fail fun h => absurd h he, busErrorRefused_fail fun h => absurd h he⟩
  | ok t =>
    refine ⟨?_, busErrorRefused_finish hc⟩
    simp only
    split
    · exact busErrorRefused_fail nofun
    · exact busErrorRefused_finish hc

theorem exec_open_busErrorRefused : BusErrorRefused s (exec .bbOpenWrite s) ∧ BusErrorRefused s (exec .bbOpenRead s) := by
  refine ⟨?_, ?_⟩ <;> simp only [exec, execBbOpenWrite, execBbOpenRead] <;> split_ifs with hm hf
  · exact busErrorRefused_fail nofun
  · exact busErrorRefused_fail nofun
  · exact busErrorRefused_refused _
  · exact busErrorRefused_finish hc
  · exact busErrorRefused_fail nofun
  · exact busErrorRefused_fail nofun
  · exact busErrorRefused_refused _
  · split
    · rename_i a ha
      exact busErrorRefused_fail fun _ => .of_latchedRead (by simpa using hf) (earlyRefusal_mem ha)
    · exact busErrorRefused_finish hc

variable (hs : SessionOk s.bb)
include hs

theorem takeFlush_busErrorRefused (hm : s.bb.mode = .write) (mode : BbMode) : BusErrorRefused s (takeFlush mode s) := by
  rcases takeFlush_cases mode s with ⟨a, ha, he⟩ | ⟨-, he⟩ <;> rw [he]
  · exact busErrorRefused_fail fun _ => .of_pendingCells (advances_flush hs hm) ha
  · exact busErrorRefused_finish hc

theorem exec_flush_busErrorRefused : BusErrorRefused s (exec .bbFlush s) := by
  simp only [exec, execBbFlush]
  split_ifs with hm
  · exact busErrorRefused_fail nofun
  · exact takeFlush_busErrorRefused hc hs (not_not.1 hm) .write

theorem exec_close_busErrorRefused : BusErrorRefused s (exec .bbClose s) := by
  simp only [exec, execBbClose]
  cases hm : s.bb.mode with
  | closed => exact busErrorRefused_fail nofun
  | read => exact busErrorRefused_finish hc
  | write => exact takeFlush_busErrorRefused hc hs hm .closed

theorem exec_push_busErrorRefused {i : Instr} (hi : pushesBits i = true) : BusErrorRefused s (exec i s) := by
  rw [exec_push hi]
  rcases pushCommand_cases (appendedBits s i).length (streamAfter s i) (appendedBits s i) s with
    ⟨-, he⟩ | ⟨-, -, he⟩ | ⟨hm, hf, he⟩ <;> rw [he]
  · exact busErrorRefused_fail nofun
  · exact busErrorRefused_fail nofun
  · rcases takePush_cases (streamAfter s i) (appendedBits s i) s with ⟨a, ha, he⟩ | ⟨-, he⟩ <;> rw [he]
    · exact busErrorRefused_fail fun _ => .of_pendingCells (advances_of_pushFits hs hm hf) ha
    · exact busErrorRefused_finish hc

theorem exec_read_busErrorRefused {i : Instr} (hi : readsSession i = true) : BusErrorRefused s (exec i s) := by
  rcases exec_read_cases (s := s) hi with ⟨code, info, hne, he⟩ | ⟨hm, value, n, off, he, hnone⟩ <;> rw [he]
  · exact busErrorRefused_fail fun h => absurd h hne
  · rcases takeRead_cases value n off s with ⟨a, ha, he⟩ | ⟨hv, he⟩ | ⟨v, -, he⟩ <;> rw [he]
    · exact busErrorRefused_fail fun _ => .of_sessionRead hm hs ha
    · exact busErrorRefused_fail fun _ => .of_sessionRead hm hs (hnone hv)
    · exact busErrorRefused_finish hc

/-- No command raises BUS_ERROR for an address outside the regions in use, or for one the platform does not refuse. -/
theorem exec_busErrorRefused (i : Instr) : BusErrorRefused s (exec i s) := by
  cases i with
  | nop | clearCounts | buildP | buildM | clearTable => exact busErrorRefused_finish hc
  | softReset => exact busErrorRefused_finish (t := softResetState s) nofun
  | count => exact exec_count_busErrorRefused hc
  | serialize => exact exec_serialize_busErrorRefused hc
  | deserialize => exact exec_deserialize_busErrorRefused hc
  | compress => exact exec_compress_busErrorRefused hc
  | decompress => exact exec_decompress_busErrorRefused hc
  | getEncoding prev sym => exact (exec_query_busErrorRefused hc prev sym).1
  | lookup prev byte => exact (exec_query_busErrorRefused hc prev byte).2
  | bbOpenWrite => exact (exec_open_busErrorRefused hc).1
  | bbOpenRead => exact (exec_open_busErrorRefused hc).2
  | bbClose => exact exec_close_busErrorRefused hc hs
  | bbFlush => exact exec_flush_busErrorRefused hc hs
  | bbPushBit | bbPushByte | bbPushDesc => exact exec_push_busErrorRefused hc hs rfl
  | bbPeekBit | bbPopBit | bbTryPopBit | bbPopByte | bbPopRest => exact exec_read_busErrorRefused hc hs rfl

end

end Sys2Proof.Machine
end

section
/-! SUPPORT. The refused accesses that force BUS_ERROR (60_exceptions.md R409), with what it leaves unspecified and what it keeps;
and the statement about both. -/

namespace Sys2Proof.Machine

variable {s : State}

/-! ## What BUS_ERROR leaves -/

theorem failsBus_fail {t : State} {a : Word} (ha : refusesRead s a = true ∨ refusesWrite s a = true)
    (h : KeepsEnv s.env t.env) : FailsBus (fail .busError a t) s t :=
  ⟨a, ha, failsTo_fail .busError a h⟩

theorem refusesRead_of_mem {base len a : Word} (h : a ∈ refusedReads s base len) : refusesRead s a = true :=
  (mem_refusedReads.1 h).1

/-- BUS_ERROR of a command with a DST region: OUT_LEN, RESULT and the bytes of the region are lost. -/
def LosesOutput (o : Out) (s : State) : Prop :=
  ∃ (m : Memory) (outLen result : Word),
    FailsBus o s { s with memory := m, outLen := outLen, result := result }
      ∧ SameOutside s m s.latch.dstBase s.latch.dstCap.toNat

theorem losesOutput_fail {a : Word} (ha : refusesRead s a = true ∨ refusesWrite s a = true) :
    LosesOutput (fail .busError a (unspecifiedOutput s)) s :=
  ⟨_, _, _, failsBus_fail (t := unspecifiedOutput s) ha (keepsEnv_refl s.env), sameOutside_scrambleRegion⟩

theorem losesOutput_failOutput {a : Word} (ha : refusesRead s a = true) (written : Nat) :
    LosesOutput (failOutput .busError a written s) s := by
  rcases failOutput_cases .busError a written s with he | ⟨b, hb, he⟩ <;> rw [he]
  · exact losesOutput_fail (.inl ha)
  · exact losesOutput_fail (.inr (mem_refusedWrites.1 hb).1)

theorem mem_refusedCells_of_cellAt {base : Word} {k : Nat} {v : Byte} {cells : List Host.Cell}
    (hc : cellAt base k v ∈ cells) (h : refusesWrite s (regionAddr base k) = true) :
    regionAddr base k ∈ refusedCells s cells :=
  mem_refusedCells.2 ⟨h, _, hc, by simp [cellAt]⟩

/-- An output with a refused byte. -/
theorem losesOutput_finishOutput {cells : List Host.Cell} {a : Word} (ha : a ∈ refusedCells s cells) (outLen result : Word) :
    LosesOutput (finishOutput cells outLen result s) s := by
  rcases finishOutput_cases cells outLen result s with ⟨hnil, -⟩ | ⟨b, hb, he⟩
  · rw [hnil] at ha
    cases ha
  · exact he ▸ losesOutput_fail (.inr (mem_refusedCells.1 hb).1)

/-- BUS_ERROR of a read command: the session, OUT_LEN and RESULT are lost. -/
def LosesRead (o : Out) (s : State) : Prop :=
  ∃ (b : BitBuffer) (outLen result : Word), FailsBus o s { s with bb := b, outLen := outLen, result := result }

theorem losesRead_failSessionBus {a : Word} (ha : refusesRead s a = true) : LosesRead (failSessionBus a s) s :=
  ⟨_, _, _, failsBus_fail (t := sessionLost s) (.inl ha) (keepsEnv_refl s.env)⟩

/-- A read with no value, and the byte that it names refused. -/
theorem losesRead_takeRead {off : Nat} (h : refusesRead s (regionAddr s.bb.srcBase off) = true) (n : Nat) :
    LosesRead (takeRead none n off s) s := by
  rcases takeRead_cases none n off s with ⟨a, ha, he⟩ | ⟨-, he⟩ | ⟨v, hv, -⟩
  · exact he ▸ losesRead_failSessionBus (refusesRead_of_mem ha)
  · exact he ▸ losesRead_failSessionBus h
  · cases hv

/-! ## COUNT -/

/-- A COUNT that goes through has read every byte. -/
theorem countLoop_ok_reads {rd : Nat → Nat → Option Byte} {n i j : Nat} {prev : Byte} {c c' : CountMatrix}
    (h : countLoop rd n i prev c = .ok c') (hi : i ≤ j) (hj : j < i + n) : rd j j ≠ none := by
  induction n generalizing i prev c with
  | zero => omega
  | succ n ih =>
    unfold countLoop at h
    split at h
    · cases h
    · rename_i v hv
      rcases Nat.eq_or_lt_of_le hi with rfl | hlt
      · simp [hv]
      · exact ih h hlt (by omega)

theorem exec_count_refused (hf : regionFits s.latch.srcBase s.latch.srcLen = true)
    (hd : touchesDevice s s.latch.srcBase s.latch.srcLen = false) {off : Nat} (hoff : off < s.latch.srcLen.toNat)
    (h : refusesRead s (regionAddr s.latch.srcBase off) = true) :
    ∃ a, refusesRead s a = true ∧ exec .count s = failCountBus a s := by
  simp only [exec, execCount, hf, hd, Bool.not_true, Bool.false_eq_true, if_false]
  split
  · rename_i a ha
    exact ⟨a, refusesRead_of_mem (earlyRefusal_mem ha), rfl⟩
  · split
    · rename_i bad hbad
      exact ⟨_, srcByte_eq_none.1 (countLoop_error hbad).2, rfl⟩
    · rename_i c hc
      exact absurd (srcByte_eq_none.2 h) (countLoop_ok_reads hc (Nat.zero_le _) (by omega))

/-! ## The write session -/

theorem takeFlush_refused (hs : SessionOk s.bb) (hm : s.bb.mode = .write) {k : Nat} (hd : drainedCount s.bb ≤ k)
    (hk : k < bytesFor (bbPos s.bb)) (h : refusesWrite s (regionAddr s.bb.dstBase k) = true) (mode : BbMode) :
    ∃ a, refusesWrite s a = true ∧ takeFlush mode s = failWriteBus a s := by
  have hadv := advances_flush hs hm
  have hn : bytesFor (bbPos s.bb) = bytePosAfter s .bbFlush := by
    rw [← hadv.bbPos_add_div, ← bbPos_add_padding, Nat.mul_div_cancel_left _ (by decide)]
  have hcell : cellAt s.bb.dstBase k (window (wsAfter s .bbFlush) (8 * k)) ∈ pendingCells s .bbFlush := by
    rw [hadv.pendingCells_eq]
    exact List.mem_map.2 ⟨k, List.mem_range'_1.2 (by omega), rfl⟩
  rcases takeFlush_cases mode s with ⟨a, ha, he⟩ | ⟨hnil, -⟩
  · exact ⟨a, (mem_refusedCells.1 ha).1, he⟩
  · rw [show flushCells s = pendingCells s .bbFlush from rfl] at hnil
    have hmem := mem_refusedCells_of_cellAt hcell h
    rw [hnil] at hmem
    cases hmem

/-! ## The read session -/

theorem bbPos_div_eq_bytePos (b : BitBuffer) : bbPos b / 8 = b.bytePos.toNat := by
  have := b.bitIdx.isLt
  unfold bbPos
  omega

section
variable (hm : s.bb.mode = .read) (hpos : bbPos s.bb < 8 * s.bb.srcLen.toNat)
  (h : refusesRead s (regionAddr s.bb.srcBase s.bb.bytePos.toNat) = true)
include h

theorem sessionByte_bytePos (t : Nat) : sessionByte s t s.bb.bytePos.toNat = none := sessionByte_eq_none.2 h

theorem sessionBit_bbPos : sessionBit s (bbPos s.bb) = none :=
  sessionBit_eq_none.2 (bbPos_div_eq_bytePos s.bb ▸ h)

theorem refusedOffset_bytePos : refusedOffset s s.bb.bytePos.toNat = s.bb.bytePos.toNat := by
  simp [refusedOffset, sessionByte_bytePos h]

include hm

theorem exec_popByte_refused (hlen : bbPos s.bb + 8 ≤ 8 * s.bb.srcLen.toNat) : LosesRead (exec .bbPopByte s) s := by
  have hbyte : poppedByte s s.bb.bytePos.toNat s.bb.bitIdx.toNat = none := by
    simp [poppedByte, sessionByte_bytePos h]
  simp only [exec, execBbPopByte, hm, hbyte, refusedOffset_bytePos h, Nat.not_lt.2 hlen, ne_eq, not_true_eq_false, if_false,
    Option.map_none]
  exact losesRead_takeRead h 8

include hpos

theorem exec_bitRead_refused : LosesRead (exec .bbPeekBit s) s ∧ LosesRead (exec .bbPopBit s) s
    ∧ LosesRead (exec .bbTryPopBit s) s := by
  have hend : atEnd s = false := decide_eq_false (Nat.not_le.2 hpos)
  simp only [exec, execBbPeekBit, execBbPopBit, execBbTryPopBit, hm, hend, sessionBit_bbPos h, ne_eq, not_true_eq_false,
    Bool.false_eq_true, if_false, Option.map_none]
  rw [bbPos_div_eq_bytePos]
  exact ⟨losesRead_takeRead h 0, losesRead_takeRead h 1, losesRead_takeRead h 1⟩

theorem exec_popRest_refused (part : Byte) {k : BitVec 4} (hk : k.toNat < 8) :
    LosesRead (exec (.bbPopRest part k) s) s := by
  obtain ⟨n, hn⟩ : ∃ n, restCount s k.toNat = n + 1 := Nat.exists_eq_add_one.2 (by unfold restCount; omega)
  have hbits : readBits (sessionBit s) (bbPos s.bb) (restCount s k.toNat) = none := by
    simp [hn, readBits, sessionBit_bbPos h]
  simp only [exec, execBbPopRest, hm, hbits, Nat.not_le.2 hk, ne_eq, not_true_eq_false, if_false, Option.map_none]
  rw [bbPos_div_eq_bytePos, refusedOffset_bytePos h]
  exact losesRead_takeRead h _

end

/-! ## The first SRC byte of DESERIALIZE, COMPRESS and DECOMPRESS -/

section
variable (hlen : s.latch.srcLen ≠ 0#32) (h : refusesRead s s.latch.srcBase = true)
include h

theorem srcByte_zero_refused : srcByte s s.latch.srcBase 0 0 = none := srcByte_eq_none.2 (by simpa using h)

include hlen

theorem exec_deserialize_refused (hm : s.bb.mode = .closed) (hf : regionFits s.latch.srcBase s.latch.srcLen = true)
    (hd : touchesDevice s s.latch.srcBase s.latch.srcLen = false) :
    ∃ a, refusesRead s a = true ∧ exec .deserialize s = fail .busError a (withoutTable s) := by
  have hpos : 0 < s.latch.srcLen.toNat := by bv_omega
  have hbus : readTable (srcByte s s.latch.srcBase) s.latch.srcLen.toNat = .bus 0 0 := by
    simp [readTable, tableBit, hpos, srcByte_zero_refused h, Stream.bind]
  simp only [exec, execDeserialize, hm, hf, hd, hbus, ne_eq, not_true_eq_false, Bool.not_true, Bool.false_eq_true, if_false]
  split
  · rename_i a ha
    exact ⟨a, refusesRead_of_mem (earlyRefusal_mem ha), rfl⟩
  · exact ⟨_, by simpa using h, rfl⟩

theorem exec_decompress_refused (hc : codecCheck s = none) (hd : codecDevice s = false) :
    LosesOutput (exec .decompress s) s := by
  have hpos : s.latch.srcLen.toNat ≠ 0 := by bv_omega
  simp only [exec, execDecompress, hc, hd, hpos, srcByte_zero_refused h, Bool.false_eq_true, if_false]
  split
  · rename_i a ha
    exact losesOutput_fail (.inl (refusesRead_of_mem (earlyRefusal_mem ha)))
  · exact losesOutput_fail (.inl (by simpa using h))

theorem exec_compress_refused (hc : codecCheck s = none) (hd : codecDevice s = false) (hcap : s.latch.dstCap ≠ 0#32) :
    LosesOutput (exec .compress s) s := by
  obtain ⟨n, hn⟩ : ∃ n, s.latch.srcLen.toNat = n + 1 := Nat.exists_eq_add_one.2 (by bv_omega)
  simp only [exec, execCompress, hc, hd, hcap, hn, compressLoop, srcByte_zero_refused h, Bool.false_eq_true, if_false]
  split
  · rename_i a ha
    exact losesOutput_fail (.inl (refusesRead_of_mem (earlyRefusal_mem ha)))
  · exact losesOutput_failOutput (by simpa using h) _

end

/-! ## A byte of the output of SERIALIZE and COMPRESS -/

theorem cellAt_mem_cellsFrom {base : Word} {off j : Nat} {vs : List Byte} (hj : j < vs.length) :
    ∃ v, cellAt base (off + j) v ∈ cellsFrom base off vs := by
  rw [cellsFrom_eq_map]
  exact ⟨_, List.mem_map.2 ⟨j, List.mem_range.2 hj, rfl⟩⟩

/-- The file of COMPRESS has a byte at each of its offsets. -/
theorem cellAt_mem_compressCells {w : Writer} {k : Nat} (hk : k < 1 + (flush w).out.length) :
    ∃ v, cellAt s.latch.dstBase k v ∈ compressCells s w := by
  rcases Nat.eq_zero_or_pos k with rfl | hpos
  · exact ⟨placeholder, List.mem_append_left _ (List.mem_cons_self ..)⟩
  · obtain ⟨j, rfl⟩ := Nat.exists_eq_add_of_le hpos
    obtain ⟨v, hv⟩ := cellAt_mem_cellsFrom (base := s.latch.dstBase) (off := 1) (vs := (flush w).out) (j := j) (by omega)
    exact ⟨v, List.mem_append_left _ (List.mem_cons_of_mem _ hv)⟩

theorem exec_serialize_refused {bits : List Bool} (hm : s.bb.mode = .closed)
    (hf : regionFits s.latch.dstBase s.latch.dstCap = true) (hd : touchesDevice s s.latch.dstBase s.latch.dstCap = false)
    (hb : tableBits s.kind s.slots = some bits) (hfit : bytesFor bits.length ≤ s.latch.dstCap.toNat) {k : Nat}
    (hk : k < bytesFor bits.length) (h : refusesWrite s (regionAddr s.latch.dstBase k) = true) :
    LosesOutput (exec .serialize s) s := by
  obtain ⟨hkind, htree⟩ := table_of_tableBits hb
  have hemits := emits_serTable s.latch.dstCap.toNat hb
  cases hw : serTable s.latch.dstCap.toNat s.kind s.slots <;> rw [hw] at hemits
  case error n =>
    obtain ⟨hlong, -⟩ := hemits
    rw [writerPos_start, Nat.zero_add] at hlong
    exact absurd (bytesFor_le_iff.1 hfit) (Nat.not_le.2 hlong)
  case ok w =>
    obtain ⟨hwithin, hbits⟩ := hemits
    have hout : (flush w).out.length = bytesFor bits.length := by
      rw [length_flush_out hwithin.ok, writerPos_of_appends (by decide) hwithin.ok hbits, writerPos_start, Nat.zero_add]
    obtain ⟨v, hv⟩ := cellAt_mem_cellsFrom (base := s.latch.dstBase) (off := 0) (vs := (flush w).out) (hout ▸ hk)
    rw [Nat.zero_add] at hv
    have hexec : exec .serialize s
        = finishOutput (cellsFrom s.latch.dstBase 0 (flush w).out) (BitVec.ofNat 32 (flush w).out.length)
            (resultWord s (writerPos w)) s := by
      simp [exec, execSerialize, hm, hf, hkind, htree, hd, hw]
    exact hexec ▸ losesOutput_finishOutput (mem_refusedCells_of_cellAt hv h) _ _

theorem exec_compress_refusedWrite {bits : List Bool} (hc : codecCheck s = none) (hd : codecDevice s = false)
    (hq : QuietSrc s s.latch.srcBase s.latch.srcLen) (hb : codeBits s.kind s.slots 0x20#8 (sourceBytes s) = some bits)
    (hfit : 1 + bytesFor bits.length ≤ s.latch.dstCap.toNat) {k : Nat} (hk : k < 1 + bytesFor bits.length)
    (h : refusesWrite s (regionAddr s.latch.dstBase k) = true) : LosesOutput (exec .compress s) s := by
  obtain ⟨w, hw, hwithin, hbits⟩ := compressStream_of_fits hq hb (by omega)
  have hout : (flush w).out.length = bytesFor bits.length := by
    rw [length_flush_out hwithin.ok, ← length_writerBits hwithin.ok, hbits]
  obtain ⟨v, hv⟩ := cellAt_mem_compressCells (s := s) (hout ▸ hk)
  obtain ⟨hf, hp, -⟩ := hq
  have hcap : s.latch.dstCap ≠ 0#32 := fun h0 => by simp [h0] at hfit
  rw [compressStream] at hw
  have hexec : exec .compress s
      = finishOutput (compressCells s w) (BitVec.ofNat 32 (1 + (flush w).out.length)) (resultWord s (writerPos w)) s := by
    simp [exec, execCompress, hc, hd, hcap, refusedReads_nil hf hp, hw]
  exact hexec ▸ losesOutput_finishOutput (mem_refusedCells_of_cellAt hv h) _ _

/-- The checks of COMPRESS and DECOMPRESS, passed with regions that may hold refused bytes. -/
theorem codecCheck_eq_none (hm : s.bb.mode = .closed) (hsrc : regionFits s.latch.srcBase s.latch.srcLen = true)
    (hdst : regionFits s.latch.dstBase s.latch.dstCap = true) (ho : regionsOverlap s.latch = false) (hk : s.kind ≠ .none) :
    codecCheck s = none := by
  simp [codecCheck, hm, hsrc, hdst, ho, hk]

/-- Settles O56: every BUS_ERROR carries a refused address of a region in use; and each of the accesses named, where it is
refused, ends its command in BUS_ERROR. -/
theorem refusedAccessRaisesBusError : Obligations.RefusedAccessRaisesBusError := by
  refine ⟨fun i s t hs hc h he => exec_busErrorRefused hc hs i t h he, fun s => ⟨?_, ?_, ?_, ?_, ?_, ?_, ?_⟩⟩
  · rintro ⟨hf, hd⟩ ⟨off, hoff, hr⟩
    obtain ⟨a, ha, he⟩ := exec_count_refused hf hd hoff hr
    exact he ▸ ⟨_, _, _, failsBus_fail (.inl ha) (keepsEnv_refl s.env)⟩
  · rintro hm hs ⟨k, hd, hk, hr⟩
    have hflush (mode : BbMode) {o : Out} (ho : o = takeFlush mode s) :
        ∃ (b : BitBuffer) (m : Memory) (outLen result : Word),
          FailsBus o s { s with bb := b, memory := m, outLen := outLen, result := result }
            ∧ SameOutside s m s.bb.dstBase s.bb.dstCap.toNat := by
      obtain ⟨a, ha, he⟩ := takeFlush_refused hs hm hd hk hr mode
      rw [ho, he]
      exact ⟨_, _, _, _, failsBus_fail (t := writeSessionLost s) (.inr ha) (keepsEnv_refl s.env), sameOutside_scrambleRegion⟩
    simp only [List.forall_mem_cons, List.not_mem_nil, false_imp_iff, implies_true, and_true]
    exact ⟨hflush .write (by simp [exec, execBbFlush, hm]), hflush .closed (by simp [exec, execBbClose, hm])⟩
  · intro hm hpos hr
    obtain ⟨hpeek, hpop, htry⟩ := exec_bitRead_refused hm hpos hr
    exact ⟨hpeek, hpop, htry, exec_popByte_refused hm hr, fun part k hk => exec_popRest_refused hm hpos hr part hk⟩
  · rintro hm ⟨hf, hd⟩ ⟨hlen, hr⟩
    obtain ⟨a, ha, he⟩ := exec_deserialize_refused hlen hr hm hf hd
    exact he ▸ ⟨_, _, failsBus_fail (t := withoutTable s) (.inl ha) (keepsEnv_refl s.env)⟩
  · rintro hm ⟨hsrc, hsd⟩ ⟨hdst, hdd⟩ ho hk ⟨hlen, hr⟩
    have hc := codecCheck_eq_none hm hsrc hdst ho hk
    have hd : codecDevice s = false := by simp [codecDevice, hsd, hdd]
    exact ⟨exec_decompress_refused hlen hr hc hd, exec_compress_refused hlen hr hc hd⟩
  · rintro bits hm ⟨hf, hd⟩ hb hfit ⟨k, hk, hr⟩
    exact exec_serialize_refused hm hf hd hb hfit hk hr
  · rintro bits hm hq ⟨hdst, hdd⟩ ho hkind hb hfit ⟨k, hk, hr⟩
    have hd : codecDevice s = false := by simp [codecDevice, plainRegion_touchesDevice hq.2.1, hdd]
    exact exec_compress_refusedWrite (codecCheck_eq_none hm hq.1 hdst ho hkind) hd hq hb hfit hk hr

end Sys2Proof.Machine
end

section
/-! SUPPORT. Hardware reset (70_reset_and_hazards.md R450, R451): the phases of the reset sequence, and the memory that an assertion
leaves. -/

namespace Sys2Proof.Machine

variable {s : State}

/-! ## The phases of the reset sequence -/

/-- While the reset input is asserted a read returns an unspecified value, and the engine is unchanged. -/
theorem readReg_of_inReset (hs : s.seq = .inReset) (r : HostReg) :
    ∃ (v : Word) (c : Nat), readReg r s = { s with env := { s.env with hostData := v, freeCtr := c } } :=
  ⟨_, _, if_pos hs⟩

/-- While the reset input is asserted writes are ignored. -/
theorem writeReg_of_inReset (hs : s.seq = .inReset) (r : HostReg) (v : Word) : writeReg r v s = s := if_pos hs

/-- The release of an asserted reset begins the initialisation. -/
theorem takeEvent_resetOff_of_inReset (hs : s.seq = .inReset) :
    takeEvent .resetOff s = .next { resetState s with seq := .initialising } := congrArg _ (if_pos hs)

theorem engineTurn_of_inReset (hs : s.seq = .inReset) : engineTurn s = .next s := by
  simp [engineTurn, hs]

theorem engineTurn_of_initialising (hs : s.seq = .initialising) : engineTurn s = .next (finishInitialisation s) := by
  simp [engineTurn, hs]

/-- BUSY is bit 0 of STATUS (R38). -/
theorem getLsbD_statusWord_zero (s : State) : (statusWord s).getLsbD 0 = s.busy := getLsbD_statusWord s 0

/-- Settles O19: each phase answers its event by the lemma about it, and the states entered are those of the reset. -/
theorem resetSequence : Obligations.ResetSequence := by
  refine ⟨fun s => ⟨assertReset s, rfl, rfl⟩, fun t ht => ⟨?_, engineTurn_of_inReset ht, fun j v => ?_, ?_⟩, fun u hu => ?_⟩
  · simp [irq, ht]
  · have hoff : 4 * j.val < 256 ∧ 4 * j.val % 4 = 0 := by omega
    obtain ⟨x, c, hread⟩ := readReg_of_inReset ht (hostRegAt (4 * j.val))
    refine ⟨?_, x, c, ?_⟩
    · rw [hostWrite_eq hoff.1 hoff.2, writeReg_of_inReset ht]
    · rw [hostRead_eq hoff.1 hoff.2, hread]
  · exact ⟨_, takeEvent_resetOff_of_inReset ht, rfl, getLsbD_statusWord_zero _, fun _ _ => rfl, rfl, fun _ => rfl, rfl,
      rfl, rfl⟩
  · exact ⟨(resetState u).env, ⟨rfl, rfl, rfl⟩, engineTurn_of_initialising hu⟩

/-! ## The memory after an assertion -/

/-- Making a region that does not wrap unspecified leaves the bytes outside it. -/
theorem get_scrambleRegion_of_notInRegion {base len a : Word} (hf : regionFits base len = true)
    (ha : inRegion base len a.toNat = false) :
    Sparse.get a.toNat (scrambleRegion s base len) = readByte s a := by
  refine sameOutside_scrambleRegion a fun k hk he => ?_
  rw [he, inRegion_regionAddr hf hk] at ha
  cases ha

/-- The abandoned session changes bytes of its own region only. -/
theorem get_abandonedSessionMemory {a : Word} (hs : SessionOk s.bb)
    (ha : s.bb.mode = .write → inRegion s.bb.dstBase s.bb.dstCap a.toNat = false) :
    Sparse.get a.toNat (abandonedSessionMemory s) = readByte s a := by
  obtain ⟨-, hf, -⟩ := hs
  unfold abandonedSessionMemory
  split_ifs with hm
  · exact get_scrambleRegion_of_notInRegion hf (ha hm)
  · rfl

theorem mem_of_writesDst {i : Instr} (h : writesDst i = true) : i ∈ [.serialize, .compress, .decompress] := by
  cases i <;> simp [writesDst] at h ⊢

/-- Settles O20: what the session's abandonment leaves, the command's leaves too. -/
theorem resetKeepsOtherMemory : Obligations.ResetKeepsOtherMemory := by
  rintro s t a hs ⟨⟩ hrun hsession
  have hm := get_abandonedSessionMemory hs hsession
  change Sparse.get a.toNat (abandonedMemory s) = readByte s a
  unfold abandonedMemory
  split
  · rename_i i hseq hd
    split_ifs with hw
    · obtain ⟨hi, hf⟩ := Bool.and_eq_true_iff.1 hw
      have ha := hrun i hseq hd (mem_of_writesDst hi)
      exact (get_scrambleRegion_of_notInRegion hf ha).trans hm
    · exact hm
  · exact hm

end Sys2Proof.Machine
end
